-- ==== Sys2Proof/Word.lean ====
section
/-! DEFINITION. The plain types of the block's values (00_scope.md R13 to R15). -/

namespace Sys2Proof

/-- One byte of IBUF or OBUF. -/
abbrev Byte := BitVec 8

/-- The value of a host register, 64 bits (10_state.md R41). -/
abbrev Reg := BitVec 64

/-- A bit string in stream order, first bit first (R15). -/
abbrev Bits := List Bool

end Sys2Proof
end

