-- ==== Sys2Proof/Config.lean ====
section
/-! DEFINITION. The fixed parameters of the block (00_scope.md R8, R9), the register offsets (10_state.md R41), the parameters of the reset instance, and the free values (opaque: nothing can be proved of their value). -/

namespace Sys2Proof.Config

/-- LSIZE_MIN (R8). -/
def lsizeMin : Nat := 2

/-- LSIZE_MAX (R8). -/
def lsizeMax : Nat := 16

/-- TREE_NODE_CAP, the number of NODE slots (R9, R61). -/
def treeNodeCap : Nat := 131071

/-- The number of entries of FREQ and of CODE (R60, R64). -/
def letterCap : Nat := 65536

/-- The offset of CMD (R41). -/
def offCmd : Nat := 0x00

/-- The offset of STATUS (R41). -/
def offStatus : Nat := 0x08

/-- The offset of LSIZE (R41). -/
def offLsize : Nat := 0x10

/-- The offset of IN_LEN (R41). -/
def offInLen : Nat := 0x18

/-- The offset of OUT_LEN (R41). -/
def offOutLen : Nat := 0x20

/-- DESIGN CHOICE, unsafe (log 3): IN_CAP of the one machine `State.reset` names; the spec leaves IN_CAP open (R9). -/
def resetInCap : Nat := 65536

/-- DESIGN CHOICE, unsafe (log 3): OUT_CAP of the one machine `State.reset` names; the spec leaves OUT_CAP open (R9). -/
def resetOutCap : Nat := 65536

/-- REG_BASE, where the register block and the buffers sit in a host's address map: open, and no rule uses it (93_implementation_defined.md row 25, log 17). -/
opaque regBase : Nat

/-- Free value (log 6): what a host read of OBUF while BUSY = 1 (70_reset_and_hazards.md R713) or of IBUF (10_state.md R65,
log 20) returns, by the number of the draw. -/
opaque freeByte : Nat → Byte

/-- Free value (log 7): `wr_pos` after a byte is written at address 2^64 - 1, by the number of the draw (10_state.md R56 gives it 64 bits). -/
opaque freePos : Nat → BitVec 64

end Sys2Proof.Config
end

