-- ==== Sys2Proof/Syntax.lean ====
section
/-! DEFINITION. The instructions: one constructor per row of spec/opcode_table.json (30_encoding.md). -/

namespace Sys2Proof

/-- What the block decodes: command words written to CMD (R150 to R152), tree tokens of the compressed stream
(R157, R158), and phase codes, each the name of one step rule (R153). -/
inductive Instr where
  /-- COMPRESS, command word 0x1 (R401). -/
  | compress
  /-- DECOMPRESS, command word 0x2 (R402). -/
  | decompress
  /-- ILLEGAL_COMMAND, every other command word (R152, R403). -/
  | illegalCommand (word : BitVec 64)
  /-- TREE_LEAF, a flag bit 0 and the letter (R157). -/
  | treeLeaf (letter : BitVec 16)
  /-- TREE_JOINT, a flag bit 1 (R158). -/
  | treeJoint
  /-- Phase 0, quiescent (R700). -/
  | phaseIdle
  /-- Phase 1 (R200). -/
  | phaseCSetup
  /-- Phase 2 (R202). -/
  | phaseCCount
  /-- Phase 3 (R230). -/
  | phaseCLeaves
  /-- Phase 4 (R232). -/
  | phaseCMerge
  /-- Phase 5 (R260). -/
  | phaseCCodegen
  /-- Phase 6 (R290). -/
  | phaseCHdr
  /-- Phase 7 (R291). -/
  | phaseCTreeWr
  /-- Phase 8 (R340). -/
  | phaseCEncode
  /-- Phase 9 (R341). -/
  | phaseCRem
  /-- Phase 10 (R342). -/
  | phaseCPad
  /-- Phase 16 (R295). -/
  | phaseDSetup
  /-- Phase 17 (R296). -/
  | phaseDHdr
  /-- Phase 18 (R297). -/
  | phaseDTreeRd
  /-- Phase 19 (R370). -/
  | phaseDDecode
  /-- Phase 20 (R371). -/
  | phaseDRem
  /-- Phase 21 (R372). -/
  | phaseDFlush
  /-- Phase 30, quiescent (R153). -/
  | phaseDone
  /-- Phase 31, quiescent (R601, R610). -/
  | phaseError
  /-- Phase codes 11 to 15 and 22 to 29, reserved (R153). -/
  | phaseReserved (code : BitVec 5)
  deriving DecidableEq, Repr

/-- The named phases of R153, the values `phase <- P` writes. -/
inductive Phase where
  | idle | cSetup | cCount | cLeaves | cMerge | cCodegen | cHdr | cTreeWr | cEncode | cRem | cPad
  | dSetup | dHdr | dTreeRd | dDecode | dRem | dFlush | done | error
  deriving DecidableEq, Repr

end Sys2Proof
end

