-- ==== Sys2Proof/WellFormed.lean ====
section
/-! DEFINITION. The checks on instructions as syntax: which operands an encoding of 30_encoding.md admits. -/

namespace Sys2Proof

/-- The domain of letter_size, 2 to 16 (00_scope.md R4, R8). -/
def letterSizeOk (letterSize : Nat) : Bool :=
  decide (Config.lsizeMin ≤ letterSize) && decide (letterSize ≤ Config.lsizeMax)

/-- The reserved phase codes, 11 to 15 and 22 to 29 (R153). -/
def reservedPhase (code : BitVec 5) : Bool :=
  (decide (11 ≤ code.toNat) && decide (code.toNat ≤ 15)) || (decide (22 ≤ code.toNat) && decide (code.toNat ≤ 29))

/-- An instruction is well formed in a stream of letters of `letterSize` bits: a leaf's letter fits the size and the
size is in its domain (R157, R155), an illegal command's word is neither legal word (R152), a reserved phase's code
is reserved (R153). The size matters to tree tokens alone. -/
def Instr.wellFormed (letterSize : Nat) : Instr → Bool
  | .treeLeaf v => letterSizeOk letterSize && decide (v.toNat < 2 ^ letterSize)
  | .treeJoint => letterSizeOk letterSize
  | .illegalCommand w => decide (w ≠ 1) && decide (w ≠ 2)
  | .phaseReserved c => reservedPhase c
  | .compress | .decompress | .phaseIdle | .phaseCSetup | .phaseCCount | .phaseCLeaves | .phaseCMerge
  | .phaseCCodegen | .phaseCHdr | .phaseCTreeWr | .phaseCEncode | .phaseCRem | .phaseCPad | .phaseDSetup
  | .phaseDHdr | .phaseDTreeRd | .phaseDDecode | .phaseDRem | .phaseDFlush | .phaseDone | .phaseError => true

end Sys2Proof
end

