-- ==== Sys2Proof/Decode.lean ====
section
/-! DEFINITION. Bit strings, the decoder of the three kinds of encoded object (30_encoding.md), and the encoder. -/

namespace Sys2Proof

/-- bin_w(v), the w-bit big-endian string of `v` (00_scope.md R15). -/
def bin : Nat → Nat → Bits
  | 0, _ => []
  | w + 1, v => v.testBit w :: bin w v

/-- val(s), the natural whose big-endian string is `s` (R15). -/
def val (s : Bits) : Nat := s.foldl (fun a b => 2 * a + b.toNat) 0

/-- An encoded object: a command word, a phase code, or the stream bits that begin with a tree token, read with the
letter size in force (30_encoding.md: the three kinds). -/
inductive Encoded where
  | command (word : BitVec 64)
  | phase (code : BitVec 5)
  | token (letterSize : Nat) (bits : Bits)
  deriving DecidableEq, Repr

/-- Why bits are no instruction. -/
inductive Reject where
  /-- The letter size is outside 2 to 16 (R155). -/
  | letterSizeDomain
  /-- There is no flag bit (43_header_codec.md R298). -/
  | noFlag
  /-- Fewer bits than a letter follow a leaf's flag (R298). -/
  | shortLetter
  deriving DecidableEq, Repr

/-- The command word (R151, R152). -/
def decodeCommand (w : BitVec 64) : Instr :=
  if w = 1 then .compress else if w = 2 then .decompress else .illegalCommand w

/-- The phase code (R153). -/
def decodePhase (c : BitVec 5) : Instr :=
  match c.toNat with
  | 0 => .phaseIdle
  | 1 => .phaseCSetup
  | 2 => .phaseCCount
  | 3 => .phaseCLeaves
  | 4 => .phaseCMerge
  | 5 => .phaseCCodegen
  | 6 => .phaseCHdr
  | 7 => .phaseCTreeWr
  | 8 => .phaseCEncode
  | 9 => .phaseCRem
  | 10 => .phaseCPad
  | 16 => .phaseDSetup
  | 17 => .phaseDHdr
  | 18 => .phaseDTreeRd
  | 19 => .phaseDDecode
  | 20 => .phaseDRem
  | 21 => .phaseDFlush
  | 30 => .phaseDone
  | 31 => .phaseError
  | _ => .phaseReserved c

/-- The tree token at the head of a bit string, and the bits after it (R157, R158, R166). -/
def decodeToken (letterSize : Nat) (bits : Bits) : Except Reject (Instr × Bits) :=
  if letterSizeOk letterSize then
    match bits with
    | [] => .error .noFlag
    | true :: rest => .ok (.treeJoint, rest)
    | false :: rest =>
      if rest.length < letterSize then .error .shortLetter
      else .ok (.treeLeaf (BitVec.ofNat 16 (val (rest.take letterSize))), rest.drop letterSize)
  else .error .letterSizeDomain

/-- The decoder: total, each rejection named. The bits after a token are handed back. -/
def decode : Encoded → Except Reject (Instr × Bits)
  | .command w => .ok (decodeCommand w, [])
  | .phase c => .ok (decodePhase c, [])
  | .token letterSize bits => decodeToken letterSize bits

/-- The codes of the phases (R153). -/
def phaseCode : Phase → BitVec 5
  | .idle => 0
  | .cSetup => 1
  | .cCount => 2
  | .cLeaves => 3
  | .cMerge => 4
  | .cCodegen => 5
  | .cHdr => 6
  | .cTreeWr => 7
  | .cEncode => 8
  | .cRem => 9
  | .cPad => 10
  | .dSetup => 16
  | .dHdr => 17
  | .dTreeRd => 18
  | .dDecode => 19
  | .dRem => 20
  | .dFlush => 21
  | .done => 30
  | .error => 31

/-- The bits of a leaf token: the flag 0 and the letter (R157). -/
def leafBits (letterSize letter : Nat) : Bits := false :: bin letterSize letter

/-- The bits of a joint token: the flag 1 (R158). -/
def jointBits : Bits := [true]

/-- The encoder: an instruction's encoding, a tree token's in a stream of letters of `letterSize` bits
(R151, R153, R157, R158). -/
def encode (letterSize : Nat) : Instr → Encoded
  | .compress => .command 1
  | .decompress => .command 2
  | .illegalCommand w => .command w
  | .treeLeaf v => .token letterSize (leafBits letterSize v.toNat)
  | .treeJoint => .token letterSize jointBits
  | .phaseIdle => .phase (phaseCode .idle)
  | .phaseCSetup => .phase (phaseCode .cSetup)
  | .phaseCCount => .phase (phaseCode .cCount)
  | .phaseCLeaves => .phase (phaseCode .cLeaves)
  | .phaseCMerge => .phase (phaseCode .cMerge)
  | .phaseCCodegen => .phase (phaseCode .cCodegen)
  | .phaseCHdr => .phase (phaseCode .cHdr)
  | .phaseCTreeWr => .phase (phaseCode .cTreeWr)
  | .phaseCEncode => .phase (phaseCode .cEncode)
  | .phaseCRem => .phase (phaseCode .cRem)
  | .phaseCPad => .phase (phaseCode .cPad)
  | .phaseDSetup => .phase (phaseCode .dSetup)
  | .phaseDHdr => .phase (phaseCode .dHdr)
  | .phaseDTreeRd => .phase (phaseCode .dTreeRd)
  | .phaseDDecode => .phase (phaseCode .dDecode)
  | .phaseDRem => .phase (phaseCode .dRem)
  | .phaseDFlush => .phase (phaseCode .dFlush)
  | .phaseDone => .phase (phaseCode .done)
  | .phaseError => .phase (phaseCode .error)
  | .phaseReserved c => .phase c

/-- The letter size a tree token is read with when it is given as a table word (log 8): the table shows L = 16. -/
def tableLetterSize : Nat := 16

/-- The first `count` bytes of a number, its least significant byte first. -/
def bytesOf : Nat → Nat → List Byte
  | 0, _ => []
  | count + 1, w => BitVec.ofNat 8 w :: bytesOf count (w / 256)

/-- The stream bits of bytes, the first bit of each byte its bit 7 (20_memory.md R104). -/
def streamBits (bytes : List Byte) : Bits := bytes.flatMap fun b => bin 8 b.toNat

/-- How many bytes a table word of a tree token is laid out in (log 8): its own three and zeros after them. -/
def tableTokenBytes : Nat := 8

/-- A table word's kind (log 8): 64 bits are a command word; one byte below 32 is a phase code (5 bits, the three
bits above it zero); anything else is stream bytes that begin with a tree token. -/
def tableWord (nbits w : Nat) : Encoded :=
  if nbits = 64 then .command (BitVec.ofNat 64 w)
  else if nbits ≤ 8 ∧ w < 32 then .phase (BitVec.ofNat 5 w)
  else .token tableLetterSize (streamBits (bytesOf tableTokenBytes w))

/-- The instruction the decoder reads from a word numbered as spec/opcode_table.json numbers it. -/
def decodeTableWord (nbits w : Nat) : Option Instr :=
  match decode (tableWord nbits w) with
  | .ok (i, _) => some i
  | .error _ => none

end Sys2Proof
end

