-- ==== Sys2Proof/Machine/Table.lean ====
section
/-! DEFINITION. Sparse tables in one canonical form (log 16): the register files and buffers of 10_state.md section 3
and 20_memory.md section 1 as lists of (index, entry) pairs, indices strictly rising, no entry equal to what an
unlisted index reads as. -/

namespace Sys2Proof.Machine

/-- A table of entries by index. -/
abbrev Table (α : Type) := List (Nat × α)

/-- Entry `a`; an unlisted index reads as `d`. -/
def Table.get {α : Type} (d : α) : Table α → Nat → α
  | [], _ => d
  | (k, v) :: m, a => if a = k then v else Table.get d m a

/-- The table with entry `a` written, the form kept: writing `d` removes the entry. -/
def Table.set {α : Type} [DecidableEq α] (d : α) (a : Nat) (x : α) : Table α → Table α
  | [] => if x = d then [] else [(a, x)]
  | (k, v) :: m =>
    if a < k then (if x = d then (k, v) :: m else (a, x) :: (k, v) :: m)
    else if a = k then (if x = d then m else (a, x) :: m)
    else (k, v) :: Table.set d a x m

/-- Every entry changed by `f`, which must leave `d` alone; the form kept. -/
def Table.mapEntries {α : Type} [DecidableEq α] (d : α) (f : α → α) (m : Table α) : Table α :=
  (m.map fun e => (e.1, f e.2)).filter fun e => decide (e.2 ≠ d)

/-- The indices rise strictly, starting above none. -/
def Table.rising {α : Type} : Table α → Bool
  | [] => true
  | [_] => true
  | (k, _) :: (k', v') :: m => decide (k < k') && Table.rising ((k', v') :: m)

/-- The canonical form. -/
def Table.wf {α : Type} [DecidableEq α] (d : α) (m : Table α) : Bool :=
  Table.rising m && m.all fun e => decide (e.2 ≠ d)

/-- Every index is below `n`. -/
def Table.below {α : Type} (n : Nat) (m : Table α) : Bool := m.all fun e => decide (e.1 < n)

/-- A byte buffer. -/
abbrev Memory := Table Byte

/-- DESIGN CHOICE, unsafe (log 2): a byte nothing has written reads as 0; the spec leaves the contents after reset
unspecified (20_memory.md R101, R102). -/
def Memory.unwritten : Byte := 0

/-- One byte of a buffer. -/
def Memory.read (m : Memory) (a : Nat) : Byte := Table.get Memory.unwritten m a

/-- A buffer with one byte written. -/
def Memory.write (m : Memory) (a : Nat) (v : Byte) : Memory := Table.set Memory.unwritten a v m

/-- A buffer with bytes written from address `a` up. -/
def Memory.writeAll (m : Memory) (a : Nat) : List Byte → Memory
  | [] => m
  | v :: vs => Memory.writeAll (Memory.write m a v) (a + 1) vs

/-- The `n` bytes of a buffer from address `a` up. -/
def Memory.readAll (m : Memory) (a n : Nat) : List Byte := (List.range n).map fun j => Memory.read m (a + j)

/-- The canonical form of a buffer. -/
def Memory.wf (m : Memory) : Bool := Table.wf Memory.unwritten m

end Sys2Proof.Machine
end

