-- ==== Sys2Proof/Machine/State.lean ====
section
/-! DEFINITION. The state of the block as plain data (10_state.md, 20_memory.md), the reasons a step can stop, and the state after reset (70_reset_and_hazards.md R700). -/

namespace Sys2Proof.Machine

/-- The kind of a node (10_state.md R61). -/
inductive NodeKind where
  | leaf
  | joint
  deriving DecidableEq, Repr

/-- A slot of NODE (R61): the letter of a Leaf, the children of a Joint, the aggregate frequency. -/
structure NodeSlot where
  kind : NodeKind
  letter : BitVec 16
  left : Nat
  right : Nat
  freq : Nat
  deriving DecidableEq, Repr

/-- What an unlisted NODE slot holds (log 1: the spec gives no reset value). -/
def NodeSlot.blank : NodeSlot := { kind := .leaf, letter := 0, left := 0, right := 0, freq := 0 }

/-- An entry of CODE (R64). -/
structure CodeEntry where
  valid : Bool
  len : Nat
  bits : Bits
  deriving DecidableEq, Repr

/-- What an unlisted CODE entry holds (log 1: the spec gives no reset value). -/
def CodeEntry.blank : CodeEntry := { valid := false, len := 0, bits := [] }

/-- A Joint whose subtrees are being read (43_header_codec.md R298: the stack of pending Joints): its slot, and its
left child once that is read. -/
structure PendingJoint where
  slot : Nat
  left : Option Nat
  deriving DecidableEq, Repr

/-- The memory-port environment's answer to one access (20_memory.md R103). -/
inductive PortAnswer where
  | ok
  | fault
  deriving DecidableEq, Repr

/-- The two byte buffers (R100). -/
inductive Buffer where
  | ibuf
  | obuf
  deriving DecidableEq, Repr

/-- What the host has read: a register's value, or bytes of a buffer (46_host_commands.md R404, 20_memory.md R114). -/
inductive Observation where
  | register (offset : Nat) (value : Reg)
  | bytes (buffer : Buffer) (address : Nat) (bytes : List Byte)
  deriving DecidableEq, Repr

/-- The contents reset leaves unspecified (70_reset_and_hazards.md R700): every internal register but `phase` and the
error fields, the tables, and both buffers. An operation that ends leaves all of these but the buffers so too
(93_implementation_defined.md row 11). -/
structure Unspecified where
  l : BitVec 8
  f : BitVec 64
  totalBits : Nat
  n : Nat
  usableBits : Nat
  remBits : Nat
  inBits : Nat
  rdPos : Nat
  wrAcc : BitVec 8
  wrCnt : Nat
  wrPos : BitVec 64
  i : Nat
  freq : Table Nat
  node : Table NodeSlot
  nNodes : Nat
  active : List Nat
  root : Option Nat
  pending : List PendingJoint
  code : Table CodeEntry
  ibuf : Memory
  obuf : Memory
  deriving DecidableEq, Repr, Inhabited

/-- A table if it is in the form and extent State holds one in (log 16), else an empty one. -/
def Table.admissible {α : Type} [DecidableEq α] (d : α) (extent : Nat) (m : Table α) : Table α :=
  if Table.wf d m && Table.below extent m then m else []

/-- Contents brought into the forms and ranges of 10_state.md R56 and R60 to R64: any contents in them are themselves. -/
def Unspecified.admissible (u : Unspecified) : Unspecified :=
  { u with
    wrCnt := u.wrCnt % 8
    nNodes := u.nNodes % (Config.treeNodeCap + 1)
    freq := Table.admissible 0 Config.letterCap u.freq
    node := Table.admissible NodeSlot.blank Config.treeNodeCap u.node
    code := Table.admissible CodeEntry.blank Config.letterCap u.code
    active := if u.active.Pairwise (· < ·) then u.active else [] }

/-- What a party outside the block does (46_host_commands.md R406, 30_encoding.md R169). Widths are in bytes. -/
inductive HostAccess where
  /-- `RD reg` (R404). -/
  | read (offset width : Nat)
  /-- `WR reg, v` (R405); an 8-byte write to CMD is a command (R400). -/
  | write (offset width : Nat) (value : Reg)
  /-- `LD IBUF[a..]` (20_memory.md R114), or an attempt to write OBUF (10_state.md R65, log 20). -/
  | store (buffer : Buffer) (address : Nat) (bytes : List Byte)
  /-- `RDO n` (R114), or an attempt to read IBUF (R65, log 20). -/
  | fetch (buffer : Buffer) (address count : Nat)
  /-- Reset, with the contents it leaves unspecified (R700, R701; log 15). -/
  | reset (contents : Unspecified)
  deriving DecidableEq, Repr

/-- One input of the machine (log 5): a host access, a turn of the block, or `WAIT` (R169). -/
inductive Input where
  | host (access : HostAccess)
  | tick
  | wait
  deriving DecidableEq, Repr

/-- The kinds of architectural error (60_exceptions.md R600). -/
inductive ErrorKind where
  | invalidArgument
  | corrupt
  | io
  | internal
  | illegalCommand
  deriving DecidableEq, Repr

/-- The state of the block (10_state.md R40), with the machine's parameters, the inputs to come and what the host has
read. -/
structure State where
  /-- IN_CAP, a parameter (R9, R101). -/
  inCap : Nat
  /-- OUT_CAP, a parameter (R9, R102). -/
  outCap : Nat
  /-- LSIZE, bits 7:0 (R44). -/
  lsize : BitVec 8
  /-- IN_LEN (R45). -/
  inLen : BitVec 64
  /-- OUT_LEN (R46). -/
  outLen : BitVec 64
  /-- `phase` (R50). -/
  phase : BitVec 5
  /-- `err_code` (R58). -/
  errCode : BitVec 4
  /-- `err_phase` (R58). -/
  errPhase : BitVec 5
  /-- `L`, the letter size in force (R51). -/
  l : BitVec 8
  /-- `F`, the original file size (R52). -/
  f : BitVec 64
  /-- `total_bits` (R53). -/
  totalBits : Nat
  /-- `N`, the number of complete letters (R53). -/
  n : Nat
  /-- `usable_bits` (R53). -/
  usableBits : Nat
  /-- `rem_bits` (R53). -/
  remBits : Nat
  /-- `in_bits` (R54). -/
  inBits : Nat
  /-- `rd_pos` (R55). -/
  rdPos : Nat
  /-- `wr_acc` (R56). -/
  wrAcc : BitVec 8
  /-- `wr_cnt` (R56). -/
  wrCnt : Nat
  /-- `wr_pos` (R56). -/
  wrPos : BitVec 64
  /-- `i` (R57). -/
  i : Nat
  /-- FREQ (R60). -/
  freq : Table Nat
  /-- NODE (R61). -/
  node : Table NodeSlot
  /-- `n_nodes` (R61). -/
  nNodes : Nat
  /-- ACTIVE, its members rising (R62). -/
  active : List Nat
  /-- `root`, none for NONE (R63). -/
  root : Option Nat
  /-- The pending Joints of ReadTree, the innermost first (R298, log 10). -/
  pending : List PendingJoint
  /-- CODE (R64). -/
  code : Table CodeEntry
  /-- IBUF (R101). -/
  ibuf : Memory
  /-- OBUF (R102). -/
  obuf : Memory
  /-- The memory-port environment's answers to come; past the last it answers ok (R103, log 4). -/
  port : List PortAnswer
  /-- The inputs to come (log 5). -/
  inputs : List Input
  /-- What the host has read, the oldest first (log 5). -/
  reads : List Observation
  /-- How many free values have been drawn (log 6, log 7, log 11). -/
  draws : Nat
  deriving DecidableEq, Repr

/-- Why the machine stops. An architectural error is no fault: it is a next state in phase ERROR (60_exceptions.md
R619). Every fault is safe: the spec calls the behaviour undefined, or says the point is never reached. -/
inductive Fault where
  /-- A host write to IBUF while BUSY = 1 (70_reset_and_hazards.md R712); raised by `hostStore`; safe. -/
  | ibufWriteWhileBusy
  /-- A host write to OBUF while BUSY = 1 (R713); raised by `hostStore`; safe. -/
  | obufWriteWhileBusy
  /-- A host access to a byte beyond its buffer (20_memory.md R115, log 14); raised by `hostStore` and `hostFetch`; safe. -/
  | bufferRange
  /-- A reserved phase code, stuck (30_encoding.md R153); raised by `execPhaseReserved`; safe. -/
  | reservedPhase
  /-- MemRead outside its precondition a < IN_LEN ≤ IN_CAP (R103, log 9); raised by `memRead`; safe. -/
  | inputRange
  /-- A letter outside FREQ or CODE (R60, R64, log 9); raised by `letterIndex`; safe. -/
  | letterRange
  /-- A node index outside NODE (R61, log 9); raised by `nodeAt` and `setNode`; safe. -/
  | nodeRange
  /-- `root` = NONE where a phase needs a tree (R260, R291, R370, log 9); raised by `rootNode`; safe. -/
  | noTree
  /-- C_MERGE with ACTIVE empty (R232, log 9); raised by `popMin`; safe. -/
  | noActive
  /-- A walk of NODE longer than NODE itself, so over a cycle, which never ends (R233, log 9); raised by
  `codeWalk`, `serialize` and `treeWalk`; safe. -/
  | endlessWalk
  /-- Flush with `wr_cnt` above 7, which never ends (R56, R109, log 9); raised by `flush`; safe. -/
  | writerCount
  deriving DecidableEq, Repr

/-- Why there is no meaning. -/
inductive Refusal where
  /-- An instruction with no meaning yet; raised by a rejected arm of `exec`; safe. -/
  | notModelled (mnemonic : String)
  /-- A host register access that is not an aligned 8-byte access (20_memory.md R113); raised by `hostAccess`; safe. -/
  | registerAccess
  deriving DecidableEq, Repr

/-- The state after reset of a machine with the given parameters, whatever the contents reset leaves unspecified
(70_reset_and_hazards.md R700); the inputs, the port's answers, what the host has read and the count of draws are not
the block's. -/
def State.resetWith (inCap outCap : Nat) (u : Unspecified) (port : List PortAnswer) (inputs : List Input)
    (reads : List Observation) (draws : Nat) : State :=
  { inCap := inCap, outCap := outCap
    lsize := 0, inLen := 0, outLen := 0, phase := 0, errCode := 0, errPhase := 0
    l := u.l, f := u.f, totalBits := u.totalBits, n := u.n, usableBits := u.usableBits, remBits := u.remBits
    inBits := u.inBits, rdPos := u.rdPos, wrAcc := u.wrAcc, wrCnt := u.wrCnt, wrPos := u.wrPos, i := u.i
    freq := u.freq, node := u.node, nNodes := u.nNodes, active := u.active, root := u.root, pending := u.pending
    code := u.code, ibuf := u.ibuf, obuf := u.obuf
    port := port, inputs := inputs, reads := reads, draws := draws }

/-- DESIGN CHOICE, unsafe (log 1, log 2): the values `State.reset` names for the contents reset leaves unspecified. -/
def Unspecified.zero : Unspecified :=
  { l := 0, f := 0, totalBits := 0, n := 0, usableBits := 0, remBits := 0, inBits := 0, rdPos := 0, wrAcc := 0
    wrCnt := 0, wrPos := 0, i := 0, freq := [], node := [], nNodes := 0, active := [], root := none, pending := []
    code := [], ibuf := [], obuf := [] }

/-- The machine right after reset (R700), with the parameters and unspecified contents the log names (log 1 to 5). -/
def State.reset : State :=
  State.resetWith Config.resetInCap Config.resetOutCap Unspecified.zero [] [] [] 0

end Sys2Proof.Machine

/-- Free value (log 11): the contents of the internal registers and tables after an operation has ended, by the number of
the draw (93_implementation_defined.md row 11, 60_exceptions.md R601). -/
opaque Sys2Proof.Config.freeContents : Nat → Sys2Proof.Machine.Unspecified
end

