-- ==== Sys2Proof/Machine/Ops.lean ====
section
/-! DEFINITION. The shared operations: the memory primitives and the bit writer (20_memory.md R103, R107 to R109), the accessors of NODE and of letter-indexed tables, the error entry (60_exceptions.md R601) and the command acceptance that leaves it (46_host_commands.md R400). -/

namespace Sys2Proof.Machine

/-- How a step ends early: `raise E` with the assignments made so far (00_scope.md R19, 60_exceptions.md R601), or a
fault of the model. -/
inductive Stop where
  | raise (kind : ErrorKind) (s : State)
  | fault (reason : Fault)
  deriving DecidableEq, Repr

/-- A part of a step: it goes on with a result, or ends the step. -/
abbrev Run (α : Type) := Except Stop α

/-- `raise E` (R19). -/
def raise {α : Type} (kind : ErrorKind) (s : State) : Run α := .error (.raise kind s)

/-- A fault of the model. -/
def stuck {α : Type} (reason : Fault) : Run α := .error (.fault reason)

/-- `phase <- P` (00_scope.md R16). -/
def setPhase (p : Phase) (s : State) : State := { s with phase := phaseCode p }

/-! ## The end of an operation: success, an error, and leaving either -/

/-- `n` free bytes, by the numbers of their draws (log 6, log 11). -/
def freeBytes (first n : Nat) : List Byte := (List.range n).map fun j => Config.freeByte (first + j)

/-- After an operation has ended every internal register but `phase` and the error fields, and every table, holds any
value (93_implementation_defined.md row 11; 60_exceptions.md R601): a free value (log 11). -/
def releaseInternals (s : State) : State :=
  let u := (Config.freeContents s.draws).admissible
  { s with
    l := u.l, f := u.f, totalBits := u.totalBits, n := u.n, usableBits := u.usableBits, remBits := u.remBits
    inBits := u.inBits, rdPos := u.rdPos, wrAcc := u.wrAcc, wrCnt := u.wrCnt, wrPos := u.wrPos, i := u.i
    freq := u.freq, node := u.node, nNodes := u.nNodes, active := u.active, root := u.root, pending := u.pending
    code := u.code, draws := s.draws + 1 }

/-- The first `n` bytes of OBUF, those a failed operation wrote, hold any value (R601; 93_implementation_defined.md row
12): free values (log 11). -/
def releaseOutput (n : Nat) (s : State) : State :=
  { s with obuf := Memory.writeAll s.obuf 0 (freeBytes s.draws n), draws := s.draws + n }

/-- How many bytes the operation has written when its step of phase `p` ends: none before its setup step has set `wr_pos`
(20_memory.md R102, 70_reset_and_hazards.md R703). -/
def bytesStored (p : Phase) (s : State) : Nat :=
  match p with
  | .cSetup | .dSetup => 0
  | _ => s.wrPos.toNat

/-- The end of a successful operation: OUT_LEN <- v, phase <- DONE (44_stream_encoder.md R342). -/
def finish (v : BitVec 64) (s : State) : State := setPhase .done { releaseInternals s with outLen := v }

/-- The ERR_CODE of a kind (60_exceptions.md R600). -/
def errorCode : ErrorKind → BitVec 4
  | .invalidArgument => 1
  | .corrupt => 2
  | .io => 3
  | .internal => 4
  | .illegalCommand => 5

/-- ERROR_ENTRY(E, P), and what R601 says a claim may assume nothing of: the internal registers, the tables and the
bytes the operation wrote. -/
def takeError (kind : ErrorKind) (p : Phase) (s : State) : State :=
  setPhase .error
    { releaseInternals (releaseOutput (bytesStored p s) s) with
      errCode := errorCode kind, errPhase := phaseCode p, outLen := 0 }

/-- There is no return from an error (R610): an accepted command leaves it, clearing OUT_LEN and the error fields and
setting the operation's first phase (46_host_commands.md R400). -/
def acceptCommand (first : Phase) (s : State) : State :=
  setPhase first { s with outLen := 0, errCode := 0, errPhase := 0 }

/-- The outcome of a step of phase `p`: a raised error is taken in the same step (R601, R609). -/
def endStep (p : Phase) : Run State → Host.Outcome State Fault Refusal
  | .ok s => .next s
  | .error (.raise kind s) => .next (takeError kind p s)
  | .error (.fault reason) => .fault reason

/-! ## Memory primitives -/

/-- One answer of the memory-port environment, a draw per access (20_memory.md R103, log 4). -/
def drawPort (s : State) : PortAnswer × State :=
  match s.port with
  | [] => (.ok, s)
  | a :: rest => (a, { s with port := rest })

/-- MemRead(IBUF, a, 1) (R103). -/
def memRead (a : Nat) (s : State) : Run (Byte × State) :=
  if a < s.inLen.toNat ∧ s.inLen.toNat ≤ s.inCap then
    match drawPort s with
    | (.fault, s) => raise .io s
    | (.ok, s) => .ok (Memory.read s.ibuf a, s)
  else stuck .inputRange

/-- MemWrite(OBUF, a, 1, v) (R103). -/
def memWrite (a : Nat) (v : Byte) (s : State) : Run State :=
  if s.outCap ≤ a then raise .io s
  else
    match drawPort s with
    | (.fault, s) => raise .io s
    | (.ok, s) => .ok { s with obuf := Memory.write s.obuf a v }

/-! ## The bit writer -/

/-- The first two assignments of WriteBit: the bit is appended to the byte being assembled (R107). -/
def shiftIn (b : Bool) (s : State) : State :=
  { s with wrAcc := BitVec.ofNat 8 (s.wrAcc.toNat * 2 + b.toNat), wrCnt := s.wrCnt + 1 }

/-- The last three assignments of WriteBit, after a byte is written (R107). `wr_pos` has 64 bits (10_state.md R56):
past 2^64 - 1 it is a free value (log 7). -/
def nextByte (s : State) : State :=
  if s.wrPos.toNat + 1 < 2 ^ 64 then { s with wrPos := s.wrPos + 1, wrAcc := 0, wrCnt := 0 }
  else { s with wrPos := Config.freePos s.draws, draws := s.draws + 1, wrAcc := 0, wrCnt := 0 }

/-- WriteBit(b) (R107). -/
def writeBit (b : Bool) (s : State) : Run State :=
  let s := shiftIn b s
  if s.wrCnt = 8 then do
    let s ← memWrite s.wrPos.toNat s.wrAcc s
    .ok (nextByte s)
  else .ok s

/-- Writing a bit string, in stream order (R108). -/
def writeString : Bits → State → Run State
  | [], s => .ok s
  | b :: bs, s => do
    let s ← writeBit b s
    writeString bs s

/-- WriteBits(w, v): the big-endian string of `v` (R108). -/
def writeBits (w v : Nat) (s : State) : Run State := writeString (bin w v) s

/-- The loop of Flush, at most `fuel` more bits: `wr_cnt` is at most 7, so seven bits end it (R109). -/
def flushLoop : Nat → State → Run State
  | 0, s => if s.wrCnt = 0 then .ok s else stuck .writerCount
  | fuel + 1, s =>
    if s.wrCnt = 0 then .ok s
    else do
      let s ← writeBit false s
      flushLoop fuel s

/-- Flush() (R109). -/
def flush (s : State) : Run State := flushLoop 7 s

/-! ## Tables -/

/-- A letter as an index of FREQ and CODE, which hold 65536 entries (10_state.md R60, R64). -/
def letterIndex (v : Nat) : Run Nat := if v < Config.letterCap then .ok v else stuck .letterRange

/-- FREQ[v] (R60). -/
def freqOf (s : State) (v : Nat) : Nat := Table.get 0 s.freq v

/-- CODE[v] (R64). -/
def codeOf (s : State) (v : Nat) : CodeEntry := Table.get CodeEntry.blank s.code v

/-- The slot NODE[k] of the table itself (R61). -/
def slotOf (s : State) (k : Nat) : NodeSlot := Table.get NodeSlot.blank s.node k

/-- NODE[k], for an index of the store (R61). -/
def nodeAt (k : Nat) (s : State) : Run NodeSlot :=
  if k < Config.treeNodeCap then .ok (slotOf s k) else stuck .nodeRange

/-- NODE[k] <- slot, for an index of the store (R61). -/
def setNode (k : Nat) (slot : NodeSlot) (s : State) : Run State :=
  if k < Config.treeNodeCap then .ok { s with node := Table.set NodeSlot.blank k slot s.node } else stuck .nodeRange

/-- `root` as a node index, where a phase is entered only with root ≠ NONE (R63). -/
def rootNode (s : State) : Run Nat :=
  match s.root with
  | some k => .ok k
  | none => stuck .noTree

end Sys2Proof.Machine
end

