-- ==== Sys2Proof/Machine/Operands.lean ====
section
/-! DEFINITION. Where a step's operands come from: the bit reader (20_memory.md R104 to R106), the letters of the input (40_frequency_analyzer.md R204), the size quantities (R201), and the setup of an operation (70_reset_and_hazards.md R703). -/

namespace Sys2Proof.Machine

/-- Bit 7 - p mod 8 of a byte (R104). -/
def bitOfByte (b : Byte) (p : Nat) : Nat := b.toNat / 2 ^ (7 - p % 8) % 2

/-- InBit(p) (R105). -/
def inBit (p : Nat) (s : State) : Run (Nat × State) := do
  let (b, s) ← memRead (p / 8) s
  .ok (bitOfByte b p, s)

/-- The reads of InBits in increasing order, `acc` the value of the bits already read (R105). -/
def inBitsFrom : Nat → Nat → Nat → State → Run (Nat × State)
  | 0, _, acc, s => .ok (acc, s)
  | w + 1, p, acc, s => do
    let (b, s) ← inBit p s
    inBitsFrom w (p + 1) (2 * acc + b) s

/-- InBits(p, w): input bits p to p + w - 1 as a big-endian value (R105). -/
def inputBits (p w : Nat) (s : State) : Run (Nat × State) := inBitsFrom w p 0 s

/-- ReadBits(w): the next `w` bits at the cursor, `none` for EOF (R106). -/
def readBits (w : Nat) (s : State) : Run (Option Nat × State) :=
  if s.inBits < s.rdPos + w then .ok (none, s)
  else do
    let (v, s) ← inputBits s.rdPos w s
    .ok (some v, { s with rdPos := s.rdPos + w })

/-- ReadBits(w) where the caller raises Corrupt at end of input (43_header_codec.md, 45_stream_decoder.md). -/
def readOrCorrupt (w : Nat) (s : State) : Run (Nat × State) := do
  let (r, s) ← readBits w s
  match r with
  | some v => .ok (v, s)
  | none => raise .corrupt s

/-- The letter size in force, as a number (10_state.md R51). -/
def letterSize (s : State) : Nat := s.l.toNat

/-- Letter `k` of the input (R204). -/
def inputLetter (k : Nat) (s : State) : Run (Nat × State) := inputBits (k * letterSize s) (letterSize s) s

/-- The size quantities of an operation (R201). -/
structure SizeQuantities where
  totalBits : Nat
  n : Nat
  usableBits : Nat
  remBits : Nat
  deriving DecidableEq, Repr

/-- Sizes(F, L), in exact natural-number arithmetic (R201). -/
def sizes (f l : Nat) : SizeQuantities :=
  { totalBits := 8 * f
    n := 8 * f / l
    usableBits := l * (8 * f / l)
    remBits := 8 * f - l * (8 * f / l) }

/-- The state with the size quantities of its `F` and `L` (R201). -/
def setSizes (s : State) : State :=
  let z := sizes s.f.toNat s.l.toNat
  { s with totalBits := z.totalBits, n := z.n, usableBits := z.usableBits, remBits := z.remBits }

/-- The registers both setup steps initialise (70_reset_and_hazards.md R703). -/
def startOperation (s : State) : State :=
  { s with rdPos := 0, wrAcc := 0, wrCnt := 0, wrPos := 0, i := 0, nNodes := 0, root := none }

/-- A loop phase's last assignment: the phase `p` after the last letter (R202, R340, R370). -/
def leaveAtEnd (p : Phase) (s : State) : State := if s.i = s.n then setPhase p s else s

end Sys2Proof.Machine
end

