-- ==== Sys2Proof/Machine/CodeTable.lean ====
section
/-! DEFINITION. The code table generator (42_code_table.md): C_CODEGEN. -/

namespace Sys2Proof.Machine

/-- Assign(v, s) (R260). -/
def assignCode (v : BitVec 16) (path : Bits) (s : State) : State :=
  { s with code := Table.set CodeEntry.blank v.toNat { valid := true, len := path.length, bits := path } s.code }

/-- Walk(k, path), depth first, left subtree first (R260), over at most `fuel` nodes in depth: a path of a tree in NODE
has at most TREE_NODE_CAP of them. -/
def codeWalk : Nat → Nat → Bits → State → Run State
  | 0, _, _, _ => stuck .endlessWalk
  | fuel + 1, k, path, s => do
    let x ← nodeAt k s
    match x.kind with
    | .leaf => .ok (assignCode x.letter path s)
    | .joint => do
      let s ← codeWalk fuel x.left (path ++ [false]) s
      codeWalk fuel x.right (path ++ [true]) s

/-- C_CODEGEN (R260); a single Leaf has the one-bit code 0 (R262). -/
def cCodegen (s : State) : Run State := do
  let k ← rootNode s
  let x ← nodeAt k s
  let s ← match x.kind with
    | .leaf => .ok (assignCode x.letter [false] s)
    | .joint => codeWalk Config.treeNodeCap k [] s
  .ok (setPhase .cHdr s)

/-- C_CODEGEN (R260). -/
def execPhaseCCodegen (s : State) : Host.Outcome State Fault Refusal := endStep .cCodegen (cCodegen s)

end Sys2Proof.Machine
end

