-- ==== Sys2Proof/Machine/Flags.lean ====
section
/-! DEFINITION. The flags and the STATUS register, computed from `phase` and the error fields (10_state.md R43, R66). -/

namespace Sys2Proof.Machine

/-- A phase in which the block makes no step: IDLE, DONE or ERROR (60_exceptions.md R618). -/
def quiescent (p : BitVec 5) : Bool :=
  decide (p = phaseCode .idle) || decide (p = phaseCode .done) || decide (p = phaseCode .error)

/-- STATUS.BUSY (R43). -/
def busy (s : State) : Bool := !quiescent s.phase

/-- STATUS.ERR (R43). -/
def errFlag (s : State) : Bool := decide (s.phase = phaseCode .error)

/-- STATUS.DONE (R43). -/
def doneFlag (s : State) : Bool := decide (s.phase = phaseCode .done) || errFlag s

/-- STATUS.ERR_CODE, 0 unless ERR = 1 (R43). -/
def statusErrCode (s : State) : BitVec 4 := if errFlag s then s.errCode else 0

/-- STATUS.ERR_PHASE, 0 unless ERR = 1 (R43). -/
def statusErrPhase (s : State) : BitVec 5 := if errFlag s then s.errPhase else 0

/-- The STATUS register: BUSY 0, DONE 1, ERR 2, ERR_CODE 11:8, PHASE 20:16, ERR_PHASE 28:24, every other bit 0 (R43). -/
def statusReg (s : State) : Reg :=
  BitVec.ofNat 64 ((busy s).toNat + 2 * (doneFlag s).toNat + 4 * (errFlag s).toNat
    + 2 ^ 8 * (statusErrCode s).toNat + 2 ^ 16 * s.phase.toNat + 2 ^ 24 * (statusErrPhase s).toNat)

end Sys2Proof.Machine
end

