-- ==== Sys2Proof/Machine/Commands.lean ====
section
/-! DEFINITION. The command words (46_host_commands.md R400 to R403). -/

namespace Sys2Proof.Machine

/-- CMD_WRITE of a word (R400): ignored while BUSY = 1 (70_reset_and_hazards.md R710), else dispatched. -/
def dispatchCommand (accepted : State) (s : State) : Host.Outcome State Fault Refusal :=
  if busy s then .next s else .next accepted

/-- COMPRESS (R400, R401): the operation starts in C_SETUP. -/
def execCompress (s : State) : Host.Outcome State Fault Refusal := dispatchCommand (acceptCommand .cSetup s) s

/-- DECOMPRESS (R400, R402): the operation starts in D_SETUP. -/
def execDecompress (s : State) : Host.Outcome State Fault Refusal := dispatchCommand (acceptCommand .dSetup s) s

/-- Every other command word (R403, R606): IllegalCommand at once, with ERR_PHASE 0, and no operation starts; the word
itself is not kept. -/
def execIllegalCommand (_word : BitVec 64) (s : State) : Host.Outcome State Fault Refusal :=
  dispatchCommand { acceptCommand .error s with errCode := errorCode .illegalCommand } s

end Sys2Proof.Machine
end

