-- ==== Sys2Proof/Machine/TreeTokens.lean ====
section
/-! DEFINITION. The tree tokens of the stream as ReadTree acts on them (43_header_codec.md R298, R299), with the stack of pending Joints the rule gives a hardware realisation (log 8, log 10). -/

namespace Sys2Proof.Machine

/-- The allocation every token begins with: Corrupt when NODE is full, else the next index (R298, R299). -/
def allocNode (s : State) : Run (Nat × State) :=
  if s.nNodes = Config.treeNodeCap then raise .corrupt s else .ok (s.nNodes, { s with nNodes := s.nNodes + 1 })

/-- What a call of ReadTree returns, handed to the innermost pending Joint: its left child, or its right child, which
completes it and hands on its own index; with none pending it is the root (R297, R298). -/
def deliver : Nat → List PendingJoint → State → Run State
  | k, [], s => .ok { s with pending := [], root := some k }
  | k, ⟨j, none⟩ :: rest, s => .ok { s with pending := ⟨j, some k⟩ :: rest }
  | k, ⟨j, some l⟩ :: rest, s => do
    let s ← setNode j { slotOf s j with kind := .joint, left := l, right := k } s
    deliver j rest s

/-- NODE[k] <- a Leaf with letter `v`, and the return of its call (R298). -/
def placeLeaf (k : Nat) (v : BitVec 16) (s : State) : Run State := do
  let s ← setNode k { slotOf s k with kind := .leaf, letter := v } s
  deliver k s.pending s

/-- A Joint at index `k` waits for its two subtrees (R298). -/
def pushJoint (k : Nat) (s : State) : State := { s with pending := ⟨k, none⟩ :: s.pending }

/-- TREE_LEAF (R298): one call of ReadTree whose token has been read. -/
def execTreeLeaf (letter : BitVec 16) (s : State) : Host.Outcome State Fault Refusal :=
  endStep .dTreeRd do
    let (k, s) ← allocNode s
    placeLeaf k letter s

/-- TREE_JOINT (R298): the call of ReadTree whose flag bit has been read; its subtrees follow. -/
def execTreeJoint (s : State) : Host.Outcome State Fault Refusal :=
  endStep .dTreeRd do
    let (k, s) ← allocNode s
    .ok (pushJoint k s)

end Sys2Proof.Machine
end

