-- ==== Sys2Proof/Machine/HeaderReader.lean ====
section
/-! DEFINITION. The read side of the header codec (43_header_codec.md section 2): D_SETUP, D_HDR and D_TREE_RD. -/

namespace Sys2Proof.Machine

/-- D_SETUP (R295); checkpoint A when IN_LEN = 0 (60_exceptions.md R607). -/
def dSetup (s : State) : Run State :=
  if s.inCap < s.inLen.toNat then raise .io s
  else
    let s := startOperation { s with inBits := 8 * s.inLen.toNat }
    if s.inLen = 0 then .ok (finish 0 s) else .ok (setPhase .dHdr s)

/-- D_SETUP (R295). -/
def execPhaseDSetup (s : State) : Host.Outcome State Fault Refusal := endStep .dSetup (dSetup s)

/-- D_HDR (R296). -/
def dHdr (s : State) : Run State := do
  let (r, s) ← readOrCorrupt 8 s
  if letterSizeOk r then do
    let s := { s with l := BitVec.ofNat 8 r }
    let (r, s) ← readOrCorrupt 64 s
    let s := setSizes { s with f := BitVec.ofNat 64 r }
    .ok (setPhase (if 0 < s.usableBits then .dTreeRd else .dRem) s)
  else raise .corrupt s

/-- D_HDR (R296). -/
def execPhaseDHdr (s : State) : Host.Outcome State Fault Refusal := endStep .dHdr (dHdr s)

/-- One call of ReadTree up to its return or its first recursive call: allocate, read the token, act on it (R298). -/
def readToken (s : State) : Run State := do
  let (k, s) ← allocNode s
  let (flag, s) ← readOrCorrupt 1 s
  if flag = 0 then do
    let (v, s) ← readOrCorrupt (letterSize s) s
    placeLeaf k (BitVec.ofNat 16 v) s
  else .ok (pushJoint k s)

/-- ReadTree's calls in the order they are made, until no Joint is pending (R298); each reads at least one bit, so the
bits left bound them. -/
def readTokens : Nat → State → Run State
  | 0, _ => stuck .endlessWalk
  | fuel + 1, s => do
    let s ← readToken s
    if s.pending = [] then .ok s else readTokens fuel s

/-- root <- ReadTree() (R297, R298). -/
def readTree (s : State) : Run State := readTokens (s.inBits - s.rdPos + 1) { s with pending := [] }

/-- D_TREE_RD (R297); checkpoint B at end of input (60_exceptions.md R607). -/
def dTreeRd (s : State) : Run State :=
  if s.rdPos = s.inBits then .ok (finish 0 s)
  else do
    let s ← readTree s
    .ok (setPhase .dDecode { s with i := 0 })

/-- D_TREE_RD (R297). -/
def execPhaseDTreeRd (s : State) : Host.Outcome State Fault Refusal := endStep .dTreeRd (dTreeRd s)

end Sys2Proof.Machine
end

