-- ==== Sys2Proof/Machine/HeaderWriter.lean ====
section
/-! DEFINITION. The write side of the header codec (43_header_codec.md section 1): C_HDR and C_TREE_WR. -/

namespace Sys2Proof.Machine

/-- C_HDR (R290). -/
def cHdr (s : State) : Run State := do
  let s ← writeBits 8 s.l.toNat s
  let s ← writeBits 64 s.f.toNat s
  .ok (setPhase (if s.root ≠ none then .cTreeWr else .cRem) s)

/-- C_HDR (R290). -/
def execPhaseCHdr (s : State) : Host.Outcome State Fault Refusal := endStep .cHdr (cHdr s)

/-- Ser(k) (R291), over at most `fuel` nodes in depth: a path of a tree in NODE has at most TREE_NODE_CAP of them. The
tokens are those of the encoder (30_encoding.md R157, R158). -/
def serialize : Nat → Nat → State → Run State
  | 0, _, _ => stuck .endlessWalk
  | fuel + 1, k, s => do
    let x ← nodeAt k s
    match x.kind with
    | .leaf => writeString (leafBits (letterSize s) x.letter.toNat) s
    | .joint => do
      let s ← writeString jointBits s
      let s ← serialize fuel x.left s
      serialize fuel x.right s

/-- C_TREE_WR (R291). -/
def cTreeWr (s : State) : Run State := do
  let k ← rootNode s
  let s ← serialize Config.treeNodeCap k s
  .ok (setPhase .cEncode { s with i := 0 })

/-- C_TREE_WR (R291). -/
def execPhaseCTreeWr (s : State) : Host.Outcome State Fault Refusal := endStep .cTreeWr (cTreeWr s)

end Sys2Proof.Machine
end

