-- ==== Sys2Proof/Machine/Quiescent.lean ====
section
/-! DEFINITION. The phases with no step rule (30_encoding.md R153, 60_exceptions.md R618): the block makes no step and keeps all state. -/

namespace Sys2Proof.Machine

/-- IDLE (R153, R700): no step; left only by a command or reset. -/
def execPhaseIdle (s : State) : Host.Outcome State Fault Refusal := .next s

/-- DONE (R153): no step; left only by a command or reset. -/
def execPhaseDone (s : State) : Host.Outcome State Fault Refusal := .next s

/-- ERROR (R153, R610): no step; left only by a command or reset. -/
def execPhaseError (s : State) : Host.Outcome State Fault Refusal := .next s

/-- A reserved code: no rule ever sets one, and a model may treat it as unreachable (R153; 93_implementation_defined.md
row 18: stuck). -/
def execPhaseReserved (_code : BitVec 5) (_s : State) : Host.Outcome State Fault Refusal := .fault .reservedPhase

end Sys2Proof.Machine
end

