-- ==== Sys2Proof/Machine/StreamEncoder.lean ====
section
/-! DEFINITION. The stream encoder (44_stream_encoder.md): C_ENCODE, C_REM and C_PAD. -/

namespace Sys2Proof.Machine

/-- C_ENCODE (R340). -/
def cEncode (s : State) : Run State := do
  let (v, s) ← inputLetter s.i s
  let v ← letterIndex v
  if (codeOf s v).valid then do
    let s ← writeString (codeOf s v).bits s
    .ok (leaveAtEnd .cRem { s with i := s.i + 1 })
  else raise .internal s

/-- C_ENCODE (R340). -/
def execPhaseCEncode (s : State) : Host.Outcome State Fault Refusal := endStep .cEncode (cEncode s)

/-- The remainder copied by position (R341). -/
def copyRemainder (s : State) : Run State := do
  let (v, s) ← inputBits s.usableBits s.remBits s
  writeBits s.remBits v s

/-- C_REM (R341). -/
def cRem (s : State) : Run State := do
  let s ← if 0 < s.remBits then copyRemainder s else .ok s
  .ok (setPhase .cPad s)

/-- C_REM (R341). -/
def execPhaseCRem (s : State) : Host.Outcome State Fault Refusal := endStep .cRem (cRem s)

/-- The last step of an operation: Flush, OUT_LEN <- wr_pos, phase <- DONE (R342, 45_stream_decoder.md R372). -/
def finishOutput (s : State) : Run State := do
  let s ← flush s
  .ok (finish s.wrPos s)

/-- C_PAD (R342). -/
def execPhaseCPad (s : State) : Host.Outcome State Fault Refusal := endStep .cPad (finishOutput s)

end Sys2Proof.Machine
end

