-- ==== Sys2Proof/Machine/StreamDecoder.lean ====
section
/-! DEFINITION. The stream decoder (45_stream_decoder.md): D_DECODE, D_REM and D_FLUSH. -/

namespace Sys2Proof.Machine

/-- The walk of D_DECODE from node `k` to a Leaf, left on 0 and right on 1 (R370); each turn at a Joint reads one bit, so
the bits left bound them. -/
def treeWalk : Nat → Nat → State → Run (BitVec 16 × State)
  | 0, _, _ => stuck .endlessWalk
  | fuel + 1, k, s => do
    let x ← nodeAt k s
    match x.kind with
    | .leaf => .ok (x.letter, s)
    | .joint => do
      let (b, s) ← readOrCorrupt 1 s
      treeWalk fuel (if b = 0 then x.left else x.right) s

/-- The letter the next body bits name (R370); a single Leaf takes one bit, whose value is not checked. -/
def decodeLetter (s : State) : Run (BitVec 16 × State) := do
  let k ← rootNode s
  let x ← nodeAt k s
  match x.kind with
  | .leaf => do
    let (_, s) ← readOrCorrupt 1 s
    .ok (x.letter, s)
  | .joint => treeWalk (s.inBits - s.rdPos + 1) k s

/-- D_DECODE (R370). -/
def dDecode (s : State) : Run State := do
  let (v, s) ← decodeLetter s
  let s ← writeBits (letterSize s) v.toNat s
  .ok (leaveAtEnd .dRem { s with i := s.i + 1 })

/-- D_DECODE (R370). -/
def execPhaseDDecode (s : State) : Host.Outcome State Fault Refusal := endStep .dDecode (dDecode s)

/-- The remainder field read and written unchanged (R371). -/
def readRemainder (s : State) : Run State := do
  let (v, s) ← readOrCorrupt s.remBits s
  writeBits s.remBits v s

/-- D_REM (R371). -/
def dRem (s : State) : Run State := do
  let s ← if 0 < s.remBits then readRemainder s else .ok s
  .ok (setPhase .dFlush s)

/-- D_REM (R371). -/
def execPhaseDRem (s : State) : Host.Outcome State Fault Refusal := endStep .dRem (dRem s)

/-- D_FLUSH (R372). -/
def execPhaseDFlush (s : State) : Host.Outcome State Fault Refusal := endStep .dFlush (finishOutput s)

end Sys2Proof.Machine
end

