-- ==== Sys2Proof/Machine/Analyzer.lean ====
section
/-! DEFINITION. The frequency analyzer (40_frequency_analyzer.md): C_SETUP and C_COUNT, and the FrequencyTable. -/

namespace Sys2Proof.Machine

/-- FREQ[v] <- 0 and CODE[v].valid <- 0 for every v (R200). -/
def clearTables (s : State) : State :=
  { s with
    freq := []
    code := Table.mapEntries CodeEntry.blank (fun e => { e with valid := false }) s.code
    active := [] }

/-- C_SETUP's assignments once both checks have passed (R200). -/
def cSetupLatch (s : State) : State :=
  let s := startOperation (clearTables (setSizes { s with inBits := 8 * s.f.toNat }))
  setPhase (if 0 < s.n then .cCount else .cHdr) s

/-- C_SETUP (R200). -/
def cSetup (s : State) : Run State :=
  let s := { s with l := s.lsize }
  if letterSizeOk s.l.toNat then
    let s := { s with f := s.inLen }
    if s.inCap < s.f.toNat then raise .io s else .ok (cSetupLatch s)
  else raise .invalidArgument s

/-- C_SETUP (R200). -/
def execPhaseCSetup (s : State) : Host.Outcome State Fault Refusal := endStep .cSetup (cSetup s)

/-- FREQ[v] <- FREQ[v] + 1 (R202). -/
def countLetter (v : Nat) (s : State) : State := { s with freq := Table.set 0 v (freqOf s v + 1) s.freq }

/-- C_COUNT (R202). -/
def cCount (s : State) : Run State := do
  let (v, s) ← inputLetter s.i s
  let v ← letterIndex v
  let s := countLetter v s
  .ok (leaveAtEnd .cLeaves { s with i := s.i + 1 })

/-- C_COUNT (R202). -/
def execPhaseCCount (s : State) : Host.Outcome State Fault Refusal := endStep .cCount (cCount s)

/-- The FrequencyTable: the pairs (v, FREQ[v]) with v below 2^L and FREQ[v] > 0, in ascending order of v (R203). FREQ
is held in that order and lists no zero count (log 16). -/
def frequencyTable (s : State) : List (Nat × Nat) :=
  s.freq.filter fun e => decide (e.1 < 2 ^ letterSize s) && decide (0 < e.2)

end Sys2Proof.Machine
end

