-- ==== Sys2Proof/Machine/TreeBuilder.lean ====
section
/-! DEFINITION. The tree builder (41_tree_builder.md): C_LEAVES and C_MERGE. -/

namespace Sys2Proof.Machine

/-- ACTIVE ∪ {k}, members rising (10_state.md R62). -/
def insertActive (k : Nat) : List Nat → List Nat
  | [] => [k]
  | m :: ms => if k < m then k :: m :: ms else if k = m then m :: ms else m :: insertActive k ms

/-- One turn of C_LEAVES' loop, for a letter of the FrequencyTable (R230). -/
def addLeaf (entry : Nat × Nat) (s : State) : Run State := do
  let k := s.nNodes
  let s ← setNode k { slotOf s k with kind := .leaf, letter := BitVec.ofNat 16 entry.1, freq := entry.2 } s
  .ok { s with active := insertActive k s.active, nNodes := s.nNodes + 1 }

/-- C_LEAVES' loop (R230). -/
def addLeaves : List (Nat × Nat) → State → Run State
  | [], s => .ok s
  | entry :: rest, s => do
    let s ← addLeaf entry s
    addLeaves rest s

/-- C_LEAVES (R230). -/
def cLeaves (s : State) : Run State := do
  let s ← addLeaves (frequencyTable s) s
  .ok (setPhase .cMerge s)

/-- C_LEAVES (R230). -/
def execPhaseCLeaves (s : State) : Host.Outcome State Fault Refusal := endStep .cLeaves (cLeaves s)

/-- The lexicographic order of the keys (NODE[k].freq, k) (R231). -/
def keyBelow (s : State) (a b : Nat) : Bool :=
  decide ((slotOf s a).freq < (slotOf s b).freq) ||
    (decide ((slotOf s a).freq = (slotOf s b).freq) && decide (a < b))

/-- The member with the smallest key among `best` and a list (R231). -/
def argminFrom (s : State) : Nat → List Nat → Nat
  | best, [] => best
  | best, k :: ks => argminFrom s (if keyBelow s k best then k else best) ks

/-- a <- argmin(ACTIVE); ACTIVE <- ACTIVE \ {a} (R231, R232). -/
def popMin (s : State) : Run (Nat × State) :=
  match s.active with
  | [] => stuck .noActive
  | m :: ms =>
    let a := argminFrom s m ms
    .ok (a, { s with active := (m :: ms).filter fun k => decide (k ≠ a) })

/-- The merge branch of C_MERGE: the second popped node is the left child, the first the right (R232). -/
def mergeTwo (s : State) : Run State := do
  let (a, s) ← popMin s
  let (b, s) ← popMin s
  let x ← nodeAt a s
  let y ← nodeAt b s
  let k := s.nNodes
  let s ← setNode k { slotOf s k with kind := .joint, left := b, right := a, freq := x.freq + y.freq } s
  .ok { s with active := insertActive k s.active, nNodes := s.nNodes + 1 }

/-- C_MERGE (R232). -/
def cMerge (s : State) : Run State :=
  match s.active with
  | [r] => .ok (setPhase .cCodegen { s with root := some r })
  | _ => mergeTwo s

/-- C_MERGE (R232). -/
def execPhaseCMerge (s : State) : Host.Outcome State Fault Refusal := endStep .cMerge (cMerge s)

end Sys2Proof.Machine
end

