-- ==== Sys2Proof/Machine/Dispatch.lean ====
section
/-! DEFINITION. One arm per instruction of spec/opcode_table.json. -/

namespace Sys2Proof.Machine

def exec (i : Instr) (s : State) : Host.Outcome State Fault Refusal :=
  match i with
  | .compress => Sys2Proof.Machine.execCompress s
  | .decompress => Sys2Proof.Machine.execDecompress s
  | .illegalCommand word => Sys2Proof.Machine.execIllegalCommand word s
  | .treeLeaf letter => Sys2Proof.Machine.execTreeLeaf letter s
  | .treeJoint => Sys2Proof.Machine.execTreeJoint s
  | .phaseIdle => Sys2Proof.Machine.execPhaseIdle s
  | .phaseCSetup => Sys2Proof.Machine.execPhaseCSetup s
  | .phaseCCount => Sys2Proof.Machine.execPhaseCCount s
  | .phaseCLeaves => Sys2Proof.Machine.execPhaseCLeaves s
  | .phaseCMerge => Sys2Proof.Machine.execPhaseCMerge s
  | .phaseCCodegen => Sys2Proof.Machine.execPhaseCCodegen s
  | .phaseCHdr => Sys2Proof.Machine.execPhaseCHdr s
  | .phaseCTreeWr => Sys2Proof.Machine.execPhaseCTreeWr s
  | .phaseCEncode => Sys2Proof.Machine.execPhaseCEncode s
  | .phaseCRem => Sys2Proof.Machine.execPhaseCRem s
  | .phaseCPad => Sys2Proof.Machine.execPhaseCPad s
  | .phaseDSetup => Sys2Proof.Machine.execPhaseDSetup s
  | .phaseDHdr => Sys2Proof.Machine.execPhaseDHdr s
  | .phaseDTreeRd => Sys2Proof.Machine.execPhaseDTreeRd s
  | .phaseDDecode => Sys2Proof.Machine.execPhaseDDecode s
  | .phaseDRem => Sys2Proof.Machine.execPhaseDRem s
  | .phaseDFlush => Sys2Proof.Machine.execPhaseDFlush s
  | .phaseDone => Sys2Proof.Machine.execPhaseDone s
  | .phaseError => Sys2Proof.Machine.execPhaseError s
  | .phaseReserved code => Sys2Proof.Machine.execPhaseReserved code s

end Sys2Proof.Machine
end

