-- ==== Sys2Proof/Machine/HostPort.lean ====
section
/-! DEFINITION. What a party outside the block does (46_host_commands.md R404 to R406, 20_memory.md R113, R114), and which input comes next (log 5). -/

namespace Sys2Proof.Machine

/-- An access the register block defines: 8 bytes at an offset that is a multiple of 8 (R113). -/
def registerAccessOk (offset width : Nat) : Bool := decide (width = 8) && decide (offset % 8 = 0)

/-- A register read: CMD reads 0, as does every unassigned offset (10_state.md R41, R42, R47; R404). -/
def readRegister (offset : Nat) (s : State) : Reg :=
  if offset = Config.offStatus then statusReg s
  else if offset = Config.offLsize then s.lsize.setWidth 64
  else if offset = Config.offInLen then s.inLen
  else if offset = Config.offOutLen then s.outLen
  else 0

/-- A register write other than a command: LSIZE keeps bits 7:0, IN_LEN all 64, both only while BUSY = 0; STATUS, OUT_LEN
and unassigned offsets ignore it (R405; 10_state.md R43 to R47; 70_reset_and_hazards.md R711). -/
def writeRegister (offset : Nat) (value : Reg) (s : State) : State :=
  if busy s then s
  else if offset = Config.offLsize then { s with lsize := value.setWidth 8 }
  else if offset = Config.offInLen then { s with inLen := value }
  else s

/-- The capacity of a buffer (20_memory.md R101, R102). -/
def capacity : Buffer → State → Nat
  | .ibuf, s => s.inCap
  | .obuf, s => s.outCap

/-- A host write of bytes: IBUF takes them (20_memory.md R114); OBUF is not host-writable, so a write leaves it as it was
(10_state.md R65, log 20). A fault while BUSY = 1 (70_reset_and_hazards.md R712, R713) or beyond the buffer (log 14). -/
def hostStore (b : Buffer) (a : Nat) (bytes : List Byte) (s : State) : Host.Outcome State Fault Refusal :=
  match b with
  | .ibuf =>
    if busy s then .fault .ibufWriteWhileBusy
    else if a + bytes.length ≤ s.inCap then .next { s with ibuf := Memory.writeAll s.ibuf a bytes }
    else .fault .bufferRange
  | .obuf =>
    if busy s then .fault .obufWriteWhileBusy
    else if a + bytes.length ≤ s.outCap then .next s
    else .fault .bufferRange

/-- What the host has read, appended to the record of its reads (log 5). -/
def record (o : Observation) (s : State) : State := { s with reads := s.reads ++ [o] }

/-- A host read that returns any bytes: free values (log 6). -/
def fetchFree (b : Buffer) (a n : Nat) (s : State) : State :=
  record (.bytes b a (freeBytes s.draws n)) { s with draws := s.draws + n }

/-- A host read of bytes: OBUF gives those it holds while BUSY = 0 (R114), any while BUSY = 1 (R713); IBUF is not
host-readable, so a read gives any, whatever it holds (R65, log 20). A fault beyond the buffer (log 14). -/
def hostFetch (b : Buffer) (a n : Nat) (s : State) : Host.Outcome State Fault Refusal :=
  if a + n ≤ capacity b s then
    match b with
    | .ibuf => .next (fetchFree .ibuf a n s)
    | .obuf =>
      if busy s then .next (fetchFree .obuf a n s)
      else .next (record (.bytes .obuf a (Memory.readAll s.obuf a n)) s)
  else .fault .bufferRange

/-- Reset, whenever it comes (70_reset_and_hazards.md R700, R701): every stated reset value, and the unspecified contents
the platform's input carries (log 15). -/
def hostReset (u : Unspecified) (s : State) : State :=
  State.resetWith s.inCap s.outCap u s.port s.inputs s.reads s.draws

/-- One access from outside the block. A write that is a command is not one of these: `nextMove` hands it to `exec`. -/
def hostAccess (e : HostAccess) (s : State) : Host.Outcome State Fault Refusal :=
  match e with
  | .read offset width =>
    if registerAccessOk offset width then .next (record (.register offset (readRegister offset s)) s)
    else .refused .registerAccess
  | .write offset width value =>
    if registerAccessOk offset width then .next (writeRegister offset value s) else .refused .registerAccess
  | .store b a bytes => hostStore b a bytes s
  | .fetch b a n => hostFetch b a n s
  | .reset u => .next (hostReset u s)

/-- What a step does: run a decoded instruction, or perform a host access. -/
inductive Move where
  | run (i : Instr)
  | access (e : HostAccess)
  deriving DecidableEq, Repr

/-- The next move and the state with its input consumed (log 5). With no input to come, or at a tick, the block takes a
turn: the step rule its `phase` selects (30_encoding.md R153). An 8-byte write to CMD is a command word (R150). WAIT
lets the block step until DONE = 1 and ends with the STATUS read that returns it (R169). -/
def nextMove (s : State) : Move × State :=
  match s.inputs with
  | [] => (.run (decodePhase s.phase), s)
  | .tick :: rest => (.run (decodePhase s.phase), { s with inputs := rest })
  | .wait :: rest =>
    if doneFlag s then (.access (.read Config.offStatus 8), { s with inputs := rest })
    else (.run (decodePhase s.phase), s)
  | .host (.write offset width value) :: rest =>
    if offset = Config.offCmd ∧ width = 8 then (.run (decodeCommand value), { s with inputs := rest })
    else (.access (.write offset width value), { s with inputs := rest })
  | .host (.read offset width) :: rest => (.access (.read offset width), { s with inputs := rest })
  | .host (.store b a bytes) :: rest => (.access (.store b a bytes), { s with inputs := rest })
  | .host (.fetch b a n) :: rest => (.access (.fetch b a n), { s with inputs := rest })
  | .host (.reset u) :: rest => (.access (.reset u), { s with inputs := rest })

/-- The state in which a table word is the next thing the block decodes (log 8): a command word is the next host write
to CMD; a phase code is the phase of the block's next turn; a tree token is the stream D_TREE_RD's next turn reads. -/
def placeEncoded (e : Encoded) (bytes : List Byte) (s : State) : State :=
  match e with
  | .command w => { s with inputs := .host (.write Config.offCmd 8 w) :: s.inputs }
  | .phase c => { s with phase := c, inputs := .tick :: s.inputs }
  | .token l _ =>
    { s with
      phase := phaseCode .dTreeRd
      l := BitVec.ofNat 8 l
      inCap := max s.inCap bytes.length
      inLen := BitVec.ofNat 64 bytes.length
      inBits := 8 * bytes.length
      rdPos := 0
      ibuf := Memory.writeAll s.ibuf 0 bytes
      inputs := .tick :: s.inputs }

end Sys2Proof.Machine
end

