-- ==== Sys2Proof/Machine/Step.lean ====
section
/-! DEFINITION. One step of the machine: the next move, run or performed (30_encoding.md R153, log 5). -/

namespace Sys2Proof.Machine

/-- One step. -/
def step (s : State) : Host.Outcome State Fault Refusal :=
  match nextMove s with
  | (.run i, s) => exec i s
  | (.access e, s) => hostAccess e s

/-- `s` with a table word stored where the next step decodes it (log 8). -/
def State.withFetchWord (s : State) (nbits w : Nat) : State :=
  placeEncoded (tableWord nbits w) (bytesOf tableTokenBytes w) s

end Sys2Proof.Machine
end

