-- ==== Sys2Proof/Machine/Views.lean ====
section
/-! DEFINITION. What claims read off a state: the bit streams of the buffers (20_memory.md R104), room in OBUF, trees held in NODE (00_scope.md R20), and the conditions on which an access succeeds. -/

namespace Sys2Proof.Machine

/-- Every answer of the memory-port environment still to come is ok (20_memory.md R103). -/
def portOk (s : State) : Bool := s.port.all fun a => decide (a = .ok)

/-- Input bits p to p + w - 1 lie in the valid bytes of IBUF (20_memory.md R101, R105). -/
def readable (s : State) (p w : Nat) : Bool :=
  decide (p + w ≤ 8 * s.inLen.toNat) && decide (s.inLen.toNat ≤ s.inCap)

/-- Input bit `p` (R104). -/
def inputBit (s : State) (p : Nat) : Bool := (Memory.read s.ibuf (p / 8)).toNat.testBit (7 - p % 8)

/-- Input bits p to p + w - 1, in stream order (R104, R105). -/
def inputSlice (s : State) (p w : Nat) : Bits := (List.range w).map fun j => inputBit s (p + j)

/-- The bits the writer has appended since the operation started: the completed bytes and the byte being assembled
(R104, R107). -/
def outputBits (s : State) : Bits :=
  streamBits (Memory.readAll s.obuf 0 s.wrPos.toNat) ++ bin s.wrCnt s.wrAcc.toNat

/-- The number of bytes `k` more bits complete (R107). -/
def bytesCompleted (s : State) (k : Nat) : Nat := (s.wrCnt + k) / 8

/-- The writer's count is in its range (10_state.md R56), and the bytes that `k` more bits complete fit in OBUF (R103)
and in the 64 bits of `wr_pos`. -/
def room (s : State) (k : Nat) : Bool :=
  decide (s.wrCnt < 8) && decide (s.wrPos.toNat + bytesCompleted s k ≤ s.outCap) &&
    decide (s.wrPos.toNat + bytesCompleted s k < 2 ^ 64)

/-- `t` is `s` after the bit writer has appended `bits` to the output stream, and nothing else (20_memory.md R107, R108):
the bytes it stores are those from address `wr_pos` up that the bits complete, every other byte of OBUF reads as
before, and beside the writer's own registers only the port's answers are used up. -/
structure Appended (s : State) (bits : Bits) (t : State) : Prop where
  stream : outputBits t = outputBits s ++ bits
  position : t.wrPos.toNat = s.wrPos.toNat + bytesCompleted s bits.length
  count : t.wrCnt = (s.wrCnt + bits.length) % 8
  outside : ∀ a, a < s.wrPos.toNat ∨ s.wrPos.toNat + bytesCompleted s bits.length ≤ a →
    Memory.read t.obuf a = Memory.read s.obuf a
  canonical : Memory.wf t.obuf = true
  answers : t.port = s.port.drop (bytesCompleted s bits.length)
  rest : t = { s with wrAcc := t.wrAcc, wrCnt := t.wrCnt, wrPos := t.wrPos, obuf := t.obuf, port := t.port }

/-- The size quantities the state holds are those of its `F` and `L` (40_frequency_analyzer.md R201). -/
def sizesHold (s : State) : Bool :=
  decide ((⟨s.totalBits, s.n, s.usableBits, s.remBits⟩ : SizeQuantities) = sizes s.f.toNat s.l.toNat)

/-! ## Trees -/

/-- A Huffman tree: L(v) and J(a, b) (00_scope.md R20). -/
inductive Tree where
  | leaf (letter : BitVec 16)
  | joint (left right : Tree)
  deriving DecidableEq, Repr

/-- ser(t) in letters of `l` bits (30_encoding.md R158). -/
def Tree.ser (l : Nat) : Tree → Bits
  | .leaf v => leafBits l v.toNat
  | .joint a b => jointBits ++ a.ser l ++ b.ser l

/-- The letters of the leaves, left to right. -/
def Tree.letters : Tree → List (BitVec 16)
  | .leaf v => [v]
  | .joint a b => a.letters ++ b.letters

/-- The number of nodes. -/
def Tree.size : Tree → Nat
  | .leaf _ => 1
  | .joint a b => 1 + a.size + b.size

/-- The number of nodes on the longest path. -/
def Tree.height : Tree → Nat
  | .leaf _ => 1
  | .joint a b => 1 + max a.height b.height

/-- Each leaf's letter with its path from a root reached by `path`, left = 0, right = 1, left subtree first (42_code_table.md R260, R261). -/
def Tree.pathsFrom (path : Bits) : Tree → List (BitVec 16 × Bits)
  | .leaf v => [(v, path)]
  | .joint a b => a.pathsFrom (path ++ [false]) ++ b.pathsFrom (path ++ [true])

/-- The code table of a tree: the one-bit code 0 for a single Leaf (R262), else the paths (R261). -/
def Tree.codes : Tree → List (BitVec 16 × Bits)
  | .leaf v => [(v, [false])]
  | .joint a b => (Tree.joint a b).pathsFrom []

/-- Walking a tree by bits from its root, left on 0 and right on 1, until a Leaf: its letter and the bits left
(45_stream_decoder.md R370). -/
def Tree.walk : Tree → Bits → Option (BitVec 16 × Bits)
  | .leaf v, bits => some (v, bits)
  | .joint _ _, [] => none
  | .joint a b, bit :: bits => if bit then b.walk bits else a.walk bits

/-- The letter the next body bits name and the bits left: a single Leaf takes one bit of either value (R370). -/
def Tree.decodeOne : Tree → Bits → Option (BitVec 16 × Bits)
  | .leaf _, [] => none
  | .leaf v, _ :: bits => some (v, bits)
  | .joint a b, bits => (Tree.joint a b).walk bits

/-- Node `k` of NODE is the root of the tree (10_state.md R61). -/
def treeAt (s : State) (k : Nat) : Tree → Bool
  | .leaf v =>
    decide (k < Config.treeNodeCap) && decide ((slotOf s k).kind = .leaf) && decide ((slotOf s k).letter = v)
  | .joint a b =>
    decide (k < Config.treeNodeCap) && decide ((slotOf s k).kind = .joint) && treeAt s (slotOf s k).left a &&
      treeAt s (slotOf s k).right b

/-! ## Operands as claims name them -/

/-- Letter `k` of the input, as a number (40_frequency_analyzer.md R204). -/
def letterOf (s : State) (k : Nat) : Nat := val (inputSlice s (k * letterSize s) (letterSize s))

/-- The number of zero bits Flush appends (20_memory.md R109). -/
def padding (s : State) : Nat := (8 - s.wrCnt % 8) % 8

/-- The letters present in FREQ below 2^L, in ascending order (R203, 41_tree_builder.md R230). -/
def lettersPresent (s : State) : List Nat := (List.range (2 ^ letterSize s)).filter fun v => decide (0 < freqOf s v)

/-- The bits of the artifact not yet read (20_memory.md R106). -/
def bitsLeft (s : State) : Bits := inputSlice s s.rdPos (s.inBits - s.rdPos)

/-- The bit reader may deliver exactly the bits of the valid bytes (10_state.md R54, 20_memory.md R101). -/
def readerOk (s : State) : Bool :=
  decide (s.inBits = 8 * s.inLen.toNat) && decide (s.inLen.toNat ≤ s.inCap) && decide (s.rdPos ≤ s.inBits)

/-- ReadTree() exactly as 43_header_codec.md R298 writes it, by recursion; `fuel` bounds the depth of its calls, each of
which reads a bit. D_TREE_RD runs the same calls in the same order with the stack of pending Joints (`readTree`). -/
def readTreeCall : Nat → State → Run (Nat × State)
  | 0, _ => stuck .endlessWalk
  | fuel + 1, s => do
    let (k, s) ← allocNode s
    let (flag, s) ← readOrCorrupt 1 s
    if flag = 0 then do
      let (v, s) ← readOrCorrupt (letterSize s) s
      let s ← setNode k { slotOf s k with kind := .leaf, letter := BitVec.ofNat 16 v } s
      .ok (k, s)
    else do
      let (l, s) ← readTreeCall fuel s
      let (r, s) ← readTreeCall fuel s
      let s ← setNode k { slotOf s k with kind := .joint, left := l, right := r } s
      .ok (k, s)

end Sys2Proof.Machine
end

