-- ==== Sys2Proof/Machine/Invariant.lean ====
section
/-! DEFINITION. The invariant of the machine: the canonical forms, the legal phases, and what the spec says holds where each phase is entered. -/

namespace Sys2Proof.Machine

/-- The phase is one of the named ones listed. -/
def inPhase (s : State) (ps : List Phase) : Prop := ∃ p ∈ ps, s.phase = phaseCode p

/-- The tables and buffers are in canonical form and within their extents (10_state.md R60 to R64; log 16). -/
structure TablesOk (freq : Table Nat) (node : Table NodeSlot) (active : List Nat) (code : Table CodeEntry)
    (ibuf obuf : Memory) : Prop where
  freqForm : Table.wf 0 freq = true
  freqExtent : Table.below Config.letterCap freq = true
  nodeForm : Table.wf NodeSlot.blank node = true
  nodeExtent : Table.below Config.treeNodeCap node = true
  activeForm : active.Pairwise (· < ·)
  codeForm : Table.wf CodeEntry.blank code = true
  codeExtent : Table.below Config.letterCap code = true
  ibufForm : Memory.wf ibuf = true
  obufForm : Memory.wf obuf = true

/-- Every Joint below `n_nodes` has children of lower index, the order compression creates them in (41_tree_builder.md R233). -/
def childrenBelow (s : State) : Prop :=
  ∀ k < s.nNodes, (slotOf s k).kind = .joint → (slotOf s k).left < k ∧ (slotOf s k).right < k

/-- Every Joint below `n_nodes` has children below `n_nodes` (43_header_codec.md R298). -/
def childrenInside (s : State) : Prop :=
  ∀ k < s.nNodes, (slotOf s k).kind = .joint → (slotOf s k).left < s.nNodes ∧ (slotOf s k).right < s.nNodes

/-- `root` is a node in use, and NODE is not overfull. -/
def rootInside (s : State) : Prop := ∃ r, s.root = some r ∧ r < s.nNodes ∧ s.nNodes ≤ Config.treeNodeCap

/-- How many bits the writer has taken since the operation started (20_memory.md R107). -/
def bitsWritten (s : State) : Nat := 8 * s.wrPos.toNat + s.wrCnt

/-- Every letter counted is below 2^L (40_frequency_analyzer.md R202). -/
def countsBelow (s : State) : Prop := Table.below (2 ^ letterSize s) s.freq = true

/-- The phases of an operation after its setup step. -/
def runningPhases : List Phase :=
  [.cCount, .cLeaves, .cMerge, .cCodegen, .cHdr, .cTreeWr, .cEncode, .cRem, .cPad, .dHdr, .dTreeRd, .dDecode, .dRem,
    .dFlush]

/-- The phases in which the letter size and the size quantities are known. -/
def sizedPhases : List Phase :=
  [.cCount, .cLeaves, .cMerge, .cCodegen, .cHdr, .cTreeWr, .cEncode, .cRem, .cPad, .dTreeRd, .dDecode, .dRem, .dFlush]

/-- The phases of compression after its setup step. -/
def compressPhases : List Phase := [.cCount, .cLeaves, .cMerge, .cCodegen, .cHdr, .cTreeWr, .cEncode, .cRem, .cPad]

/-- The invariant. Each field is what the spec says of the states in which the phases it names are entered. -/
structure Inv (s : State) : Prop where
  tables : TablesOk s.freq s.node s.active s.code s.ibuf s.obuf
  /-- The contents that resets to come carry are in canonical form too (log 15). -/
  inputs : ∀ u, Input.host (.reset u) ∈ s.inputs → TablesOk u.freq u.node u.active u.code u.ibuf u.obuf
  /-- No reserved phase code (30_encoding.md R153). -/
  legal : reservedPhase s.phase = false
  /-- The error fields are 0 but in ERROR (10_state.md R43, R58). -/
  noError : s.phase ≠ phaseCode .error → s.errCode = 0 ∧ s.errPhase = 0
  /-- In ERROR the code is one of the five (60_exceptions.md R600). -/
  errorKind : s.phase = phaseCode .error → 1 ≤ s.errCode.toNat ∧ s.errCode.toNat ≤ 5
  /-- OUT_LEN is 0 but in DONE (10_state.md R46, 70_reset_and_hazards.md R713). -/
  noOutput : s.phase ≠ phaseCode .done → s.outLen = 0
  /-- The writer's count is in its range (R56). -/
  writer : inPhase s runningPhases → s.wrCnt < 8
  /-- The writer has not passed the end of OBUF (20_memory.md R103). -/
  position : inPhase s runningPhases → s.wrPos.toNat ≤ s.outCap
  /-- The reader's bound is the valid input, which fits IBUF (R54, R101). -/
  reader : inPhase s runningPhases → s.inBits = 8 * s.inLen.toNat ∧ s.inLen.toNat ≤ s.inCap
  /-- The reader's cursor is inside (20_memory.md R106). -/
  cursor : inPhase s [.dHdr, .dTreeRd, .dDecode, .dRem] → s.rdPos ≤ s.inBits
  /-- The letter size is in its domain and the sizes are those of R201. -/
  sized : inPhase s sizedPhases → letterSizeOk s.l.toNat = true ∧ sizesHold s = true
  /-- Compression's file size is IN_LEN (40_frequency_analyzer.md R200). -/
  whole : inPhase s compressPhases → s.f = s.inLen
  counting : inPhase s [.cCount] →
    s.i < s.n ∧ s.nNodes = 0 ∧ s.active = [] ∧ s.root = none ∧ countsBelow s ∧ (0 < s.i → s.freq ≠ [])
  leaves : inPhase s [.cLeaves] → 0 < s.n ∧ s.nNodes = 0 ∧ s.active = [] ∧ s.root = none ∧ countsBelow s ∧ s.freq ≠ []
  merging : inPhase s [.cMerge] →
    0 < s.n ∧ s.root = none ∧ s.active ≠ [] ∧ s.nNodes + s.active.length ≤ 2 * Config.letterCap ∧
      (∀ k ∈ s.active, k < s.nNodes) ∧ childrenBelow s
  built : inPhase s [.cCodegen, .cTreeWr] → 0 < s.n ∧ rootInside s ∧ childrenBelow s
  header : inPhase s [.cHdr] → (s.root = none ∧ s.n = 0) ∨ (0 < s.n ∧ rootInside s ∧ childrenBelow s)
  encoding : inPhase s [.cEncode] → s.i < s.n
  fresh : inPhase s [.dHdr, .dTreeRd] → s.nNodes = 0
  treeNext : inPhase s [.dTreeRd] → 0 < s.n
  /-- Decompression has written nothing before the body, then one letter a step, then the remainder: at D_FLUSH exactly
  8·F bits (45_stream_decoder.md R372). -/
  unwritten : inPhase s [.dHdr, .dTreeRd] → bitsWritten s = 0
  written : inPhase s [.dDecode] → bitsWritten s = s.i * letterSize s
  bodyWritten : inPhase s [.dRem] → bitsWritten s = s.usableBits
  allWritten : inPhase s [.dFlush] → bitsWritten s = s.totalBits
  decoding : inPhase s [.dDecode] → s.i < s.n ∧ rootInside s ∧ childrenInside s

end Sys2Proof.Machine
end

