-- ==== Sys2Proof/Safety.lean ====
section
/-! DEFINITION. What a safe run is, in the terms claims use: a step that answers a next state, and the host hazards, the only points where the spec leaves the machine undefined (92_eei_decisions.md, the last section). -/

namespace Sys2Proof

/-- The step from `s` goes on. -/
def StepGoesOn (s : Machine.State) : Prop := ∃ t, Machine.step s = .next t

/-- A host access with no defined effect: a register access that is not an aligned 8-byte one (20_memory.md R113), a
write to a buffer while BUSY = 1 (70_reset_and_hazards.md R712, R713), or one beyond its buffer (R115, log 14). -/
def hostHazard (e : Machine.HostAccess) (s : Machine.State) : Bool :=
  match e with
  | .read offset width => !Machine.registerAccessOk offset width
  | .write offset width _ => !Machine.registerAccessOk offset width
  | .store b a bytes => Machine.busy s || decide (Machine.capacity b s < a + bytes.length)
  | .fetch b a n => decide (Machine.capacity b s < a + n)
  | .reset _ => false

end Sys2Proof
end

