-- ==== Sys2Proof/Certificates/Slice0/Obligations.lean ====
section
/-! DEFINITION. The statements for the provers, each from the numbered rules of spec/. -/

open Sys2Proof Sys2Proof.Machine

/-- ERROR_ENTRY (60_exceptions.md R601), written out: the error recorded, OUT_LEN = 0, the phase ERROR, the internal
registers and tables and the `stored` bytes the operation wrote free values (log 11), everything else kept. -/
def enterError (code : BitVec 4) (errPhase : BitVec 5) (stored : Nat) (s : State) : State :=
  { releaseInternals (releaseOutput stored s) with errCode := code, errPhase := errPhase, outLen := 0, phase := 31 }

/-- The end of a successful operation, written out: OUT_LEN, the phase DONE, the internal registers and tables free
values (93_implementation_defined.md row 11, log 11), everything else kept. -/
def enterDone (outLen : BitVec 64) (s : State) : State := { releaseInternals s with outLen := outLen, phase := 30 }

/-! ## Reset, commands and the host's registers -/

/-- R700: a reset, in any state, gives every stated reset value and leaves STATUS = 0; everything else takes whatever
contents the reset carries; and the block makes no step after it. -/
def Obligations.ResetGivesStatedValues : Prop :=
  ∀ (s : State) (u : Unspecified) (rest : List Input), s.inputs = .host (.reset u) :: rest →
    ∃ t, step s = .next t ∧
      t.phase = 0 ∧ t.errCode = 0 ∧ t.errPhase = 0 ∧ t.lsize = 0 ∧ t.inLen = 0 ∧ t.outLen = 0 ∧ statusReg t = 0 ∧
      t.l = u.l ∧ t.f = u.f ∧ t.totalBits = u.totalBits ∧ t.n = u.n ∧ t.usableBits = u.usableBits ∧
      t.remBits = u.remBits ∧ t.inBits = u.inBits ∧ t.rdPos = u.rdPos ∧ t.wrAcc = u.wrAcc ∧ t.wrCnt = u.wrCnt ∧
      t.wrPos = u.wrPos ∧ t.i = u.i ∧ t.freq = u.freq ∧ t.node = u.node ∧ t.nNodes = u.nNodes ∧
      t.active = u.active ∧ t.root = u.root ∧ t.code = u.code ∧ t.ibuf = u.ibuf ∧ t.obuf = u.obuf ∧
      t.inCap = s.inCap ∧ t.outCap = s.outCap ∧ t.inputs = rest ∧ exec (decodePhase t.phase) t = .next t

/-- R400, R403, R710: command word 1 is COMPRESS and starts C_SETUP, 2 is DECOMPRESS and starts D_SETUP, and every other
word raises IllegalCommand at once, when BUSY = 0; OUT_LEN and the error fields are cleared and nothing else changes.
While BUSY = 1 every word is ignored. -/
def Obligations.CommandWordIsDispatched : Prop :=
  ∀ (s : State) (c : BitVec 64),
    (busy s = true → exec (decodeCommand c) s = .next s) ∧
    (busy s = false →
      (decodeCommand 1 = .compress ∧
        exec .compress s = .next { s with outLen := 0, errCode := 0, errPhase := 0, phase := 1 }) ∧
      (decodeCommand 2 = .decompress ∧
        exec .decompress s = .next { s with outLen := 0, errCode := 0, errPhase := 0, phase := 16 }) ∧
      (c ≠ 1 → c ≠ 2 → decodeCommand c = .illegalCommand c ∧
        exec (.illegalCommand c) s = .next { s with outLen := 0, errCode := 5, errPhase := 0, phase := 31 }))

/-- A step runs the decoded instruction: with no input to come, or at a tick, or under WAIT before DONE, the one the
phase decodes to; at an 8-byte write to CMD, the one the command word decodes to. -/
def Obligations.StepRunsDecodedInstruction : Prop :=
  ∀ (s : State) (i : Instr) (rest : List Input) (w : BitVec 64),
    (decode (.phase s.phase) = .ok (i, []) →
      (s.inputs = [] → step s = exec i s) ∧
      (s.inputs = .tick :: rest → step s = exec i { s with inputs := rest }) ∧
      (s.inputs = .wait :: rest → doneFlag s = false → step s = exec i s)) ∧
    (decode (.command w) = .ok (i, []) → s.inputs = .host (.write 0 8 w) :: rest →
      step s = exec i { s with inputs := rest })

/-- WAIT ends with the STATUS read that returns DONE = 1 (30_encoding.md R169, 46_host_commands.md R407); log 5. -/
def Obligations.WaitEndsAtDone : Prop :=
  ∀ (s : State) (rest : List Input), s.inputs = .wait :: rest → doneFlag s = true →
    step s = .next { s with inputs := rest, reads := s.reads ++ [.register 8 (statusReg s)] }

/-- A few words written out from the encodings of 30_encoding.md decode to their instructions (R151, R153, R157, R158). -/
def Obligations.SpecWordsDecode : Prop :=
  decode (.command 0x0000000000000001) = .ok (.compress, []) ∧
  decode (.command 0x0000000000000002) = .ok (.decompress, []) ∧
  decode (.command 0x0000000100000001) = .ok (.illegalCommand 0x0000000100000001, []) ∧
  decode (.phase 0b00010) = .ok (.phaseCCount, []) ∧
  decode (.phase 0b10010) = .ok (.phaseDTreeRd, []) ∧
  decode (.phase 0b11111) = .ok (.phaseError, []) ∧
  decode (.phase 0b01011) = .ok (.phaseReserved 11, []) ∧
  decode (.token 8 [false, false, true, false, false, false, false, false, true]) = .ok (.treeLeaf 0x41, []) ∧
  decode (.token 8 [true, false]) = .ok (.treeJoint, [false])

/-- R618: IDLE, DONE and ERROR make no step and keep all state. -/
def Obligations.QuiescentPhasesKeepAllState : Prop :=
  ∀ s : State, exec .phaseIdle s = .next s ∧ exec .phaseDone s = .next s ∧ exec .phaseError s = .next s

/-- A reserved phase code stops the machine: 93_implementation_defined.md row 18 (stuck). -/
def Obligations.ReservedPhaseIsStuck : Prop :=
  ∀ (s : State) (c : BitVec 5), reservedPhase c = true →
    decodePhase c = .phaseReserved c ∧ exec (decodePhase c) s = .fault .reservedPhase

/-- R43: every field of STATUS, every other bit 0, and 0 in IDLE, its reset value; a host write to it is ignored. -/
def Obligations.StatusFieldsAreComputed : Prop :=
  ∀ s : State,
    ((statusReg s).getLsbD 0 = true ↔ s.phase ≠ 0 ∧ s.phase ≠ 30 ∧ s.phase ≠ 31) ∧
    ((statusReg s).getLsbD 1 = true ↔ s.phase = 30 ∨ s.phase = 31) ∧
    ((statusReg s).getLsbD 2 = true ↔ s.phase = 31) ∧
    (statusReg s).extractLsb' 3 5 = 0 ∧
    (statusReg s).extractLsb' 8 4 = (if s.phase = 31 then s.errCode else 0) ∧
    (statusReg s).extractLsb' 12 4 = 0 ∧
    (statusReg s).extractLsb' 16 5 = s.phase ∧
    (statusReg s).extractLsb' 21 3 = 0 ∧
    (statusReg s).extractLsb' 24 5 = (if s.phase = 31 then s.errPhase else 0) ∧
    (statusReg s).extractLsb' 29 35 = 0 ∧
    (s.phase = 0 → statusReg s = 0) ∧
    (∀ (v : Reg) (rest : List Input), s.inputs = .host (.write 0x08 8 v) :: rest →
      step s = .next { s with inputs := rest })

/-- R404, R113: an aligned 8-byte read returns the register's value at the moment of the read, 0 for CMD and for every
unassigned offset, and changes nothing; the model records what was read (log 5). -/
def Obligations.RegisterReadsReturnValues : Prop :=
  ∀ (s : State) (off : Nat) (rest : List Input), s.inputs = .host (.read off 8) :: rest → off % 8 = 0 →
    ∃ v : Reg,
      step s = .next { s with inputs := rest, reads := s.reads ++ [.register off v] } ∧
      (off = 0x00 → v = 0) ∧ (off = 0x08 → v = statusReg s) ∧ (off = 0x10 → v.toNat = s.lsize.toNat) ∧
      (off = 0x18 → v = s.inLen) ∧ (off = 0x20 → v = s.outLen) ∧ (0x28 ≤ off → v = 0)

/-- R405, R711: a write to LSIZE keeps bits 7:0 and one to IN_LEN all 64, when BUSY = 0; while BUSY = 1 both are ignored;
writes to STATUS, OUT_LEN and unassigned offsets are ignored. -/
def Obligations.RegisterWritesStoreWhenIdle : Prop :=
  ∀ (s : State) (off : Nat) (v : Reg) (rest : List Input),
    s.inputs = .host (.write off 8 v) :: rest → off % 8 = 0 → off ≠ 0 →
    (busy s = true → step s = .next { s with inputs := rest }) ∧
    (busy s = false → off = 0x10 →
      step s = .next { s with inputs := rest, lsize := BitVec.ofNat 8 (v.toNat % 256) }) ∧
    (busy s = false → off = 0x18 → step s = .next { s with inputs := rest, inLen := v }) ∧
    (off ≠ 0x10 → off ≠ 0x18 → step s = .next { s with inputs := rest })

/-- A register access that is not an aligned 8-byte access is refused by name (20_memory.md R113: the model refuses the
host program). -/
def Obligations.OddRegisterAccessIsRefused : Prop :=
  ∀ (s : State) (off width : Nat) (v : Reg) (rest : List Input), ¬ (width = 8 ∧ off % 8 = 0) →
    (s.inputs = .host (.read off width) :: rest → step s = .refused .registerAccess) ∧
    (s.inputs = .host (.write off width v) :: rest → step s = .refused .registerAccess)

/-- R712, R713: while BUSY = 1 a host write to a buffer faults by name, and a host read inside a buffer returns some bytes
and changes nothing of the block; which bytes, nothing says (log 6; log 5 for the record of reads). -/
def Obligations.BusyBufferAccesses : Prop :=
  ∀ (s : State) (a n : Nat) (bytes : List Byte) (rest : List Input), busy s = true →
    (s.inputs = .host (.store .ibuf a bytes) :: rest → step s = .fault .ibufWriteWhileBusy) ∧
    (s.inputs = .host (.store .obuf a bytes) :: rest → step s = .fault .obufWriteWhileBusy) ∧
    (∀ b, s.inputs = .host (.fetch b a n) :: rest → a + n ≤ capacity b s →
      ∃ got : List Byte, got.length = n ∧
        step s = .next { s with inputs := rest, reads := s.reads ++ [.bytes b a got], draws := s.draws + n })

/-- 20_memory.md R114 and 10_state.md R65: while BUSY = 0 a host write inside IBUF stores exactly its bytes, and a host
read inside OBUF returns the bytes there; OBUF is not host-writable, so a host write inside it changes nothing; IBUF is
not host-readable, so what a host read inside it returns is the same whatever the buffers hold. Nothing else changes (log
5 for the record of reads). R65 names no effect of the last two accesses: that they end so is the model's (log 20). -/
def Obligations.HostBufferAccessesMoveBytes : Prop :=
  ∀ (s : State) (a n : Nat) (bytes : List Byte) (rest : List Input), busy s = false →
    (s.inputs = .host (.store .ibuf a bytes) :: rest → a + bytes.length ≤ s.inCap → Memory.wf s.ibuf = true →
      ∃ t, step s = .next t ∧ t = { s with inputs := rest, ibuf := t.ibuf } ∧ Memory.wf t.ibuf = true ∧
        (∀ (j : Nat) (h : j < bytes.length), Memory.read t.ibuf (a + j) = bytes[j]) ∧
        (∀ b, b < a ∨ a + bytes.length ≤ b → Memory.read t.ibuf b = Memory.read s.ibuf b)) ∧
    (s.inputs = .host (.store .obuf a bytes) :: rest → a + bytes.length ≤ s.outCap →
      step s = .next { s with inputs := rest }) ∧
    (s.inputs = .host (.fetch .ibuf a n) :: rest → a + n ≤ s.inCap →
      ∃ got : List Byte, got.length = n ∧ ∀ ibuf obuf : Memory,
        step { s with ibuf := ibuf, obuf := obuf } = .next { s with
          ibuf := ibuf, obuf := obuf, inputs := rest, reads := s.reads ++ [.bytes .ibuf a got]
          draws := s.draws + n }) ∧
    (s.inputs = .host (.fetch .obuf a n) :: rest → a + n ≤ s.outCap →
      ∃ got : List Byte, step s = .next { s with inputs := rest, reads := s.reads ++ [.bytes .obuf a got] } ∧
        got.length = n ∧ ∀ (j : Nat) (h : j < got.length), got[j] = Memory.read s.obuf (a + j))

/-! ## Setup -/

/-- R602 and the order of the checks (R608): C_SETUP with LSIZE outside 2 to 16 raises InvalidArgument, whatever IN_LEN
is, with no buffer access; with LSIZE in its domain and IN_LEN > IN_CAP it raises Io. -/
def Obligations.CompressSetupRejects : Prop :=
  ∀ s : State,
    (s.lsize.toNat < 2 ∨ 16 < s.lsize.toNat → exec .phaseCSetup s = .next (enterError 1 1 0 s)) ∧
    (2 ≤ s.lsize.toNat → s.lsize.toNat ≤ 16 → s.inCap < s.inLen.toNat →
      exec .phaseCSetup s = .next (enterError 3 1 0 s))

/-- R200, R201: C_SETUP latches the operands, computes the sizes, clears FREQ, every CODE entry's valid bit and ACTIVE,
and goes to C_COUNT if N > 0, else to C_HDR; the other fields of CODE's entries keep what they held. -/
def Obligations.CompressSetupInitialises : Prop :=
  ∀ s : State, 2 ≤ s.lsize.toNat → s.lsize.toNat ≤ 16 → s.inLen.toNat ≤ s.inCap →
    Table.wf CodeEntry.blank s.code = true →
    let total := 8 * s.inLen.toNat
    let n := total / s.lsize.toNat
    ∃ t, exec .phaseCSetup s = .next t ∧
      t = { s with
        l := s.lsize, f := s.inLen, inBits := total, totalBits := total, n := n, usableBits := s.lsize.toNat * n
        remBits := total % s.lsize.toNat, rdPos := 0, wrAcc := 0, wrCnt := 0, wrPos := 0, i := 0, nNodes := 0
        active := [], root := none, freq := t.freq, code := t.code, phase := if 0 < n then 2 else 6 } ∧
      (∀ v, freqOf t v = 0) ∧ (∀ v, codeOf t v = { codeOf s v with valid := false })

/-- R295: D_SETUP raises Io when IN_LEN > IN_CAP; else it initialises the reader, the writer and the node store, and ends
at once with empty output when IN_LEN = 0 (checkpoint A), else goes to D_HDR. -/
def Obligations.DecompressSetupInitialises : Prop :=
  ∀ s : State,
    (s.inCap < s.inLen.toNat → exec .phaseDSetup s = .next (enterError 3 16 0 s)) ∧
    (s.inLen = 0 → exec .phaseDSetup s = .next (enterDone 0 s)) ∧
    (s.inLen ≠ 0 → s.inLen.toNat ≤ s.inCap →
      exec .phaseDSetup s = .next { s with
        inBits := 8 * s.inLen.toNat, rdPos := 0, wrAcc := 0, wrCnt := 0, wrPos := 0, i := 0, nNodes := 0, root := none
        phase := 17 })

/-! ## Compression -/

/-- R202, R204: C_COUNT counts letter i and no other, and goes to C_LEAVES after the last. -/
def Obligations.CountStepCountsOneLetter : Prop :=
  ∀ s : State, portOk s = true → letterSizeOk s.l.toNat = true → readable s (s.i * s.l.toNat) s.l.toNat = true →
    Table.wf 0 s.freq = true →
    ∃ t, exec .phaseCCount s = .next t ∧
      (∀ v, freqOf t v = freqOf s v + if v = letterOf s s.i then 1 else 0) ∧
      letterOf s s.i < 2 ^ s.l.toNat ∧
      t = { s with
        freq := t.freq, i := s.i + 1, port := s.port.drop s.l.toNat, phase := if s.i + 1 = s.n then 3 else s.phase }

/-- R203: FREQ held in canonical form gives the FrequencyTable of the rule: every letter below 2^L with a count above 0,
with its count, in ascending order. -/
def Obligations.FrequencyTableIsAscending : Prop :=
  ∀ s : State, Table.wf 0 s.freq = true →
    frequencyTable s = (lettersPresent s).map fun v => (v, freqOf s v)

/-- R230: C_LEAVES makes one Leaf for each letter present, in ascending order, active all; other slots and the children
fields keep what they held. -/
def Obligations.LeavesAreTheLettersPresent : Prop :=
  ∀ s : State, letterSizeOk s.l.toNat = true → Table.wf 0 s.freq = true → Table.wf NodeSlot.blank s.node = true →
    s.nNodes = 0 → s.active = [] →
    ∃ t, exec .phaseCLeaves s = .next t ∧
      t.nNodes = (lettersPresent s).length ∧ t.active = List.range (lettersPresent s).length ∧
      (∀ (k : Nat) (h : k < (lettersPresent s).length),
        slotOf t k = { slotOf s k with
          kind := .leaf, letter := BitVec.ofNat 16 (lettersPresent s)[k], freq := freqOf s (lettersPresent s)[k] }) ∧
      (∀ k, (lettersPresent s).length ≤ k → slotOf t k = slotOf s k) ∧
      t = { s with node := t.node, nNodes := t.nNodes, active := t.active, phase := 4 }

/-- R231, R232: with two or more active nodes, C_MERGE pops the two of least key (frequency, then index), the second on
the left and the first on the right of a new Joint whose frequency is their sum. -/
def Obligations.MergeJoinsTwoLeastNodes : Prop :=
  ∀ (s : State) (a b : Nat), Table.wf NodeSlot.blank s.node = true → s.active.Pairwise (· < ·) →
    s.nNodes < Config.treeNodeCap → (∀ k ∈ s.active, k < s.nNodes) →
    a ∈ s.active → b ∈ s.active → a ≠ b →
    (∀ k ∈ s.active, k ≠ a →
      (slotOf s a).freq < (slotOf s k).freq ∨ ((slotOf s a).freq = (slotOf s k).freq ∧ a < k)) →
    (∀ k ∈ s.active, k ≠ a → k ≠ b →
      (slotOf s b).freq < (slotOf s k).freq ∨ ((slotOf s b).freq = (slotOf s k).freq ∧ b < k)) →
    ∃ t, exec .phaseCMerge s = .next t ∧
      slotOf t s.nNodes = { slotOf s s.nNodes with
        kind := .joint, left := b, right := a, freq := (slotOf s a).freq + (slotOf s b).freq } ∧
      (∀ k, k ≠ s.nNodes → slotOf t k = slotOf s k) ∧
      (∀ k, k ∈ t.active ↔ k = s.nNodes ∨ (k ∈ s.active ∧ k ≠ a ∧ k ≠ b)) ∧ t.active.Pairwise (· < ·) ∧
      t = { s with node := t.node, active := t.active, nNodes := s.nNodes + 1 }

/-- R232: with one active node, C_MERGE makes it the root and goes to C_CODEGEN. -/
def Obligations.MergeEndsAtOneNode : Prop :=
  ∀ (s : State) (r : Nat), s.active = [r] → exec .phaseCMerge s = .next { s with root := some r, phase := 5 }

/-- R260, R261, R262: C_CODEGEN gives each leaf's letter its path from the root, or the one-bit code 0 when the tree is
a single Leaf, and leaves every other entry of CODE as it was. -/
def Obligations.CodesAreTreePaths : Prop :=
  ∀ (s : State) (r : Nat) (tree : Tree), s.root = some r → treeAt s r tree = true →
    tree.height ≤ Config.treeNodeCap → tree.letters.Nodup → Table.wf CodeEntry.blank s.code = true →
    ∃ t, exec .phaseCCodegen s = .next t ∧
      (∀ v path, (v, path) ∈ tree.codes →
        codeOf t v.toNat = { valid := true, len := path.length, bits := path }) ∧
      (∀ v, (∀ w ∈ tree.letters, w.toNat ≠ v) → codeOf t v = codeOf s v) ∧
      t = { s with code := t.code, phase := 6 }

/-- R290: C_HDR writes letter_size in 8 bits and file_size in 64, and goes to C_TREE_WR if there is a tree, else to
C_REM. -/
def Obligations.HeaderWritesTwoFields : Prop :=
  ∀ s : State, portOk s = true → Memory.wf s.obuf = true → room s 72 = true →
    ∃ u, Appended s (bin 8 s.l.toNat ++ bin 64 s.f.toNat) u ∧
      exec .phaseCHdr s = .next { u with phase := if s.root = none then 9 else 7 }

/-- R291: C_TREE_WR writes the pre-order serialization of the tree and goes to C_ENCODE with i = 0. -/
def Obligations.TreeIsWrittenInPreOrder : Prop :=
  ∀ (s : State) (r : Nat) (tree : Tree), portOk s = true → Memory.wf s.obuf = true → s.root = some r →
    treeAt s r tree = true → tree.height ≤ Config.treeNodeCap → room s (tree.ser s.l.toNat).length = true →
    ∃ u, Appended s (tree.ser s.l.toNat) u ∧ exec .phaseCTreeWr s = .next { u with i := 0, phase := 8 }

/-- R340: C_ENCODE reads letter i again and writes its code, and goes to C_REM after the last letter. -/
def Obligations.EncodeWritesTheCode : Prop :=
  ∀ s : State, portOk s = true → Memory.wf s.obuf = true → letterSizeOk s.l.toNat = true →
    readable s (s.i * s.l.toNat) s.l.toNat = true → (codeOf s (letterOf s s.i)).valid = true →
    room s (codeOf s (letterOf s s.i)).bits.length = true →
    ∃ u, Appended { s with port := s.port.drop s.l.toNat } (codeOf s (letterOf s s.i)).bits u ∧
      exec .phaseCEncode s = .next { u with i := s.i + 1, phase := if s.i + 1 = s.n then 9 else s.phase }

/-- R605: C_ENCODE raises Internal on a letter whose CODE entry is not valid. -/
def Obligations.EncodeWithoutCodeIsInternal : Prop :=
  ∀ s : State, portOk s = true → letterSizeOk s.l.toNat = true → readable s (s.i * s.l.toNat) s.l.toNat = true →
    (codeOf s (letterOf s s.i)).valid = false →
    exec .phaseCEncode s = .next (enterError 4 8 s.wrPos.toNat { s with port := s.port.drop s.l.toNat })

/-- R341: C_REM copies the last rem_bits bits of the input, by position, and goes to C_PAD. -/
def Obligations.RemainderIsCopiedByPosition : Prop :=
  ∀ s : State,
    (s.remBits = 0 → exec .phaseCRem s = .next { s with phase := 10 }) ∧
    (0 < s.remBits → portOk s = true → Memory.wf s.obuf = true → readable s s.usableBits s.remBits = true →
      room s s.remBits = true →
      ∃ u, Appended { s with port := s.port.drop s.remBits } (inputSlice s s.usableBits s.remBits) u ∧
        exec .phaseCRem s = .next { u with phase := 10 })

/-- R342, R109: C_PAD appends the zero bits up to the byte boundary, sets OUT_LEN to the writer's position and ends in
DONE; with the writer on a boundary nothing is written. -/
def Obligations.PadFlushesAndFinishes : Prop :=
  ∀ s : State, portOk s = true → Memory.wf s.obuf = true → room s (padding s) = true →
    ∃ u, Appended s (List.replicate (padding s) false) u ∧ u.wrCnt = 0 ∧ padding s < 8 ∧
      (s.wrCnt = 0 → u = s) ∧ exec .phaseCPad s = .next (enterDone u.wrPos u)

/-! ## Decompression -/

/-- R296: D_HDR reads letter_size and file_size and goes to D_TREE_RD if usable_bits > 0, else to D_REM. -/
def Obligations.HeaderReadsTwoFields : Prop :=
  ∀ s : State, portOk s = true → readerOk s = true → s.rdPos + 72 ≤ s.inBits →
    letterSizeOk (val (inputSlice s s.rdPos 8)) = true →
    let l := val (inputSlice s s.rdPos 8)
    let f := val (inputSlice s (s.rdPos + 8) 64)
    exec .phaseDHdr s = .next { s with
      l := BitVec.ofNat 8 l, f := BitVec.ofNat 64 f
      totalBits := 8 * f, n := 8 * f / l, usableBits := l * (8 * f / l), remBits := 8 * f % l
      rdPos := s.rdPos + 72, port := s.port.drop 72, phase := if 0 < l * (8 * f / l) then 18 else 20 }

/-- R603 (a) and (b): D_HDR raises Corrupt on a letter_size outside 2 to 16, and on an artifact that ends inside the
header, each with ERR_PHASE 17. -/
def Obligations.BadHeaderIsCorrupt : Prop :=
  ∀ s : State, portOk s = true → readerOk s = true →
    (s.inBits < s.rdPos + 8 → exec .phaseDHdr s = .next (enterError 2 17 s.wrPos.toNat s)) ∧
    (s.rdPos + 8 ≤ s.inBits →
      letterSizeOk (val (inputSlice s s.rdPos 8)) = false ∨ s.inBits < s.rdPos + 72 →
      exec .phaseDHdr s = .next (enterError 2 17 s.wrPos.toNat { s with port := s.port.drop 8 }))

/-- R297: at end of input before the first flag bit D_TREE_RD ends in DONE with empty output (checkpoint B). -/
def Obligations.NoTreeBitsIsEmptyOutput : Prop :=
  ∀ s : State, s.rdPos = s.inBits → exec .phaseDTreeRd s = .next (enterDone 0 s)

/-- R301: from a stream that goes on with ser(t), D_TREE_RD rebuilds t in NODE, reads exactly those bits and goes to
D_DECODE with i = 0. -/
def Obligations.SerializedTreeIsReadBack : Prop :=
  ∀ (s : State) (tree : Tree), portOk s = true → readerOk s = true → letterSizeOk s.l.toNat = true →
    Table.wf NodeSlot.blank s.node = true → s.nNodes + tree.size ≤ Config.treeNodeCap →
    (∀ v ∈ tree.letters, v.toNat < 2 ^ s.l.toNat) → tree.ser s.l.toNat <+: bitsLeft s →
    ∃ t r, exec .phaseDTreeRd s = .next t ∧ t.root = some r ∧ treeAt t r tree = true ∧
      (∀ k, k < s.nNodes ∨ s.nNodes + tree.size ≤ k → slotOf t k = slotOf s k) ∧
      t = { s with
        node := t.node, nNodes := s.nNodes + tree.size, root := some r, pending := []
        rdPos := s.rdPos + (tree.ser s.l.toNat).length, port := s.port.drop (tree.ser s.l.toNat).length, i := 0
        phase := 19 }

/-- R603 (c): an artifact that ends inside a tree, after its first flag bit, raises Corrupt with ERR_PHASE 18. -/
def Obligations.TruncatedTreeIsCorrupt : Prop :=
  ∀ (s : State) (tree : Tree), portOk s = true → readerOk s = true → letterSizeOk s.l.toNat = true →
    Table.wf NodeSlot.blank s.node = true → s.nNodes + tree.size ≤ Config.treeNodeCap →
    (∀ v ∈ tree.letters, v.toNat < 2 ^ s.l.toNat) → bitsLeft s ≠ [] → bitsLeft s <+: tree.ser s.l.toNat →
    bitsLeft s ≠ tree.ser s.l.toNat →
    ∃ t, exec .phaseDTreeRd s = .next t ∧ t.errCode = 2 ∧ t.errPhase = 18 ∧ t.outLen = 0 ∧ t.phase = 31

/-- R299: with TREE_NODE_CAP nodes in use the next token of a tree raises Corrupt, before any bit of it is read. -/
def Obligations.FullNodeStoreIsCorrupt : Prop :=
  ∀ (s : State) (v : BitVec 16), s.nNodes = 131071 →
    exec (.treeLeaf v) s = .next (enterError 2 18 s.wrPos.toNat s) ∧
    exec .treeJoint s = .next (enterError 2 18 s.wrPos.toNat s) ∧
    (s.rdPos ≠ s.inBits → exec .phaseDTreeRd s = .next (enterError 2 18 s.wrPos.toNat s))

/-- R298: a JOINT token takes the next node index and waits for its subtrees. A LEAF token takes the next index, becomes
a Leaf and returns its index: each pending Joint that already has its left child takes the returned index as its right
child, is stored and returns its own index in turn; the first that has none takes the returned index as its left child;
with no Joint pending it is the root. `full` lists the Joints that have their left child, innermost first, with that
child. The stack is the model's (log 10), and so is that a slot keeps the fields its kind does not use (log 13): the
children and the frequency of the Leaf, the letter and the frequency of a Joint. -/
def Obligations.TreeTokensAllocateNodes : Prop :=
  ∀ (s : State) (v : BitVec 16) (full : List (Nat × Nat)) (rest : List PendingJoint),
    s.nNodes < Config.treeNodeCap → Table.wf NodeSlot.blank s.node = true →
    exec .treeJoint s = .next { s with nNodes := s.nNodes + 1, pending := ⟨s.nNodes, none⟩ :: s.pending } ∧
    (s.pending = (full.map fun e => ⟨e.1, some e.2⟩) ++ rest → (full.map Prod.fst).Nodup →
      (∀ e ∈ full, e.1 < s.nNodes) → (∀ e ∈ rest.head?, e.left = none) →
      let returned := s.nNodes :: full.map Prod.fst
      ∃ t, exec (.treeLeaf v) s = .next t ∧
        slotOf t s.nNodes = { slotOf s s.nNodes with kind := .leaf, letter := v } ∧
        (∀ (m : Nat) (h : m < full.length),
          slotOf t full[m].1 = { slotOf s full[m].1 with
            kind := .joint, left := full[m].2, right := returned.getD m 0 }) ∧
        (∀ k, k ≠ s.nNodes → k ∉ full.map Prod.fst → slotOf t k = slotOf s k) ∧
        (rest = [] → t = { s with
          node := t.node, nNodes := s.nNodes + 1, pending := [], root := some (returned.getD full.length 0) }) ∧
        (∀ j below, rest = ⟨j, none⟩ :: below → t = { s with
          node := t.node, nNodes := s.nNodes + 1
          pending := ⟨j, some (returned.getD full.length 0)⟩ :: below }))

/-- A part of a step with the stack of pending Joints forgotten (log 10). -/
def forgetPending : Run State → Run State
  | .ok s => .ok { s with pending := [] }
  | .error (.raise e s) => .error (.raise e { s with pending := [] })
  | .error (.fault r) => .error (.fault r)

/-- R298: the token loop of D_TREE_RD is the recursive ReadTree of the rule, in every state, whatever the stream holds
and the port answers; the stack of pending Joints is the model's (log 10). -/
def Obligations.TokenLoopIsReadTree : Prop :=
  ∀ s : State,
    forgetPending (readTree s) =
      forgetPending (do
        let (k, t) ← readTreeCall (s.inBits - s.rdPos + 1) s
        .ok { t with root := some k })

/-- R370: D_DECODE writes the letter the next body bits name in a walk from the root, left on 0 and right on 1, or the
one letter of a single Leaf for one bit of either value, and goes to D_REM after the last letter. -/
def Obligations.DecodeWalksToALeaf : Prop :=
  ∀ (s : State) (r : Nat) (tree : Tree) (v : BitVec 16) (after : Bits), portOk s = true → readerOk s = true →
    Memory.wf s.obuf = true → s.root = some r → treeAt s r tree = true →
    tree.decodeOne (bitsLeft s) = some (v, after) → room s s.l.toNat = true →
    ∃ u, Appended { s with rdPos := s.inBits - after.length, port := s.port.drop ((bitsLeft s).length - after.length) }
        (bin s.l.toNat v.toNat) u ∧
      exec .phaseDDecode s = .next { u with i := s.i + 1, phase := if s.i + 1 = s.n then 20 else s.phase }

/-- R603 (e): an artifact that ends inside a code raises Corrupt with ERR_PHASE 19. -/
def Obligations.TruncatedBodyIsCorrupt : Prop :=
  ∀ (s : State) (r : Nat) (tree : Tree), portOk s = true → readerOk s = true → s.root = some r →
    treeAt s r tree = true → tree.decodeOne (bitsLeft s) = none →
    exec .phaseDDecode s =
      .next (enterError 2 19 s.wrPos.toNat { s with port := s.port.drop (s.inBits - s.rdPos) })

/-- R371 and R603 (f): D_REM copies rem_bits bits from the stream and goes to D_FLUSH, or raises Corrupt with ERR_PHASE
20 when fewer are left. -/
def Obligations.RemainderIsReadOrCorrupt : Prop :=
  ∀ s : State,
    (s.remBits = 0 → exec .phaseDRem s = .next { s with phase := 21 }) ∧
    (0 < s.remBits → s.inBits < s.rdPos + s.remBits →
      exec .phaseDRem s = .next (enterError 2 20 s.wrPos.toNat s)) ∧
    (0 < s.remBits → s.rdPos + s.remBits ≤ s.inBits → portOk s = true → readerOk s = true →
      Memory.wf s.obuf = true → room s s.remBits = true →
      ∃ u, Appended { s with rdPos := s.rdPos + s.remBits, port := s.port.drop s.remBits }
          (inputSlice s s.rdPos s.remBits) u ∧
        exec .phaseDRem s = .next { u with phase := 21 })

/-- R372: D_FLUSH with the writer on a byte boundary writes nothing, sets OUT_LEN to the writer's position and ends in
DONE; off a boundary it pads as C_PAD does (20_memory.md R109). -/
def Obligations.FlushFinishesDecompression : Prop :=
  ∀ s : State,
    (s.wrCnt = 0 → exec .phaseDFlush s = .next (enterDone s.wrPos s)) ∧
    (portOk s = true → Memory.wf s.obuf = true → room s (padding s) = true →
      ∃ u, Appended s (List.replicate (padding s) false) u ∧ u.wrCnt = 0 ∧
        exec .phaseDFlush s = .next (enterDone u.wrPos u))


/-- R372, R167: in a state that meets the invariant D_FLUSH writes nothing, and the output is exactly the F bytes the
header names. -/
def Obligations.DecompressedLengthIsFileSize : Prop :=
  ∀ s : State, Inv s → s.phase = 21 →
    exec .phaseDFlush s = .next (enterDone s.f s) ∧ s.wrCnt = 0 ∧ s.wrPos = s.f

/-! ## Errors -/

/-- R604 (b): with OUT_CAP < 9 the header cannot be written: C_HDR, entered with the writer at its start, stores the
bytes that fit and raises Io with ERR_PHASE 6. -/
def Obligations.HeaderBeyondCapacityIsIo : Prop :=
  ∀ s : State, portOk s = true → Memory.wf s.obuf = true → s.wrPos = 0 → s.wrCnt = 0 → s.outCap < 9 →
    ∃ t, exec .phaseCHdr s = .next t ∧ t.errCode = 3 ∧ t.errPhase = 6 ∧ t.outLen = 0 ∧ t.phase = 31 ∧
      ∀ a, s.outCap ≤ a → Memory.read t.obuf a = Memory.read s.obuf a

/-- R604 (c), in every state: if one of the memory port's answers that a step uses up is fault, then it is the last of
them, the step is a phase's, and it raises Io with that phase. Then where the
fault is met, each with ERROR_ENTRY as its whole effect: at the first byte read in C_COUNT, C_ENCODE, C_REM, D_HDR,
D_TREE_RD, D_DECODE and D_REM; at the first byte written in C_HDR and C_PAD; and at the first byte C_ENCODE writes, once
its letter has been read. What an error leaves free is log 11. -/
def Obligations.PortFaultIsIo : Prop :=
  (∀ (i : Instr) (s t : State) (used : List PortAnswer), exec i s = .next t → s.port = used ++ t.port →
    PortAnswer.fault ∈ used →
    ∃ (p : Phase) (oks : List PortAnswer), i = decodePhase (phaseCode p) ∧
      used = oks ++ [.fault] ∧ (∀ a ∈ oks, a = .ok) ∧
      t.phase = 31 ∧ t.errCode = 3 ∧ t.errPhase = phaseCode p ∧ t.outLen = 0) ∧
  (∀ (s : State) (answers : List PortAnswer), s.port = .fault :: answers →
    let error (phase : BitVec 5) := Host.Outcome.next (enterError 3 phase s.wrPos.toNat { s with port := answers })
    (letterSizeOk s.l.toNat = true → readable s (s.i * s.l.toNat) s.l.toNat = true →
      exec .phaseCCount s = error 2 ∧ exec .phaseCEncode s = error 8) ∧
    (0 < s.remBits → readable s s.usableBits s.remBits = true → exec .phaseCRem s = error 9) ∧
    (readerOk s = true →
      (s.rdPos + 8 ≤ s.inBits → exec .phaseDHdr s = error 17) ∧
      (s.rdPos < s.inBits → s.nNodes < Config.treeNodeCap → exec .phaseDTreeRd s = error 18) ∧
      (∀ r, s.rdPos < s.inBits → s.root = some r → r < Config.treeNodeCap → exec .phaseDDecode s = error 19) ∧
      (0 < s.remBits → s.rdPos + s.remBits ≤ s.inBits → exec .phaseDRem s = error 20)) ∧
    (s.wrCnt < 8 → s.wrPos.toNat < s.outCap →
      exec .phaseCHdr s = error 6 ∧ (0 < s.wrCnt → exec .phaseCPad s = error 10))) ∧
  (∀ (s : State) (answers : List PortAnswer),
    s.port = List.replicate s.l.toNat .ok ++ .fault :: answers → letterSizeOk s.l.toNat = true →
    readable s (s.i * s.l.toNat) s.l.toNat = true → (codeOf s (letterOf s s.i)).valid = true →
    s.wrCnt < 8 → 8 ≤ s.wrCnt + (codeOf s (letterOf s s.i)).bits.length → s.wrPos.toNat < s.outCap →
    exec .phaseCEncode s = .next (enterError 3 8 s.wrPos.toNat { s with port := answers }))

/-- R600, R601: from a state that meets the invariant, a step that runs an instruction and ends in ERROR records one of
the pairs of ERR_CODE and ERR_PHASE the rule's table allows, with OUT_LEN = 0; ERR_PHASE is the phase of the step, or 0
for an illegal command. A quiescent step of ERROR itself changes nothing and is set apart. -/
def Obligations.ErrorKindsByPhase : Prop :=
  ∀ (s s' t : State) (i : Instr), Inv s → nextMove s = (.run i, s') → i ≠ .phaseError → exec i s' = .next t →
    t.phase = 31 →
    t.outLen = 0 ∧
      ((∃ w, i = .illegalCommand w) ∧ t.errCode = 5 ∧ t.errPhase = 0 ∨
        t.errPhase = s.phase ∧
          (t.errCode.toNat, s.phase.toNat) ∈
            [(1, 1), (2, 17), (2, 18), (2, 19), (2, 20), (3, 1), (3, 2), (3, 6), (3, 7), (3, 8), (3, 9), (3, 10),
              (3, 16), (3, 17), (3, 18), (3, 19), (3, 20), (4, 8)])

/-! ## The whole machine -/

/-- R101 and R65: no instruction writes IBUF, LSIZE or IN_LEN, or the machine's parameters, or the inputs to come and
the host's reads; the host alone does. -/
def Obligations.BlockNeverWritesHostState : Prop :=
  ∀ (i : Instr) (s t : State), exec i s = .next t →
    t.ibuf = s.ibuf ∧ t.lsize = s.lsize ∧ t.inLen = s.inLen ∧ t.inCap = s.inCap ∧ t.outCap = s.outCap ∧
      t.inputs = s.inputs ∧ t.reads = s.reads

/-- R102: a step of the block writes OBUF from `wr_pos` up and nowhere else. A setup step writes none; a step that goes on
moves `wr_pos` up and writes no byte outside the bytes it moves over; a step that ends in DONE writes no byte at or
above OUT_LEN, or below where it started; one that ends in ERROR leaves every byte at or above OUT_CAP as it was, and
what the operation wrote is free (log 11). OUT_CAP is below 2^64 here, so that `wr_pos` stays in its 64 bits (log 7). -/
def Obligations.OutputIsWrittenInOrder : Prop :=
  ∀ s t : State, Inv s → s.outCap < 2 ^ 64 → exec (decodePhase s.phase) s = .next t →
    (s.phase = 1 ∨ s.phase = 16 → t.obuf = s.obuf) ∧
    (s.phase ≠ 1 → s.phase ≠ 16 →
      (t.phase ≠ 30 → t.phase ≠ 31 →
        s.wrPos.toNat ≤ t.wrPos.toNat ∧
        ∀ a, a < s.wrPos.toNat ∨ t.wrPos.toNat ≤ a → Memory.read t.obuf a = Memory.read s.obuf a) ∧
      (t.phase = 30 → ∀ a, a < s.wrPos.toNat ∨ t.outLen.toNat ≤ a → Memory.read t.obuf a = Memory.read s.obuf a) ∧
      (t.phase = 31 → ∀ a, s.outCap ≤ a → Memory.read t.obuf a = Memory.read s.obuf a))

/-- The outcome with LSIZE changed. -/
def withLsize (x : BitVec 8) : Host.Outcome State Fault Refusal → Host.Outcome State Fault Refusal
  | .next s => .next { s with lsize := x }
  | .fault r => .fault r
  | .refused r => .refused r

/-- R44, R711: LSIZE is read by C_SETUP alone: every other instruction, those of decompression among them, does the same
whatever LSIZE holds. -/
def Obligations.OnlyCompressSetupReadsLsize : Prop :=
  ∀ (i : Instr) (s : State) (x : BitVec 8), i ≠ .phaseCSetup →
    exec i { s with lsize := x } = withLsize x (exec i s)

/-- The invariant holds at reset. -/
def Obligations.InvariantHoldsAtReset : Prop := Inv State.reset

/-- Every step keeps the invariant: the canonical forms of the tables and buffers, the legal phases, the error fields and
OUT_LEN by phase, and what each phase is entered with. -/
def Obligations.StepKeepsInvariant : Prop := ∀ s t : State, Inv s → step s = .next t → Inv t

/-- From a state that meets the invariant, a step goes on: the only points where it does not are host hazards
(92_eei_decisions.md, Direction of the errors a model may take). -/
def Obligations.OnlyHostHazardsStop : Prop :=
  ∀ s : State, Inv s → StepGoesOn s ∨ ∃ e t, nextMove s = (.access e, t) ∧ hostHazard e t = true

/-- R721: from every state that meets the invariant, with no further input, the block reaches a quiescent phase within a
bounded number of steps. -/
def Obligations.EveryOperationEnds : Prop :=
  ∀ s : State, Inv s → s.inputs = [] →
    ∃ k ≤ 2 ^ 68, ∃ t, Sys2Proof.core.run k s = .next t ∧ quiescent t.phase = true

/-- R408: the outcomes of a COMPRESS, run with no further input to where it ends: InvalidArgument with the letter size
outside its domain; else Io with IN_LEN > IN_CAP; else success or Io, never Internal (R605). -/
def Obligations.CompressOutcomes : Prop :=
  ∀ (s t : State) (k : Nat), Inv s → s.phase = 1 → s.inputs = [] →
    Sys2Proof.core.run k s = .next t → quiescent t.phase = true →
    (letterSizeOk s.lsize.toNat = false → t.phase = 31 ∧ t.errCode = 1) ∧
    (letterSizeOk s.lsize.toNat = true → s.inCap < s.inLen.toNat → t.phase = 31 ∧ t.errCode = 3) ∧
    (letterSizeOk s.lsize.toNat = true → t.phase = 30 ∨ t.phase = 31 ∧ t.errCode = 3)

/-- R343: where a COMPRESS ends in DONE, OBUF[0..OUT_LEN - 1] is the artifact: letter_size, file_size, the serialized tree
when there is a complete letter, the codes of the letters in order, the remainder, and zero padding to a byte. -/
def Obligations.CompressWritesTheArtifact : Prop :=
  ∀ (s t : State) (k : Nat), Inv s → s.phase = 1 → s.inputs = [] → s.outCap < 2 ^ 64 →
    Sys2Proof.core.run k s = .next t → t.phase = 30 →
    let l := s.lsize.toNat
    let total := 8 * s.inLen.toNat
    let letters := (List.range (total / l)).map fun j => BitVec.ofNat 16 (val (inputSlice s (j * l) l))
    ∃ (treeBits body pad : Bits),
      streamBits (Memory.readAll t.obuf 0 t.outLen.toNat) =
        bin 8 l ++ bin 64 s.inLen.toNat ++ treeBits ++ body ++
          inputSlice s (total / l * l) (total % l) ++ pad ∧
      pad.length < 8 ∧ (∀ b ∈ pad, b = false) ∧
      (letters = [] → treeBits = [] ∧ body = []) ∧
      (letters ≠ [] → ∃ tree : Tree, treeBits = tree.ser l ∧ tree.letters.Nodup ∧
        (∀ v, v ∈ tree.letters ↔ v ∈ letters) ∧
        ∃ codes : List Bits, body = codes.flatten ∧
          List.Forall₂ (fun v code => (v, code) ∈ tree.codes) letters codes)

/-- R374: the round trip. `s` starts a COMPRESS of an input that fits IBUF, with its letter size in the domain and the
port ok. The input has an artifact of `n` bytes: with OUT_CAP below `n` the operation ends in Io (R604 (b)), and with
OUT_CAP at least `n` in DONE with OUT_LEN = n. `u` then starts a DECOMPRESS of that output copied to IBUF, with the port
ok and OUT_CAP large enough for the input: it ends in DONE with the input, byte for byte. OUT_CAP is below 2^64 in the
first operation (log 7); the bound on `n`, the model's, says that some OUT_CAP is enough. -/
def Obligations.DecompressInvertsCompress : Prop :=
  ∀ s : State, Inv s → s.phase = 1 → s.inputs = [] → letterSizeOk s.lsize.toNat = true →
    s.inLen.toNat ≤ s.inCap → portOk s = true →
    ∃ n ≤ 2 ^ 18 + 2 ^ 15 * s.inLen.toNat, ∀ cap < 2 ^ 64, ∃ (j : Nat) (t : State),
      Sys2Proof.core.run j { s with outCap := cap } = .next t ∧
      (cap < n → t.phase = 31 ∧ t.errCode = 3) ∧
      (n ≤ cap → t.phase = 30 ∧ t.outLen.toNat = n ∧
        ∀ u : State, Inv u → u.phase = 16 → u.inputs = [] → u.inLen = t.outLen → u.inLen.toNat ≤ u.inCap →
          (∀ a < n, Memory.read u.ibuf a = Memory.read t.obuf a) → portOk u = true → s.inLen.toNat ≤ u.outCap →
          ∃ (k : Nat) (v : State), Sys2Proof.core.run k u = .next v ∧ v.phase = 30 ∧ v.outLen = s.inLen ∧
            ∀ a < s.inLen.toNat, Memory.read v.obuf a = Memory.read s.ibuf a)

/-! ## Encodings, trees and codes -/

/-- Decoding an encoded well-formed instruction gives it back, with the bits after a tree token left over. -/
def Obligations.DecodeInvertsEncode : Prop :=
  ∀ (i : Instr) (letterSize : Nat) (rest : Bits), i.wellFormed letterSize = true →
    match encode letterSize i with
    | .command w => decode (.command w) = .ok (i, [])
    | .phase c => decode (.phase c) = .ok (i, [])
    | .token l bits => decode (.token l (bits ++ rest)) = .ok (i, rest)

/-- Every command word and phase code has one meaning: encoding what it decodes to gives it back; and every phase `phase
<- P` can set decodes to a well-formed instruction that is not reserved (R151, R153). -/
def Obligations.EncodeInvertsDecode : Prop :=
  (∀ (w : BitVec 64) (letterSize : Nat),
    encode letterSize (decodeCommand w) = .command w ∧ (decodeCommand w).wellFormed letterSize = true) ∧
  (∀ (c : BitVec 5) (letterSize : Nat),
    encode letterSize (decodePhase c) = .phase c ∧ (decodePhase c).wellFormed letterSize = true) ∧
  (∀ p : Phase, reservedPhase (phaseCode p) = false)

/-- R158, R292: a tree of n leaves has 2n - 1 nodes and its serialization 2n - 1 + n·L bits. -/
def Obligations.SerializedTreeLength : Prop :=
  ∀ (tree : Tree) (l : Nat),
    tree.size = 2 * tree.letters.length - 1 ∧
      (tree.ser l).length = 2 * tree.letters.length - 1 + tree.letters.length * l

/-- R263: in a tree of two or more leaves no leaf's path is the start of another's, every path has 1 to n - 1 bits, and
the sum of 2^(-length) over the leaves is 1, here over 2^(n-1); so no two leaves share a path. The one code of a single
Leaf is 0. -/
def Obligations.CodesArePrefixFree : Prop :=
  ∀ (a b : Tree) (v : BitVec 16),
    let tree := Tree.joint a b
    let n := tree.letters.length
    tree.codes.Pairwise (fun x y => ¬ x.2 <+: y.2 ∧ ¬ y.2 <+: x.2) ∧
      (∀ x ∈ tree.codes, 1 ≤ x.2.length ∧ x.2.length ≤ n - 1) ∧
      (tree.codes.map fun x => 2 ^ (n - 1 - x.2.length)).sum = 2 ^ (n - 1) ∧
      (Tree.leaf v).codes = [(v, [false])]

/-- R373: on a leaf's path followed by any bits, the walk of D_DECODE reaches that leaf and leaves those bits; and every
letter a walk finds is found by a leaf's path. -/
def Obligations.WalkFindsThePath : Prop :=
  ∀ (a b : Tree) (v : BitVec 16) (rest bits : Bits),
    let tree := Tree.joint a b
    (∀ path, (v, path) ∈ tree.codes → tree.decodeOne (path ++ rest) = some (v, rest)) ∧
      (tree.decodeOne bits = some (v, rest) → ∃ path, (v, path) ∈ tree.codes ∧ bits = path ++ rest)

/-- R201, R10: the size arithmetic is exact, leaves a remainder below L, and stays within the widths of the rules. -/
def Obligations.SizesAddUp : Prop :=
  ∀ f l : Nat, 2 ≤ l →
    let z := sizes f l
    z.totalBits = 8 * f ∧ z.usableBits = l * z.n ∧ z.usableBits + z.remBits = z.totalBits ∧ z.remBits < l ∧
      z.remBits = z.totalBits % l ∧ (f < 2 ^ 64 → z.totalBits < 2 ^ 67 ∧ z.n < 2 ^ 66)
end

