-- ==== Sys2Proof/Laws/State.lean ====
section
/-! SUPPORT. What each named update of State does to each field: one lemma a field, true by unfolding, so that no proof unfolds a record update. -/

namespace Sys2Proof.Machine

/-! ## setPhase -/

@[simp] theorem setPhase_inCap (p : Phase) (s : State) : (setPhase p s).inCap = s.inCap := (rfl)
@[simp] theorem setPhase_outCap (p : Phase) (s : State) : (setPhase p s).outCap = s.outCap := (rfl)
@[simp] theorem setPhase_lsize (p : Phase) (s : State) : (setPhase p s).lsize = s.lsize := (rfl)
@[simp] theorem setPhase_inLen (p : Phase) (s : State) : (setPhase p s).inLen = s.inLen := (rfl)
@[simp] theorem setPhase_outLen (p : Phase) (s : State) : (setPhase p s).outLen = s.outLen := (rfl)
@[simp] theorem setPhase_phase (p : Phase) (s : State) : (setPhase p s).phase = phaseCode p := (rfl)
@[simp] theorem setPhase_errCode (p : Phase) (s : State) : (setPhase p s).errCode = s.errCode := (rfl)
@[simp] theorem setPhase_errPhase (p : Phase) (s : State) : (setPhase p s).errPhase = s.errPhase := (rfl)
@[simp] theorem setPhase_l (p : Phase) (s : State) : (setPhase p s).l = s.l := (rfl)
@[simp] theorem setPhase_f (p : Phase) (s : State) : (setPhase p s).f = s.f := (rfl)
@[simp] theorem setPhase_totalBits (p : Phase) (s : State) : (setPhase p s).totalBits = s.totalBits := (rfl)
@[simp] theorem setPhase_n (p : Phase) (s : State) : (setPhase p s).n = s.n := (rfl)
@[simp] theorem setPhase_usableBits (p : Phase) (s : State) : (setPhase p s).usableBits = s.usableBits := (rfl)
@[simp] theorem setPhase_remBits (p : Phase) (s : State) : (setPhase p s).remBits = s.remBits := (rfl)
@[simp] theorem setPhase_inBits (p : Phase) (s : State) : (setPhase p s).inBits = s.inBits := (rfl)
@[simp] theorem setPhase_rdPos (p : Phase) (s : State) : (setPhase p s).rdPos = s.rdPos := (rfl)
@[simp] theorem setPhase_wrAcc (p : Phase) (s : State) : (setPhase p s).wrAcc = s.wrAcc := (rfl)
@[simp] theorem setPhase_wrCnt (p : Phase) (s : State) : (setPhase p s).wrCnt = s.wrCnt := (rfl)
@[simp] theorem setPhase_wrPos (p : Phase) (s : State) : (setPhase p s).wrPos = s.wrPos := (rfl)
@[simp] theorem setPhase_i (p : Phase) (s : State) : (setPhase p s).i = s.i := (rfl)
@[simp] theorem setPhase_freq (p : Phase) (s : State) : (setPhase p s).freq = s.freq := (rfl)
@[simp] theorem setPhase_node (p : Phase) (s : State) : (setPhase p s).node = s.node := (rfl)
@[simp] theorem setPhase_nNodes (p : Phase) (s : State) : (setPhase p s).nNodes = s.nNodes := (rfl)
@[simp] theorem setPhase_active (p : Phase) (s : State) : (setPhase p s).active = s.active := (rfl)
@[simp] theorem setPhase_root (p : Phase) (s : State) : (setPhase p s).root = s.root := (rfl)
@[simp] theorem setPhase_pending (p : Phase) (s : State) : (setPhase p s).pending = s.pending := (rfl)
@[simp] theorem setPhase_code (p : Phase) (s : State) : (setPhase p s).code = s.code := (rfl)
@[simp] theorem setPhase_ibuf (p : Phase) (s : State) : (setPhase p s).ibuf = s.ibuf := (rfl)
@[simp] theorem setPhase_obuf (p : Phase) (s : State) : (setPhase p s).obuf = s.obuf := (rfl)
@[simp] theorem setPhase_port (p : Phase) (s : State) : (setPhase p s).port = s.port := (rfl)
@[simp] theorem setPhase_inputs (p : Phase) (s : State) : (setPhase p s).inputs = s.inputs := (rfl)
@[simp] theorem setPhase_reads (p : Phase) (s : State) : (setPhase p s).reads = s.reads := (rfl)
@[simp] theorem setPhase_draws (p : Phase) (s : State) : (setPhase p s).draws = s.draws := (rfl)

/-! ## releaseInternals -/

@[simp] theorem releaseInternals_inCap (s : State) : (releaseInternals s).inCap = s.inCap := (rfl)
@[simp] theorem releaseInternals_outCap (s : State) : (releaseInternals s).outCap = s.outCap := (rfl)
@[simp] theorem releaseInternals_lsize (s : State) : (releaseInternals s).lsize = s.lsize := (rfl)
@[simp] theorem releaseInternals_inLen (s : State) : (releaseInternals s).inLen = s.inLen := (rfl)
@[simp] theorem releaseInternals_outLen (s : State) : (releaseInternals s).outLen = s.outLen := (rfl)
@[simp] theorem releaseInternals_phase (s : State) : (releaseInternals s).phase = s.phase := (rfl)
@[simp] theorem releaseInternals_errCode (s : State) : (releaseInternals s).errCode = s.errCode := (rfl)
@[simp] theorem releaseInternals_errPhase (s : State) : (releaseInternals s).errPhase = s.errPhase := (rfl)
@[simp] theorem releaseInternals_l (s : State) : (releaseInternals s).l = (Config.freeContents s.draws).admissible.l := (rfl)
@[simp] theorem releaseInternals_f (s : State) : (releaseInternals s).f = (Config.freeContents s.draws).admissible.f := (rfl)
@[simp] theorem releaseInternals_totalBits (s : State) : (releaseInternals s).totalBits = (Config.freeContents s.draws).admissible.totalBits := (rfl)
@[simp] theorem releaseInternals_n (s : State) : (releaseInternals s).n = (Config.freeContents s.draws).admissible.n := (rfl)
@[simp] theorem releaseInternals_usableBits (s : State) : (releaseInternals s).usableBits = (Config.freeContents s.draws).admissible.usableBits := (rfl)
@[simp] theorem releaseInternals_remBits (s : State) : (releaseInternals s).remBits = (Config.freeContents s.draws).admissible.remBits := (rfl)
@[simp] theorem releaseInternals_inBits (s : State) : (releaseInternals s).inBits = (Config.freeContents s.draws).admissible.inBits := (rfl)
@[simp] theorem releaseInternals_rdPos (s : State) : (releaseInternals s).rdPos = (Config.freeContents s.draws).admissible.rdPos := (rfl)
@[simp] theorem releaseInternals_wrAcc (s : State) : (releaseInternals s).wrAcc = (Config.freeContents s.draws).admissible.wrAcc := (rfl)
@[simp] theorem releaseInternals_wrCnt (s : State) : (releaseInternals s).wrCnt = (Config.freeContents s.draws).admissible.wrCnt := (rfl)
@[simp] theorem releaseInternals_wrPos (s : State) : (releaseInternals s).wrPos = (Config.freeContents s.draws).admissible.wrPos := (rfl)
@[simp] theorem releaseInternals_i (s : State) : (releaseInternals s).i = (Config.freeContents s.draws).admissible.i := (rfl)
@[simp] theorem releaseInternals_freq (s : State) : (releaseInternals s).freq = (Config.freeContents s.draws).admissible.freq := (rfl)
@[simp] theorem releaseInternals_node (s : State) : (releaseInternals s).node = (Config.freeContents s.draws).admissible.node := (rfl)
@[simp] theorem releaseInternals_nNodes (s : State) : (releaseInternals s).nNodes = (Config.freeContents s.draws).admissible.nNodes := (rfl)
@[simp] theorem releaseInternals_active (s : State) : (releaseInternals s).active = (Config.freeContents s.draws).admissible.active := (rfl)
@[simp] theorem releaseInternals_root (s : State) : (releaseInternals s).root = (Config.freeContents s.draws).admissible.root := (rfl)
@[simp] theorem releaseInternals_pending (s : State) : (releaseInternals s).pending = (Config.freeContents s.draws).admissible.pending := (rfl)
@[simp] theorem releaseInternals_code (s : State) : (releaseInternals s).code = (Config.freeContents s.draws).admissible.code := (rfl)
@[simp] theorem releaseInternals_ibuf (s : State) : (releaseInternals s).ibuf = s.ibuf := (rfl)
@[simp] theorem releaseInternals_obuf (s : State) : (releaseInternals s).obuf = s.obuf := (rfl)
@[simp] theorem releaseInternals_port (s : State) : (releaseInternals s).port = s.port := (rfl)
@[simp] theorem releaseInternals_inputs (s : State) : (releaseInternals s).inputs = s.inputs := (rfl)
@[simp] theorem releaseInternals_reads (s : State) : (releaseInternals s).reads = s.reads := (rfl)
@[simp] theorem releaseInternals_draws (s : State) : (releaseInternals s).draws = s.draws + 1 := (rfl)

/-! ## releaseOutput -/

@[simp] theorem releaseOutput_inCap (n : Nat) (s : State) : (releaseOutput n s).inCap = s.inCap := (rfl)
@[simp] theorem releaseOutput_outCap (n : Nat) (s : State) : (releaseOutput n s).outCap = s.outCap := (rfl)
@[simp] theorem releaseOutput_lsize (n : Nat) (s : State) : (releaseOutput n s).lsize = s.lsize := (rfl)
@[simp] theorem releaseOutput_inLen (n : Nat) (s : State) : (releaseOutput n s).inLen = s.inLen := (rfl)
@[simp] theorem releaseOutput_outLen (n : Nat) (s : State) : (releaseOutput n s).outLen = s.outLen := (rfl)
@[simp] theorem releaseOutput_phase (n : Nat) (s : State) : (releaseOutput n s).phase = s.phase := (rfl)
@[simp] theorem releaseOutput_errCode (n : Nat) (s : State) : (releaseOutput n s).errCode = s.errCode := (rfl)
@[simp] theorem releaseOutput_errPhase (n : Nat) (s : State) : (releaseOutput n s).errPhase = s.errPhase := (rfl)
@[simp] theorem releaseOutput_l (n : Nat) (s : State) : (releaseOutput n s).l = s.l := (rfl)
@[simp] theorem releaseOutput_f (n : Nat) (s : State) : (releaseOutput n s).f = s.f := (rfl)
@[simp] theorem releaseOutput_totalBits (n : Nat) (s : State) : (releaseOutput n s).totalBits = s.totalBits := (rfl)
@[simp] theorem releaseOutput_n (n : Nat) (s : State) : (releaseOutput n s).n = s.n := (rfl)
@[simp] theorem releaseOutput_usableBits (n : Nat) (s : State) : (releaseOutput n s).usableBits = s.usableBits := (rfl)
@[simp] theorem releaseOutput_remBits (n : Nat) (s : State) : (releaseOutput n s).remBits = s.remBits := (rfl)
@[simp] theorem releaseOutput_inBits (n : Nat) (s : State) : (releaseOutput n s).inBits = s.inBits := (rfl)
@[simp] theorem releaseOutput_rdPos (n : Nat) (s : State) : (releaseOutput n s).rdPos = s.rdPos := (rfl)
@[simp] theorem releaseOutput_wrAcc (n : Nat) (s : State) : (releaseOutput n s).wrAcc = s.wrAcc := (rfl)
@[simp] theorem releaseOutput_wrCnt (n : Nat) (s : State) : (releaseOutput n s).wrCnt = s.wrCnt := (rfl)
@[simp] theorem releaseOutput_wrPos (n : Nat) (s : State) : (releaseOutput n s).wrPos = s.wrPos := (rfl)
@[simp] theorem releaseOutput_i (n : Nat) (s : State) : (releaseOutput n s).i = s.i := (rfl)
@[simp] theorem releaseOutput_freq (n : Nat) (s : State) : (releaseOutput n s).freq = s.freq := (rfl)
@[simp] theorem releaseOutput_node (n : Nat) (s : State) : (releaseOutput n s).node = s.node := (rfl)
@[simp] theorem releaseOutput_nNodes (n : Nat) (s : State) : (releaseOutput n s).nNodes = s.nNodes := (rfl)
@[simp] theorem releaseOutput_active (n : Nat) (s : State) : (releaseOutput n s).active = s.active := (rfl)
@[simp] theorem releaseOutput_root (n : Nat) (s : State) : (releaseOutput n s).root = s.root := (rfl)
@[simp] theorem releaseOutput_pending (n : Nat) (s : State) : (releaseOutput n s).pending = s.pending := (rfl)
@[simp] theorem releaseOutput_code (n : Nat) (s : State) : (releaseOutput n s).code = s.code := (rfl)
@[simp] theorem releaseOutput_ibuf (n : Nat) (s : State) : (releaseOutput n s).ibuf = s.ibuf := (rfl)
@[simp] theorem releaseOutput_obuf (n : Nat) (s : State) : (releaseOutput n s).obuf = Memory.writeAll s.obuf 0 (freeBytes s.draws n) := (rfl)
@[simp] theorem releaseOutput_port (n : Nat) (s : State) : (releaseOutput n s).port = s.port := (rfl)
@[simp] theorem releaseOutput_inputs (n : Nat) (s : State) : (releaseOutput n s).inputs = s.inputs := (rfl)
@[simp] theorem releaseOutput_reads (n : Nat) (s : State) : (releaseOutput n s).reads = s.reads := (rfl)
@[simp] theorem releaseOutput_draws (n : Nat) (s : State) : (releaseOutput n s).draws = s.draws + n := (rfl)

/-! ## finish -/

@[simp] theorem finish_inCap (v : BitVec 64) (s : State) : (finish v s).inCap = s.inCap := (rfl)
@[simp] theorem finish_outCap (v : BitVec 64) (s : State) : (finish v s).outCap = s.outCap := (rfl)
@[simp] theorem finish_lsize (v : BitVec 64) (s : State) : (finish v s).lsize = s.lsize := (rfl)
@[simp] theorem finish_inLen (v : BitVec 64) (s : State) : (finish v s).inLen = s.inLen := (rfl)
@[simp] theorem finish_outLen (v : BitVec 64) (s : State) : (finish v s).outLen = v := (rfl)
@[simp] theorem finish_phase (v : BitVec 64) (s : State) : (finish v s).phase = 30 := (rfl)
@[simp] theorem finish_errCode (v : BitVec 64) (s : State) : (finish v s).errCode = s.errCode := (rfl)
@[simp] theorem finish_errPhase (v : BitVec 64) (s : State) : (finish v s).errPhase = s.errPhase := (rfl)
@[simp] theorem finish_l (v : BitVec 64) (s : State) : (finish v s).l = (Config.freeContents s.draws).admissible.l := (rfl)
@[simp] theorem finish_f (v : BitVec 64) (s : State) : (finish v s).f = (Config.freeContents s.draws).admissible.f := (rfl)
@[simp] theorem finish_totalBits (v : BitVec 64) (s : State) : (finish v s).totalBits = (Config.freeContents s.draws).admissible.totalBits := (rfl)
@[simp] theorem finish_n (v : BitVec 64) (s : State) : (finish v s).n = (Config.freeContents s.draws).admissible.n := (rfl)
@[simp] theorem finish_usableBits (v : BitVec 64) (s : State) : (finish v s).usableBits = (Config.freeContents s.draws).admissible.usableBits := (rfl)
@[simp] theorem finish_remBits (v : BitVec 64) (s : State) : (finish v s).remBits = (Config.freeContents s.draws).admissible.remBits := (rfl)
@[simp] theorem finish_inBits (v : BitVec 64) (s : State) : (finish v s).inBits = (Config.freeContents s.draws).admissible.inBits := (rfl)
@[simp] theorem finish_rdPos (v : BitVec 64) (s : State) : (finish v s).rdPos = (Config.freeContents s.draws).admissible.rdPos := (rfl)
@[simp] theorem finish_wrAcc (v : BitVec 64) (s : State) : (finish v s).wrAcc = (Config.freeContents s.draws).admissible.wrAcc := (rfl)
@[simp] theorem finish_wrCnt (v : BitVec 64) (s : State) : (finish v s).wrCnt = (Config.freeContents s.draws).admissible.wrCnt := (rfl)
@[simp] theorem finish_wrPos (v : BitVec 64) (s : State) : (finish v s).wrPos = (Config.freeContents s.draws).admissible.wrPos := (rfl)
@[simp] theorem finish_i (v : BitVec 64) (s : State) : (finish v s).i = (Config.freeContents s.draws).admissible.i := (rfl)
@[simp] theorem finish_freq (v : BitVec 64) (s : State) : (finish v s).freq = (Config.freeContents s.draws).admissible.freq := (rfl)
@[simp] theorem finish_node (v : BitVec 64) (s : State) : (finish v s).node = (Config.freeContents s.draws).admissible.node := (rfl)
@[simp] theorem finish_nNodes (v : BitVec 64) (s : State) : (finish v s).nNodes = (Config.freeContents s.draws).admissible.nNodes := (rfl)
@[simp] theorem finish_active (v : BitVec 64) (s : State) : (finish v s).active = (Config.freeContents s.draws).admissible.active := (rfl)
@[simp] theorem finish_root (v : BitVec 64) (s : State) : (finish v s).root = (Config.freeContents s.draws).admissible.root := (rfl)
@[simp] theorem finish_pending (v : BitVec 64) (s : State) : (finish v s).pending = (Config.freeContents s.draws).admissible.pending := (rfl)
@[simp] theorem finish_code (v : BitVec 64) (s : State) : (finish v s).code = (Config.freeContents s.draws).admissible.code := (rfl)
@[simp] theorem finish_ibuf (v : BitVec 64) (s : State) : (finish v s).ibuf = s.ibuf := (rfl)
@[simp] theorem finish_obuf (v : BitVec 64) (s : State) : (finish v s).obuf = s.obuf := (rfl)
@[simp] theorem finish_port (v : BitVec 64) (s : State) : (finish v s).port = s.port := (rfl)
@[simp] theorem finish_inputs (v : BitVec 64) (s : State) : (finish v s).inputs = s.inputs := (rfl)
@[simp] theorem finish_reads (v : BitVec 64) (s : State) : (finish v s).reads = s.reads := (rfl)
@[simp] theorem finish_draws (v : BitVec 64) (s : State) : (finish v s).draws = s.draws + 1 := (rfl)

/-! ## takeError -/

@[simp] theorem takeError_inCap (e : ErrorKind) (p : Phase) (s : State) : (takeError e p s).inCap = s.inCap := (rfl)
@[simp] theorem takeError_outCap (e : ErrorKind) (p : Phase) (s : State) : (takeError e p s).outCap = s.outCap := (rfl)
@[simp] theorem takeError_lsize (e : ErrorKind) (p : Phase) (s : State) : (takeError e p s).lsize = s.lsize := (rfl)
@[simp] theorem takeError_inLen (e : ErrorKind) (p : Phase) (s : State) : (takeError e p s).inLen = s.inLen := (rfl)
@[simp] theorem takeError_outLen (e : ErrorKind) (p : Phase) (s : State) : (takeError e p s).outLen = 0 := (rfl)
@[simp] theorem takeError_phase (e : ErrorKind) (p : Phase) (s : State) : (takeError e p s).phase = 31 := (rfl)
@[simp] theorem takeError_errCode (e : ErrorKind) (p : Phase) (s : State) : (takeError e p s).errCode = errorCode e := (rfl)
@[simp] theorem takeError_errPhase (e : ErrorKind) (p : Phase) (s : State) : (takeError e p s).errPhase = phaseCode p := (rfl)
@[simp] theorem takeError_l (e : ErrorKind) (p : Phase) (s : State) : (takeError e p s).l = (Config.freeContents (s.draws + bytesStored p s)).admissible.l := (rfl)
@[simp] theorem takeError_f (e : ErrorKind) (p : Phase) (s : State) : (takeError e p s).f = (Config.freeContents (s.draws + bytesStored p s)).admissible.f := (rfl)
@[simp] theorem takeError_totalBits (e : ErrorKind) (p : Phase) (s : State) : (takeError e p s).totalBits = (Config.freeContents (s.draws + bytesStored p s)).admissible.totalBits := (rfl)
@[simp] theorem takeError_n (e : ErrorKind) (p : Phase) (s : State) : (takeError e p s).n = (Config.freeContents (s.draws + bytesStored p s)).admissible.n := (rfl)
@[simp] theorem takeError_usableBits (e : ErrorKind) (p : Phase) (s : State) : (takeError e p s).usableBits = (Config.freeContents (s.draws + bytesStored p s)).admissible.usableBits := (rfl)
@[simp] theorem takeError_remBits (e : ErrorKind) (p : Phase) (s : State) : (takeError e p s).remBits = (Config.freeContents (s.draws + bytesStored p s)).admissible.remBits := (rfl)
@[simp] theorem takeError_inBits (e : ErrorKind) (p : Phase) (s : State) : (takeError e p s).inBits = (Config.freeContents (s.draws + bytesStored p s)).admissible.inBits := (rfl)
@[simp] theorem takeError_rdPos (e : ErrorKind) (p : Phase) (s : State) : (takeError e p s).rdPos = (Config.freeContents (s.draws + bytesStored p s)).admissible.rdPos := (rfl)
@[simp] theorem takeError_wrAcc (e : ErrorKind) (p : Phase) (s : State) : (takeError e p s).wrAcc = (Config.freeContents (s.draws + bytesStored p s)).admissible.wrAcc := (rfl)
@[simp] theorem takeError_wrCnt (e : ErrorKind) (p : Phase) (s : State) : (takeError e p s).wrCnt = (Config.freeContents (s.draws + bytesStored p s)).admissible.wrCnt := (rfl)
@[simp] theorem takeError_wrPos (e : ErrorKind) (p : Phase) (s : State) : (takeError e p s).wrPos = (Config.freeContents (s.draws + bytesStored p s)).admissible.wrPos := (rfl)
@[simp] theorem takeError_i (e : ErrorKind) (p : Phase) (s : State) : (takeError e p s).i = (Config.freeContents (s.draws + bytesStored p s)).admissible.i := (rfl)
@[simp] theorem takeError_freq (e : ErrorKind) (p : Phase) (s : State) : (takeError e p s).freq = (Config.freeContents (s.draws + bytesStored p s)).admissible.freq := (rfl)
@[simp] theorem takeError_node (e : ErrorKind) (p : Phase) (s : State) : (takeError e p s).node = (Config.freeContents (s.draws + bytesStored p s)).admissible.node := (rfl)
@[simp] theorem takeError_nNodes (e : ErrorKind) (p : Phase) (s : State) : (takeError e p s).nNodes = (Config.freeContents (s.draws + bytesStored p s)).admissible.nNodes := (rfl)
@[simp] theorem takeError_active (e : ErrorKind) (p : Phase) (s : State) : (takeError e p s).active = (Config.freeContents (s.draws + bytesStored p s)).admissible.active := (rfl)
@[simp] theorem takeError_root (e : ErrorKind) (p : Phase) (s : State) : (takeError e p s).root = (Config.freeContents (s.draws + bytesStored p s)).admissible.root := (rfl)
@[simp] theorem takeError_pending (e : ErrorKind) (p : Phase) (s : State) : (takeError e p s).pending = (Config.freeContents (s.draws + bytesStored p s)).admissible.pending := (rfl)
@[simp] theorem takeError_code (e : ErrorKind) (p : Phase) (s : State) : (takeError e p s).code = (Config.freeContents (s.draws + bytesStored p s)).admissible.code := (rfl)
@[simp] theorem takeError_ibuf (e : ErrorKind) (p : Phase) (s : State) : (takeError e p s).ibuf = s.ibuf := (rfl)
@[simp] theorem takeError_obuf (e : ErrorKind) (p : Phase) (s : State) : (takeError e p s).obuf = Memory.writeAll s.obuf 0 (freeBytes s.draws (bytesStored p s)) := (rfl)
@[simp] theorem takeError_port (e : ErrorKind) (p : Phase) (s : State) : (takeError e p s).port = s.port := (rfl)
@[simp] theorem takeError_inputs (e : ErrorKind) (p : Phase) (s : State) : (takeError e p s).inputs = s.inputs := (rfl)
@[simp] theorem takeError_reads (e : ErrorKind) (p : Phase) (s : State) : (takeError e p s).reads = s.reads := (rfl)
@[simp] theorem takeError_draws (e : ErrorKind) (p : Phase) (s : State) : (takeError e p s).draws = s.draws + bytesStored p s + 1 := (rfl)

/-! ## acceptCommand -/

@[simp] theorem acceptCommand_inCap (p : Phase) (s : State) : (acceptCommand p s).inCap = s.inCap := (rfl)
@[simp] theorem acceptCommand_outCap (p : Phase) (s : State) : (acceptCommand p s).outCap = s.outCap := (rfl)
@[simp] theorem acceptCommand_lsize (p : Phase) (s : State) : (acceptCommand p s).lsize = s.lsize := (rfl)
@[simp] theorem acceptCommand_inLen (p : Phase) (s : State) : (acceptCommand p s).inLen = s.inLen := (rfl)
@[simp] theorem acceptCommand_outLen (p : Phase) (s : State) : (acceptCommand p s).outLen = 0 := (rfl)
@[simp] theorem acceptCommand_phase (p : Phase) (s : State) : (acceptCommand p s).phase = phaseCode p := (rfl)
@[simp] theorem acceptCommand_errCode (p : Phase) (s : State) : (acceptCommand p s).errCode = 0 := (rfl)
@[simp] theorem acceptCommand_errPhase (p : Phase) (s : State) : (acceptCommand p s).errPhase = 0 := (rfl)
@[simp] theorem acceptCommand_l (p : Phase) (s : State) : (acceptCommand p s).l = s.l := (rfl)
@[simp] theorem acceptCommand_f (p : Phase) (s : State) : (acceptCommand p s).f = s.f := (rfl)
@[simp] theorem acceptCommand_totalBits (p : Phase) (s : State) : (acceptCommand p s).totalBits = s.totalBits := (rfl)
@[simp] theorem acceptCommand_n (p : Phase) (s : State) : (acceptCommand p s).n = s.n := (rfl)
@[simp] theorem acceptCommand_usableBits (p : Phase) (s : State) : (acceptCommand p s).usableBits = s.usableBits := (rfl)
@[simp] theorem acceptCommand_remBits (p : Phase) (s : State) : (acceptCommand p s).remBits = s.remBits := (rfl)
@[simp] theorem acceptCommand_inBits (p : Phase) (s : State) : (acceptCommand p s).inBits = s.inBits := (rfl)
@[simp] theorem acceptCommand_rdPos (p : Phase) (s : State) : (acceptCommand p s).rdPos = s.rdPos := (rfl)
@[simp] theorem acceptCommand_wrAcc (p : Phase) (s : State) : (acceptCommand p s).wrAcc = s.wrAcc := (rfl)
@[simp] theorem acceptCommand_wrCnt (p : Phase) (s : State) : (acceptCommand p s).wrCnt = s.wrCnt := (rfl)
@[simp] theorem acceptCommand_wrPos (p : Phase) (s : State) : (acceptCommand p s).wrPos = s.wrPos := (rfl)
@[simp] theorem acceptCommand_i (p : Phase) (s : State) : (acceptCommand p s).i = s.i := (rfl)
@[simp] theorem acceptCommand_freq (p : Phase) (s : State) : (acceptCommand p s).freq = s.freq := (rfl)
@[simp] theorem acceptCommand_node (p : Phase) (s : State) : (acceptCommand p s).node = s.node := (rfl)
@[simp] theorem acceptCommand_nNodes (p : Phase) (s : State) : (acceptCommand p s).nNodes = s.nNodes := (rfl)
@[simp] theorem acceptCommand_active (p : Phase) (s : State) : (acceptCommand p s).active = s.active := (rfl)
@[simp] theorem acceptCommand_root (p : Phase) (s : State) : (acceptCommand p s).root = s.root := (rfl)
@[simp] theorem acceptCommand_pending (p : Phase) (s : State) : (acceptCommand p s).pending = s.pending := (rfl)
@[simp] theorem acceptCommand_code (p : Phase) (s : State) : (acceptCommand p s).code = s.code := (rfl)
@[simp] theorem acceptCommand_ibuf (p : Phase) (s : State) : (acceptCommand p s).ibuf = s.ibuf := (rfl)
@[simp] theorem acceptCommand_obuf (p : Phase) (s : State) : (acceptCommand p s).obuf = s.obuf := (rfl)
@[simp] theorem acceptCommand_port (p : Phase) (s : State) : (acceptCommand p s).port = s.port := (rfl)
@[simp] theorem acceptCommand_inputs (p : Phase) (s : State) : (acceptCommand p s).inputs = s.inputs := (rfl)
@[simp] theorem acceptCommand_reads (p : Phase) (s : State) : (acceptCommand p s).reads = s.reads := (rfl)
@[simp] theorem acceptCommand_draws (p : Phase) (s : State) : (acceptCommand p s).draws = s.draws := (rfl)

/-! ## shiftIn -/

@[simp] theorem shiftIn_inCap (b : Bool) (s : State) : (shiftIn b s).inCap = s.inCap := (rfl)
@[simp] theorem shiftIn_outCap (b : Bool) (s : State) : (shiftIn b s).outCap = s.outCap := (rfl)
@[simp] theorem shiftIn_lsize (b : Bool) (s : State) : (shiftIn b s).lsize = s.lsize := (rfl)
@[simp] theorem shiftIn_inLen (b : Bool) (s : State) : (shiftIn b s).inLen = s.inLen := (rfl)
@[simp] theorem shiftIn_outLen (b : Bool) (s : State) : (shiftIn b s).outLen = s.outLen := (rfl)
@[simp] theorem shiftIn_phase (b : Bool) (s : State) : (shiftIn b s).phase = s.phase := (rfl)
@[simp] theorem shiftIn_errCode (b : Bool) (s : State) : (shiftIn b s).errCode = s.errCode := (rfl)
@[simp] theorem shiftIn_errPhase (b : Bool) (s : State) : (shiftIn b s).errPhase = s.errPhase := (rfl)
@[simp] theorem shiftIn_l (b : Bool) (s : State) : (shiftIn b s).l = s.l := (rfl)
@[simp] theorem shiftIn_f (b : Bool) (s : State) : (shiftIn b s).f = s.f := (rfl)
@[simp] theorem shiftIn_totalBits (b : Bool) (s : State) : (shiftIn b s).totalBits = s.totalBits := (rfl)
@[simp] theorem shiftIn_n (b : Bool) (s : State) : (shiftIn b s).n = s.n := (rfl)
@[simp] theorem shiftIn_usableBits (b : Bool) (s : State) : (shiftIn b s).usableBits = s.usableBits := (rfl)
@[simp] theorem shiftIn_remBits (b : Bool) (s : State) : (shiftIn b s).remBits = s.remBits := (rfl)
@[simp] theorem shiftIn_inBits (b : Bool) (s : State) : (shiftIn b s).inBits = s.inBits := (rfl)
@[simp] theorem shiftIn_rdPos (b : Bool) (s : State) : (shiftIn b s).rdPos = s.rdPos := (rfl)
@[simp] theorem shiftIn_wrAcc (b : Bool) (s : State) : (shiftIn b s).wrAcc = BitVec.ofNat 8 (s.wrAcc.toNat * 2 + b.toNat) := (rfl)
@[simp] theorem shiftIn_wrCnt (b : Bool) (s : State) : (shiftIn b s).wrCnt = s.wrCnt + 1 := (rfl)
@[simp] theorem shiftIn_wrPos (b : Bool) (s : State) : (shiftIn b s).wrPos = s.wrPos := (rfl)
@[simp] theorem shiftIn_i (b : Bool) (s : State) : (shiftIn b s).i = s.i := (rfl)
@[simp] theorem shiftIn_freq (b : Bool) (s : State) : (shiftIn b s).freq = s.freq := (rfl)
@[simp] theorem shiftIn_node (b : Bool) (s : State) : (shiftIn b s).node = s.node := (rfl)
@[simp] theorem shiftIn_nNodes (b : Bool) (s : State) : (shiftIn b s).nNodes = s.nNodes := (rfl)
@[simp] theorem shiftIn_active (b : Bool) (s : State) : (shiftIn b s).active = s.active := (rfl)
@[simp] theorem shiftIn_root (b : Bool) (s : State) : (shiftIn b s).root = s.root := (rfl)
@[simp] theorem shiftIn_pending (b : Bool) (s : State) : (shiftIn b s).pending = s.pending := (rfl)
@[simp] theorem shiftIn_code (b : Bool) (s : State) : (shiftIn b s).code = s.code := (rfl)
@[simp] theorem shiftIn_ibuf (b : Bool) (s : State) : (shiftIn b s).ibuf = s.ibuf := (rfl)
@[simp] theorem shiftIn_obuf (b : Bool) (s : State) : (shiftIn b s).obuf = s.obuf := (rfl)
@[simp] theorem shiftIn_port (b : Bool) (s : State) : (shiftIn b s).port = s.port := (rfl)
@[simp] theorem shiftIn_inputs (b : Bool) (s : State) : (shiftIn b s).inputs = s.inputs := (rfl)
@[simp] theorem shiftIn_reads (b : Bool) (s : State) : (shiftIn b s).reads = s.reads := (rfl)
@[simp] theorem shiftIn_draws (b : Bool) (s : State) : (shiftIn b s).draws = s.draws := (rfl)

/-! ## startOperation -/

@[simp] theorem startOperation_inCap (s : State) : (startOperation s).inCap = s.inCap := (rfl)
@[simp] theorem startOperation_outCap (s : State) : (startOperation s).outCap = s.outCap := (rfl)
@[simp] theorem startOperation_lsize (s : State) : (startOperation s).lsize = s.lsize := (rfl)
@[simp] theorem startOperation_inLen (s : State) : (startOperation s).inLen = s.inLen := (rfl)
@[simp] theorem startOperation_outLen (s : State) : (startOperation s).outLen = s.outLen := (rfl)
@[simp] theorem startOperation_phase (s : State) : (startOperation s).phase = s.phase := (rfl)
@[simp] theorem startOperation_errCode (s : State) : (startOperation s).errCode = s.errCode := (rfl)
@[simp] theorem startOperation_errPhase (s : State) : (startOperation s).errPhase = s.errPhase := (rfl)
@[simp] theorem startOperation_l (s : State) : (startOperation s).l = s.l := (rfl)
@[simp] theorem startOperation_f (s : State) : (startOperation s).f = s.f := (rfl)
@[simp] theorem startOperation_totalBits (s : State) : (startOperation s).totalBits = s.totalBits := (rfl)
@[simp] theorem startOperation_n (s : State) : (startOperation s).n = s.n := (rfl)
@[simp] theorem startOperation_usableBits (s : State) : (startOperation s).usableBits = s.usableBits := (rfl)
@[simp] theorem startOperation_remBits (s : State) : (startOperation s).remBits = s.remBits := (rfl)
@[simp] theorem startOperation_inBits (s : State) : (startOperation s).inBits = s.inBits := (rfl)
@[simp] theorem startOperation_rdPos (s : State) : (startOperation s).rdPos = 0 := (rfl)
@[simp] theorem startOperation_wrAcc (s : State) : (startOperation s).wrAcc = 0 := (rfl)
@[simp] theorem startOperation_wrCnt (s : State) : (startOperation s).wrCnt = 0 := (rfl)
@[simp] theorem startOperation_wrPos (s : State) : (startOperation s).wrPos = 0 := (rfl)
@[simp] theorem startOperation_i (s : State) : (startOperation s).i = 0 := (rfl)
@[simp] theorem startOperation_freq (s : State) : (startOperation s).freq = s.freq := (rfl)
@[simp] theorem startOperation_node (s : State) : (startOperation s).node = s.node := (rfl)
@[simp] theorem startOperation_nNodes (s : State) : (startOperation s).nNodes = 0 := (rfl)
@[simp] theorem startOperation_active (s : State) : (startOperation s).active = s.active := (rfl)
@[simp] theorem startOperation_root (s : State) : (startOperation s).root = none := (rfl)
@[simp] theorem startOperation_pending (s : State) : (startOperation s).pending = s.pending := (rfl)
@[simp] theorem startOperation_code (s : State) : (startOperation s).code = s.code := (rfl)
@[simp] theorem startOperation_ibuf (s : State) : (startOperation s).ibuf = s.ibuf := (rfl)
@[simp] theorem startOperation_obuf (s : State) : (startOperation s).obuf = s.obuf := (rfl)
@[simp] theorem startOperation_port (s : State) : (startOperation s).port = s.port := (rfl)
@[simp] theorem startOperation_inputs (s : State) : (startOperation s).inputs = s.inputs := (rfl)
@[simp] theorem startOperation_reads (s : State) : (startOperation s).reads = s.reads := (rfl)
@[simp] theorem startOperation_draws (s : State) : (startOperation s).draws = s.draws := (rfl)

/-! ## setSizes -/

@[simp] theorem setSizes_inCap (s : State) : (setSizes s).inCap = s.inCap := (rfl)
@[simp] theorem setSizes_outCap (s : State) : (setSizes s).outCap = s.outCap := (rfl)
@[simp] theorem setSizes_lsize (s : State) : (setSizes s).lsize = s.lsize := (rfl)
@[simp] theorem setSizes_inLen (s : State) : (setSizes s).inLen = s.inLen := (rfl)
@[simp] theorem setSizes_outLen (s : State) : (setSizes s).outLen = s.outLen := (rfl)
@[simp] theorem setSizes_phase (s : State) : (setSizes s).phase = s.phase := (rfl)
@[simp] theorem setSizes_errCode (s : State) : (setSizes s).errCode = s.errCode := (rfl)
@[simp] theorem setSizes_errPhase (s : State) : (setSizes s).errPhase = s.errPhase := (rfl)
@[simp] theorem setSizes_l (s : State) : (setSizes s).l = s.l := (rfl)
@[simp] theorem setSizes_f (s : State) : (setSizes s).f = s.f := (rfl)
@[simp] theorem setSizes_totalBits (s : State) : (setSizes s).totalBits = (sizes s.f.toNat s.l.toNat).totalBits := (rfl)
@[simp] theorem setSizes_n (s : State) : (setSizes s).n = (sizes s.f.toNat s.l.toNat).n := (rfl)
@[simp] theorem setSizes_usableBits (s : State) : (setSizes s).usableBits = (sizes s.f.toNat s.l.toNat).usableBits := (rfl)
@[simp] theorem setSizes_remBits (s : State) : (setSizes s).remBits = (sizes s.f.toNat s.l.toNat).remBits := (rfl)
@[simp] theorem setSizes_inBits (s : State) : (setSizes s).inBits = s.inBits := (rfl)
@[simp] theorem setSizes_rdPos (s : State) : (setSizes s).rdPos = s.rdPos := (rfl)
@[simp] theorem setSizes_wrAcc (s : State) : (setSizes s).wrAcc = s.wrAcc := (rfl)
@[simp] theorem setSizes_wrCnt (s : State) : (setSizes s).wrCnt = s.wrCnt := (rfl)
@[simp] theorem setSizes_wrPos (s : State) : (setSizes s).wrPos = s.wrPos := (rfl)
@[simp] theorem setSizes_i (s : State) : (setSizes s).i = s.i := (rfl)
@[simp] theorem setSizes_freq (s : State) : (setSizes s).freq = s.freq := (rfl)
@[simp] theorem setSizes_node (s : State) : (setSizes s).node = s.node := (rfl)
@[simp] theorem setSizes_nNodes (s : State) : (setSizes s).nNodes = s.nNodes := (rfl)
@[simp] theorem setSizes_active (s : State) : (setSizes s).active = s.active := (rfl)
@[simp] theorem setSizes_root (s : State) : (setSizes s).root = s.root := (rfl)
@[simp] theorem setSizes_pending (s : State) : (setSizes s).pending = s.pending := (rfl)
@[simp] theorem setSizes_code (s : State) : (setSizes s).code = s.code := (rfl)
@[simp] theorem setSizes_ibuf (s : State) : (setSizes s).ibuf = s.ibuf := (rfl)
@[simp] theorem setSizes_obuf (s : State) : (setSizes s).obuf = s.obuf := (rfl)
@[simp] theorem setSizes_port (s : State) : (setSizes s).port = s.port := (rfl)
@[simp] theorem setSizes_inputs (s : State) : (setSizes s).inputs = s.inputs := (rfl)
@[simp] theorem setSizes_reads (s : State) : (setSizes s).reads = s.reads := (rfl)
@[simp] theorem setSizes_draws (s : State) : (setSizes s).draws = s.draws := (rfl)

/-! ## countLetter -/

@[simp] theorem countLetter_inCap (v : Nat) (s : State) : (countLetter v s).inCap = s.inCap := (rfl)
@[simp] theorem countLetter_outCap (v : Nat) (s : State) : (countLetter v s).outCap = s.outCap := (rfl)
@[simp] theorem countLetter_lsize (v : Nat) (s : State) : (countLetter v s).lsize = s.lsize := (rfl)
@[simp] theorem countLetter_inLen (v : Nat) (s : State) : (countLetter v s).inLen = s.inLen := (rfl)
@[simp] theorem countLetter_outLen (v : Nat) (s : State) : (countLetter v s).outLen = s.outLen := (rfl)
@[simp] theorem countLetter_phase (v : Nat) (s : State) : (countLetter v s).phase = s.phase := (rfl)
@[simp] theorem countLetter_errCode (v : Nat) (s : State) : (countLetter v s).errCode = s.errCode := (rfl)
@[simp] theorem countLetter_errPhase (v : Nat) (s : State) : (countLetter v s).errPhase = s.errPhase := (rfl)
@[simp] theorem countLetter_l (v : Nat) (s : State) : (countLetter v s).l = s.l := (rfl)
@[simp] theorem countLetter_f (v : Nat) (s : State) : (countLetter v s).f = s.f := (rfl)
@[simp] theorem countLetter_totalBits (v : Nat) (s : State) : (countLetter v s).totalBits = s.totalBits := (rfl)
@[simp] theorem countLetter_n (v : Nat) (s : State) : (countLetter v s).n = s.n := (rfl)
@[simp] theorem countLetter_usableBits (v : Nat) (s : State) : (countLetter v s).usableBits = s.usableBits := (rfl)
@[simp] theorem countLetter_remBits (v : Nat) (s : State) : (countLetter v s).remBits = s.remBits := (rfl)
@[simp] theorem countLetter_inBits (v : Nat) (s : State) : (countLetter v s).inBits = s.inBits := (rfl)
@[simp] theorem countLetter_rdPos (v : Nat) (s : State) : (countLetter v s).rdPos = s.rdPos := (rfl)
@[simp] theorem countLetter_wrAcc (v : Nat) (s : State) : (countLetter v s).wrAcc = s.wrAcc := (rfl)
@[simp] theorem countLetter_wrCnt (v : Nat) (s : State) : (countLetter v s).wrCnt = s.wrCnt := (rfl)
@[simp] theorem countLetter_wrPos (v : Nat) (s : State) : (countLetter v s).wrPos = s.wrPos := (rfl)
@[simp] theorem countLetter_i (v : Nat) (s : State) : (countLetter v s).i = s.i := (rfl)
@[simp] theorem countLetter_freq (v : Nat) (s : State) : (countLetter v s).freq = Table.set 0 v (freqOf s v + 1) s.freq := (rfl)
@[simp] theorem countLetter_node (v : Nat) (s : State) : (countLetter v s).node = s.node := (rfl)
@[simp] theorem countLetter_nNodes (v : Nat) (s : State) : (countLetter v s).nNodes = s.nNodes := (rfl)
@[simp] theorem countLetter_active (v : Nat) (s : State) : (countLetter v s).active = s.active := (rfl)
@[simp] theorem countLetter_root (v : Nat) (s : State) : (countLetter v s).root = s.root := (rfl)
@[simp] theorem countLetter_pending (v : Nat) (s : State) : (countLetter v s).pending = s.pending := (rfl)
@[simp] theorem countLetter_code (v : Nat) (s : State) : (countLetter v s).code = s.code := (rfl)
@[simp] theorem countLetter_ibuf (v : Nat) (s : State) : (countLetter v s).ibuf = s.ibuf := (rfl)
@[simp] theorem countLetter_obuf (v : Nat) (s : State) : (countLetter v s).obuf = s.obuf := (rfl)
@[simp] theorem countLetter_port (v : Nat) (s : State) : (countLetter v s).port = s.port := (rfl)
@[simp] theorem countLetter_inputs (v : Nat) (s : State) : (countLetter v s).inputs = s.inputs := (rfl)
@[simp] theorem countLetter_reads (v : Nat) (s : State) : (countLetter v s).reads = s.reads := (rfl)
@[simp] theorem countLetter_draws (v : Nat) (s : State) : (countLetter v s).draws = s.draws := (rfl)

/-! ## assignCode -/

@[simp] theorem assignCode_inCap (v : BitVec 16) (path : Bits) (s : State) : (assignCode v path s).inCap = s.inCap := (rfl)
@[simp] theorem assignCode_outCap (v : BitVec 16) (path : Bits) (s : State) : (assignCode v path s).outCap = s.outCap := (rfl)
@[simp] theorem assignCode_lsize (v : BitVec 16) (path : Bits) (s : State) : (assignCode v path s).lsize = s.lsize := (rfl)
@[simp] theorem assignCode_inLen (v : BitVec 16) (path : Bits) (s : State) : (assignCode v path s).inLen = s.inLen := (rfl)
@[simp] theorem assignCode_outLen (v : BitVec 16) (path : Bits) (s : State) : (assignCode v path s).outLen = s.outLen := (rfl)
@[simp] theorem assignCode_phase (v : BitVec 16) (path : Bits) (s : State) : (assignCode v path s).phase = s.phase := (rfl)
@[simp] theorem assignCode_errCode (v : BitVec 16) (path : Bits) (s : State) : (assignCode v path s).errCode = s.errCode := (rfl)
@[simp] theorem assignCode_errPhase (v : BitVec 16) (path : Bits) (s : State) : (assignCode v path s).errPhase = s.errPhase := (rfl)
@[simp] theorem assignCode_l (v : BitVec 16) (path : Bits) (s : State) : (assignCode v path s).l = s.l := (rfl)
@[simp] theorem assignCode_f (v : BitVec 16) (path : Bits) (s : State) : (assignCode v path s).f = s.f := (rfl)
@[simp] theorem assignCode_totalBits (v : BitVec 16) (path : Bits) (s : State) : (assignCode v path s).totalBits = s.totalBits := (rfl)
@[simp] theorem assignCode_n (v : BitVec 16) (path : Bits) (s : State) : (assignCode v path s).n = s.n := (rfl)
@[simp] theorem assignCode_usableBits (v : BitVec 16) (path : Bits) (s : State) : (assignCode v path s).usableBits = s.usableBits := (rfl)
@[simp] theorem assignCode_remBits (v : BitVec 16) (path : Bits) (s : State) : (assignCode v path s).remBits = s.remBits := (rfl)
@[simp] theorem assignCode_inBits (v : BitVec 16) (path : Bits) (s : State) : (assignCode v path s).inBits = s.inBits := (rfl)
@[simp] theorem assignCode_rdPos (v : BitVec 16) (path : Bits) (s : State) : (assignCode v path s).rdPos = s.rdPos := (rfl)
@[simp] theorem assignCode_wrAcc (v : BitVec 16) (path : Bits) (s : State) : (assignCode v path s).wrAcc = s.wrAcc := (rfl)
@[simp] theorem assignCode_wrCnt (v : BitVec 16) (path : Bits) (s : State) : (assignCode v path s).wrCnt = s.wrCnt := (rfl)
@[simp] theorem assignCode_wrPos (v : BitVec 16) (path : Bits) (s : State) : (assignCode v path s).wrPos = s.wrPos := (rfl)
@[simp] theorem assignCode_i (v : BitVec 16) (path : Bits) (s : State) : (assignCode v path s).i = s.i := (rfl)
@[simp] theorem assignCode_freq (v : BitVec 16) (path : Bits) (s : State) : (assignCode v path s).freq = s.freq := (rfl)
@[simp] theorem assignCode_node (v : BitVec 16) (path : Bits) (s : State) : (assignCode v path s).node = s.node := (rfl)
@[simp] theorem assignCode_nNodes (v : BitVec 16) (path : Bits) (s : State) : (assignCode v path s).nNodes = s.nNodes := (rfl)
@[simp] theorem assignCode_active (v : BitVec 16) (path : Bits) (s : State) : (assignCode v path s).active = s.active := (rfl)
@[simp] theorem assignCode_root (v : BitVec 16) (path : Bits) (s : State) : (assignCode v path s).root = s.root := (rfl)
@[simp] theorem assignCode_pending (v : BitVec 16) (path : Bits) (s : State) : (assignCode v path s).pending = s.pending := (rfl)
@[simp] theorem assignCode_code (v : BitVec 16) (path : Bits) (s : State) : (assignCode v path s).code = Table.set CodeEntry.blank v.toNat { valid := true, len := path.length, bits := path } s.code := (rfl)
@[simp] theorem assignCode_ibuf (v : BitVec 16) (path : Bits) (s : State) : (assignCode v path s).ibuf = s.ibuf := (rfl)
@[simp] theorem assignCode_obuf (v : BitVec 16) (path : Bits) (s : State) : (assignCode v path s).obuf = s.obuf := (rfl)
@[simp] theorem assignCode_port (v : BitVec 16) (path : Bits) (s : State) : (assignCode v path s).port = s.port := (rfl)
@[simp] theorem assignCode_inputs (v : BitVec 16) (path : Bits) (s : State) : (assignCode v path s).inputs = s.inputs := (rfl)
@[simp] theorem assignCode_reads (v : BitVec 16) (path : Bits) (s : State) : (assignCode v path s).reads = s.reads := (rfl)
@[simp] theorem assignCode_draws (v : BitVec 16) (path : Bits) (s : State) : (assignCode v path s).draws = s.draws := (rfl)

/-! ## pushJoint -/

@[simp] theorem pushJoint_inCap (k : Nat) (s : State) : (pushJoint k s).inCap = s.inCap := (rfl)
@[simp] theorem pushJoint_outCap (k : Nat) (s : State) : (pushJoint k s).outCap = s.outCap := (rfl)
@[simp] theorem pushJoint_lsize (k : Nat) (s : State) : (pushJoint k s).lsize = s.lsize := (rfl)
@[simp] theorem pushJoint_inLen (k : Nat) (s : State) : (pushJoint k s).inLen = s.inLen := (rfl)
@[simp] theorem pushJoint_outLen (k : Nat) (s : State) : (pushJoint k s).outLen = s.outLen := (rfl)
@[simp] theorem pushJoint_phase (k : Nat) (s : State) : (pushJoint k s).phase = s.phase := (rfl)
@[simp] theorem pushJoint_errCode (k : Nat) (s : State) : (pushJoint k s).errCode = s.errCode := (rfl)
@[simp] theorem pushJoint_errPhase (k : Nat) (s : State) : (pushJoint k s).errPhase = s.errPhase := (rfl)
@[simp] theorem pushJoint_l (k : Nat) (s : State) : (pushJoint k s).l = s.l := (rfl)
@[simp] theorem pushJoint_f (k : Nat) (s : State) : (pushJoint k s).f = s.f := (rfl)
@[simp] theorem pushJoint_totalBits (k : Nat) (s : State) : (pushJoint k s).totalBits = s.totalBits := (rfl)
@[simp] theorem pushJoint_n (k : Nat) (s : State) : (pushJoint k s).n = s.n := (rfl)
@[simp] theorem pushJoint_usableBits (k : Nat) (s : State) : (pushJoint k s).usableBits = s.usableBits := (rfl)
@[simp] theorem pushJoint_remBits (k : Nat) (s : State) : (pushJoint k s).remBits = s.remBits := (rfl)
@[simp] theorem pushJoint_inBits (k : Nat) (s : State) : (pushJoint k s).inBits = s.inBits := (rfl)
@[simp] theorem pushJoint_rdPos (k : Nat) (s : State) : (pushJoint k s).rdPos = s.rdPos := (rfl)
@[simp] theorem pushJoint_wrAcc (k : Nat) (s : State) : (pushJoint k s).wrAcc = s.wrAcc := (rfl)
@[simp] theorem pushJoint_wrCnt (k : Nat) (s : State) : (pushJoint k s).wrCnt = s.wrCnt := (rfl)
@[simp] theorem pushJoint_wrPos (k : Nat) (s : State) : (pushJoint k s).wrPos = s.wrPos := (rfl)
@[simp] theorem pushJoint_i (k : Nat) (s : State) : (pushJoint k s).i = s.i := (rfl)
@[simp] theorem pushJoint_freq (k : Nat) (s : State) : (pushJoint k s).freq = s.freq := (rfl)
@[simp] theorem pushJoint_node (k : Nat) (s : State) : (pushJoint k s).node = s.node := (rfl)
@[simp] theorem pushJoint_nNodes (k : Nat) (s : State) : (pushJoint k s).nNodes = s.nNodes := (rfl)
@[simp] theorem pushJoint_active (k : Nat) (s : State) : (pushJoint k s).active = s.active := (rfl)
@[simp] theorem pushJoint_root (k : Nat) (s : State) : (pushJoint k s).root = s.root := (rfl)
@[simp] theorem pushJoint_pending (k : Nat) (s : State) : (pushJoint k s).pending = ⟨k, none⟩ :: s.pending := (rfl)
@[simp] theorem pushJoint_code (k : Nat) (s : State) : (pushJoint k s).code = s.code := (rfl)
@[simp] theorem pushJoint_ibuf (k : Nat) (s : State) : (pushJoint k s).ibuf = s.ibuf := (rfl)
@[simp] theorem pushJoint_obuf (k : Nat) (s : State) : (pushJoint k s).obuf = s.obuf := (rfl)
@[simp] theorem pushJoint_port (k : Nat) (s : State) : (pushJoint k s).port = s.port := (rfl)
@[simp] theorem pushJoint_inputs (k : Nat) (s : State) : (pushJoint k s).inputs = s.inputs := (rfl)
@[simp] theorem pushJoint_reads (k : Nat) (s : State) : (pushJoint k s).reads = s.reads := (rfl)
@[simp] theorem pushJoint_draws (k : Nat) (s : State) : (pushJoint k s).draws = s.draws := (rfl)

/-! ## record -/

@[simp] theorem record_inCap (o : Observation) (s : State) : (record o s).inCap = s.inCap := (rfl)
@[simp] theorem record_outCap (o : Observation) (s : State) : (record o s).outCap = s.outCap := (rfl)
@[simp] theorem record_lsize (o : Observation) (s : State) : (record o s).lsize = s.lsize := (rfl)
@[simp] theorem record_inLen (o : Observation) (s : State) : (record o s).inLen = s.inLen := (rfl)
@[simp] theorem record_outLen (o : Observation) (s : State) : (record o s).outLen = s.outLen := (rfl)
@[simp] theorem record_phase (o : Observation) (s : State) : (record o s).phase = s.phase := (rfl)
@[simp] theorem record_errCode (o : Observation) (s : State) : (record o s).errCode = s.errCode := (rfl)
@[simp] theorem record_errPhase (o : Observation) (s : State) : (record o s).errPhase = s.errPhase := (rfl)
@[simp] theorem record_l (o : Observation) (s : State) : (record o s).l = s.l := (rfl)
@[simp] theorem record_f (o : Observation) (s : State) : (record o s).f = s.f := (rfl)
@[simp] theorem record_totalBits (o : Observation) (s : State) : (record o s).totalBits = s.totalBits := (rfl)
@[simp] theorem record_n (o : Observation) (s : State) : (record o s).n = s.n := (rfl)
@[simp] theorem record_usableBits (o : Observation) (s : State) : (record o s).usableBits = s.usableBits := (rfl)
@[simp] theorem record_remBits (o : Observation) (s : State) : (record o s).remBits = s.remBits := (rfl)
@[simp] theorem record_inBits (o : Observation) (s : State) : (record o s).inBits = s.inBits := (rfl)
@[simp] theorem record_rdPos (o : Observation) (s : State) : (record o s).rdPos = s.rdPos := (rfl)
@[simp] theorem record_wrAcc (o : Observation) (s : State) : (record o s).wrAcc = s.wrAcc := (rfl)
@[simp] theorem record_wrCnt (o : Observation) (s : State) : (record o s).wrCnt = s.wrCnt := (rfl)
@[simp] theorem record_wrPos (o : Observation) (s : State) : (record o s).wrPos = s.wrPos := (rfl)
@[simp] theorem record_i (o : Observation) (s : State) : (record o s).i = s.i := (rfl)
@[simp] theorem record_freq (o : Observation) (s : State) : (record o s).freq = s.freq := (rfl)
@[simp] theorem record_node (o : Observation) (s : State) : (record o s).node = s.node := (rfl)
@[simp] theorem record_nNodes (o : Observation) (s : State) : (record o s).nNodes = s.nNodes := (rfl)
@[simp] theorem record_active (o : Observation) (s : State) : (record o s).active = s.active := (rfl)
@[simp] theorem record_root (o : Observation) (s : State) : (record o s).root = s.root := (rfl)
@[simp] theorem record_pending (o : Observation) (s : State) : (record o s).pending = s.pending := (rfl)
@[simp] theorem record_code (o : Observation) (s : State) : (record o s).code = s.code := (rfl)
@[simp] theorem record_ibuf (o : Observation) (s : State) : (record o s).ibuf = s.ibuf := (rfl)
@[simp] theorem record_obuf (o : Observation) (s : State) : (record o s).obuf = s.obuf := (rfl)
@[simp] theorem record_port (o : Observation) (s : State) : (record o s).port = s.port := (rfl)
@[simp] theorem record_inputs (o : Observation) (s : State) : (record o s).inputs = s.inputs := (rfl)
@[simp] theorem record_reads (o : Observation) (s : State) : (record o s).reads = s.reads ++ [o] := (rfl)
@[simp] theorem record_draws (o : Observation) (s : State) : (record o s).draws = s.draws := (rfl)

end Sys2Proof.Machine
end

