-- ==== Sys2Proof/Laws/Run.lean ====
section
/-! SUPPORT. A small program logic for parts of a step: what holds of the result, of the state at a raise, and of a fault. -/

namespace Sys2Proof.Machine

@[simp] theorem run_bind_ok {α β : Type} (a : α) (f : α → Run β) :
    ((Except.ok a : Run α) >>= f) = f a := rfl

@[simp] theorem run_bind_error {α β : Type} (e : Stop) (f : α → Run β) :
    ((Except.error e : Run α) >>= f) = .error e := rfl

theorem run_bind_eq_ok {α β : Type} {x : Run α} {f : α → Run β} {b : β} :
    (x >>= f) = .ok b ↔ ∃ a, x = .ok a ∧ f a = .ok b := by
  cases x <;> simp

/-- `P` holds of the result, `Q` of an error raised and its state, `F` of a fault. -/
def Run.post {α : Type} (P : α → Prop) (Q : ErrorKind → State → Prop) (F : Fault → Prop) : Run α → Prop
  | .ok a => P a
  | .error (.raise e s) => Q e s
  | .error (.fault r) => F r

variable {α β : Type} {P : α → Prop} {Q Q' : ErrorKind → State → Prop} {F F' : Fault → Prop}

@[simp] theorem post_ok (a : α) : Run.post P Q F (.ok a) = P a := rfl
@[simp] theorem post_raise (e : ErrorKind) (s : State) : Run.post P Q F (raise e s : Run α) = Q e s := rfl
@[simp] theorem post_error_raise (e : ErrorKind) (s : State) :
    Run.post P Q F (.error (.raise e s) : Run α) = Q e s := rfl
@[simp] theorem post_stuck (r : Fault) : Run.post P Q F (stuck r : Run α) = F r := rfl
@[simp] theorem post_error_fault (r : Fault) : Run.post P Q F (.error (.fault r) : Run α) = F r := rfl

theorem post_bind {x : Run α} {f : α → Run β} {P : β → Prop} :
    Run.post P Q F (x >>= f) ↔ Run.post (fun a => Run.post P Q F (f a)) Q F x := by
  rcases x with (⟨e, s⟩ | r) | a <;> simp [Run.post]

theorem post_mono {x : Run α} {P' : α → Prop} (h : Run.post P Q F x) (hP : ∀ a, P a → P' a)
    (hQ : ∀ e s, Q e s → Q' e s) (hF : ∀ r, F r → F' r) : Run.post P' Q' F' x := by
  rcases x with (⟨e, s⟩ | r) | a <;> simp_all [Run.post]

theorem post_and {x : Run α} {P' : α → Prop} (h : Run.post P Q F x) (h' : Run.post P' Q' F' x) :
    Run.post (fun a => P a ∧ P' a) (fun e s => Q e s ∧ Q' e s) (fun r => F r ∧ F' r) x := by
  rcases x with (⟨e, s⟩ | r) | a
  · exact ⟨h, h'⟩
  · exact ⟨h, h'⟩
  · exact ⟨h, h'⟩

/-- A part of a step that raises nothing and stops at no fault gives a result. -/
theorem post_total {x : Run α} (h : Run.post P (fun _ _ => False) (fun _ => False) x) : ∃ a, x = .ok a ∧ P a := by
  rcases x with (⟨e, s⟩ | r) | a <;> simp_all [Run.post]

theorem post_of_ok {x : Run α} {a : α} (h : Run.post P Q F x) (hx : x = .ok a) : P a := by subst hx; exact h

/-- The outcome of a step, by what holds of its run. -/
theorem endStep_next {p : Phase} {r : Run State} {t : State} (h : endStep p r = .next t) :
    r = .ok t ∨ ∃ e s, r = .error (.raise e s) ∧ t = takeError e p s := by
  rcases r with (⟨e, s⟩ | f) | s <;> simp_all [endStep]

@[simp] theorem endStep_ok (p : Phase) (s : State) : endStep p (.ok s) = .next s := rfl
@[simp] theorem endStep_raise (p : Phase) (e : ErrorKind) (s : State) :
    endStep p (raise e s) = .next (takeError e p s) := rfl
@[simp] theorem endStep_stuck (p : Phase) (r : Fault) : endStep p (stuck r) = .fault r := rfl

theorem endStep_post {p : Phase} {r : Run State} {P : State → Prop} {Q : ErrorKind → State → Prop}
    (h : Run.post P Q (fun _ => False) r) :
    ∃ t, endStep p r = .next t ∧ (P t ∨ ∃ e s, Q e s ∧ t = takeError e p s) := by
  rcases r with (⟨e, s⟩ | f) | s
  · exact ⟨_, rfl, .inr ⟨e, s, h, rfl⟩⟩
  · exact h.elim
  · exact ⟨s, rfl, .inl h⟩

end Sys2Proof.Machine
end

