-- ==== Sys2Proof/Laws/Adjust.lean ====
section
/-! SUPPORT. Parts of a step that neither read nor write LSIZE, or the stack of pending Joints, do the same whatever these hold (70_reset_and_hazards.md R711; 43_header_codec.md R298). -/

namespace Sys2Proof.Machine

/-- A part of a step with its result changed by `g` and the state of its error by `h`. -/
def Run.map2 {α β : Type} (g : α → β) (h : State → State) : Run α → Run β
  | .ok a => .ok (g a)
  | .error (.raise e s) => .error (.raise e (h s))
  | .error (.fault r) => .error (.fault r)

/-- LSIZE changed by `x`, the stack of pending Joints by `p`. -/
def adjust (x : BitVec 8 → BitVec 8) (p : List PendingJoint → List PendingJoint) (s : State) : State :=
  { s with lsize := x s.lsize, pending := p s.pending }

section
variable {α β γ δ : Type} {g : α → γ} {g' : β → δ} {h : State → State}

@[simp] theorem map2_ok (a : α) : Run.map2 g h (.ok a) = .ok (g a) := rfl
@[simp] theorem map2_raise (e : ErrorKind) (s : State) :
    Run.map2 g h (raise e s : Run α) = (raise e (h s) : Run γ) := rfl
@[simp] theorem map2_stuck (r : Fault) : Run.map2 g h (stuck r : Run α) = (stuck r : Run γ) := rfl

theorem map2_bind {x : Run α} {f : α → Run β} {f' : γ → Run δ} (hf : ∀ a, Run.map2 g' h (f a) = f' (g a)) :
    Run.map2 g' h (x >>= f) = Run.map2 g h x >>= f' := by
  rcases x with (⟨e, s⟩ | r) | a
  · rfl
  · rfl
  · exact hf a

theorem bind_adjusted {x : Run α} {x' : Run γ} {f : α → Run β} {f' : γ → Run δ} (hx : x' = Run.map2 g h x)
    (hf : ∀ a, f' (g a) = Run.map2 g' h (f a)) : (x' >>= f') = Run.map2 g' h (x >>= f) := by
  rw [hx, map2_bind fun a => (hf a).symm]

end

variable (x : BitVec 8 → BitVec 8) (p : List PendingJoint → List PendingJoint)

/-- A result beside a state. -/
def withState {α : Type} (h : State → State) : α × State → α × State := Prod.map id h

theorem memRead_adjust (a : Nat) (s : State) :
    memRead a (adjust x p s) = Run.map2 (withState (adjust x p)) (adjust x p) (memRead a s) := by
  simp only [memRead]
  by_cases hc : a < s.inLen.toNat ∧ s.inLen.toNat ≤ s.inCap
  · rw [if_pos hc, if_pos (show a < (adjust x p s).inLen.toNat ∧ (adjust x p s).inLen.toNat ≤ (adjust x p s).inCap from hc)]
    simp only [drawPort, show (adjust x p s).port = s.port from rfl]
    rcases s.port with _ | ⟨_ | _, _⟩ <;> rfl
  · rw [if_neg hc, if_neg (show ¬ (a < (adjust x p s).inLen.toNat ∧ (adjust x p s).inLen.toNat ≤ (adjust x p s).inCap) from hc)]
    rfl

theorem memWrite_adjust (a : Nat) (v : Byte) (s : State) :
    memWrite a v (adjust x p s) = Run.map2 (adjust x p) (adjust x p) (memWrite a v s) := by
  simp only [memWrite]
  by_cases hc : s.outCap ≤ a
  · rw [if_pos hc, if_pos (show (adjust x p s).outCap ≤ a from hc)]
    rfl
  · rw [if_neg hc, if_neg (show ¬ (adjust x p s).outCap ≤ a from hc)]
    simp only [drawPort, show (adjust x p s).port = s.port from rfl]
    rcases s.port with _ | ⟨_ | _, _⟩ <;> rfl

theorem nextByte_adjust (s : State) : nextByte (adjust x p s) = adjust x p (nextByte s) := by
  simp only [nextByte]
  by_cases hc : s.wrPos.toNat + 1 < 2 ^ 64
  · rw [if_pos hc, if_pos (show (adjust x p s).wrPos.toNat + 1 < 2 ^ 64 from hc)]; rfl
  · rw [if_neg hc, if_neg (show ¬ (adjust x p s).wrPos.toNat + 1 < 2 ^ 64 from hc)]; rfl

theorem writeBit_adjust (b : Bool) (s : State) :
    writeBit b (adjust x p s) = Run.map2 (adjust x p) (adjust x p) (writeBit b s) := by
  simp only [writeBit]
  by_cases hc : (shiftIn b s).wrCnt = 8
  · rw [if_pos hc, if_pos (show (shiftIn b (adjust x p s)).wrCnt = 8 from hc)]
    exact bind_adjusted (memWrite_adjust x p _ _ (shiftIn b s)) fun t => congrArg Except.ok (nextByte_adjust x p t)
  · rw [if_neg hc, if_neg (show ¬ (shiftIn b (adjust x p s)).wrCnt = 8 from hc)]
    rfl

theorem writeString_adjust (bs : Bits) (s : State) :
    writeString bs (adjust x p s) = Run.map2 (adjust x p) (adjust x p) (writeString bs s) := by
  induction bs generalizing s with
  | nil => rfl
  | cons b bs ih => exact bind_adjusted (writeBit_adjust x p b s) ih

theorem flushLoop_adjust (fuel : Nat) (s : State) :
    flushLoop fuel (adjust x p s) = Run.map2 (adjust x p) (adjust x p) (flushLoop fuel s) := by
  induction fuel generalizing s with
  | zero =>
    simp only [flushLoop, show (adjust x p s).wrCnt = s.wrCnt from rfl]
    split <;> rfl
  | succ fuel ih =>
    simp only [flushLoop, show (adjust x p s).wrCnt = s.wrCnt from rfl]
    split
    · rfl
    · exact bind_adjusted (writeBit_adjust x p false s) ih

theorem inBitsFrom_adjust (w q acc : Nat) (s : State) :
    inBitsFrom w q acc (adjust x p s) = Run.map2 (withState (adjust x p)) (adjust x p) (inBitsFrom w q acc s) := by
  induction w generalizing q acc s with
  | zero => rfl
  | succ w ih =>
    refine bind_adjusted (g := withState (adjust x p)) ?_ fun a => ih _ _ _
    exact bind_adjusted (memRead_adjust x p _ s) fun a => rfl

theorem inputBits_adjust (q w : Nat) (s : State) :
    inputBits q w (adjust x p s) = Run.map2 (withState (adjust x p)) (adjust x p) (inputBits q w s) :=
  inBitsFrom_adjust x p w q 0 s

theorem readOrCorrupt_adjust (w : Nat) (s : State) :
    readOrCorrupt w (adjust x p s) = Run.map2 (withState (adjust x p)) (adjust x p) (readOrCorrupt w s) := by
  have hr : readBits w (adjust x p s) = Run.map2 (withState (adjust x p)) (adjust x p) (readBits w s) := by
    simp only [readBits]
    by_cases hc : s.inBits < s.rdPos + w
    · rw [if_pos hc, if_pos (show (adjust x p s).inBits < (adjust x p s).rdPos + w from hc)]; rfl
    · rw [if_neg hc, if_neg (show ¬ (adjust x p s).inBits < (adjust x p s).rdPos + w from hc)]
      exact bind_adjusted (inputBits_adjust x p _ w s) fun a => rfl
  refine bind_adjusted hr ?_
  rintro ⟨_ | v, t⟩ <;> rfl

theorem allocNode_adjust (s : State) :
    allocNode (adjust x p s) = Run.map2 (withState (adjust x p)) (adjust x p) (allocNode s) := by
  simp only [allocNode, show (adjust x p s).nNodes = s.nNodes from rfl]
  split <;> rfl

theorem nodeAt_adjust (k : Nat) (s : State) : nodeAt k (adjust x p s) = Run.map2 id (adjust x p) (nodeAt k s) := by
  simp only [nodeAt]; split <;> rfl

theorem setNode_adjust (k : Nat) (slot : NodeSlot) (s : State) :
    setNode k slot (adjust x p s) = Run.map2 (adjust x p) (adjust x p) (setNode k slot s) := by
  simp only [setNode]; split <;> rfl

theorem rootNode_adjust (s : State) : rootNode (adjust x p s) = Run.map2 id (adjust x p) (rootNode s) := by
  simp only [rootNode, show (adjust x p s).root = s.root from rfl]
  split <;> rfl

theorem letterIndex_adjust (v : Nat) : letterIndex v = Run.map2 id (adjust x p) (letterIndex v) := by
  simp only [letterIndex]; split <;> rfl

theorem leaveAtEnd_adjust (ph : Phase) (s : State) :
    leaveAtEnd ph (adjust x p s) = adjust x p (leaveAtEnd ph s) := by
  simp only [leaveAtEnd]
  by_cases hc : s.i = s.n
  · rw [if_pos hc, if_pos (show (adjust x p s).i = (adjust x p s).n from hc)]; rfl
  · rw [if_neg hc, if_neg (show ¬ (adjust x p s).i = (adjust x p s).n from hc)]

/-- The outcome of a step with its state adjusted. -/
def adjustOutcome : Host.Outcome State Fault Refusal → Host.Outcome State Fault Refusal
  | .next s => .next (adjust x p s)
  | .fault r => .fault r
  | .refused r => .refused r

theorem endStep_adjust {ph : Phase} {r r' : Run State} (h : r' = Run.map2 (adjust x id) (adjust x id) r) :
    endStep ph r' = adjustOutcome x id (endStep ph r) := by
  subst h
  rcases r with (⟨e, s⟩ | f) | s <;> rfl

end Sys2Proof.Machine
end

