-- ==== Sys2Proof/Laws/Bits.lean ====
section
/-! SUPPORT. The laws of bit strings: `bin` and `val` are inverse, and byte streams read by bit position. -/

namespace Sys2Proof

@[simp] theorem bin_length (w v : Nat) : (bin w v).length = w := by
  induction w with
  | zero => rfl
  | succ w ih => simp [bin, ih]

theorem bin_append (a b v : Nat) : bin (a + b) v = bin a (v / 2 ^ b) ++ bin b v := by
  induction a with
  | zero => simp [bin]
  | succ a ih => rw [show a + 1 + b = (a + b) + 1 by omega]; simp [bin, ih, Nat.testBit_div_two_pow]

theorem bin_mod (w v n : Nat) (h : w ≤ n) : bin w (v % 2 ^ n) = bin w v := by
  induction w with
  | zero => rfl
  | succ w ih =>
    simp only [bin, Nat.testBit_mod_two_pow, ih (by omega)]
    simp [show w < n by omega]

theorem foldl_val (s : Bits) (a : Nat) :
    s.foldl (fun a b => 2 * a + b.toNat) a = a * 2 ^ s.length + val s := by
  induction s generalizing a with
  | nil => simp [val]
  | cons b s ih =>
    simp only [List.foldl_cons, val, List.length_cons]
    rw [ih, ih (2 * 0 + b.toNat)]
    ring

@[simp] theorem val_nil : val [] = 0 := rfl

theorem val_cons (b : Bool) (s : Bits) : val (b :: s) = b.toNat * 2 ^ s.length + val s := by
  simp only [val, List.foldl_cons]
  rw [foldl_val]
  simp [val]

theorem val_append (s t : Bits) : val (s ++ t) = val s * 2 ^ t.length + val t := by
  simp only [val, List.foldl_append]
  rw [foldl_val]
  rfl

theorem val_lt (s : Bits) : val s < 2 ^ s.length := by
  induction s with
  | nil => simp
  | cons b s ih =>
    rw [val_cons, List.length_cons, Nat.pow_succ]
    cases b <;> simp <;> omega

theorem val_bin (w v : Nat) : val (bin w v) = v % 2 ^ w := by
  induction w with
  | zero => simp [bin, Nat.mod_one]
  | succ w ih =>
    rw [bin, val_cons, bin_length, ih, Nat.testBit_eq_decide_div_mod_eq, Nat.pow_succ, Nat.mod_mul]
    rcases Nat.mod_two_eq_zero_or_one (v / 2 ^ w) with h | h <;> simp [h] <;> omega

theorem bin_val (s : Bits) : bin s.length (val s) = s := by
  induction s with
  | nil => rfl
  | cons b s ih =>
    have hlt := val_lt s
    rw [val_cons, List.length_cons, bin]
    congr 1
    · rw [Nat.mul_comm, Nat.testBit_two_pow_mul_add _ hlt]
      cases b <;> simp
    · rw [← bin_mod s.length (b.toNat * 2 ^ s.length + val s) s.length le_rfl, Nat.add_comm,
        Nat.add_mul_mod_self_right, Nat.mod_eq_of_lt hlt, ih]

theorem val_injective {s t : Bits} (hl : s.length = t.length) (h : val s = val t) : s = t := by
  rw [← bin_val s, ← bin_val t, hl, h]

theorem bin_getElem (w v j : Nat) (h : j < (bin w v).length) : (bin w v)[j] = v.testBit (w - 1 - j) := by
  induction w generalizing j with
  | zero => simp at h
  | succ w ih =>
    cases j with
    | zero => simp [bin]
    | succ j =>
      have h' : j < (bin w v).length := by simp at h ⊢; omega
      simp only [bin, List.getElem_cons_succ]
      rw [ih j h']
      congr 1
      omega

theorem streamBits_append (a b : List Byte) : streamBits (a ++ b) = streamBits a ++ streamBits b := by
  simp [streamBits]

@[simp] theorem streamBits_nil : streamBits [] = [] := rfl

theorem streamBits_cons (b : Byte) (l : List Byte) : streamBits (b :: l) = bin 8 b.toNat ++ streamBits l := rfl

theorem streamBits_length (l : List Byte) : (streamBits l).length = 8 * l.length := by
  induction l with
  | nil => rfl
  | cons b l ih => rw [streamBits_cons, List.length_append, bin_length, ih, List.length_cons]; ring

theorem streamBits_getElem (l : List Byte) (p : Nat) (h : p < (streamBits l).length) :
    (streamBits l)[p] = (l[p / 8]'(by rw [streamBits_length] at h; omega)).toNat.testBit (7 - p % 8) := by
  induction l generalizing p with
  | nil => simp at h
  | cons b l ih =>
    simp only [streamBits_cons]
    by_cases hp : p < 8
    · rw [List.getElem_append_left (by simpa using hp), bin_getElem]
      simp [Nat.div_eq_of_lt hp, Nat.mod_eq_of_lt hp]
    · rw [List.getElem_append_right (by simpa using hp)]
      simp only [bin_length]
      rw [ih (p - 8)]
      obtain ⟨q, rfl⟩ : ∃ q, p = q + 8 := ⟨p - 8, by omega⟩
      simp [show (q + 8) / 8 = q / 8 + 1 by omega]

theorem streamBits_injective {a b : List Byte} (h : streamBits a = streamBits b) : a = b := by
  induction a generalizing b with
  | nil =>
    cases b with
    | nil => rfl
    | cons y b =>
      have := congrArg List.length h
      simp [streamBits_length] at this
  | cons x a ih =>
    cases b with
    | nil =>
      have := congrArg List.length h
      simp [streamBits_length] at this
    | cons y b =>
      rw [streamBits_cons, streamBits_cons] at h
      obtain ⟨h1, h2⟩ := List.append_inj h (by simp)
      have hxy : x = y := by
        have := congrArg val h1
        rw [val_bin, val_bin, Nat.mod_eq_of_lt x.isLt, Nat.mod_eq_of_lt y.isLt] at this
        exact BitVec.eq_of_toNat_eq this
      rw [hxy, ih h2]

namespace Machine

@[simp] theorem inputSlice_length (s : State) (p w : Nat) : (inputSlice s p w).length = w := by simp [inputSlice]

theorem inputSlice_cons (s : State) (p w : Nat) :
    inputSlice s p (w + 1) = inputBit s p :: inputSlice s (p + 1) w := by
  simp [inputSlice, List.range_succ_eq_map, Function.comp_def, Nat.add_assoc, Nat.add_comm 1]

theorem inputSlice_append (s : State) (p a b : Nat) :
    inputSlice s p (a + b) = inputSlice s p a ++ inputSlice s (p + a) b := by
  induction a generalizing p with
  | zero => simp [inputSlice]
  | succ a ih =>
    rw [show a + 1 + b = (a + b) + 1 by omega, inputSlice_cons, inputSlice_cons, ih]
    simp [Nat.add_comm, Nat.add_left_comm]

theorem inputSlice_take (s : State) (p w n : Nat) (h : n ≤ w) : (inputSlice s p w).take n = inputSlice s p n := by
  obtain ⟨m, rfl⟩ := Nat.exists_eq_add_of_le h
  rw [inputSlice_append]
  simp

theorem inputSlice_congr {s t : State} (h : s.ibuf = t.ibuf) (p w : Nat) : inputSlice s p w = inputSlice t p w := by
  simp [inputSlice, inputBit, h]

/-- The input bits of whole bytes are the stream of those bytes. -/
theorem inputSlice_bytes (s : State) (n : Nat) :
    inputSlice s 0 (8 * n) = streamBits (Memory.readAll s.ibuf 0 n) := by
  refine List.ext_getElem (by simp [streamBits_length, Memory.readAll]) ?_
  intro p h1 h2
  rw [streamBits_getElem]
  simp [inputSlice, inputBit, Memory.readAll]

theorem bitOfByte_eq (b : Byte) (p : Nat) : bitOfByte b p = (b.toNat.testBit (7 - p % 8)).toNat := by
  rw [bitOfByte, Nat.testBit_eq_decide_div_mod_eq]
  rcases Nat.mod_two_eq_zero_or_one (b.toNat / 2 ^ (7 - p % 8)) with h | h <;> simp [h]

end Machine

end Sys2Proof
end

