-- ==== Sys2Proof/Laws/Flags.lean ====
section
/-! SUPPORT. The Boolean checks of the model as propositions. -/

namespace Sys2Proof

theorem letterSizeOk_iff {n : Nat} : letterSizeOk n = true ↔ 2 ≤ n ∧ n ≤ 16 := by
  simp only [letterSizeOk, Bool.and_eq_true, decide_eq_true_eq]; rfl

theorem letterSizeOk_false_iff {n : Nat} : letterSizeOk n = false ↔ n < 2 ∨ 16 < n := by
  rw [Bool.eq_false_iff, Ne, letterSizeOk_iff]; omega

theorem two_pow_le_letterCap {n : Nat} (h : letterSizeOk n = true) : 2 ^ n ≤ Config.letterCap :=
  le_trans (Nat.pow_le_pow_right (by omega) (letterSizeOk_iff.1 h).2) (by decide)

namespace Machine

theorem quiescent_iff {p : BitVec 5} : quiescent p = true ↔ p = 0 ∨ p = 30 ∨ p = 31 := by
  simp only [quiescent, Bool.or_eq_true, decide_eq_true_eq, or_assoc]; rfl

theorem busy_iff {s : State} : busy s = true ↔ s.phase ≠ 0 ∧ s.phase ≠ 30 ∧ s.phase ≠ 31 := by
  rw [busy, Bool.not_eq_true', Bool.eq_false_iff, Ne, quiescent_iff]; tauto

theorem letterIndex_ok {v : Nat} (h : v < Config.letterCap) : letterIndex v = .ok v := if_pos h

theorem nodeAt_ok {k : Nat} {s : State} (h : k < Config.treeNodeCap) : nodeAt k s = .ok (slotOf s k) := if_pos h

theorem setNode_ok {k : Nat} {x : NodeSlot} {s : State} (h : k < Config.treeNodeCap) :
    setNode k x s = .ok { s with node := Table.set NodeSlot.blank k x s.node } := if_pos h

end Machine

end Sys2Proof
end

