-- ==== Sys2Proof/Laws/Table.lean ====
section
/-! SUPPORT. The laws of sparse tables: a read after a write, a write leaves every other entry alone, and every operation keeps the canonical form. -/

namespace Sys2Proof.Machine

variable {α : Type} [DecidableEq α] {d : α}

/-- A table whose indices rise strictly and all lie at or above `k`. -/
def Table.from {α : Type} (k : Nat) (m : Table α) : Prop := Table.rising m = true ∧ ∀ e ∈ m, k ≤ e.1

omit [DecidableEq α] in
theorem Table.rising_cons {e : Nat × α} {m : Table α} :
    Table.rising (e :: m) = true ↔ Table.from (e.1 + 1) m := by
  induction m generalizing e with
  | nil => simp [Table.rising, Table.from]
  | cons e' m ih =>
    simp only [Table.rising, Bool.and_eq_true, decide_eq_true_eq, Table.from, List.mem_cons, forall_eq_or_imp]
    constructor
    · rintro ⟨h, hm⟩
      exact ⟨hm, h, fun x hx => by have := (ih.1 hm).2 x hx; omega⟩
    · rintro ⟨hm, h, _⟩
      exact ⟨h, hm⟩

omit [DecidableEq α] in
theorem Table.get_of_below {m : Table α} {a : Nat} (h : ∀ e ∈ m, a < e.1) : Table.get d m a = d := by
  induction m with
  | nil => rfl
  | cons e m ih =>
    have h1 := h e (by simp)
    simp only [Table.get]
    rw [if_neg (by omega)]
    exact ih fun x hx => h x (by simp [hx])

/-- A read of the entry just written gives the value written. -/
theorem Table.get_set_same (m : Table α) (hm : Table.rising m = true) (a : Nat) (x : α) :
    Table.get d (Table.set d a x m) a = x := by
  induction m with
  | nil => by_cases h : x = d <;> simp [Table.set, h, Table.get]
  | cons e m ih =>
    obtain ⟨k, v⟩ := e
    have hk := Table.rising_cons.1 hm
    have ih := ih hk.1
    have hb : Table.get d m k = d := Table.get_of_below fun e he => hk.2 e he
    simp only [Table.set]
    split_ifs with h1 h2 h3 h4
    · have : Table.get d ((k, v) :: m) a = d := Table.get_of_below (by
        intro e he
        rcases List.mem_cons.1 he with rfl | he
        · exact h1
        · have := hk.2 e he; simp only at this; omega)
      rw [this, h2]
    · simp [Table.get]
    · subst h3 h4; exact hb
    · simp [Table.get]
    · simp only [Table.get]; rw [if_neg h3]; exact ih

omit [DecidableEq α] in
theorem Table.get_cons_ne {m : Table α} {e : Nat × α} {a : Nat} (h : a ≠ e.1) :
    Table.get d (e :: m) a = Table.get d m a := by simp [Table.get, h]

/-- A write leaves every other entry as it was. -/
theorem Table.get_set_other (m : Table α) {a b : Nat} (x : α) (h : b ≠ a) :
    Table.get d (Table.set d a x m) b = Table.get d m b := by
  induction m with
  | nil => by_cases hx : x = d <;> simp [Table.set, hx, Table.get, h]
  | cons e m ih =>
    obtain ⟨k, v⟩ := e
    simp only [Table.set]
    split_ifs with h1 h2 h3 h4
    · rfl
    · exact Table.get_cons_ne h
    · subst h3; exact (Table.get_cons_ne h).symm
    · subst h3; simp [Table.get, h]
    · simp only [Table.get]; rw [ih]

/-- A read after a write, in one equation. -/
theorem Table.get_set (m : Table α) (hm : Table.rising m = true) (a b : Nat) (x : α) :
    Table.get d (Table.set d a x m) b = if b = a then x else Table.get d m b := by
  split
  · next h => subst h; exact Table.get_set_same m hm _ x
  · next h => exact Table.get_set_other m x h

theorem Table.mem_set {m : Table α} {a : Nat} {x : α} {e : Nat × α} (h : e ∈ Table.set d a x m) :
    e = (a, x) ∧ x ≠ d ∨ e ∈ m := by
  induction m with
  | nil => by_cases hx : x = d <;> simp_all [Table.set]
  | cons e' m ih =>
    obtain ⟨k, v⟩ := e'
    simp only [Table.set] at h
    split_ifs at h with h1 h2 h3 h4
    · exact .inr h
    · rcases List.mem_cons.1 h with rfl | h
      · exact .inl ⟨rfl, h2⟩
      · exact .inr h
    · exact .inr (List.mem_cons_of_mem _ h)
    · rcases List.mem_cons.1 h with rfl | h
      · exact .inl ⟨rfl, h4⟩
      · exact .inr (List.mem_cons_of_mem _ h)
    · rcases List.mem_cons.1 h with rfl | h
      · exact .inr (by simp)
      · exact (ih h).imp id (List.mem_cons_of_mem _)

theorem Table.rising_set (m : Table α) (hm : Table.rising m = true) (a : Nat) (x : α) :
    Table.rising (Table.set d a x m) = true := by
  induction m with
  | nil => by_cases hx : x = d <;> simp [Table.set, hx, Table.rising]
  | cons e m ih =>
    obtain ⟨k, v⟩ := e
    have hk := Table.rising_cons.1 hm
    simp only [Table.set]
    split_ifs with h1 h2 h3 h4
    · exact hm
    · refine Table.rising_cons.2 ⟨hm, ?_⟩
      intro e he
      rcases List.mem_cons.1 he with rfl | he
      · exact h1
      · have := hk.2 e he; simp only at this ⊢; omega
    · exact hk.1
    · subst h3; exact Table.rising_cons.2 hk
    · refine Table.rising_cons.2 ⟨ih hk.1, ?_⟩
      intro e he
      rcases Table.mem_set he with ⟨rfl, _⟩ | he
      · simp only; omega
      · exact hk.2 e he

theorem Table.wf_iff {m : Table α} :
    Table.wf d m = true ↔ Table.rising m = true ∧ ∀ e ∈ m, e.2 ≠ d := by
  simp [Table.wf]

/-- A write keeps the canonical form. -/
theorem Table.wf_set {m : Table α} (hm : Table.wf d m = true) (a : Nat) (x : α) :
    Table.wf d (Table.set d a x m) = true := by
  obtain ⟨h1, h2⟩ := Table.wf_iff.1 hm
  refine Table.wf_iff.2 ⟨Table.rising_set m h1 a x, ?_⟩
  intro e he
  rcases Table.mem_set he with ⟨rfl, hx⟩ | he
  · exact hx
  · exact h2 e he

omit [DecidableEq α] in
theorem Table.get_of_mem {m : Table α} (hm : Table.rising m = true) {e : Nat × α} (he : e ∈ m) :
    Table.get d m e.1 = e.2 := by
  induction m with
  | nil => simp at he
  | cons e' m ih =>
    have hk := Table.rising_cons.1 hm
    rcases List.mem_cons.1 he with rfl | he
    · simp [Table.get]
    · have := hk.2 e he
      rw [Table.get_cons_ne (by omega)]
      exact ih hk.1 he

omit [DecidableEq α] in
theorem Table.mem_of_get_ne {m : Table α} {a : Nat} (h : Table.get d m a ≠ d) : (a, Table.get d m a) ∈ m := by
  induction m with
  | nil => simp [Table.get] at h
  | cons e m ih =>
    obtain ⟨k, v⟩ := e
    by_cases hk : a = k
    · subst hk; simp [Table.get]
    · rw [Table.get_cons_ne (e := (k, v)) hk] at h ⊢
      exact List.mem_cons_of_mem _ (ih h)

/-- In canonical form an entry is listed exactly when it is not what an unlisted one reads as. -/
theorem Table.mem_iff {m : Table α} (hm : Table.wf d m = true) {a : Nat} {x : α} :
    (a, x) ∈ m ↔ Table.get d m a = x ∧ x ≠ d := by
  obtain ⟨h1, h2⟩ := Table.wf_iff.1 hm
  constructor
  · exact fun h => ⟨Table.get_of_mem h1 h, h2 _ h⟩
  · rintro ⟨rfl, hx⟩
    exact Table.mem_of_get_ne hx

omit [DecidableEq α] in
theorem Table.rising_map {m : Table α} {f : α → α} (hm : Table.rising m = true) :
    Table.rising (m.map fun e => (e.1, f e.2)) = true := by
  induction m with
  | nil => rfl
  | cons e m ih =>
    have hk := Table.rising_cons.1 hm
    refine Table.rising_cons.2 ⟨ih hk.1, ?_⟩
    simp only [List.mem_map]
    rintro _ ⟨x, hx, rfl⟩
    exact hk.2 x hx

omit [DecidableEq α] in
theorem Table.rising_filter {m : Table α} {p : Nat × α → Bool} (hm : Table.rising m = true) :
    Table.rising (m.filter p) = true := by
  induction m with
  | nil => rfl
  | cons e m ih =>
    have hk := Table.rising_cons.1 hm
    simp only [List.filter_cons]
    split
    · exact Table.rising_cons.2 ⟨ih hk.1, fun x hx => hk.2 x (List.mem_filter.1 hx).1⟩
    · exact ih hk.1

/-- Changing every entry keeps the canonical form. -/
theorem Table.wf_mapEntries {m : Table α} {f : α → α} (hm : Table.wf d m = true) :
    Table.wf d (Table.mapEntries d f m) = true := by
  refine Table.wf_iff.2 ⟨Table.rising_filter (Table.rising_map (Table.wf_iff.1 hm).1), ?_⟩
  intro e he
  simpa using (List.mem_filter.1 he).2

/-- Changing every entry, read back. -/
theorem Table.get_mapEntries {m : Table α} {f : α → α} (hm : Table.rising m = true) (hf : f d = d) (a : Nat) :
    Table.get d (Table.mapEntries d f m) a = f (Table.get d m a) := by
  induction m with
  | nil => simp [Table.mapEntries, Table.get, hf]
  | cons e m ih =>
    obtain ⟨k, v⟩ := e
    have hk := Table.rising_cons.1 hm
    have ih := ih hk.1
    simp only [Table.mapEntries, List.map_cons, List.filter_cons] at ih ⊢
    by_cases hv : f v = d
    · simp only [hv, ne_eq, not_true_eq_false, decide_false, Bool.false_eq_true, ↓reduceIte]
      rw [ih]
      by_cases ha : a = k
      · subst ha
        rw [Table.get_of_below fun e he => hk.2 e he]
        simp [Table.get, hf, hv]
      · rw [Table.get_cons_ne (e := (k, v)) ha]
    · simp only [hv, ne_eq, not_false_eq_true, decide_true, ↓reduceIte]
      by_cases ha : a = k
      · simp [Table.get, ha]
      · simp only [Table.get, ha, ↓reduceIte]; exact ih

/-! ## Buffers -/

theorem Memory.read_write (m : Memory) (hm : Memory.wf m = true) (a b : Nat) (v : Byte) :
    Memory.read (Memory.write m a v) b = if b = a then v else Memory.read m b :=
  Table.get_set m (Table.wf_iff.1 hm).1 a b v

theorem Memory.read_write_other (m : Memory) {a b : Nat} (v : Byte) (h : b ≠ a) :
    Memory.read (Memory.write m a v) b = Memory.read m b := Table.get_set_other m v h

theorem Memory.wf_write {m : Memory} (hm : Memory.wf m = true) (a : Nat) (v : Byte) :
    Memory.wf (Memory.write m a v) = true := Table.wf_set hm a v

theorem Memory.wf_writeAll {m : Memory} (hm : Memory.wf m = true) (a : Nat) (bytes : List Byte) :
    Memory.wf (Memory.writeAll m a bytes) = true := by
  induction bytes generalizing m a with
  | nil => exact hm
  | cons v vs ih => exact ih (Memory.wf_write hm a v) (a + 1)

theorem Memory.read_writeAll_other (m : Memory) {a b : Nat} (bytes : List Byte)
    (h : b < a ∨ a + bytes.length ≤ b) : Memory.read (Memory.writeAll m a bytes) b = Memory.read m b := by
  induction bytes generalizing m a with
  | nil => rfl
  | cons v vs ih =>
    simp only [List.length_cons] at h
    simp only [Memory.writeAll]
    rw [ih (Memory.write m a v) (by omega), Memory.read_write_other m v (by omega)]

theorem Memory.read_writeAll_inside (m : Memory) (hm : Memory.wf m = true) (a : Nat) (bytes : List Byte) (j : Nat)
    (h : j < bytes.length) : Memory.read (Memory.writeAll m a bytes) (a + j) = bytes[j] := by
  induction bytes generalizing m a j with
  | nil => simp at h
  | cons v vs ih =>
    simp only [Memory.writeAll]
    cases j with
    | zero =>
      rw [Memory.read_writeAll_other _ vs (by omega), Memory.read_write m hm]
      simp
    | succ j =>
      have := ih (Memory.write m a v) (Memory.wf_write hm a v) (a + 1) j (by simpa using h)
      rw [show a + (j + 1) = a + 1 + j by omega, this]
      simp

end Sys2Proof.Machine
end

