-- ==== Sys2Proof/Laws/Builder.lean ====
section
/-! SUPPORT. What the operations of the tree builder do (41_tree_builder.md R230 to R232). -/

namespace Sys2Proof.Machine

/-! ## ACTIVE as a rising list -/

theorem insertActive_above {k : Nat} {l : List Nat} (h : ∀ m ∈ l, m < k) : insertActive k l = l ++ [k] := by
  induction l with
  | nil => rfl
  | cons m l ih =>
    have h1 := h m (by simp)
    rw [insertActive, if_neg (by omega), if_neg (by omega), ih (fun x hx => h x (by simp [hx]))]
    rfl

theorem mem_insertActive {k x : Nat} {l : List Nat} : x ∈ insertActive k l ↔ x = k ∨ x ∈ l := by
  induction l with
  | nil => simp [insertActive]
  | cons m l ih =>
    rw [insertActive]
    split
    · simp
    · split
      · next h => subst h; simp
      · simp [ih]; tauto

theorem insertActive_pairwise {k : Nat} {l : List Nat} (h : l.Pairwise (· < ·)) :
    (insertActive k l).Pairwise (· < ·) := by
  induction l with
  | nil => simp [insertActive]
  | cons m l ih =>
    rw [List.pairwise_cons] at h
    rw [insertActive]
    split
    · next hk =>
      refine List.pairwise_cons.2 ⟨?_, List.pairwise_cons.2 h⟩
      intro x hx
      rcases List.mem_cons.1 hx with rfl | hx
      · exact hk
      · exact lt_trans hk (h.1 x hx)
    · split
      · exact List.pairwise_cons.2 h
      · refine List.pairwise_cons.2 ⟨?_, ih h.2⟩
        intro x hx
        rcases mem_insertActive.1 hx with rfl | hx
        · omega
        · exact h.1 x hx

/-! ## C_LEAVES -/

theorem slotOf_set {s : State} (h : Table.wf NodeSlot.blank s.node = true) (k : Nat) (x : NodeSlot) (j : Nat) :
    slotOf { s with node := Table.set NodeSlot.blank k x s.node } j = if j = k then x else slotOf s j :=
  Table.get_set _ (Table.wf_iff.1 h).1 k j x

/-- C_LEAVES' loop makes one Leaf for each entry, in order, active all (R230). -/
theorem addLeaves_ok {es : List (Nat × Nat)} {s : State} (hw : Table.wf NodeSlot.blank s.node = true)
    (hn : s.nNodes + es.length ≤ Config.treeNodeCap) (ha : s.active = List.range s.nNodes) :
    ∃ t, addLeaves es s = .ok t ∧
      (∀ (j : Nat) (h : j < es.length), slotOf t (s.nNodes + j) =
        { slotOf s (s.nNodes + j) with kind := .leaf, letter := BitVec.ofNat 16 es[j].1, freq := es[j].2 }) ∧
      (∀ k, k < s.nNodes ∨ s.nNodes + es.length ≤ k → slotOf t k = slotOf s k) ∧
      t = { s with
        node := t.node, nNodes := s.nNodes + es.length, active := List.range (s.nNodes + es.length) } ∧
      Table.wf NodeSlot.blank t.node = true := by
  induction es generalizing s with
  | nil => exact ⟨s, rfl, by simp, by simp, by simp [← ha], hw⟩
  | cons e es ih =>
    simp only [List.length_cons] at hn ⊢
    let x : NodeSlot := { slotOf s s.nNodes with kind := .leaf, letter := BitVec.ofNat 16 e.1, freq := e.2 }
    let s1 : State := { s with
      node := Table.set NodeSlot.blank s.nNodes x s.node, active := insertActive s.nNodes s.active
      nNodes := s.nNodes + 1 }
    have h1 : addLeaf e s = .ok s1 := by
      simp only [addLeaf]
      rw [setNode_ok (by omega)]
      rfl
    have hset : ∀ j, slotOf s1 j = if j = s.nNodes then x else slotOf s j := slotOf_set (s := s) hw _ _
    have hn1 : s1.nNodes + es.length ≤ Config.treeNodeCap := by change s.nNodes + 1 + es.length ≤ _; omega
    have ha1 : s1.active = List.range s1.nNodes := by
      change insertActive s.nNodes s.active = List.range (s.nNodes + 1)
      rw [ha, insertActive_above (by simp), List.range_succ]
    obtain ⟨t, ht, h2, h3, h4, h5⟩ := ih (s := s1) (Table.wf_set hw _ _) hn1 ha1
    have e1 : s1.nNodes = s.nNodes + 1 := rfl
    rw [e1] at h2 h3 h4
    refine ⟨t, by rw [addLeaves, h1]; exact ht, ?_, ?_, ?_, h5⟩
    · intro j hj
      cases j with
      | zero => rw [Nat.add_zero, h3 _ (.inl (by omega)), hset, if_pos rfl]; rfl
      | succ j =>
        have := h2 j (by simpa using hj)
        rw [show s.nNodes + 1 + j = s.nNodes + (j + 1) by omega] at this
        rw [this, hset, if_neg (by omega)]
        rfl
    · intro k hk
      rw [h3 k (by omega), hset, if_neg (by omega)]
    · rw [h4, show s.nNodes + 1 + es.length = s.nNodes + (es.length + 1) by omega]

/-! ## C_MERGE -/

theorem keyBelow_iff {s : State} {a b : Nat} : keyBelow s a b = true ↔
    (slotOf s a).freq < (slotOf s b).freq ∨ (slotOf s a).freq = (slotOf s b).freq ∧ a < b := by
  simp [keyBelow]

/-- The key of `a` is the least of a list (R231). -/
def LeastKey (s : State) (a : Nat) (l : List Nat) : Prop := ∀ k ∈ l, k ≠ a → keyBelow s a k = true

theorem keyBelow_trans {s : State} {a b c : Nat} (h : keyBelow s a b = true) (h' : keyBelow s b c = true) :
    keyBelow s a c = true := by
  rw [keyBelow_iff] at *; omega

theorem keyBelow_total {s : State} {a b : Nat} (h : a ≠ b) (h' : keyBelow s b a = false) : keyBelow s a b = true := by
  rw [Bool.eq_false_iff, Ne, keyBelow_iff] at h'
  rw [keyBelow_iff]; omega

theorem keyBelow_asymm {s : State} {a b : Nat} (h : keyBelow s a b = true) : ¬ keyBelow s b a = true := by
  rw [keyBelow_iff] at *; omega

theorem argminFrom_mem (s : State) (best : Nat) (l : List Nat) : argminFrom s best l ∈ best :: l := by
  induction l generalizing best with
  | nil => simp [argminFrom]
  | cons k l ih =>
    rw [argminFrom]
    by_cases h : keyBelow s k best = true
    · rw [if_pos h]
      exact List.mem_cons_of_mem _ (ih k)
    · rw [if_neg h]
      rcases List.mem_cons.1 (ih best) with h' | h'
      · rw [h']; simp
      · exact List.mem_cons_of_mem _ (List.mem_cons_of_mem _ h')

theorem argminFrom_least (s : State) (best : Nat) (l : List Nat) :
    LeastKey s (argminFrom s best l) (best :: l) := by
  induction l generalizing best with
  | nil => intro k hk hne; simp [argminFrom] at *; exact absurd hk hne
  | cons k l ih =>
    intro j hj hne
    rw [argminFrom] at hne ⊢
    by_cases hk : keyBelow s k best = true
    · rw [if_pos hk] at hne ⊢
      have hl := ih k
      rcases List.mem_cons.1 hj with rfl | hj
      · by_cases he : argminFrom s k l = k
        · rw [he]; exact hk
        · exact keyBelow_trans (hl k (by simp) (Ne.symm he)) hk
      · exact hl j hj hne
    · rw [if_neg hk] at hne ⊢
      have hl := ih best
      rcases List.mem_cons.1 hj with rfl | hj
      · exact hl j (by simp) hne
      · rcases List.mem_cons.1 hj with rfl | hj
        · by_cases hjb : j = best
          · subst hjb; exact hl j (by simp) hne
          · have hb := keyBelow_total (s := s) (Ne.symm hjb) (by simpa using hk)
            by_cases he : argminFrom s best l = best
            · rw [he]; exact hb
            · exact keyBelow_trans (hl best (by simp) (Ne.symm he)) hb
        · exact hl j (by simp [hj]) hne

theorem LeastKey.unique {s : State} {a b : Nat} {l : List Nat} (ha : a ∈ l) (hb : b ∈ l) (h : LeastKey s a l)
    (h' : LeastKey s b l) : a = b := by
  by_contra hne
  exact keyBelow_asymm (h b hb (Ne.symm hne)) (h' a ha hne)

/-- argmin takes the member with the least key out of ACTIVE (R231, R232). -/
theorem popMin_ok {s : State} {a : Nat} (ha : a ∈ s.active) (h : LeastKey s a s.active) :
    popMin s = .ok (a, { s with active := s.active.filter fun k => decide (k ≠ a) }) := by
  unfold popMin
  split
  · next he => rw [he] at ha; simp at ha
  · next m ms he =>
    have : argminFrom s m ms = a :=
      LeastKey.unique (l := s.active) (he ▸ argminFrom_mem s m ms) ha (he ▸ argminFrom_least s m ms) h
    simp only [this, he]

/-- A least member of a list that is not empty. -/
theorem exists_least {s : State} {l : List Nat} (h : l ≠ []) : ∃ a ∈ l, LeastKey s a l := by
  cases l with
  | nil => exact absurd rfl h
  | cons m ms => exact ⟨_, argminFrom_mem s m ms, argminFrom_least s m ms⟩

/-- The Joint a merge of `a` (popped first) and `b` makes (R232). -/
def jointSlot (s : State) (a b : Nat) : NodeSlot :=
  { slotOf s s.nNodes with
    kind := .joint, left := b, right := a, freq := (slotOf s a).freq + (slotOf s b).freq }

/-- ACTIVE after a merge of `a` and `b` (R232). -/
def mergedActive (s : State) (a b : Nat) : List Nat :=
  insertActive s.nNodes ((s.active.filter fun k => decide (k ≠ a)).filter fun k => decide (k ≠ b))

/-- The state after a merge of `a` and `b` (R232). -/
def merged (s : State) (a b : Nat) : State :=
  { s with
    node := Table.set NodeSlot.blank s.nNodes (jointSlot s a b) s.node
    active := mergedActive s a b, nNodes := s.nNodes + 1 }

/-- The merge branch of C_MERGE (R232). -/
theorem mergeTwo_ok {s : State} {a b : Nat} (ha : a ∈ s.active) (hb : b ∈ s.active) (hne : a ≠ b)
    (hla : LeastKey s a s.active) (hlb : LeastKey s b (s.active.filter fun k => decide (k ≠ a)))
    (hin : ∀ k ∈ s.active, k < s.nNodes) (hn : s.nNodes < Config.treeNodeCap) :
    mergeTwo s = .ok (merged s a b) := by
  have hk : ∀ k ∈ s.active, k < Config.treeNodeCap := fun k hk => lt_trans (hin k hk) hn
  unfold mergeTwo
  rw [popMin_ok ha hla]
  simp only [run_bind_ok]
  rw [popMin_ok (s := { s with active := s.active.filter fun k => decide (k ≠ a) }) (a := b)
    (by simp [hb, Ne.symm hne]) hlb]
  simp only [run_bind_ok]
  rw [nodeAt_ok (hk a ha), run_bind_ok, nodeAt_ok (hk b hb), run_bind_ok, setNode_ok hn]
  rfl

theorem mem_mergedActive {s : State} {a b k : Nat} :
    k ∈ mergedActive s a b ↔ k = s.nNodes ∨ (k ∈ s.active ∧ k ≠ a ∧ k ≠ b) := by
  simp [mergedActive, mem_insertActive, and_comm]

theorem mergedActive_pairwise {s : State} {a b : Nat} (h : s.active.Pairwise (· < ·)) :
    (mergedActive s a b).Pairwise (· < ·) := insertActive_pairwise ((h.filter _).filter _)

/-- C_MERGE with two or more active nodes merges two of them (R232). -/
theorem cMerge_ok {s : State} (hp : s.active.Pairwise (· < ·)) (h2 : 2 ≤ s.active.length)
    (hin : ∀ k ∈ s.active, k < s.nNodes) (hn : s.nNodes < Config.treeNodeCap) :
    ∃ a b, a ∈ s.active ∧ b ∈ s.active ∧ a ≠ b ∧ LeastKey s a s.active ∧
      LeastKey s b (s.active.filter fun k => decide (k ≠ a)) ∧ cMerge s = .ok (merged s a b) := by
  obtain ⟨a, ha, hla⟩ := exists_least (s := s) (l := s.active) (by rintro h; rw [h] at h2; simp at h2)
  have hne : (s.active.filter fun k => decide (k ≠ a)) ≠ [] := by
    intro h
    have hall : ∀ k ∈ s.active, k = a := by
      intro k hk
      have := List.filter_eq_nil_iff.1 h k hk
      simpa using this
    match hs : s.active, h2 with
    | x :: y :: l, _ =>
      rw [hs] at hall hp
      have h1 := hall x (by simp)
      have h2 := hall y (by simp)
      have := (List.pairwise_cons.1 hp).1 y (by simp)
      omega
  obtain ⟨b, hb, hlb⟩ := exists_least (s := s) hne
  have hb' := List.mem_filter.1 hb
  refine ⟨a, b, ha, hb'.1, ?_, hla, hlb, ?_⟩
  · have := hb'.2; simp at this; exact Ne.symm this
  · have : cMerge s = mergeTwo s := by
      unfold cMerge
      split
      · next h => rw [h] at h2; simp at h2
      · rfl
    rw [this]
    refine mergeTwo_ok ha hb'.1 ?_ hla hlb hin hn
    have := hb'.2; simp at this; exact Ne.symm this

end Sys2Proof.Machine
end

