-- ==== Sys2Proof/Laws/Writer.lean ====
section
/-! SUPPORT. What the memory port and the bit writer can do (20_memory.md R103, R107 to R109). -/

namespace Sys2Proof.Machine

/-! ## The memory port -/

theorem drawPort_eq (s : State) : drawPort s = (s.port.headD .ok, { s with port := s.port.tail }) := by
  rcases s with ⟨⟩
  rename_i port _ _ _
  cases port <;> rfl

theorem portOk_head {s : State} (h : portOk s = true) : s.port.headD .ok = .ok := by
  rw [portOk, List.all_eq_true] at h
  cases hp : s.port with
  | nil => rfl
  | cons a r => simpa using h a (by simp [hp])

theorem portOk_drop {s : State} (h : portOk s = true) (n : Nat) : ∀ a ∈ s.port.drop n, a = .ok := by
  rw [portOk, List.all_eq_true] at h
  exact fun a ha => by simpa using h a (List.mem_of_mem_drop ha)

theorem portOk_iff {s : State} : portOk s = true ↔ ∀ a ∈ s.port, a = .ok := by simp [portOk]

/-- MemRead with the port ok. -/
theorem memRead_ok {a : Nat} {s : State} (ha : a < s.inLen.toNat) (hc : s.inLen.toNat ≤ s.inCap)
    (hp : portOk s = true) :
    memRead a s = .ok (Memory.read s.ibuf a, { s with port := s.port.tail }) := by
  simp only [memRead, ha, hc, and_self, ↓reduceIte, drawPort_eq, portOk_head hp]

/-- Whatever MemRead answers, only the port's answers change. -/
theorem memRead_post (a : Nat) (s : State) (h : a < s.inLen.toNat ∧ s.inLen.toNat ≤ s.inCap) :
    Run.post (fun r => r = (Memory.read s.ibuf a, { s with port := s.port.tail }))
      (fun e t => e = .io ∧ t = { s with port := s.port.tail }) (fun _ => False) (memRead a s) := by
  simp only [memRead, h, and_self, ↓reduceIte, drawPort_eq]
  cases s.port.headD .ok <;> simp

/-- MemWrite with room and the port ok. -/
theorem memWrite_ok {a : Nat} {v : Byte} {s : State} (ha : a < s.outCap) (hp : portOk s = true) :
    memWrite a v s = .ok { s with obuf := Memory.write s.obuf a v, port := s.port.tail } := by
  simp only [memWrite, Nat.not_le.2 ha, ↓reduceIte, drawPort_eq, portOk_head hp]

/-- Whatever MemWrite answers: the byte is written, or Io is raised with OBUF as it was. -/
theorem memWrite_post (a : Nat) (v : Byte) (s : State) :
    Run.post (fun t => a < s.outCap ∧ t = { s with obuf := Memory.write s.obuf a v, port := s.port.tail })
      (fun e t => e = .io ∧ t = { s with port := t.port }) (fun _ => False) (memWrite a v s) := by
  rw [memWrite]
  split
  · simp
  · simp only [drawPort_eq]
    cases s.port.headD .ok <;> simp_all

/-! ## The bit writer -/

/-- The fields the bit writer may change. -/
def WriterFrame (s t : State) : Prop :=
  t = { s with
    wrAcc := t.wrAcc, wrCnt := t.wrCnt, wrPos := t.wrPos, obuf := t.obuf, port := t.port, draws := t.draws }

theorem WriterFrame.refl (s : State) : WriterFrame s s := rfl

theorem WriterFrame.trans {s t u : State} (h : WriterFrame s t) (h' : WriterFrame t u) : WriterFrame s u := by
  unfold WriterFrame at *
  rw [h'.trans (by rw [h])]

theorem nextByte_frame (s : State) : WriterFrame s (nextByte s) := by
  unfold nextByte; split <;> rfl

@[simp] theorem nextByte_obuf (s : State) : (nextByte s).obuf = s.obuf := by unfold nextByte; split <;> rfl
@[simp] theorem nextByte_wrCnt (s : State) : (nextByte s).wrCnt = 0 := by unfold nextByte; split <;> rfl

/-- A writer state keeps its ranges and the buffer its form; at a raise the count may be 8 (log 12). -/
def WriterOk (bound : Nat) (t : State) : Prop :=
  t.wrCnt ≤ bound ∧ Memory.wf t.obuf = true ∧ t.wrPos.toNat ≤ t.outCap

theorem nextByte_position {s : State} (h : s.wrPos.toNat < s.outCap) : (nextByte s).wrPos.toNat ≤ s.outCap := by
  unfold nextByte
  split
  · next h64 => simp only [BitVec.toNat_add]; simp; omega
  · next h64 => have := (Config.freePos s.draws).isLt; simp only; omega

@[simp] theorem nextByte_outCap (s : State) : (nextByte s).outCap = s.outCap := by unfold nextByte; split <;> rfl

theorem writeBit_post {b : Bool} {s : State} (h : WriterOk 7 s) :
    Run.post (fun t => WriterFrame s t ∧ WriterOk 7 t) (fun e t => e = .io ∧ WriterFrame s t ∧ WriterOk 8 t)
      (fun _ => False) (writeBit b s) := by
  obtain ⟨hc, hw, hpos⟩ := h
  unfold writeBit
  simp only [shiftIn_wrCnt]
  split
  · rw [post_bind]
    refine post_mono (memWrite_post _ _ _) ?_ ?_ (fun _ h => h)
    · rintro t ⟨hlt, rfl⟩
      refine ⟨WriterFrame.trans (by rfl) (nextByte_frame _), ?_, ?_, ?_⟩
      · simp
      · simpa using Memory.wf_write hw _ _
      · rw [nextByte_outCap]; exact nextByte_position hlt
    · rintro e t ⟨rfl, ht⟩
      refine ⟨rfl, ?_, ?_⟩
      · rw [ht]; rfl
      · rw [ht]; exact ⟨by simp; omega, hw, hpos⟩
  · exact ⟨rfl, by simp only [shiftIn_wrCnt]; omega, hw, hpos⟩

/-- Whatever a write of a bit string answers: only the writer changes, and the only error is Io. -/
theorem writeString_post {bs : Bits} {s : State} (h : WriterOk 7 s) :
    Run.post (fun t => WriterFrame s t ∧ WriterOk 7 t) (fun e t => e = .io ∧ WriterFrame s t ∧ WriterOk 8 t)
      (fun _ => False) (writeString bs s) := by
  induction bs generalizing s with
  | nil => exact ⟨rfl, h⟩
  | cons b bs ih =>
    rw [writeString, post_bind]
    refine post_mono (writeBit_post h) ?_ ?_ (fun _ h => h)
    · rintro t ⟨hf, ht⟩
      exact post_mono (ih ht) (fun u hu => ⟨hf.trans hu.1, hu.2⟩)
        (fun e u hu => ⟨hu.1, hf.trans hu.2.1, hu.2.2⟩) (fun _ h => h)
    · exact fun _ _ h => h

theorem Appended.nil {s : State} (hc : s.wrCnt < 8) (hw : Memory.wf s.obuf = true) : Appended s [] s := by
  have h0 : bytesCompleted s 0 = 0 := by simp [bytesCompleted]; omega
  constructor
  · simp
  · simp [h0]
  · simp; omega
  · simp
  · exact hw
  · simp [h0]
  · rfl

theorem Appended.trans {s t u : State} {a b : Bits} (h : Appended s a t) (h' : Appended t b u) :
    Appended s (a ++ b) u := by
  have hb : bytesCompleted s (a ++ b).length = bytesCompleted s a.length + bytesCompleted t b.length := by
    simp only [bytesCompleted, h.count, List.length_append]; omega
  constructor
  · rw [h'.stream, h.stream, List.append_assoc]
  · rw [h'.position, h.position, hb, Nat.add_assoc]
  · rw [h'.count, h.count, List.length_append]; omega
  · intro x hx
    have h1 := h.position
    rw [hb] at hx
    rw [h'.outside x (by omega), h.outside x (by omega)]
  · exact h'.canonical
  · rw [h'.answers, h.answers, hb, List.drop_drop]
  · exact h'.rest.trans (by rw [h.rest])

theorem readAll_write_end (m : Memory) (hm : Memory.wf m = true) (n : Nat) (v : Byte) :
    Memory.readAll (Memory.write m n v) 0 (n + 1) = Memory.readAll m 0 n ++ [v] := by
  simp only [Memory.readAll, List.range_succ, List.map_append, List.map_cons, List.map_nil, Nat.zero_add]
  rw [Memory.read_write m hm]
  simp only [↓reduceIte, List.append_cancel_right_eq, List.map_inj_left, List.mem_range]
  exact fun j hj => Memory.read_write_other m v (by omega)

theorem room_iff {s : State} {k : Nat} : room s k = true ↔
    s.wrCnt < 8 ∧ s.wrPos.toNat + bytesCompleted s k ≤ s.outCap ∧ s.wrPos.toNat + bytesCompleted s k < 2 ^ 64 := by
  simp [room, and_assoc]

theorem bin_shiftIn (w : Nat) (b : Bool) (acc : BitVec 8) (h : w < 8) :
    bin (w + 1) (BitVec.ofNat 8 (acc.toNat * 2 + b.toNat)).toNat = bin w acc.toNat ++ [b] := by
  rw [BitVec.toNat_ofNat, bin_mod _ _ _ (by omega), bin_append w 1]
  congr 1
  · congr 1; cases b <;> (simp; try omega)
  · cases b <;> simp [bin]

/-- WriteBit's store of a completed byte appends the bit. -/
theorem appended_byte {b : Bool} {s : State} (hc : s.wrCnt < 8) (h8 : s.wrCnt + 1 = 8) (h64 : s.wrPos.toNat + 1 < 2 ^ 64)
    (hw : Memory.wf s.obuf = true) :
    Appended s [b] (nextByte { shiftIn b s with
      obuf := Memory.write s.obuf s.wrPos.toNat (shiftIn b s).wrAcc, port := s.port.tail }) := by
  have hb : bytesCompleted s 1 = 1 := by simp [bytesCompleted, h8]
  have hn : nextByte { shiftIn b s with
        obuf := Memory.write s.obuf s.wrPos.toNat (shiftIn b s).wrAcc, port := s.port.tail } =
      { shiftIn b s with
        obuf := Memory.write s.obuf s.wrPos.toNat (shiftIn b s).wrAcc, port := s.port.tail,
        wrPos := s.wrPos + 1, wrAcc := 0, wrCnt := 0 } := by
    simp only [nextByte]
    exact if_pos h64
  have hpos : (s.wrPos + 1).toNat = s.wrPos.toNat + 1 := by
    rw [BitVec.toNat_add]; simp; omega
  rw [hn]
  constructor
  · simp only [outputBits, hpos]
    rw [readAll_write_end _ hw, streamBits_append, List.append_assoc, List.append_assoc]
    congr 1
    simp only [streamBits_cons, streamBits_nil, List.append_nil, shiftIn_wrAcc]
    have h := bin_shiftIn s.wrCnt b s.wrAcc hc
    rw [h8] at h
    rw [h]
    simp [bin]
  · rw [List.length_singleton, hb]; exact hpos
  · simp [h8]
  · intro a ha
    simp only [List.length_singleton, hb] at ha
    exact Memory.read_write_other _ _ (by omega)
  · exact Memory.wf_write hw _ _
  · simp [hb]
  · rfl

/-- WriteBit that completes no byte appends the bit. -/
theorem appended_shiftIn {b : Bool} {s : State} (hc : s.wrCnt < 8) (h8 : s.wrCnt + 1 ≠ 8)
    (hw : Memory.wf s.obuf = true) : Appended s [b] (shiftIn b s) := by
  have hb : bytesCompleted s 1 = 0 := by simp [bytesCompleted]; omega
  constructor
  · simp only [outputBits, shiftIn_obuf, shiftIn_wrPos, shiftIn_wrCnt, shiftIn_wrAcc]
    rw [bin_shiftIn _ _ _ hc, List.append_assoc]
  · simp [hb]
  · simp; omega
  · intro a _; simp
  · exact hw
  · simp [hb]
  · rfl

/-- WriteBit with room and the port ok. -/
theorem writeBit_appended {b : Bool} {s : State} (hp : portOk s = true) (hr : room s 1 = true)
    (hw : Memory.wf s.obuf = true) : ∃ t, writeBit b s = .ok t ∧ Appended s [b] t := by
  obtain ⟨hc, hcap, h64⟩ := room_iff.1 hr
  unfold writeBit
  simp only [shiftIn_wrCnt]
  by_cases h8 : s.wrCnt + 1 = 8
  · have hb : bytesCompleted s 1 = 1 := by simp [bytesCompleted, h8]
    rw [hb] at hcap h64
    rw [if_pos h8, memWrite_ok (s := shiftIn b s) (by simpa using hcap) hp]
    exact ⟨_, rfl, appended_byte hc h8 h64 hw⟩
  · rw [if_neg h8]
    exact ⟨_, rfl, appended_shiftIn hc h8 hw⟩

theorem room_mono {s : State} {j k : Nat} (h : room s k = true) (hjk : j ≤ k) : room s j = true := by
  obtain ⟨h1, h2, h3⟩ := room_iff.1 h
  have : bytesCompleted s j ≤ bytesCompleted s k := Nat.div_le_div_right (by omega)
  exact room_iff.2 ⟨h1, by omega, by omega⟩

/-- Room that is left after an append. -/
theorem Appended.room {s t : State} {a : Bits} {k : Nat} (h : Appended s a t)
    (hr : room s (a.length + k) = true) : Machine.room t k = true := by
  obtain ⟨h1, h2, h3⟩ := room_iff.1 hr
  have hb : bytesCompleted s (a.length + k) = bytesCompleted s a.length + bytesCompleted t k := by
    simp only [bytesCompleted, h.count]; omega
  have hp := h.position
  have hcap : t.outCap = s.outCap := by rw [h.rest]
  refine room_iff.2 ⟨by rw [h.count]; omega, ?_, ?_⟩ <;> omega

theorem Appended.portOk {s t : State} {a : Bits} (h : Appended s a t) (hp : portOk s = true) :
    Machine.portOk t = true := by
  rw [portOk_iff, h.answers]
  exact portOk_drop hp _

/-- A write of a bit string with room for it and the port ok appends it (R108). -/
theorem writeString_appended {bs : Bits} {s : State} (hp : portOk s = true) (hr : room s bs.length = true)
    (hw : Memory.wf s.obuf = true) : ∃ t, writeString bs s = .ok t ∧ Appended s bs t := by
  induction bs generalizing s with
  | nil => exact ⟨s, rfl, Appended.nil (room_iff.1 hr).1 hw⟩
  | cons b bs ih =>
    obtain ⟨t, ht, ha⟩ := writeBit_appended (b := b) hp (room_mono hr (by simp)) hw
    obtain ⟨u, hu, hb⟩ := ih (ha.portOk hp) (ha.room (by simpa [Nat.add_comm] using hr)) ha.canonical
    exact ⟨u, by rw [writeString, ht]; exact hu, ha.trans hb⟩

theorem writeBits_appended {w v : Nat} {s : State} (hp : portOk s = true) (hr : room s w = true)
    (hw : Memory.wf s.obuf = true) : ∃ t, writeBits w v s = .ok t ∧ Appended s (bin w v) t :=
  writeString_appended hp (by simpa using hr) hw

/-- `k` more bits keep `wr_pos` in its 64 bits, for want of room beyond or of bits (log 7). -/
def PosOk (s : State) (k : Nat) : Prop := s.outCap < 2 ^ 64 ∨ s.wrPos.toNat + bytesCompleted s k < 2 ^ 64

/-- What a write leaves where it raises Io: with the port ok its bits did not fit; the bytes before it and those beyond
OBUF are as they were. -/
structure WriteFail (s : State) (k : Nat) (e : ErrorKind) (t : State) : Prop where
  kind : e = .io
  frame : WriterFrame s t
  form : Memory.wf t.obuf = true
  full : portOk s = true → s.outCap < s.wrPos.toNat + bytesCompleted s k
  forward : s.wrPos.toNat ≤ t.wrPos.toNat
  outside : ∀ a, a < s.wrPos.toNat ∨ s.outCap ≤ a → Memory.read t.obuf a = Memory.read s.obuf a

theorem writeBit_spec {b : Bool} {s : State} (hok : WriterOk 7 s) (hb : PosOk s 1) :
    Run.post (fun t => Appended s [b] t ∧ t.wrPos.toNat ≤ s.outCap) (WriteFail s 1) (fun _ => False)
      (writeBit b s) := by
  obtain ⟨hc, hw, hpos⟩ := hok
  have hc : s.wrCnt < 8 := by omega
  unfold writeBit
  simp only [shiftIn_wrCnt]
  split
  · next h8 =>
    have hb1 : bytesCompleted s 1 = 1 := by simp [bytesCompleted, h8]
    rw [PosOk, hb1] at hb
    rw [memWrite]
    split
    · next hfull =>
      refine ⟨rfl, rfl, hw, fun _ => by rw [hb1]; exact Nat.lt_succ_of_le hfull, le_rfl, fun a _ => rfl⟩
    · next hfull =>
      have hlt : s.wrPos.toNat < s.outCap := Nat.not_le.1 hfull
      rw [drawPort_eq]
      rcases hport : (shiftIn b s).port.headD .ok with _ | _
      · have ha := appended_byte (b := b) hc h8 (by omega) hw
        have hp := ha.position
        rw [List.length_singleton, hb1] at hp
        exact ⟨ha, le_trans (le_of_eq hp) hlt⟩
      · refine ⟨rfl, rfl, hw, fun hp => ?_, le_rfl, fun a _ => rfl⟩
        have := portOk_head hp
        rw [show (shiftIn b s).port = s.port from rfl, this] at hport
        cases hport
  · next h8 => exact ⟨appended_shiftIn hc h8 hw, hpos⟩

theorem bytesCompleted_add {s t : State} {a : Bits} (h : Appended s a t) (k : Nat) :
    bytesCompleted s (a.length + k) = bytesCompleted s a.length + bytesCompleted t k := by
  simp only [bytesCompleted, h.count]; omega

theorem Appended.frame {s t : State} {a : Bits} (h : Appended s a t) : WriterFrame s t := by
  rw [WriterFrame, h.rest]

theorem Appended.outCap {s t : State} {a : Bits} (h : Appended s a t) : t.outCap = s.outCap := by rw [h.rest]

theorem Appended.writerOk {s t : State} {a : Bits} (h : Appended s a t) (hpos : t.wrPos.toNat ≤ s.outCap) :
    WriterOk 7 t := ⟨by rw [h.count]; omega, h.canonical, by rw [h.outCap]; exact hpos⟩

theorem Appended.posOk {s t : State} {a : Bits} {k : Nat} (h : Appended s a t) (hb : PosOk s (a.length + k)) :
    PosOk t k := by
  rw [PosOk, bytesCompleted_add h] at hb
  rw [PosOk, h.outCap, h.position]
  omega

/-- A failure after some bits were appended. -/
theorem WriteFail.after {s t u : State} {a : Bits} {k : Nat} {e : ErrorKind} (h : Appended s a t)
    (hpos : t.wrPos.toNat ≤ s.outCap) (hf : WriteFail t k e u) : WriteFail s (a.length + k) e u := by
  have hp := h.position
  have hfw := hf.forward
  refine ⟨hf.kind, h.frame.trans hf.frame, hf.form, fun hport => ?_, by omega, fun x hx => ?_⟩
  · have := hf.full (h.portOk hport)
    rw [h.outCap] at this
    rw [bytesCompleted_add h]
    omega
  · rw [hf.outside x (by rw [h.outCap]; omega), h.outside x (by omega)]

theorem PosOk.mono {s : State} {j k : Nat} (h : PosOk s k) (hjk : j ≤ k) : PosOk s j := by
  have : bytesCompleted s j ≤ bytesCompleted s k := Nat.div_le_div_right (by omega)
  rcases h with h | h
  · exact .inl h
  · exact .inr (by omega)

/-- Whatever a write of a bit string answers: the bits are appended, or Io (R108). -/
theorem writeString_spec {bs : Bits} {s : State} (hok : WriterOk 7 s) (hb : PosOk s bs.length) :
    Run.post (fun t => Appended s bs t ∧ t.wrPos.toNat ≤ s.outCap) (WriteFail s bs.length) (fun _ => False)
      (writeString bs s) := by
  induction bs generalizing s with
  | nil => exact ⟨Appended.nil (by have := hok.1; omega) hok.2.1, hok.2.2⟩
  | cons b bs ih =>
    rw [List.length_cons, Nat.add_comm] at hb ⊢
    rw [writeString, post_bind]
    refine post_mono (writeBit_spec hok (hb.mono (by omega))) ?_ ?_ (fun _ h => h)
    · rintro t ⟨ha, hpos⟩
      refine post_mono (ih (ha.writerOk hpos) (ha.posOk hb)) ?_ ?_ (fun _ h => h)
      · rintro u ⟨hu, hup⟩
        exact ⟨ha.trans hu, by rw [← ha.outCap]; exact hup⟩
      · intro e u hu
        exact hu.after ha hpos
    · intro e t hf
      refine ⟨hf.kind, hf.frame, hf.form, fun hp => ?_, hf.forward, hf.outside⟩
      have h1 := hf.full hp
      have : bytesCompleted s 1 ≤ bytesCompleted s (1 + bs.length) := Nat.div_le_div_right (by omega)
      omega

theorem writeBits_spec {w v : Nat} {s : State} (hok : WriterOk 7 s) (hb : PosOk s w) :
    Run.post (fun t => Appended s (bin w v) t ∧ t.wrPos.toNat ≤ s.outCap) (WriteFail s w) (fun _ => False)
      (writeBits w v s) := by
  have := writeString_spec (bs := bin w v) hok (by rw [bin_length]; exact hb)
  rwa [bin_length] at this

/-! ## Flush -/

theorem flushLoop_post {fuel : Nat} {s : State} (h : WriterOk 7 s) (hf : (8 - s.wrCnt % 8) % 8 ≤ fuel) :
    Run.post (fun t => WriterFrame s t ∧ WriterOk 0 t)
      (fun e t => e = .io ∧ WriterFrame s t ∧ WriterOk 8 t) (fun _ => False) (flushLoop fuel s) := by
  have hc := h.1
  induction fuel generalizing s with
  | zero =>
    have h0 : s.wrCnt = 0 := by omega
    simp only [flushLoop, h0, ↓reduceIte, post_ok]
    exact ⟨rfl, by omega, h.2⟩
  | succ fuel ih =>
    rw [flushLoop]
    split
    · next h0 => exact ⟨rfl, by omega, h.2⟩
    · next h0 =>
      rw [post_bind]
      have hn : Run.post (fun t => t.wrCnt = (s.wrCnt + 1) % 8) (fun _ _ => True) (fun _ => True)
          (writeBit false s) := by
        unfold writeBit
        simp only [shiftIn_wrCnt]
        split
        · next h8 =>
          rw [post_bind]
          refine post_mono (memWrite_post _ _ _) ?_ (fun _ _ _ => trivial) (fun _ _ => trivial)
          rintro t ⟨-, rfl⟩
          simp [h8]
        · simp only [post_ok, shiftIn_wrCnt]; omega
      refine post_mono (post_and (writeBit_post h) hn) ?_ (fun _ _ h => h.1) (fun _ h => h.1)
      rintro t ⟨⟨hfr, hok⟩, hcnt⟩
      exact post_mono (ih hok (by omega) hok.1) (fun u hu => ⟨hfr.trans hu.1, hu.2⟩)
        (fun e u hu => ⟨hu.1, hfr.trans hu.2.1, hu.2.2⟩) (fun _ h => h)

/-- Whatever Flush answers, from a writer in its range. -/
theorem flush_post {s : State} (h : WriterOk 7 s) :
    Run.post (fun t => WriterFrame s t ∧ WriterOk 0 t)
      (fun e t => e = .io ∧ WriterFrame s t ∧ WriterOk 8 t) (fun _ => False) (flush s) :=
  flushLoop_post h (by omega)

theorem flushLoop_appended {fuel : Nat} {s : State} (hp : portOk s = true) (hr : room s (padding s) = true)
    (hw : Memory.wf s.obuf = true) (hf : padding s ≤ fuel) :
    ∃ t, flushLoop fuel s = .ok t ∧ Appended s (List.replicate (padding s) false) t := by
  induction fuel generalizing s with
  | zero =>
    have hc := (room_iff.1 hr).1
    have h0 : s.wrCnt = 0 := by unfold padding at hf; omega
    refine ⟨s, by simp [flushLoop, h0], ?_⟩
    rw [show padding s = 0 by omega]
    exact Appended.nil hc hw
  | succ fuel ih =>
    have hc := (room_iff.1 hr).1
    rw [flushLoop]
    by_cases h0 : s.wrCnt = 0
    · rw [if_pos h0]
      refine ⟨s, rfl, ?_⟩
      rw [show padding s = 0 by simp [padding, h0]]
      exact Appended.nil hc hw
    · rw [if_neg h0]
      have hpad : padding s = 8 - s.wrCnt := by unfold padding; omega
      obtain ⟨t, ht, ha⟩ := writeBit_appended (b := false) hp (room_mono hr (by omega)) hw
      have hpt : padding s = 1 + padding t := by
        have := ha.count
        simp only [List.length_singleton] at this
        rw [hpad]; unfold padding; omega
      obtain ⟨u, hu, hb⟩ := ih (ha.portOk hp) (ha.room (by rw [List.length_singleton, ← hpt]; exact hr)) ha.canonical
        (by omega)
      refine ⟨u, by rw [ht]; exact hu, ?_⟩
      rw [hpt, show 1 + padding t = padding t + 1 by omega, List.replicate_succ]
      exact ha.trans hb

/-- Flush with room for its padding and the port ok appends the zero bits up to the byte boundary (R109). -/
theorem flush_appended {s : State} (hp : portOk s = true) (hr : room s (padding s) = true)
    (hw : Memory.wf s.obuf = true) :
    ∃ t, flush s = .ok t ∧ Appended s (List.replicate (padding s) false) t :=
  flushLoop_appended hp hr hw (by unfold padding; omega)

/-- Whatever Flush answers: the zero bits up to the byte boundary are appended, or Io (R109). -/
theorem flushLoop_spec {fuel : Nat} {s : State} (hok : WriterOk 7 s) (hb : PosOk s (padding s)) (hf : padding s ≤ fuel) :
    Run.post (fun t => Appended s (List.replicate (padding s) false) t ∧ t.wrPos.toNat ≤ s.outCap)
      (WriteFail s (padding s)) (fun _ => False) (flushLoop fuel s) := by
  have hc := hok.1
  induction fuel generalizing s with
  | zero =>
    have h0 : s.wrCnt = 0 := by unfold padding at hf; omega
    simp only [flushLoop, h0, ↓reduceIte, post_ok]
    rw [show padding s = 0 by omega]
    exact ⟨Appended.nil (by omega) hok.2.1, hok.2.2⟩
  | succ fuel ih =>
    rw [flushLoop]
    by_cases h0 : s.wrCnt = 0
    · rw [if_pos h0, post_ok, show padding s = 0 by simp [padding, h0]]
      exact ⟨Appended.nil (by omega) hok.2.1, hok.2.2⟩
    · rw [if_neg h0, post_bind]
      have hpad : padding s = 8 - s.wrCnt := by unfold padding; omega
      refine post_mono (writeBit_spec hok (hb.mono (by omega))) ?_ ?_ (fun _ h => h)
      · rintro t ⟨ha, hpos⟩
        have hpt : padding s = 1 + padding t := by
          have := ha.count
          simp only [List.length_singleton] at this
          rw [hpad]; unfold padding; omega
        rw [hpt] at hb ⊢
        have hok' := ha.writerOk hpos
        refine post_mono (ih hok' (ha.posOk hb) (by omega) hok'.1) ?_ ?_ (fun _ h => h)
        · rintro u ⟨hu, hup⟩
          refine ⟨?_, by rw [← ha.outCap]; exact hup⟩
          rw [show 1 + padding t = padding t + 1 by omega, List.replicate_succ]
          exact ha.trans hu
        · intro e u hu
          exact hu.after ha hpos
      · intro e t hf
        refine ⟨hf.kind, hf.frame, hf.form, fun hp => ?_, hf.forward, hf.outside⟩
        have h1 := hf.full hp
        have : bytesCompleted s 1 ≤ bytesCompleted s (padding s) := Nat.div_le_div_right (by omega)
        omega

theorem flush_spec {s : State} (hok : WriterOk 7 s) (hb : PosOk s (padding s)) :
    Run.post (fun t => Appended s (List.replicate (padding s) false) t ∧ t.wrPos.toNat ≤ s.outCap)
      (WriteFail s (padding s)) (fun _ => False) (flush s) :=
  flushLoop_spec hok hb (by unfold padding; omega)

end Sys2Proof.Machine
end

