-- ==== Sys2Proof/Laws/Reader.lean ====
section
/-! SUPPORT. What the bit reader can do (20_memory.md R105, R106). -/

namespace Sys2Proof.Machine

theorem readable_iff {s : State} {p w : Nat} :
    readable s p w = true ↔ p + w ≤ 8 * s.inLen.toNat ∧ s.inLen.toNat ≤ s.inCap := by simp [readable]

@[simp] theorem inputSlice_port (s : State) (l : List PortAnswer) (p w : Nat) :
    inputSlice { s with port := l } p w = inputSlice s p w := rfl

/-- Whatever a read of one input bit answers. -/
theorem inBit_post {p : Nat} {s : State} (h : p < 8 * s.inLen.toNat) (hc : s.inLen.toNat ≤ s.inCap) :
    Run.post (fun r => r = ((inputBit s p).toNat, { s with port := s.port.tail }))
      (fun e t => e = .io ∧ t = { s with port := t.port }) (fun _ => False) (inBit p s) := by
  unfold inBit
  rw [post_bind]
  refine post_mono (memRead_post (p / 8) s ⟨by omega, hc⟩) ?_ ?_ (fun _ h => h)
  · rintro _ rfl
    simp [bitOfByte_eq, inputBit]
  · rintro e t ⟨rfl, rfl⟩
    exact ⟨rfl, rfl⟩

/-- A read of one input bit with the port ok. -/
theorem inBit_ok {p : Nat} {s : State} (h : p < 8 * s.inLen.toNat) (hc : s.inLen.toNat ≤ s.inCap)
    (hp : portOk s = true) : inBit p s = .ok ((inputBit s p).toNat, { s with port := s.port.tail }) := by
  unfold inBit
  rw [memRead_ok (by omega) hc hp]
  simp [bitOfByte_eq, inputBit]

theorem inBitsFrom_post {w p acc : Nat} {s : State} (h : readable s p w = true) :
    Run.post (fun r => r = (acc * 2 ^ w + val (inputSlice s p w), { s with port := s.port.drop w }))
      (fun e t => e = .io ∧ t = { s with port := t.port }) (fun _ => False) (inBitsFrom w p acc s) := by
  rw [readable_iff] at h
  obtain ⟨h, hc⟩ := h
  induction w generalizing p acc s with
  | zero => simp [inBitsFrom, inputSlice]
  | succ w ih =>
    rw [inBitsFrom, post_bind]
    refine post_mono (inBit_post (by omega) hc) ?_ (fun _ _ h => h) (fun _ h => h)
    rintro _ rfl
    refine post_mono (ih (p := p + 1) (acc := 2 * acc + (inputBit s p).toNat)
      (s := { s with port := s.port.tail }) (by change _ ≤ 8 * s.inLen.toNat; omega) hc) ?_ ?_ (fun _ h => h)
    · rintro _ rfl
      rw [inputSlice_cons, val_cons]
      simp only [inputSlice_port, inputSlice_length, List.drop_tail, Prod.mk.injEq, and_true]
      ring
    · rintro e t ⟨rfl, ht⟩
      exact ⟨rfl, ht⟩

/-- Whatever InBits answers: the big-endian value of the bits, or Io (R105). -/
theorem inputBits_post {p w : Nat} {s : State} (h : readable s p w = true) :
    Run.post (fun r => r = (val (inputSlice s p w), { s with port := s.port.drop w }))
      (fun e t => e = .io ∧ t = { s with port := t.port }) (fun _ => False) (inputBits p w s) := by
  have := inBitsFrom_post (acc := 0) h
  simpa [inputBits] using this

theorem inBitsFrom_ok {w p acc : Nat} {s : State} (h : readable s p w = true) (hp : portOk s = true) :
    inBitsFrom w p acc s = .ok (acc * 2 ^ w + val (inputSlice s p w), { s with port := s.port.drop w }) := by
  rw [readable_iff] at h
  obtain ⟨h, hc⟩ := h
  induction w generalizing p acc s with
  | zero => simp [inBitsFrom, inputSlice]
  | succ w ih =>
    rw [inBitsFrom, inBit_ok (by omega) hc hp]
    have hp' : portOk { s with port := s.port.tail } = true := by
      rw [portOk_iff] at hp ⊢
      exact fun a ha => hp a (List.mem_of_mem_tail ha)
    simp only [run_bind_ok]
    rw [ih (s := { s with port := s.port.tail }) hp' (by change _ ≤ 8 * s.inLen.toNat; omega) hc, inputSlice_cons, val_cons]
    simp only [inputSlice_port, inputSlice_length, List.drop_tail, Except.ok.injEq, Prod.mk.injEq, and_true]
    ring

/-- InBits with the port ok gives the big-endian value of the bits (R105). -/
theorem inputBits_ok {p w : Nat} {s : State} (h : readable s p w = true) (hp : portOk s = true) :
    inputBits p w s = .ok (val (inputSlice s p w), { s with port := s.port.drop w }) := by
  simpa [inputBits] using inBitsFrom_ok (acc := 0) h hp

/-- What a read needs of the reader and the valid bytes (10_state.md R54, 20_memory.md R101). -/
def ReaderOk (s : State) : Prop := s.inBits = 8 * s.inLen.toNat ∧ s.inLen.toNat ≤ s.inCap

/-- Whatever ReadBits answers (R106). -/
theorem readBits_post {w : Nat} {s : State} (h : ReaderOk s) :
    Run.post
      (fun r => (s.inBits < s.rdPos + w ∧ r = (none, s)) ∨
        (s.rdPos + w ≤ s.inBits ∧ r = (some (val (inputSlice s s.rdPos w)),
          { s with port := s.port.drop w, rdPos := s.rdPos + w })))
      (fun e t => e = .io ∧ t = { s with port := t.port }) (fun _ => False) (readBits w s) := by
  unfold readBits
  split
  · next hlt => exact .inl ⟨hlt, rfl⟩
  · next hlt =>
    rw [post_bind]
    refine post_mono (inputBits_post (readable_iff.2 ⟨by rw [← h.1]; omega, h.2⟩)) ?_ (fun _ _ h => h) (fun _ h => h)
    rintro _ rfl
    exact .inr ⟨by omega, rfl⟩

/-- ReadBits with the bits there and the port ok (R106). -/
theorem readBits_ok {w : Nat} {s : State} (h : ReaderOk s) (hw : s.rdPos + w ≤ s.inBits) (hp : portOk s = true) :
    readBits w s = .ok (some (val (inputSlice s s.rdPos w)), { s with port := s.port.drop w, rdPos := s.rdPos + w }) := by
  unfold readBits
  rw [if_neg (by omega), inputBits_ok (readable_iff.2 ⟨by rw [← h.1]; omega, h.2⟩) hp]
  rfl

/-- Whatever a read that ends in Corrupt at end of input answers. -/
theorem readOrCorrupt_post {w : Nat} {s : State} (h : ReaderOk s) :
    Run.post
      (fun r => s.rdPos + w ≤ s.inBits ∧ r = (val (inputSlice s s.rdPos w),
          { s with port := s.port.drop w, rdPos := s.rdPos + w }))
      (fun e t => (e = .io ∨ e = .corrupt ∧ s.inBits < s.rdPos + w) ∧ t = { s with port := t.port })
      (fun _ => False) (readOrCorrupt w s) := by
  unfold readOrCorrupt
  rw [post_bind]
  refine post_mono (readBits_post h) ?_ ?_ (fun _ h => h)
  · rintro r (⟨hlt, rfl⟩ | ⟨hle, rfl⟩)
    · exact ⟨.inr ⟨rfl, hlt⟩, rfl⟩
    · exact ⟨hle, rfl⟩
  · rintro e t ⟨rfl, ht⟩
    exact ⟨.inl rfl, ht⟩

theorem readOrCorrupt_ok {w : Nat} {s : State} (h : ReaderOk s) (hw : s.rdPos + w ≤ s.inBits)
    (hp : portOk s = true) :
    readOrCorrupt w s = .ok (val (inputSlice s s.rdPos w),
      { s with port := s.port.drop w, rdPos := s.rdPos + w }) := by
  unfold readOrCorrupt
  rw [readBits_ok h hw hp]
  rfl

/-- End of input is found before any access (60_exceptions.md R608). -/
theorem readOrCorrupt_short {w : Nat} {s : State} (hw : s.inBits < s.rdPos + w) :
    readOrCorrupt w s = raise .corrupt s := by
  unfold readOrCorrupt readBits
  rw [if_pos hw]
  rfl

theorem readerOk_iff {s : State} : readerOk s = true ↔ ReaderOk s ∧ s.rdPos ≤ s.inBits := by
  simp [readerOk, ReaderOk]

/-- A read of bits whose first byte meets a fault of the port (60_exceptions.md R604 (c)). -/
theorem inputBits_fault {s : State} {p w : Nat} {answers : List PortAnswer} (hport : s.port = .fault :: answers)
    (h : readable s p w = true) (hw : 0 < w) : inputBits p w s = raise .io { s with port := answers } := by
  obtain ⟨h1, h2⟩ := readable_iff.1 h
  obtain ⟨w, rfl⟩ : ∃ x, w = x + 1 := ⟨w - 1, by omega⟩
  have hread : memRead (p / 8) s = raise .io { s with port := answers } := by
    unfold memRead
    rw [if_pos ⟨by omega, h2⟩, drawPort_eq, hport]
    rfl
  unfold inputBits
  rw [inBitsFrom, inBit, hread]
  rfl

theorem portOk_drop_port {s : State} (hp : portOk s = true) (n : Nat) :
    portOk { s with port := s.port.drop n } = true := by
  rw [portOk_iff]; exact portOk_drop hp n

end Sys2Proof.Machine
end

