-- ==== Sys2Proof/Laws/Tree.lean ====
section
/-! SUPPORT. The laws of trees: their serialization and their paths (30_encoding.md R158, 42_code_table.md R261, 45_stream_decoder.md R370), and what the walks of NODE do on a tree held there. -/

namespace Sys2Proof.Machine

/-! ## Shape -/

theorem Tree.letters_ne_nil (t : Tree) : t.letters ≠ [] := by
  induction t with
  | leaf v => simp [Tree.letters]
  | joint a b ih _ => simp [Tree.letters, ih]

theorem Tree.letters_length_pos (t : Tree) : 1 ≤ t.letters.length :=
  List.length_pos_of_ne_nil t.letters_ne_nil

theorem Tree.size_eq (t : Tree) : t.size + 1 = 2 * t.letters.length := by
  induction t with
  | leaf v => rfl
  | joint a b iha ihb => simp only [Tree.size, Tree.letters, List.length_append]; omega

theorem Tree.height_le_size (t : Tree) : t.height ≤ t.size := by
  induction t with
  | leaf v => exact le_rfl
  | joint a b iha ihb => simp only [Tree.size, Tree.height]; omega

theorem Tree.height_pos (t : Tree) : 1 ≤ t.height := by cases t <;> simp [Tree.height]

@[simp] theorem leafBits_length (l v : Nat) : (leafBits l v).length = 1 + l := by simp [leafBits]; omega

theorem Tree.size_le_ser (t : Tree) (l : Nat) : t.size ≤ (t.ser l).length := by
  induction t with
  | leaf v => simp [Tree.size, Tree.ser]
  | joint a b iha ihb => simp only [Tree.size, Tree.ser, jointBits, List.length_append, List.length_singleton]; omega

/-! ## Paths -/

theorem Tree.pathsFrom_eq (t : Tree) (path : Bits) :
    t.pathsFrom path = (t.pathsFrom []).map fun x => (x.1, path ++ x.2) := by
  induction t generalizing path with
  | leaf v => simp [Tree.pathsFrom]
  | joint a b iha ihb =>
    simp only [Tree.pathsFrom, List.nil_append, List.map_append]
    rw [iha (path ++ [false]), ihb (path ++ [true]), iha [false], ihb [true]]
    simp [Function.comp_def]

/-- The paths of a joint: those of its left subtree after a 0, those of its right subtree after a 1. -/
theorem Tree.pathsFrom_joint (a b : Tree) :
    (Tree.joint a b).pathsFrom [] =
      ((a.pathsFrom []).map fun x => (x.1, false :: x.2)) ++ (b.pathsFrom []).map fun x => (x.1, true :: x.2) := by
  simp only [Tree.pathsFrom, List.nil_append]
  rw [Tree.pathsFrom_eq a, Tree.pathsFrom_eq b]
  simp

theorem Tree.pathsFrom_letters (t : Tree) (path : Bits) : (t.pathsFrom path).map Prod.fst = t.letters := by
  induction t generalizing path with
  | leaf v => rfl
  | joint a b iha ihb => simp [Tree.pathsFrom, Tree.letters, iha, ihb]

theorem Tree.codes_letters (t : Tree) : t.codes.map Prod.fst = t.letters := by
  cases t with
  | leaf v => rfl
  | joint a b => exact Tree.pathsFrom_letters _ _

theorem Tree.walk_path (t : Tree) (v : BitVec 16) (path rest : Bits) (h : (v, path) ∈ t.pathsFrom []) :
    t.walk (path ++ rest) = some (v, rest) := by
  induction t generalizing path with
  | leaf w => simp [Tree.pathsFrom] at h; simp [Tree.walk, h]
  | joint a b iha ihb =>
    rw [Tree.pathsFrom_joint] at h
    simp only [List.mem_append, List.mem_map, Prod.mk.injEq] at h
    rcases h with ⟨x, hx, rfl, rfl⟩ | ⟨x, hx, rfl, rfl⟩
    · simpa [Tree.walk] using iha x.2 hx
    · simpa [Tree.walk] using ihb x.2 hx

theorem Tree.path_of_walk (t : Tree) (v : BitVec 16) (bits rest : Bits) (h : t.walk bits = some (v, rest)) :
    ∃ path, (v, path) ∈ t.pathsFrom [] ∧ bits = path ++ rest := by
  induction t generalizing bits with
  | leaf w => simp [Tree.walk] at h; exact ⟨[], by simp [Tree.pathsFrom, h.1], by simp [h.2]⟩
  | joint a b iha ihb =>
    cases bits with
    | nil => simp [Tree.walk] at h
    | cons bit bits =>
      rw [Tree.walk] at h
      rw [Tree.pathsFrom_joint]
      cases bit
      · obtain ⟨p, hp, hb⟩ := iha bits (by simpa using h)
        exact ⟨false :: p, List.mem_append_left _ (List.mem_map.2 ⟨_, hp, rfl⟩), by simp [hb]⟩
      · obtain ⟨p, hp, hb⟩ := ihb bits (by simpa using h)
        exact ⟨true :: p, List.mem_append_right _ (List.mem_map.2 ⟨_, hp, rfl⟩), by simp [hb]⟩

/-- A letter's code followed by any bits decodes to the letter and leaves those bits. -/
theorem Tree.decodeOne_code (t : Tree) (v : BitVec 16) (code rest : Bits) (h : (v, code) ∈ t.codes) :
    t.decodeOne (code ++ rest) = some (v, rest) := by
  cases t with
  | leaf w => simp [Tree.codes] at h; simp [Tree.decodeOne, h]
  | joint a b => exact Tree.walk_path _ v code rest h

/-! ## Trees held in NODE -/

@[simp] theorem treeAt_leaf {s : State} {k : Nat} {v : BitVec 16} : treeAt s k (.leaf v) = true ↔
    k < Config.treeNodeCap ∧ (slotOf s k).kind = .leaf ∧ (slotOf s k).letter = v := by
  simp only [treeAt, Bool.and_eq_true, decide_eq_true_eq, and_assoc]

@[simp] theorem treeAt_joint {s : State} {k : Nat} {a b : Tree} : treeAt s k (.joint a b) = true ↔
    k < Config.treeNodeCap ∧ (slotOf s k).kind = .joint ∧ treeAt s (slotOf s k).left a = true ∧
      treeAt s (slotOf s k).right b = true := by
  simp only [treeAt, Bool.and_eq_true, decide_eq_true_eq, and_assoc]

theorem treeAt_congr {s t : State} {k : Nat} {tree : Tree} (h : t.node = s.node) :
    treeAt t k tree = treeAt s k tree := by
  have hs : ∀ j, slotOf t j = slotOf s j := fun j => by simp [slotOf, h]
  induction tree generalizing k with
  | leaf v => simp [treeAt, hs]
  | joint a b iha ihb => simp [treeAt, hs, iha, ihb]

theorem treeAt_of_node {s t : State} {k : Nat} {tree : Tree} (ht : treeAt s k tree = true) (h : t.node = s.node) :
    treeAt t k tree = true := (treeAt_congr h).trans ht

theorem treeAt_index {s : State} {k : Nat} {tree : Tree} (h : treeAt s k tree = true) : k < Config.treeNodeCap := by
  cases tree with
  | leaf v => exact (treeAt_leaf.1 h).1
  | joint a b => exact (treeAt_joint.1 h).1

theorem slotOf_set' {s t : State} {x : NodeSlot} (hw : Table.wf NodeSlot.blank s.node = true) (k j : Nat)
    (h : t.node = Table.set NodeSlot.blank k x s.node) :
    slotOf t j = if j = k then x else slotOf s j := by
  rw [slotOf, h]; exact Table.get_set _ (Table.wf_iff.1 hw).1 k j x

/-- The assignments C_CODEGEN makes for leaves with their paths (R260). -/
def assignPaths (paths : List (BitVec 16 × Bits)) (code : Table CodeEntry) : Table CodeEntry :=
  paths.foldl (fun c x => Table.set CodeEntry.blank x.1.toNat { valid := true, len := x.2.length, bits := x.2 } c) code

theorem assignPaths_append (p q : List (BitVec 16 × Bits)) (c : Table CodeEntry) :
    assignPaths (p ++ q) c = assignPaths q (assignPaths p c) := List.foldl_append ..

/-- Walk on a tree held in NODE assigns each leaf its path, left subtree first (R260). -/
theorem codeWalk_ok {fuel k : Nat} {path : Bits} {s : State} {tree : Tree} (h : treeAt s k tree = true)
    (hf : tree.height ≤ fuel) :
    codeWalk fuel k path s = .ok { s with code := assignPaths (tree.pathsFrom path) s.code } := by
  induction tree generalizing fuel k path s with
  | leaf v =>
    obtain ⟨hk, h1, h2⟩ := treeAt_leaf.1 h
    cases fuel with
    | zero => simp [Tree.height] at hf
    | succ fuel => simp [codeWalk, nodeAt_ok hk, h1, assignCode, h2, Tree.pathsFrom, assignPaths]
  | joint a b iha ihb =>
    obtain ⟨hk, h1, ha, hb⟩ := treeAt_joint.1 h
    cases fuel with
    | zero => simp [Tree.height] at hf
    | succ fuel =>
      simp only [Tree.height] at hf
      simp only [codeWalk, nodeAt_ok hk, run_bind_ok, h1]
      have hb' : treeAt { s with code := assignPaths (a.pathsFrom (path ++ [false])) s.code } (slotOf s k).right b = true :=
        treeAt_of_node hb rfl
      rw [iha ha (by omega), run_bind_ok, ihb hb' (by omega)]
      simp [Tree.pathsFrom, assignPaths_append]

theorem assignPaths_wf {paths : List (BitVec 16 × Bits)} {c : Table CodeEntry}
    (hc : Table.wf CodeEntry.blank c = true) : Table.wf CodeEntry.blank (assignPaths paths c) = true := by
  induction paths generalizing c with
  | nil => exact hc
  | cons x paths ih => exact ih (Table.wf_set hc _ _)

theorem assignPaths_other {paths : List (BitVec 16 × Bits)} {c : Table CodeEntry} {v : Nat}
    (h : ∀ x ∈ paths, x.1.toNat ≠ v) :
    Table.get CodeEntry.blank (assignPaths paths c) v = Table.get CodeEntry.blank c v := by
  induction paths generalizing c with
  | nil => rfl
  | cons x paths ih =>
    exact (ih fun y hy => h y (by simp [hy])).trans (Table.get_set_other c _ (h x (by simp)).symm)

theorem assignPaths_mem {paths : List (BitVec 16 × Bits)} {c : Table CodeEntry} {v : BitVec 16} {path : Bits}
    (hc : Table.wf CodeEntry.blank c = true) (hn : (paths.map Prod.fst).Nodup) (h : (v, path) ∈ paths) :
    Table.get CodeEntry.blank (assignPaths paths c) v.toNat = { valid := true, len := path.length, bits := path } := by
  induction paths generalizing c with
  | nil => simp at h
  | cons x paths ih =>
    simp only [List.map_cons, List.nodup_cons] at hn
    rcases List.mem_cons.1 h with rfl | h
    · change Table.get _ (assignPaths paths _) _ = _
      rw [assignPaths_other, Table.get_set_same _ (Table.wf_iff.1 hc).1]
      intro y hy he
      exact hn.1 (List.mem_map.2 ⟨y, hy, BitVec.eq_of_toNat_eq he⟩)
    · exact ih (Table.wf_set hc _ _) hn.2 h

theorem rootNode_some {s : State} {r : Nat} (h : s.root = some r) : rootNode s = .ok r := by simp [rootNode, h]

/-- C_CODEGEN on a tree held in NODE (R260, R262). -/
theorem cCodegen_ok {s : State} {r : Nat} {tree : Tree} (hr : s.root = some r) (h : treeAt s r tree = true)
    (hh : tree.height ≤ Config.treeNodeCap) :
    cCodegen s = .ok (setPhase .cHdr { s with code := assignPaths tree.codes s.code }) := by
  simp only [cCodegen, rootNode_some hr, run_bind_ok, nodeAt_ok (treeAt_index h)]
  cases tree with
  | leaf v =>
    obtain ⟨hk, h1, h2⟩ := treeAt_leaf.1 h
    simp only [h1, run_bind_ok, assignCode, h2, Tree.codes, assignPaths, List.foldl]
  | joint a b =>
    have h1 := (treeAt_joint.1 h).2.1
    simp only [h1]
    rw [codeWalk_ok h hh, run_bind_ok, Tree.codes]

end Sys2Proof.Machine
end

