-- ==== Sys2Proof/Laws/TreeReader.lean ====
section
/-! SUPPORT. The token loop of D_TREE_RD beside the recursive ReadTree of the rule (43_header_codec.md R298). -/

namespace Sys2Proof.Machine

/-! ## Reads change only the port's answers and the cursor -/

theorem memRead_frame (a : Nat) (s : State) :
    Run.post (fun r => r.2 = { s with port := r.2.port }) (fun e t => e = .io ∧ t = { s with port := t.port })
      (fun r => r = .inputRange) (memRead a s) := by
  unfold memRead
  split
  · simp only [drawPort_eq]
    cases s.port.headD .ok
    · rfl
    · exact ⟨rfl, rfl⟩
  · rfl

theorem inBitsFrom_frame (w p acc : Nat) (s : State) :
    Run.post (fun r => r.2 = { s with port := r.2.port }) (fun e t => e = .io ∧ t = { s with port := t.port })
      (fun r => r = .inputRange) (inBitsFrom w p acc s) := by
  induction w generalizing p acc s with
  | zero => rfl
  | succ w ih =>
    rw [inBitsFrom, inBit, post_bind, post_bind]
    refine post_mono (memRead_frame _ s) ?_ (fun _ _ h => h) (fun _ h => h)
    rintro ⟨b, t⟩ ht
    have ht : t = { s with port := t.port } := ht
    simp only [post_ok]
    refine post_mono (ih _ _ t) ?_ ?_ (fun _ h => h)
    · intro r hr; rw [hr, ht]
    · rintro e u ⟨he, hu⟩; exact ⟨he, by rw [hu, ht]⟩

theorem inputBits_frame (p w : Nat) (s : State) :
    Run.post (fun r => r.2 = { s with port := r.2.port }) (fun e t => e = .io ∧ t = { s with port := t.port })
      (fun r => r = .inputRange) (inputBits p w s) := inBitsFrom_frame w p 0 s

theorem readOrCorrupt_frame (w : Nat) (s : State) :
    Run.post
      (fun r => r.2 = { s with port := r.2.port, rdPos := s.rdPos + w } ∧ s.rdPos + w ≤ s.inBits)
      (fun e t => (e = .io ∨ e = .corrupt) ∧ t = { s with port := t.port }) (fun r => r = .inputRange)
      (readOrCorrupt w s) := by
  unfold readOrCorrupt readBits
  split
  · exact ⟨.inr rfl, rfl⟩
  · rw [post_bind, post_bind]
    refine post_mono (inputBits_frame _ _ s) ?_ (fun e t h => ⟨.inl h.1, h.2⟩) (fun _ h => h)
    rintro ⟨v, t⟩ ht
    have ht : t = { s with port := t.port } := ht
    simp only [post_ok]
    exact ⟨by rw [ht], by omega⟩

/-! ## The recursive ReadTree -/

theorem readTreeCall_adjust (x : BitVec 8 → BitVec 8) (p : List PendingJoint → List PendingJoint) (fuel : Nat)
    (s : State) :
    readTreeCall fuel (adjust x p s) = Run.map2 (withState (adjust x p)) (adjust x p) (readTreeCall fuel s) := by
  induction fuel generalizing s with
  | zero => rfl
  | succ fuel ih =>
    refine bind_adjusted (g := withState (adjust x p)) (allocNode_adjust x p s) ?_
    rintro ⟨k, t⟩
    refine bind_adjusted (g := withState (adjust x p)) (readOrCorrupt_adjust x p 1 t) ?_
    rintro ⟨flag, u⟩
    dsimp only [withState, Prod.map, id]
    by_cases hf : flag = 0
    · rw [if_pos hf, if_pos hf]
      refine bind_adjusted (g := withState (adjust x p)) (readOrCorrupt_adjust x p _ u) ?_
      rintro ⟨v, w⟩
      exact bind_adjusted (setNode_adjust x p _ _ w) fun _ => rfl
    · rw [if_neg hf, if_neg hf]
      refine bind_adjusted (g := withState (adjust x p)) (ih u) ?_
      rintro ⟨l, v⟩
      refine bind_adjusted (g := withState (adjust x p)) (ih v) ?_
      rintro ⟨r, w⟩
      exact bind_adjusted (setNode_adjust x p _ _ w) fun _ => rfl

/-- A call that returns has read a bit, and no bit beyond the last. -/
def ReadOn (s t : State) : Prop := t.inBits = s.inBits ∧ s.rdPos < t.rdPos ∧ t.rdPos ≤ t.inBits

theorem setNode_frame (k : Nat) (x : NodeSlot) (s : State) :
    Run.post (fun t => t = { s with node := t.node }) (fun _ _ => False) (fun r => r = .nodeRange) (setNode k x s) := by
  unfold setNode; split <;> rfl

theorem allocNode_frame (s : State) :
    Run.post (fun r => r = (s.nNodes, { s with nNodes := s.nNodes + 1 }) ∧ s.nNodes ≠ Config.treeNodeCap)
      (fun e t => e = .corrupt ∧ t = s ∧ s.nNodes = Config.treeNodeCap) (fun _ => False) (allocNode s) := by
  unfold allocNode
  split
  · next h => exact ⟨rfl, rfl, h⟩
  · next h => exact ⟨rfl, h⟩

theorem readTreeCall_reads (fuel : Nat) (s : State) :
    Run.post (fun r => ReadOn s r.2) (fun _ _ => True) (fun _ => True) (readTreeCall fuel s) := by
  induction fuel generalizing s with
  | zero => trivial
  | succ fuel ih =>
    rw [readTreeCall, post_bind]
    refine post_mono (allocNode_frame s) ?_ (fun _ _ _ => trivial) (fun _ _ => trivial)
    rintro _ ⟨rfl, -⟩
    dsimp only
    rw [post_bind]
    refine post_mono (readOrCorrupt_frame 1 _) ?_ (fun _ _ _ => trivial) (fun _ _ => trivial)
    rintro ⟨flag, t⟩ ⟨ht, hle⟩
    dsimp only at ht ⊢
    have hst : ReadOn s t := by
      refine ⟨by rw [ht], ?_, ?_⟩
      · rw [ht]; exact Nat.lt_succ_self _
      · rw [ht]; exact hle
    split
    · rw [post_bind]
      refine post_mono (readOrCorrupt_frame _ t) ?_ (fun _ _ _ => trivial) (fun _ _ => trivial)
      rintro ⟨v, u⟩ ⟨hu, hle⟩
      dsimp only at hu ⊢
      rw [post_bind]
      refine post_mono (setNode_frame _ _ u) ?_ (fun _ _ _ => trivial) (fun _ _ => trivial)
      intro w hw
      simp only [post_ok]
      have h1 : w.inBits = t.inBits := by rw [hw, hu]
      have h2 : w.rdPos = t.rdPos + letterSize t := by rw [hw, hu]
      obtain ⟨e1, e2, e3⟩ := hst
      exact ⟨h1.trans e1, by omega, by omega⟩
    · rw [post_bind]
      refine post_mono (ih t) ?_ (fun _ _ _ => trivial) (fun _ _ => trivial)
      rintro ⟨l, u⟩ hu
      dsimp only at hu ⊢
      rw [post_bind]
      refine post_mono (ih u) ?_ (fun _ _ _ => trivial) (fun _ _ => trivial)
      rintro ⟨r, v⟩ hv
      dsimp only at hv ⊢
      rw [post_bind]
      refine post_mono (setNode_frame _ _ v) ?_ (fun _ _ _ => trivial) (fun _ _ => trivial)
      intro w hw
      simp only [post_ok]
      have h1 : w.inBits = v.inBits := by rw [hw]
      have h2 : w.rdPos = v.rdPos := by rw [hw]
      obtain ⟨a1, a2, a3⟩ := hst
      obtain ⟨b1, b2, b3⟩ := hu
      obtain ⟨c1, c2, c3⟩ := hv
      exact ⟨by omega, by omega, by omega⟩

/-! ## The token loop -/

/-- The state with the stack of pending Joints set. -/
def withPending (p : List PendingJoint) (s : State) : State := adjust id (fun _ => p) s

theorem withPending_eq (p : List PendingJoint) (s : State) : withPending p s = { s with pending := p } := rfl

/-- deliver sets the stack, so it does not depend on it, and keeps the reader. -/
theorem deliver_withPending (k : Nat) (p q : List PendingJoint) (s : State) :
    deliver k p (withPending q s) = deliver k p s := by
  induction p generalizing k s with
  | nil => rfl
  | cons j p ih =>
    obtain ⟨j, _ | l⟩ := j
    · rfl
    · rw [deliver, deliver]
      unfold setNode
      split
      · exact ih j { s with node := _ }
      · rfl

theorem deliver_frame (k : Nat) (p : List PendingJoint) (s : State) :
    Run.post (fun t => t = { s with node := t.node, pending := t.pending, root := t.root }) (fun _ _ => False)
      (fun r => r = .nodeRange) (deliver k p s) := by
  induction p generalizing k s with
  | nil => rfl
  | cons j p ih =>
    obtain ⟨j, _ | l⟩ := j
    · rfl
    · rw [deliver, post_bind]
      refine post_mono (setNode_frame _ _ s) ?_ (fun _ _ h => h) (fun _ h => h)
      intro t ht
      refine post_mono (ih j t) ?_ (fun _ _ h => h) (fun _ h => h)
      intro u hu
      rw [hu, ht]

/-- What the loop does once a call has returned: hand its index on, and go on while a Joint is pending. -/
def afterCall (p : List PendingJoint) (r : Nat × State) : Run State := do
  let u ← deliver r.1 p r.2
  if u.pending = [] then .ok u else readTokens (u.inBits - u.rdPos + 1) u

/-- A part of a step with the stack of pending Joints forgotten. -/
abbrev cleared (r : Run State) : Run State := Run.map2 (withPending []) (withPending []) r

theorem cleared_bind_congr {α : Type} {x : Run α} {f f' : α → Run State} (h : ∀ a, x = .ok a → cleared (f a) = cleared (f' a)) :
    cleared (x >>= f) = cleared (x >>= f') := by
  rcases x with (⟨e, s⟩ | r) | a
  · rfl
  · rfl
  · exact h a rfl

/-- The loop, with any stack, is a call of ReadTree and what follows its return (R298). -/
theorem readTokens_eq_call (m : Nat) : ∀ (s : State) (p : List PendingJoint) (fuel depth : Nat),
    s.inBits - s.rdPos ≤ m → m + 1 ≤ fuel → m + 1 ≤ depth →
    cleared (readTokens fuel (withPending p s)) = cleared (readTreeCall depth s >>= afterCall p) := by
  induction m using Nat.strong_induction_on with
  | _ m IH =>
  intro s p fuel depth hm hfuel hdepth
  obtain ⟨fuel, rfl⟩ : ∃ f, fuel = f + 1 := ⟨fuel - 1, by omega⟩
  obtain ⟨depth, rfl⟩ : ∃ d, depth = d + 1 := ⟨depth - 1, by omega⟩
  rw [readTokens, readToken, readTreeCall]
  simp only [bind_assoc]
  have halloc := allocNode_adjust id (fun _ => p) s
  change allocNode (withPending p s) = _ at halloc
  rw [halloc]
  have hA := allocNode_frame s
  rcases hx : allocNode s with (⟨e, t⟩ | r) | ⟨k, s1⟩
  · rfl
  · rfl
  rw [hx] at hA
  obtain ⟨he, -⟩ := hA
  simp only [Prod.mk.injEq] at he
  have hs1 : s1.inBits = s.inBits ∧ s1.rdPos = s.rdPos := by rw [he.2]; exact ⟨rfl, rfl⟩
  clear he
  simp only [map2_ok, withState, Prod.map, id, run_bind_ok]
  have hread := readOrCorrupt_adjust id (fun _ => p) 1 s1
  change readOrCorrupt 1 (withPending p s1) = _ at hread
  change cleared (readOrCorrupt 1 (withPending p s1) >>= _) = _
  rw [hread]
  have hR := readOrCorrupt_frame 1 s1
  rcases hx : readOrCorrupt 1 s1 with (⟨e, t⟩ | r) | ⟨flag, s2⟩
  · rfl
  · rfl
  rw [hx] at hR
  obtain ⟨he, hle⟩ := hR
  have hs2 : s2.inBits = s.inBits ∧ s2.rdPos = s.rdPos + 1 ∧ s2.rdPos ≤ s2.inBits := by
    dsimp only at he
    refine ⟨by rw [he]; exact hs1.1, by rw [he]; exact congrArg (· + 1) hs1.2, by rw [he]; exact hle⟩
  clear he hle
  have hlt : s2.inBits - s2.rdPos < m := by omega
  simp only [map2_ok, withState, Prod.map, id, run_bind_ok]
  have hfuelIrrelevant : ∀ (u : State) (f f' : Nat), u.inBits - u.rdPos < m → u.inBits - u.rdPos + 1 ≤ f →
      u.inBits - u.rdPos + 1 ≤ f' → cleared (readTokens f u) = cleared (readTokens f' u) := by
    intro u f f' hu hf hf'
    have h1 := IH (u.inBits - u.rdPos) hu u u.pending f (u.inBits - u.rdPos + 1) le_rfl hf le_rfl
    have h2 := IH (u.inBits - u.rdPos) hu u u.pending f' (u.inBits - u.rdPos + 1) le_rfl hf' le_rfl
    exact h1.trans h2.symm
  by_cases hflag : flag = 0
  · rw [if_pos hflag, if_pos hflag]
    simp only [bind_assoc]
    have hread := readOrCorrupt_adjust id (fun _ => p) (letterSize s2) s2
    change readOrCorrupt (letterSize s2) (withPending p s2) = _ at hread
    change cleared (readOrCorrupt (letterSize s2) (withPending p s2) >>= _) = _
    rw [hread]
    have hR := readOrCorrupt_frame (letterSize s2) s2
    rcases hx : readOrCorrupt (letterSize s2) s2 with (⟨e, t⟩ | r) | ⟨v, s3⟩
    · rfl
    · rfl
    rw [hx] at hR
    have hs3 : s3.inBits - s3.rdPos < m := by
      have he := hR.1
      dsimp only at he
      have h1 : s3.inBits = s2.inBits := by rw [he]
      have h2 : s3.rdPos = s2.rdPos + letterSize s2 := by rw [he]
      omega
    simp only [map2_ok, withState, Prod.map, id, run_bind_ok, placeLeaf, bind_assoc]
    have hset := setNode_adjust id (fun _ => p) k
      { slotOf s3 k with kind := .leaf, letter := BitVec.ofNat 16 v } s3
    change setNode k _ (withPending p s3) = _ at hset
    change cleared (setNode k { slotOf s3 k with kind := .leaf, letter := BitVec.ofNat 16 v } (withPending p s3) >>= _) = _
    rw [hset]
    have hS := setNode_frame k { slotOf s3 k with kind := .leaf, letter := BitVec.ofNat 16 v } s3
    rcases hx : setNode k { slotOf s3 k with kind := .leaf, letter := BitVec.ofNat 16 v } s3 with (⟨e, t⟩ | r) | s4
    · rfl
    · rfl
    rw [hx] at hS
    have hs4 : s4.inBits - s4.rdPos < m := by
      have he : s4 = { s3 with node := s4.node } := hS
      rw [he]; exact hs3
    simp only [map2_ok, run_bind_ok, afterCall]
    change cleared (deliver k p (withPending p s4) >>= _) = _
    rw [deliver_withPending]
    refine cleared_bind_congr ?_
    intro u hu
    have hD := post_of_ok (deliver_frame k p s4) hu
    split
    · rfl
    · refine hfuelIrrelevant u _ _ ?_ ?_ le_rfl
      · rw [hD]; exact hs4
      · have : u.inBits - u.rdPos < m := by rw [hD]; exact hs4
        omega
  · rw [if_neg hflag, if_neg hflag]
    simp only [run_bind_ok, bind_assoc]
    have hne : ¬ (pushJoint k (adjust id (fun _ => p) s2)).pending = [] := by simp [pushJoint]
    rw [if_neg hne]
    change cleared (readTokens fuel (withPending (⟨k, none⟩ :: p) s2)) = _
    rw [IH _ hlt s2 (⟨k, none⟩ :: p) fuel depth le_rfl (by omega) (by omega)]
    refine cleared_bind_congr ?_
    rintro ⟨l, s3⟩ hl
    have hl := post_of_ok (readTreeCall_reads depth s2) hl
    obtain ⟨l1, l2, l3⟩ := hl
    dsimp only at l1 l2 l3 ⊢
    have hlt3 : s3.inBits - s3.rdPos < m := by omega
    have hne : ¬ ({ s3 with pending := ⟨k, some l⟩ :: p } : State).pending = [] := by simp
    simp only [afterCall, deliver, run_bind_ok]
    rw [if_neg hne]
    change cleared (readTokens (s3.inBits - s3.rdPos + 1) (withPending (⟨k, some l⟩ :: p) s3)) = _
    rw [IH _ hlt3 s3 (⟨k, some l⟩ :: p) _ depth le_rfl le_rfl (by omega)]
    refine cleared_bind_congr ?_
    rintro ⟨r, s4⟩ hr
    simp only [afterCall, deliver, bind_assoc, run_bind_ok]

/-- The loop ends with no Joint pending. -/
theorem readTokens_pending (fuel : Nat) (s : State) :
    Run.post (fun t => t.pending = []) (fun _ _ => True) (fun _ => True) (readTokens fuel s) := by
  induction fuel generalizing s with
  | zero => trivial
  | succ fuel ih =>
    rw [readTokens, post_bind]
    rcases readToken s with (⟨e, t⟩ | r) | t
    · trivial
    · trivial
    · simp only [post_ok]
      split
      · assumption
      · exact ih t

theorem readTree_cleared (s : State) :
    cleared (readTree s) = cleared (readTreeCall (s.inBits - s.rdPos + 1) s >>= afterCall []) :=
  readTokens_eq_call (s.inBits - s.rdPos) s [] _ _ le_rfl le_rfl le_rfl

/-- Where the call of ReadTree returns, the loop ends with its index as the root (R297). -/
theorem readTree_of_call {s t : State} {k : Nat}
    (h : readTreeCall (s.inBits - s.rdPos + 1) s = .ok (k, t)) :
    readTree s = .ok { t with root := some k, pending := [] } := by
  have hc := readTree_cleared s
  have hp := readTokens_pending (s.inBits - s.rdPos + 1) { s with pending := [] }
  change Run.post _ _ _ (readTree s) at hp
  rw [h, run_bind_ok, show afterCall [] (k, t) = .ok { t with pending := [], root := some k } from rfl] at hc
  rcases hx : readTree s with (⟨e, u⟩ | r) | u
  · rw [hx] at hc; cases hc
  · rw [hx] at hc; cases hc
  · rw [hx] at hc hp
    simp only [cleared, map2_ok, Except.ok.injEq, post_ok] at hc hp
    have h1 : withPending [] u = u := by rw [withPending_eq, ← hp]
    rw [h1] at hc
    exact congrArg Except.ok hc

/-- Where the call of ReadTree raises, so does the loop, with the same state but for the stack. -/
theorem readTree_of_raise {s t : State} {e : ErrorKind}
    (h : readTreeCall (s.inBits - s.rdPos + 1) s = .error (.raise e t)) :
    ∃ p, readTree s = .error (.raise e { t with pending := p }) := by
  have hc := readTree_cleared s
  rw [h, run_bind_error] at hc
  rcases hx : readTree s with (⟨e', u⟩ | r) | u
  · rw [hx] at hc
    simp only [cleared, Run.map2, Except.error.injEq, Stop.raise.injEq] at hc
    obtain ⟨rfl, hu⟩ := hc
    refine ⟨u.pending, ?_⟩
    have : u = withPending u.pending (withPending [] u) := rfl
    rw [hu] at this
    rw [this]
    rfl
  · rw [hx] at hc; cases hc
  · rw [hx] at hc; cases hc

/-! ## Reading a serialized tree -/

@[simp] theorem bitsLeft_length (s : State) : (bitsLeft s).length = s.inBits - s.rdPos := by simp [bitsLeft]

/-- Bits that come next are read where the cursor stands, and what follows them comes next after that. -/
theorem bitsLeft_prefix {s : State} {a b : Bits} (h : a ++ b <+: bitsLeft s) :
    s.rdPos + a.length ≤ s.inBits ∨ a = [] := by
  have := h.length_le
  simp only [List.length_append, bitsLeft_length] at this
  by_cases ha : a = []
  · exact .inr ha
  · have := List.length_pos_of_ne_nil ha
    left; omega

theorem inputSlice_of_prefix {s : State} {a b : Bits} (h : a ++ b <+: bitsLeft s) :
    inputSlice s s.rdPos a.length = a := by
  have hl := h.length_le
  simp only [List.length_append, bitsLeft_length] at hl
  have ha : a <+: bitsLeft s := (List.prefix_append a b).trans h
  rw [List.prefix_iff_eq_take] at ha
  rw [bitsLeft, inputSlice_take _ _ _ _ (by omega)] at ha
  exact ha.symm

theorem bitsLeft_congr {s t : State} (h1 : t.ibuf = s.ibuf) (h2 : t.inBits = s.inBits) (h3 : t.rdPos = s.rdPos) :
    bitsLeft t = bitsLeft s := by
  rw [bitsLeft, bitsLeft, h2, h3, inputSlice_congr h1]

theorem bitsLeft_after {s t : State} {a b : Bits} (h : a ++ b <+: bitsLeft s) (h1 : t.ibuf = s.ibuf)
    (h2 : t.inBits = s.inBits) (h3 : t.rdPos = s.rdPos + a.length) : b <+: bitsLeft t := by
  have hl := h.length_le
  simp only [List.length_append, bitsLeft_length] at hl
  have hs : bitsLeft s = a ++ bitsLeft t := by
    have h4 := inputSlice_of_prefix h
    rw [bitsLeft, show s.inBits - s.rdPos = a.length + (s.inBits - (s.rdPos + a.length)) by omega,
      inputSlice_append, h4, bitsLeft, h2, h3, inputSlice_congr h1]
  rw [hs] at h
  exact (List.prefix_append_right_inj a).1 h

theorem ReaderOk.congr {s t : State} (h : ReaderOk s) (h1 : t.inBits = s.inBits) (h2 : t.inLen = s.inLen)
    (h3 : t.inCap = s.inCap) : ReaderOk t := by
  unfold ReaderOk at *; rw [h1, h2, h3]; exact h

/-- A read of bits that come next gives their value. -/
theorem readOrCorrupt_next {s t : State} {w v : Nat} {a b : Bits} (hr : ReaderOk s) (hp : portOk s = true)
    (h : a ++ b <+: bitsLeft s) (hw : a.length = w) (h0 : 0 < w) (hv : val a = v)
    (ht : t = { s with port := s.port.drop w, rdPos := s.rdPos + w }) : readOrCorrupt w s = .ok (v, t) := by
  subst hw hv ht
  have hle := (bitsLeft_prefix h).resolve_right (List.ne_nil_of_length_pos h0)
  rw [readOrCorrupt_ok hr hle hp, inputSlice_of_prefix h]

/-- The slots from `a` up to `b` are those of `t`. -/
def SlotsAgree (a b : Nat) (t u : State) : Prop := ∀ j, a ≤ j → j < b → slotOf u j = slotOf t j

/-- ReadTree on a stream that goes on with ser(t): it builds t in the next slots and reads exactly those bits (R301). -/
theorem readTreeCall_ser {depth : Nat} {s : State} {tree : Tree} (hp : portOk s = true) (hr : ReaderOk s)
    (hl : letterSizeOk s.l.toNat = true) (hcap : s.nNodes + tree.size ≤ Config.treeNodeCap)
    (hv : ∀ v ∈ tree.letters, v.toNat < 2 ^ s.l.toNat) (hser : tree.ser s.l.toNat <+: bitsLeft s)
    (hd : tree.height ≤ depth) (hw : Table.wf NodeSlot.blank s.node = true) :
    ∃ t, readTreeCall depth s = .ok (s.nNodes, t) ∧
      (∀ u, SlotsAgree s.nNodes (s.nNodes + tree.size) t u → treeAt u s.nNodes tree = true) ∧
      (∀ k, k < s.nNodes ∨ s.nNodes + tree.size ≤ k → slotOf t k = slotOf s k) ∧
      t = { s with
        node := t.node, nNodes := s.nNodes + tree.size, rdPos := s.rdPos + (tree.ser s.l.toNat).length
        port := s.port.drop (tree.ser s.l.toNat).length } ∧
      Table.wf NodeSlot.blank t.node = true := by
  induction tree generalizing depth s with
  | leaf v =>
    obtain ⟨depth, rfl⟩ : ∃ d, depth = d + 1 := ⟨depth - 1, by simp only [Tree.height] at hd; omega⟩
    simp only [Tree.size] at hcap
    have hl2 := (letterSizeOk_iff.1 hl).1
    let s1 : State := { s with nNodes := s.nNodes + 1 }
    have hser1 : [false] ++ (bin s.l.toNat v.toNat ++ []) <+: bitsLeft s1 := by
      rw [bitsLeft_congr (s := s) (t := s1) rfl rfl rfl]; simpa [Tree.ser, leafBits] using hser
    let s2 : State := { s1 with port := s1.port.drop 1, rdPos := s1.rdPos + 1 }
    have h1 : readOrCorrupt 1 s1 = .ok (0, s2) :=
      readOrCorrupt_next hr hp hser1 rfl Nat.one_pos rfl rfl
    have hser2 : bin s.l.toNat v.toNat ++ [] <+: bitsLeft s2 := bitsLeft_after hser1 rfl rfl rfl
    have hp2 : portOk s2 = true := portOk_drop_port (s := s1) hp 1
    have hval : val (bin s.l.toNat v.toNat) = v.toNat := by
      rw [val_bin, Nat.mod_eq_of_lt (hv v (by simp [Tree.letters]))]
    let s3 : State := { s2 with port := s2.port.drop s.l.toNat, rdPos := s2.rdPos + s.l.toNat }
    have h2 : readOrCorrupt s.l.toNat s2 = .ok (v.toNat, s3) :=
      readOrCorrupt_next (s := s2) hr hp2 hser2 (bin_length _ _) (by omega) hval rfl
    let x : NodeSlot := { slotOf s s.nNodes with kind := .leaf, letter := v }
    let t : State := { s3 with node := Table.set NodeSlot.blank s.nNodes x s.node }
    have hslot : ∀ j, slotOf t j = if j = s.nNodes then x else slotOf s j :=
      fun j => slotOf_set' (s := s) hw _ j rfl
    refine ⟨t, ?_, ?_, ?_, ?_, Table.wf_set hw _ _⟩
    · rw [readTreeCall, allocNode, if_neg (by omega)]
      simp only [run_bind_ok]
      change readOrCorrupt 1 s1 >>= _ = _
      rw [h1, run_bind_ok]
      simp only [if_true]
      change readOrCorrupt s.l.toNat s2 >>= _ = _
      rw [h2, run_bind_ok]
      dsimp only
      rw [setNode_ok (by omega), run_bind_ok]
      simp only [BitVec.ofNat_toNat, BitVec.setWidth_eq]
      rfl
    · intro u hu
      have := hu s.nNodes le_rfl (by simp [Tree.size])
      rw [hslot, if_pos rfl] at this
      rw [treeAt_leaf, this]
      exact ⟨by omega, rfl, rfl⟩
    · intro k hk
      rw [hslot, if_neg (by simp only [Tree.size] at hk; omega)]
    · have e1 : (Tree.ser s.l.toNat (.leaf v)).length = 1 + s.l.toNat := by simp [Tree.ser]
      rw [e1, ← List.drop_drop, ← Nat.add_assoc]
      rfl
  | joint a b iha ihb =>
    obtain ⟨depth, rfl⟩ : ∃ d, depth = d + 1 := ⟨depth - 1, by simp only [Tree.height] at hd; omega⟩
    simp only [Tree.size] at hcap
    simp only [Tree.height] at hd
    simp only [Tree.letters, List.mem_append] at hv
    let s1 : State := { s with nNodes := s.nNodes + 1 }
    have hser1 : [true] ++ (a.ser s.l.toNat ++ b.ser s.l.toNat) <+: bitsLeft s1 := by
      rw [bitsLeft_congr (s := s) (t := s1) rfl rfl rfl]; simpa [Tree.ser, jointBits] using hser
    let s2 : State := { s1 with port := s1.port.drop 1, rdPos := s1.rdPos + 1 }
    have h1 : readOrCorrupt 1 s1 = .ok (1, s2) :=
      readOrCorrupt_next hr hp hser1 rfl Nat.one_pos rfl rfl
    have hser2 : a.ser s.l.toNat ++ b.ser s.l.toNat <+: bitsLeft s2 := bitsLeft_after hser1 rfl rfl rfl
    have hp2 : portOk s2 = true := portOk_drop_port (s := s1) hp 1
    obtain ⟨t, ht, hta, htf, hte, htw⟩ := iha (depth := depth) (s := s2) hp2 hr hl
      (by change s.nNodes + 1 + a.size ≤ _; omega) (fun v h => hv v (.inl h))
      ((List.prefix_append _ _).trans hser2) (by omega) hw
    have hser3 : b.ser s.l.toNat <+: bitsLeft t := bitsLeft_after hser2 (by rw [hte]) (by rw [hte]) (by rw [hte])
    have htl : t.l = s.l := by rw [hte]
    have htn : t.nNodes = s.nNodes + 1 + a.size := by rw [hte]
    have hp3 : portOk t = true := by
      have : t.port = s2.port.drop (a.ser s2.l.toNat).length := by rw [hte]
      rw [portOk_iff, this]; exact portOk_drop hp2 _
    obtain ⟨u, hu, hub, huf, hue, huw⟩ := ihb (depth := depth) (s := t) hp3
      (ReaderOk.congr hr (by rw [hte]) (by rw [hte]) (by rw [hte])) (by rw [htl]; exact hl)
      (by rw [htn]; omega) (by rw [htl]; exact fun v h => hv v (.inr h)) (by rw [htl]; exact hser3) (by omega) htw
    rw [htn, htl] at hue
    rw [htn] at hub huf hu
    let x : NodeSlot := { slotOf u s.nNodes with kind := .joint, left := s.nNodes + 1, right := s.nNodes + 1 + a.size }
    let w : State := { u with node := Table.set NodeSlot.blank s.nNodes x u.node }
    have hslot : ∀ j, slotOf w j = if j = s.nNodes then x else slotOf u j :=
      fun j => slotOf_set' (s := u) huw _ j rfl
    have hs2n : s2.nNodes = s.nNodes + 1 := rfl
    rw [hs2n] at hta htf ht
    refine ⟨w, ?_, ?_, ?_, ?_, Table.wf_set huw _ _⟩
    · rw [readTreeCall, allocNode, if_neg (by omega)]
      simp only [run_bind_ok]
      change readOrCorrupt 1 s1 >>= _ = _
      rw [h1, run_bind_ok]
      simp only [Nat.one_ne_zero, if_false]
      change readTreeCall depth s2 >>= _ = _
      rw [ht, run_bind_ok]
      dsimp only
      rw [hu, run_bind_ok]
      dsimp only
      rw [setNode_ok (by omega), run_bind_ok]
    · intro y hy
      simp only [Tree.size] at hy
      have hroot := hy s.nNodes le_rfl (by omega)
      rw [hslot, if_pos rfl] at hroot
      rw [treeAt_joint, hroot]
      refine ⟨by omega, rfl, hta y ?_, hub y ?_⟩
      · intro j h1 h2
        rw [hy j (by omega) (by omega), hslot, if_neg (by omega), huf j (.inl (by omega))]
      · intro j h1 h2
        rw [hy j (by omega) (by omega), hslot, if_neg (by omega)]
    · intro k hk
      simp only [Tree.size] at hk
      rw [hslot, if_neg (by omega), huf k (by omega), htf k (by omega)]
      rfl
    · have hlen : (Tree.ser s.l.toNat (.joint a b)).length
          = 1 + (a.ser s.l.toNat).length + (b.ser s.l.toNat).length := by simp [Tree.ser, jointBits]; omega
      have e1 : s.nNodes + (Tree.joint a b).size = s.nNodes + 1 + a.size + b.size := by simp only [Tree.size]; omega
      change { u with node := _ } = _
      rw [hue, hte, hlen, e1]
      simp only [s2, s1, List.drop_drop, w]
      congr 1
      omega

/-- ReadTree on a stream that ends inside ser(t) raises Corrupt (60_exceptions.md R603 (c)). -/
theorem readTreeCall_short {depth : Nat} {s : State} {tree : Tree} (hp : portOk s = true) (hr : ReaderOk s)
    (hl : letterSizeOk s.l.toNat = true) (hcap : s.nNodes + tree.size ≤ Config.treeNodeCap)
    (hv : ∀ v ∈ tree.letters, v.toNat < 2 ^ s.l.toNat) (hser : bitsLeft s <+: tree.ser s.l.toNat)
    (hne : bitsLeft s ≠ tree.ser s.l.toNat) (hd : tree.height ≤ depth) (hw : Table.wf NodeSlot.blank s.node = true) :
    Run.post (fun _ => False) (fun e _ => e = .corrupt) (fun _ => False) (readTreeCall depth s) := by
  have hlt : ∀ (l : Bits) (m : Bits), l <+: m → l ≠ m → l.length < m.length := by
    intro l m h h'
    exact lt_of_le_of_ne h.length_le fun e => h' (h.eq_of_length e)
  induction tree generalizing depth s with
  | leaf v =>
    obtain ⟨depth, rfl⟩ : ∃ d, depth = d + 1 := ⟨depth - 1, by simp only [Tree.height] at hd; omega⟩
    simp only [Tree.size] at hcap
    have hlen := hlt _ _ hser hne
    simp only [Tree.ser, leafBits_length, bitsLeft_length] at hlen
    let s1 : State := { s with nNodes := s.nNodes + 1 }
    rw [readTreeCall, allocNode, if_neg (by omega)]
    simp only [run_bind_ok]
    change Run.post _ _ _ (readOrCorrupt 1 s1 >>= _)
    by_cases h0 : s.inBits < s.rdPos + 1
    · rw [readOrCorrupt_short (s := s1) h0]; rfl
    · have hser1 : [false] ++ [] <+: bitsLeft s1 := by
        rw [bitsLeft_congr (s := s) (t := s1) rfl rfl rfl]
        have h1 : [false] <+: Tree.ser s.l.toNat (.leaf v) := by simp [Tree.ser, leafBits]
        exact List.prefix_of_prefix_length_le h1 hser (by simp; omega)
      let s2 : State := { s1 with port := s1.port.drop 1, rdPos := s1.rdPos + 1 }
      have h1 : readOrCorrupt 1 s1 = .ok (0, s2) := readOrCorrupt_next (s := s1) hr hp hser1 rfl Nat.one_pos rfl rfl
      rw [h1, run_bind_ok]
      simp only [if_true]
      rw [readOrCorrupt_short (s := s2) (by change s.inBits < s.rdPos + 1 + s.l.toNat; omega)]
      rfl
  | joint a b iha ihb =>
    obtain ⟨depth, rfl⟩ : ∃ d, depth = d + 1 := ⟨depth - 1, by simp only [Tree.height] at hd; omega⟩
    simp only [Tree.size] at hcap
    simp only [Tree.height] at hd
    simp only [Tree.letters, List.mem_append] at hv
    let s1 : State := { s with nNodes := s.nNodes + 1 }
    rw [readTreeCall, allocNode, if_neg (by omega)]
    simp only [run_bind_ok]
    change Run.post _ _ _ (readOrCorrupt 1 s1 >>= _)
    by_cases h0 : s.inBits < s.rdPos + 1
    · rw [readOrCorrupt_short (s := s1) h0]; rfl
    · obtain ⟨rest, hrest⟩ : ∃ rest, bitsLeft s = true :: rest := by
        have h1 : [true] <+: Tree.ser s.l.toNat (.joint a b) := by simp [Tree.ser, jointBits]
        obtain ⟨r, hr⟩ := List.prefix_of_prefix_length_le h1 hser (by simp; omega)
        exact ⟨r, hr.symm⟩
      have hser1 : [true] ++ rest <+: bitsLeft s1 := by
        rw [bitsLeft_congr (s := s) (t := s1) rfl rfl rfl, hrest]; exact List.prefix_rfl
      let s2 : State := { s1 with port := s1.port.drop 1, rdPos := s1.rdPos + 1 }
      have hp2 : portOk s2 = true := portOk_drop_port (s := s1) hp 1
      have hbits2 : bitsLeft s2 = rest := by
        have h1 := bitsLeft_after (t := s2) hser1 rfl rfl rfl
        have h2 := congrArg List.length hrest
        refine (h1.eq_of_length ?_).symm
        simp only [bitsLeft_length, List.length_cons] at h2 ⊢
        change rest.length = s.inBits - (s.rdPos + 1)
        omega
      rw [hrest, Tree.ser, jointBits] at hser hne
      simp only [List.singleton_append, List.cons_append, List.nil_append, List.cons_prefix_cons, true_and, ne_eq, List.cons.injEq]
        at hser hne
      have h1 : readOrCorrupt 1 s1 = .ok (1, s2) := readOrCorrupt_next (s := s1) hr hp hser1 rfl Nat.one_pos rfl rfl
      rw [h1, run_bind_ok]
      simp only [Nat.one_ne_zero, if_false]
      change Run.post _ _ _ (readTreeCall depth s2 >>= _)
      by_cases hshort : rest.length < (a.ser s.l.toNat).length
      · rw [post_bind]
        refine post_mono (iha (depth := depth) (s := s2) hp2 hr hl (by change s.nNodes + 1 + a.size ≤ _; omega)
          (fun v h => hv v (.inl h)) ?_ ?_ (by omega) hw) (fun _ h => h.elim) (fun _ _ h => h) (fun _ h => h)
        · rw [hbits2]
          exact List.prefix_of_prefix_length_le hser (List.prefix_append _ _) hshort.le
        · rw [hbits2]
          intro h
          have := congrArg List.length h
          change rest.length = (a.ser s.l.toNat).length at this
          omega
      · have hpre : a.ser s.l.toNat <+: rest :=
          List.prefix_of_prefix_length_le (List.prefix_append _ _) hser (by omega)
        obtain ⟨t, ht, hta, htf, hte, htw⟩ := readTreeCall_ser (depth := depth) (s := s2) hp2 hr hl
          (by change s.nNodes + 1 + a.size ≤ _; omega) (fun v h => hv v (.inl h)) (by rw [hbits2]; exact hpre) (by omega)
          hw
        rw [ht, run_bind_ok]
        dsimp only
        obtain ⟨tail, rfl⟩ := hpre
        rw [List.prefix_append_right_inj] at hser
        have hbits3 : bitsLeft t = tail := by
          have h1 : tail <+: bitsLeft t :=
            bitsLeft_after (s := s2) (a := a.ser s.l.toNat) (by rw [hbits2]) (by rw [hte]) (by rw [hte]) (by rw [hte])
          have h2 := congrArg List.length hbits2
          refine (h1.eq_of_length ?_).symm
          have e1 : t.inBits = s2.inBits := by rw [hte]
          have e2 : t.rdPos = s2.rdPos + (a.ser s.l.toNat).length := by rw [hte]
          simp only [bitsLeft_length, List.length_append] at h2 ⊢
          omega
        have htl : t.l = s.l := by rw [hte]
        have htn : t.nNodes = s.nNodes + 1 + a.size := by rw [hte]
        have hp3 : portOk t = true := by
          have : t.port = s2.port.drop (a.ser s2.l.toNat).length := by rw [hte]
          rw [portOk_iff, this]; exact portOk_drop hp2 _
        rw [post_bind]
        refine post_mono (ihb (depth := depth) (s := t) hp3
          (ReaderOk.congr hr (by rw [hte]) (by rw [hte]) (by rw [hte])) (by rw [htl]; exact hl)
          (by rw [htn]; omega) (by rw [htl]; exact fun v h => hv v (.inr h)) (by rw [hbits3, htl]; exact hser) ?_
          (by omega) htw) (fun _ h => h.elim) (fun _ _ h => h) (fun _ h => h)
        rw [hbits3, htl]
        intro h
        exact hne (by rw [h])

end Sys2Proof.Machine
end

