-- ==== Sys2Proof/Laws/Decoder.lean ====
section
/-! SUPPORT. What the walk of D_DECODE does on a tree held in NODE (45_stream_decoder.md R370). -/

namespace Sys2Proof.Machine

theorem bitsLeft_cons {s : State} {b : Bool} {bits : Bits} (h : bitsLeft s = b :: bits) {t : State}
    (h1 : t.ibuf = s.ibuf) (h2 : t.inBits = s.inBits) (h3 : t.rdPos = s.rdPos + 1) : bitsLeft t = bits := by
  have hp : bits <+: bitsLeft t := bitsLeft_after (s := s) (a := [b]) (by rw [h]; exact List.prefix_rfl) h1 h2 h3
  refine (hp.eq_of_length ?_).symm
  have hl := congrArg List.length h
  simp only [bitsLeft_length, List.length_cons] at hl ⊢
  omega

theorem readOrCorrupt_bit {s : State} {b : Bool} {bits : Bits} (hr : ReaderOk s) (hp : portOk s = true)
    (h : bitsLeft s = b :: bits) :
    readOrCorrupt 1 s = .ok (b.toNat, { s with port := s.port.drop 1, rdPos := s.rdPos + 1 }) :=
  readOrCorrupt_next (a := [b]) (b := bits) hr hp (by rw [h]; exact List.prefix_rfl) rfl Nat.one_pos
    (by cases b <;> rfl) rfl

theorem bitsLeft_nil {s : State} (h : bitsLeft s = []) : s.inBits < s.rdPos + 1 := by
  have := congrArg List.length h
  simp only [bitsLeft_length, List.length_nil] at this
  omega

/-- The reader after the bits up to the last `n` have been read. -/
def readUpTo (s : State) (n : Nat) : State :=
  { s with rdPos := s.inBits - n, port := s.port.drop ((bitsLeft s).length - n) }

theorem readUpTo_step {s : State} {b : Bool} {bits : Bits} {n : Nat} (h : bitsLeft s = b :: bits)
    (hn : n ≤ bits.length) :
    readUpTo { s with port := s.port.drop 1, rdPos := s.rdPos + 1 } n = readUpTo s n := by
  have hl := congrArg List.length h
  simp only [bitsLeft_length, List.length_cons] at hl
  simp only [readUpTo, bitsLeft_length, List.drop_drop]
  congr 2
  omega

/-- A walk that finds a leaf (R370). -/
theorem treeWalk_ok {tree : Tree} {fuel k : Nat} {s : State} {v : BitVec 16} {after : Bits} (hp : portOk s = true)
    (hr : ReaderOk s) (hle : s.rdPos ≤ s.inBits) (ht : treeAt s k tree = true)
    (hw : tree.walk (bitsLeft s) = some (v, after)) (hf : (bitsLeft s).length + 1 ≤ fuel) :
    treeWalk fuel k s = .ok (v, readUpTo s after.length) ∧ after.length ≤ (bitsLeft s).length := by
  induction tree generalizing fuel k s with
  | leaf w =>
    obtain ⟨hk, h1, h2⟩ := treeAt_leaf.1 ht
    obtain ⟨fuel, rfl⟩ : ∃ f, fuel = f + 1 := ⟨fuel - 1, by omega⟩
    simp only [Tree.walk, Option.some.injEq, Prod.mk.injEq] at hw
    obtain ⟨rfl, rfl⟩ := hw
    refine ⟨?_, le_rfl⟩
    simp only [treeWalk, nodeAt_ok hk, run_bind_ok, h1, h2, Except.ok.injEq, Prod.mk.injEq, true_and]
    simp only [readUpTo, bitsLeft_length, Nat.sub_self, List.drop_zero]
    rw [show s.inBits - (s.inBits - s.rdPos) = s.rdPos by omega]
  | joint a b iha ihb =>
    obtain ⟨hk, h1, ha, hb⟩ := treeAt_joint.1 ht
    obtain ⟨fuel, rfl⟩ : ∃ f, fuel = f + 1 := ⟨fuel - 1, by omega⟩
    cases hbits : bitsLeft s with
    | nil => rw [hbits] at hw; simp [Tree.walk] at hw
    | cons bit bits =>
      rw [hbits] at hw hf
      simp only [List.length_cons] at hf
      let s1 : State := { s with port := s.port.drop 1, rdPos := s.rdPos + 1 }
      have hb1 : bitsLeft s1 = bits := bitsLeft_cons hbits rfl rfl rfl
      have hle1 : s1.rdPos ≤ s1.inBits := by
        have := congrArg List.length hbits
        simp only [bitsLeft_length, List.length_cons] at this
        change s.rdPos + 1 ≤ s.inBits; omega
      have hstep : treeWalk (fuel + 1) k s = treeWalk fuel (if bit then (slotOf s k).right else (slotOf s k).left) s1 := by
        simp only [treeWalk, nodeAt_ok hk, run_bind_ok, h1]
        rw [readOrCorrupt_bit hr hp hbits, run_bind_ok]
        cases bit <;> rfl
      rw [hstep]
      cases bit
      · obtain ⟨h2, h3⟩ := iha (s := s1) (fuel := fuel) (portOk_drop_port hp 1) hr hle1 (treeAt_of_node ha rfl)
          (by rw [hb1]; simpa [Tree.walk] using hw) (by rw [hb1]; omega)
        rw [hb1] at h3
        refine ⟨?_, by simp only [List.length_cons]; omega⟩
        rw [readUpTo_step hbits h3] at h2
        exact h2
      · obtain ⟨h2, h3⟩ := ihb (s := s1) (fuel := fuel) (portOk_drop_port hp 1) hr hle1 (treeAt_of_node hb rfl)
          (by rw [hb1]; simpa [Tree.walk] using hw) (by rw [hb1]; omega)
        rw [hb1] at h3
        refine ⟨?_, by simp only [List.length_cons]; omega⟩
        rw [readUpTo_step hbits h3] at h2
        exact h2

/-- Moving the cursor to the end of the input changes nothing where it stands there. -/
theorem readTo_self {s : State} (e : s.inBits = s.rdPos) :
    ({ s with rdPos := s.inBits, port := s.port } : State) = s := by
  cases s
  simp only at e
  subst e
  rfl

/-- A walk that meets the end of the input (60_exceptions.md R603 (e)). -/
theorem treeWalk_short {tree : Tree} {fuel k : Nat} {s : State} (hp : portOk s = true) (hr : ReaderOk s)
    (hle : s.rdPos ≤ s.inBits) (ht : treeAt s k tree = true) (hw : tree.walk (bitsLeft s) = none)
    (hf : (bitsLeft s).length + 1 ≤ fuel) : treeWalk fuel k s = raise .corrupt (readUpTo s 0) := by
  induction tree generalizing fuel k s with
  | leaf w => simp [Tree.walk] at hw
  | joint a b iha ihb =>
    obtain ⟨hk, h1, ha, hb⟩ := treeAt_joint.1 ht
    obtain ⟨fuel, rfl⟩ : ∃ f, fuel = f + 1 := ⟨fuel - 1, by omega⟩
    cases hbits : bitsLeft s with
    | nil =>
      have hshort := bitsLeft_nil hbits
      have hu : readUpTo s 0 = s := by
        simp only [readUpTo, hbits, List.length_nil, Nat.sub_zero, List.drop_zero]
        have e : s.inBits = s.rdPos := by omega
        rw [readTo_self e]
      simp only [treeWalk, nodeAt_ok hk, run_bind_ok, h1]
      rw [readOrCorrupt_short hshort, hu]
      rfl
    | cons bit bits =>
      rw [hbits] at hw hf
      simp only [List.length_cons] at hf
      let s1 : State := { s with port := s.port.drop 1, rdPos := s.rdPos + 1 }
      have hb1 : bitsLeft s1 = bits := bitsLeft_cons hbits rfl rfl rfl
      have hle1 : s1.rdPos ≤ s1.inBits := by
        have := congrArg List.length hbits
        simp only [bitsLeft_length, List.length_cons] at this
        change s.rdPos + 1 ≤ s.inBits; omega
      have hstep : treeWalk (fuel + 1) k s = treeWalk fuel (if bit then (slotOf s k).right else (slotOf s k).left) s1 := by
        simp only [treeWalk, nodeAt_ok hk, run_bind_ok, h1]
        rw [readOrCorrupt_bit hr hp hbits, run_bind_ok]
        cases bit <;> rfl
      have hu : readUpTo s1 0 = readUpTo s 0 := readUpTo_step hbits (Nat.zero_le _)
      rw [hstep, ← hu]
      cases bit
      · exact iha (s := s1) (fuel := fuel) (portOk_drop_port hp 1) hr hle1 (treeAt_of_node ha rfl)
          (by rw [hb1]; simpa [Tree.walk] using hw) (by rw [hb1]; omega)
      · exact ihb (s := s1) (fuel := fuel) (portOk_drop_port hp 1) hr hle1 (treeAt_of_node hb rfl)
          (by rw [hb1]; simpa [Tree.walk] using hw) (by rw [hb1]; omega)

/-- The letter the next body bits name (R370). -/
theorem decodeLetter_ok {tree : Tree} {r : Nat} {s : State} {v : BitVec 16} {after : Bits} (hp : portOk s = true)
    (hr : ReaderOk s) (hle : s.rdPos ≤ s.inBits) (hroot : s.root = some r) (ht : treeAt s r tree = true)
    (hd : tree.decodeOne (bitsLeft s) = some (v, after)) :
    decodeLetter s = .ok (v, readUpTo s after.length) ∧ after.length < (bitsLeft s).length := by
  simp only [decodeLetter, rootNode_some hroot, run_bind_ok, nodeAt_ok (treeAt_index ht)]
  cases tree with
  | leaf w =>
    obtain ⟨hk, h1, h2⟩ := treeAt_leaf.1 ht
    cases hbits : bitsLeft s with
    | nil => rw [hbits] at hd; simp [Tree.decodeOne] at hd
    | cons bit bits =>
      rw [hbits] at hd
      simp only [Tree.decodeOne, Option.some.injEq, Prod.mk.injEq] at hd
      obtain ⟨rfl, rfl⟩ := hd
      refine ⟨?_, by simp⟩
      simp only [h1, h2]
      rw [readOrCorrupt_bit hr hp hbits, run_bind_ok]
      have hl := congrArg List.length hbits
      simp only [bitsLeft_length, List.length_cons] at hl
      simp only [readUpTo, bitsLeft_length, Except.ok.injEq, Prod.mk.injEq, true_and]
      rw [show s.inBits - bits.length = s.rdPos + 1 by omega, show s.inBits - s.rdPos - bits.length = 1 by omega]
  | joint a b =>
    have h1 := (treeAt_joint.1 ht).2.1
    simp only [h1]
    have hw : (Tree.joint a b).walk (bitsLeft s) = some (v, after) := hd
    obtain ⟨h2, -⟩ := treeWalk_ok (fuel := s.inBits - s.rdPos + 1) hp hr hle ht hw (by rw [bitsLeft_length])
    refine ⟨h2, ?_⟩
    obtain ⟨path, hpath, hbits⟩ := Tree.path_of_walk _ v _ _ hw
    rw [hbits, List.length_append]
    rw [Tree.pathsFrom_joint] at hpath
    rcases List.mem_append.1 hpath with h | h <;> obtain ⟨x, _, hx⟩ := List.mem_map.1 h <;>
      · have := congrArg (fun y => y.2.length) hx
        simp only [List.length_cons] at this
        omega

/-- A letter whose bits are not all there (60_exceptions.md R603 (e)). -/
theorem decodeLetter_short {tree : Tree} {r : Nat} {s : State} (hp : portOk s = true)
    (hr : ReaderOk s) (hle : s.rdPos ≤ s.inBits) (hroot : s.root = some r) (ht : treeAt s r tree = true)
    (hd : tree.decodeOne (bitsLeft s) = none) : decodeLetter s = raise .corrupt (readUpTo s 0) := by
  simp only [decodeLetter, rootNode_some hroot, run_bind_ok, nodeAt_ok (treeAt_index ht)]
  cases tree with
  | leaf w =>
    obtain ⟨hk, h1, h2⟩ := treeAt_leaf.1 ht
    cases hbits : bitsLeft s with
    | cons bit bits => rw [hbits] at hd; simp [Tree.decodeOne] at hd
    | nil =>
      have hshort := bitsLeft_nil hbits
      have hu : readUpTo s 0 = s := by
        simp only [readUpTo, hbits, List.length_nil, Nat.sub_zero, List.drop_zero]
        have e : s.inBits = s.rdPos := by omega
        rw [readTo_self e]
      simp only [h1]
      rw [readOrCorrupt_short hshort, hu]
      rfl
  | joint a b =>
    have h1 := (treeAt_joint.1 ht).2.1
    simp only [h1]
    exact treeWalk_short (fuel := s.inBits - s.rdPos + 1) hp hr hle ht hd (by rw [bitsLeft_length])

end Sys2Proof.Machine
end

