-- ==== Sys2Proof/Laws/Invariant.lean ====
section
/-! SUPPORT. How the invariant is built where a step leads, and what the end of an operation leaves. -/

namespace Sys2Proof.Machine

theorem phaseCode_injective {p q : Phase} (h : phaseCode p = phaseCode q) : p = q := by
  cases p <;> cases q <;> first | rfl | exact absurd h (by decide)

theorem inPhase_iff {s : State} {p : Phase} (h : s.phase = phaseCode p) (ps : List Phase) : inPhase s ps ↔ p ∈ ps := by
  constructor
  · rintro ⟨q, hq, h'⟩
    rwa [phaseCode_injective (h.symm.trans h')]
  · exact fun hp => ⟨p, hp, h⟩

/-! ## Free contents -/

theorem Table.wf_nil {α : Type} [DecidableEq α] (d : α) : Table.wf d ([] : Table α) = true := rfl

theorem Table.wf_admissible {α : Type} [DecidableEq α] (d : α) (n : Nat) (m : Table α) :
    Table.wf d (Table.admissible d n m) = true := by
  unfold Table.admissible
  split
  · next h => rw [Bool.and_eq_true] at h; exact h.1
  · rfl

theorem Table.below_admissible {α : Type} [DecidableEq α] (d : α) (n : Nat) (m : Table α) :
    Table.below n (Table.admissible d n m) = true := by
  unfold Table.admissible
  split
  · next h => rw [Bool.and_eq_true] at h; exact h.2
  · rfl

theorem Table.below_set {α : Type} [DecidableEq α] {d : α} {n : Nat} {m : Table α} (hm : Table.below n m = true)
    {a : Nat} (ha : a < n) (x : α) : Table.below n (Table.set d a x m) = true := by
  simp only [Table.below, List.all_eq_true, decide_eq_true_eq] at hm ⊢
  intro e he
  rcases Table.mem_set he with ⟨rfl, -⟩ | h
  · exact ha
  · exact hm e h

theorem Table.below_mapEntries {α : Type} [DecidableEq α] {d : α} {f : α → α} {n : Nat} {m : Table α}
    (hm : Table.below n m = true) : Table.below n (Table.mapEntries d f m) = true := by
  simp only [Table.below, List.all_eq_true, decide_eq_true_eq] at hm ⊢
  intro e he
  obtain ⟨e', h', rfl⟩ := List.mem_map.1 (List.mem_filter.1 he).1
  exact hm e' h'

theorem addLeaves_below {es : List (Nat × Nat)} {s t : State} (hs : Table.below Config.treeNodeCap s.node = true)
    (h : addLeaves es s = .ok t) : Table.below Config.treeNodeCap t.node = true := by
  induction es generalizing s with
  | nil => cases h; exact hs
  | cons e es ih =>
    rw [addLeaves, run_bind_eq_ok] at h
    obtain ⟨u, hu, ht⟩ := h
    refine ih ?_ ht
    rw [addLeaf, run_bind_eq_ok] at hu
    obtain ⟨w, hw, hu⟩ := hu
    unfold setNode at hw
    split at hw
    · next hk =>
      cases hw
      cases hu
      exact Table.below_set hs hk _
    · cases hw

theorem TablesOk.admissible (u : Unspecified) {ibuf obuf : Memory} (hi : Memory.wf ibuf = true)
    (ho : Memory.wf obuf = true) :
    TablesOk u.admissible.freq u.admissible.node u.admissible.active u.admissible.code ibuf obuf where
  freqForm := Table.wf_admissible _ _ _
  freqExtent := Table.below_admissible _ _ _
  nodeForm := Table.wf_admissible _ _ _
  nodeExtent := Table.below_admissible _ _ _
  activeForm := by
    simp only [Unspecified.admissible]
    split
    · assumption
    · exact List.Pairwise.nil
  codeForm := Table.wf_admissible _ _ _
  codeExtent := Table.below_admissible _ _ _
  ibufForm := hi
  obufForm := ho

/-! ## The invariant in a phase -/

/-- What every phase asks. -/
structure InvCommon (s : State) : Prop where
  tables : TablesOk s.freq s.node s.active s.code s.ibuf s.obuf
  inputs : ∀ u, Input.host (.reset u) ∈ s.inputs → TablesOk u.freq u.node u.active u.code u.ibuf u.obuf
  noError : s.errCode = 0 ∧ s.errPhase = 0
  noOutput : s.outLen = 0

/-- What every phase of an operation after its setup step asks. -/
structure InvRunning (s : State) : Prop extends InvCommon s where
  writer : s.wrCnt < 8
  position : s.wrPos.toNat ≤ s.outCap
  reader : s.inBits = 8 * s.inLen.toNat ∧ s.inLen.toNat ≤ s.inCap

theorem phaseCode_legal (p : Phase) : reservedPhase (phaseCode p) = false := by cases p <;> rfl

theorem Inv.common {s : State} (h : Inv s) {p : Phase} (hp : s.phase = phaseCode p) (h1 : p ≠ .done) (h2 : p ≠ .error) :
    InvCommon s where
  tables := h.tables
  inputs := h.inputs
  noError := h.noError (by rw [hp]; exact fun h => h2 (phaseCode_injective h))
  noOutput := h.noOutput (by rw [hp]; exact fun h => h1 (phaseCode_injective h))

theorem Inv.running {s : State} (h : Inv s) {p : Phase} (hp : s.phase = phaseCode p) (hr : p ∈ runningPhases) :
    InvRunning s where
  toInvCommon := h.common hp (by rintro rfl; exact absurd hr (by decide)) (by rintro rfl; exact absurd hr (by decide))
  writer := h.writer ((inPhase_iff hp _).2 hr)
  position := h.position ((inPhase_iff hp _).2 hr)
  reader := h.reader ((inPhase_iff hp _).2 hr)

/-- The invariant in a phase of an operation after its setup step, from what it asks of that phase. -/
theorem InvRunning.enter {s : State} (h : InvRunning s) {p : Phase} (hp : s.phase = phaseCode p)
    (hr : p ∈ runningPhases)
    (cursor : p ∈ [.dHdr, .dTreeRd, .dDecode, .dRem] → s.rdPos ≤ s.inBits := by exact fun h => absurd h (by decide))
    (sized : p ∈ sizedPhases → letterSizeOk s.l.toNat = true ∧ sizesHold s = true := by exact fun h => absurd h (by decide))
    (whole : p ∈ compressPhases → s.f = s.inLen := by exact fun h => absurd h (by decide))
    (counting : p ∈ [.cCount] → s.i < s.n ∧ s.nNodes = 0 ∧ s.active = [] ∧ s.root = none ∧ countsBelow s ∧ (0 < s.i → s.freq ≠ []) := by exact fun h => absurd h (by decide))
    (leaves : p ∈ [.cLeaves] → 0 < s.n ∧ s.nNodes = 0 ∧ s.active = [] ∧ s.root = none ∧ countsBelow s ∧ s.freq ≠ [] := by exact fun h => absurd h (by decide))
    (merging : p ∈ [.cMerge] → 0 < s.n ∧ s.root = none ∧ s.active ≠ [] ∧ s.nNodes + s.active.length ≤ 2 * Config.letterCap ∧ (∀ k ∈ s.active, k < s.nNodes) ∧ childrenBelow s := by exact fun h => absurd h (by decide))
    (built : p ∈ [.cCodegen, .cTreeWr] → 0 < s.n ∧ rootInside s ∧ childrenBelow s := by exact fun h => absurd h (by decide))
    (header : p ∈ [.cHdr] → (s.root = none ∧ s.n = 0) ∨ (0 < s.n ∧ rootInside s ∧ childrenBelow s) := by exact fun h => absurd h (by decide))
    (encoding : p ∈ [.cEncode] → s.i < s.n := by exact fun h => absurd h (by decide))
    (fresh : p ∈ [.dHdr, .dTreeRd] → s.nNodes = 0 := by exact fun h => absurd h (by decide))
    (treeNext : p ∈ [.dTreeRd] → 0 < s.n := by exact fun h => absurd h (by decide))
    (unwritten : p ∈ [.dHdr, .dTreeRd] → bitsWritten s = 0 := by exact fun h => absurd h (by decide))
    (written : p ∈ [.dDecode] → bitsWritten s = s.i * letterSize s := by exact fun h => absurd h (by decide))
    (bodyWritten : p ∈ [.dRem] → bitsWritten s = s.usableBits := by exact fun h => absurd h (by decide))
    (allWritten : p ∈ [.dFlush] → bitsWritten s = s.totalBits := by exact fun h => absurd h (by decide))
    (decoding : p ∈ [.dDecode] → s.i < s.n ∧ rootInside s ∧ childrenInside s := by exact fun h => absurd h (by decide)) : Inv s where
  tables := h.tables
  inputs := h.inputs
  legal := by rw [hp]; exact phaseCode_legal p
  noError := fun _ => h.noError
  errorKind := by
    intro he
    rw [hp] at he
    rw [phaseCode_injective he] at hr
    exact absurd hr (by decide)
  noOutput := fun _ => h.noOutput
  writer := fun _ => h.writer
  position := fun _ => h.position
  reader := fun _ => h.reader
  cursor := fun h => cursor ((inPhase_iff hp _).1 h)
  sized := fun h => sized ((inPhase_iff hp _).1 h)
  whole := fun h => whole ((inPhase_iff hp _).1 h)
  counting := fun h => counting ((inPhase_iff hp _).1 h)
  leaves := fun h => leaves ((inPhase_iff hp _).1 h)
  merging := fun h => merging ((inPhase_iff hp _).1 h)
  built := fun h => built ((inPhase_iff hp _).1 h)
  header := fun h => header ((inPhase_iff hp _).1 h)
  encoding := fun h => encoding ((inPhase_iff hp _).1 h)
  fresh := fun h => fresh ((inPhase_iff hp _).1 h)
  treeNext := fun h => treeNext ((inPhase_iff hp _).1 h)
  unwritten := fun h => unwritten ((inPhase_iff hp _).1 h)
  written := fun h => written ((inPhase_iff hp _).1 h)
  bodyWritten := fun h => bodyWritten ((inPhase_iff hp _).1 h)
  allWritten := fun h => allWritten ((inPhase_iff hp _).1 h)
  decoding := fun h => decoding ((inPhase_iff hp _).1 h)

/-- The invariant in a phase outside the running ones. -/
theorem Inv.ofQuiet {s : State} {p : Phase} (hp : s.phase = phaseCode p) (hr : p ∉ runningPhases)
    (tables : TablesOk s.freq s.node s.active s.code s.ibuf s.obuf)
    (inputs : ∀ u, Input.host (.reset u) ∈ s.inputs → TablesOk u.freq u.node u.active u.code u.ibuf u.obuf)
    (noError : p ≠ .error → s.errCode = 0 ∧ s.errPhase = 0)
    (errorKind : p = .error → 1 ≤ s.errCode.toNat ∧ s.errCode.toNat ≤ 5)
    (noOutput : p ≠ .done → s.outLen = 0) : Inv s := by
  have hno : ∀ ps : List Phase, (∀ q ∈ ps, q ∈ runningPhases) → ¬ inPhase s ps := by
    intro ps hps h
    exact hr (hps p ((inPhase_iff hp ps).1 h))
  constructor
  case tables => exact tables
  case inputs => exact inputs
  case legal => rw [hp]; exact phaseCode_legal p
  case noError => exact fun h => noError (by rintro rfl; exact h hp)
  case errorKind => exact fun h => errorKind (phaseCode_injective (hp.symm.trans h))
  case noOutput => exact fun h => noOutput (by rintro rfl; exact h hp)
  all_goals exact fun h => absurd h (hno _ (by decide))

/-! ## The end of an operation -/

/-- What the host sets and the block leaves alone (20_memory.md R101, 10_state.md R65). -/
structure HostKept (s t : State) : Prop where
  ibuf : t.ibuf = s.ibuf
  lsize : t.lsize = s.lsize
  inLen : t.inLen = s.inLen
  inCap : t.inCap = s.inCap
  outCap : t.outCap = s.outCap
  inputs : t.inputs = s.inputs
  reads : t.reads = s.reads

theorem HostKept.refl (s : State) : HostKept s s := ⟨rfl, rfl, rfl, rfl, rfl, rfl, rfl⟩

theorem HostKept.trans {s t u : State} (h : HostKept s t) (h' : HostKept t u) : HostKept s u :=
  ⟨h'.ibuf.trans h.ibuf, h'.lsize.trans h.lsize, h'.inLen.trans h.inLen, h'.inCap.trans h.inCap,
    h'.outCap.trans h.outCap, h'.inputs.trans h.inputs, h'.reads.trans h.reads⟩

theorem HostKept.of_port {s t : State} (h : t = { s with port := t.port }) : HostKept s t := by
  rw [h]; exact ⟨rfl, rfl, rfl, rfl, rfl, rfl, rfl⟩

theorem HostKept.of_writer {s t : State} (h : WriterFrame s t) : HostKept s t := by
  rw [WriterFrame] at h; rw [h]; exact ⟨rfl, rfl, rfl, rfl, rfl, rfl, rfl⟩

theorem HostKept.takeError (e : ErrorKind) (p : Phase) (s : State) : HostKept s (takeError e p s) :=
  ⟨rfl, rfl, rfl, rfl, rfl, rfl, rfl⟩

theorem HostKept.finish (v : BitVec 64) (s : State) : HostKept s (finish v s) := ⟨rfl, rfl, rfl, rfl, rfl, rfl, rfl⟩

theorem errorCode_range (e : ErrorKind) : 1 ≤ (errorCode e).toNat ∧ (errorCode e).toNat ≤ 5 := by
  cases e <;> decide

/-- ERROR_ENTRY leaves the invariant, from any state whose buffers are in form (R601). -/
theorem inv_takeError {s : State} (e : ErrorKind) (p : Phase) (hi : Memory.wf s.ibuf = true)
    (ho : Memory.wf s.obuf = true)
    (inputs : ∀ u, Input.host (.reset u) ∈ s.inputs → TablesOk u.freq u.node u.active u.code u.ibuf u.obuf) :
    Inv (takeError e p s) :=
  Inv.ofQuiet (p := .error) rfl (by decide) (TablesOk.admissible _ hi (Memory.wf_writeAll ho _ _)) inputs
    (fun h => absurd rfl h) (fun _ => errorCode_range e) (fun _ => rfl)

/-- The end of a successful operation leaves the invariant. -/
theorem inv_finish {s : State} (v : BitVec 64) (hi : Memory.wf s.ibuf = true) (ho : Memory.wf s.obuf = true)
    (he : s.errCode = 0 ∧ s.errPhase = 0)
    (inputs : ∀ u, Input.host (.reset u) ∈ s.inputs → TablesOk u.freq u.node u.active u.code u.ibuf u.obuf) :
    Inv (finish v s) :=
  Inv.ofQuiet (p := .done) rfl (by decide) (TablesOk.admissible _ hi ho) inputs
    (fun _ => he) (fun h => absurd h (by decide)) (fun h => absurd rfl h)

/-- What a step of an operation raises from `s`: one of the kinds, with nothing of the host's changed and OBUF in form. -/
def Raised (s : State) (kinds : List ErrorKind) (e : ErrorKind) (t : State) : Prop :=
  e ∈ kinds ∧ HostKept s t ∧ Memory.wf t.obuf = true

theorem Raised.inv {s t : State} {kinds : List ErrorKind} {e : ErrorKind} (hs : Inv s) (h : Raised s kinds e t)
    (p : Phase) : Inv (takeError e p t) :=
  inv_takeError e p (by rw [h.2.1.ibuf]; exact hs.tables.ibufForm) h.2.2 (by rw [h.2.1.inputs]; exact hs.inputs)

end Sys2Proof.Machine
end

