-- ==== Sys2Proof/Laws/Frame.lean ====
section
/-! SUPPORT. What a part of a step leaves alone, whatever it answers and from whatever state (10_state.md R65). -/

namespace Sys2Proof.Machine

/-- A part of a step that answers a state, or raises in one, that the relation allows. -/
abbrev Run.keeps (R : State → Prop) (x : Run State) : Prop := Run.post R (fun _ => R) (fun _ => True) x

/-- The same of a part that answers a value too. -/
abbrev Run.keeps₂ {α : Type} (R : State → Prop) (x : Run (α × State)) : Prop :=
  Run.post (fun r => R r.2) (fun _ => R) (fun _ => True) x

theorem keeps_bind {R : State → Prop} {x : Run State} {f : State → Run State} (hx : Run.keeps R x)
    (hf : ∀ t, R t → Run.keeps R (f t)) : Run.keeps R (x >>= f) := by
  rw [Run.keeps, post_bind]
  exact post_mono hx (fun t ht => hf t ht) (fun _ _ h => h) (fun _ h => h)

theorem keeps_bind₂ {α : Type} {R : State → Prop} {x : Run (α × State)} {f : α × State → Run State}
    (hx : Run.keeps₂ R x) (hf : ∀ r : α × State, R r.2 → Run.keeps R (f r)) : Run.keeps R (x >>= f) := by
  rw [Run.keeps, post_bind]
  exact post_mono hx (fun r hr => hf r hr) (fun _ _ h => h) (fun _ h => h)

/-! ## The writer -/

theorem writeBit_frame (b : Bool) (s : State) : Run.keeps (WriterFrame s) (writeBit b s) := by
  unfold writeBit
  simp only [shiftIn_wrCnt]
  split
  · rw [Run.keeps, post_bind]
    refine post_mono (memWrite_post _ _ _) ?_ ?_ (fun _ _ => trivial)
    · rintro t ⟨-, rfl⟩
      refine WriterFrame.trans ?_ (nextByte_frame _)
      rfl
    · rintro e t ⟨-, ht⟩
      change WriterFrame s t
      rw [ht]; rfl
  · exact (rfl : WriterFrame s (shiftIn b s))

theorem writeString_frame (bs : Bits) (s : State) : Run.keeps (WriterFrame s) (writeString bs s) := by
  induction bs generalizing s with
  | nil => exact WriterFrame.refl s
  | cons b bs ih =>
    refine keeps_bind (writeBit_frame b s) fun t ht => ?_
    exact post_mono (ih t) (fun u hu => ht.trans hu) (fun _ u hu => ht.trans hu) (fun _ h => h)

theorem writeBits_frame (w v : Nat) (s : State) : Run.keeps (WriterFrame s) (writeBits w v s) := writeString_frame _ s

theorem flush_frame (s : State) : Run.keeps (WriterFrame s) (flush s) := by
  unfold flush
  generalize 7 = fuel
  induction fuel generalizing s with
  | zero => rw [flushLoop]; split <;> trivial
  | succ fuel ih =>
    rw [flushLoop]
    split
    · exact WriterFrame.refl s
    · refine keeps_bind (writeBit_frame false s) fun t ht => ?_
      exact post_mono (ih t) (fun u hu => ht.trans hu) (fun _ u hu => ht.trans hu) (fun _ h => h)

theorem writeString_append (a b : Bits) (s : State) :
    writeString (a ++ b) s = (writeString a s >>= fun t => writeString b t) := by
  induction a generalizing s with
  | nil => rfl
  | cons x a ih =>
    simp only [List.cons_append, writeString]
    rcases writeBit x s with (⟨e, t⟩ | r) | t
    · rfl
    · rfl
    · exact ih t

/-- Two continuations of one part agree where they agree on its results. -/
theorem bind_congr_post {α β : Type} {x : Run α} {f g : α → Run β} {P : α → Prop} {Q : ErrorKind → State → Prop}
    {F : Fault → Prop} (hx : Run.post P Q F x) (h : ∀ a, P a → f a = g a) : (x >>= f) = (x >>= g) := by
  rcases x with (⟨e, t⟩ | r) | a
  · rfl
  · rfl
  · exact h a hx

/-- C_TREE_WR's walk writes the serialization of the tree held in NODE, whatever the writer answers (R291). -/
theorem serialize_eq {fuel k : Nat} {s : State} {tree : Tree} (h : treeAt s k tree = true)
    (hf : tree.height ≤ fuel) : serialize fuel k s = writeString (tree.ser (letterSize s)) s := by
  induction tree generalizing fuel k s with
  | leaf v =>
    obtain ⟨hk, h1, h2⟩ := treeAt_leaf.1 h
    cases fuel with
    | zero => simp [Tree.height] at hf
    | succ fuel => simp only [serialize, nodeAt_ok hk, run_bind_ok, h1, h2, Tree.ser]
  | joint a b iha ihb =>
    obtain ⟨hk, h1, ha, hb⟩ := treeAt_joint.1 h
    cases fuel with
    | zero => simp [Tree.height] at hf
    | succ fuel =>
      simp only [Tree.height] at hf
      simp only [serialize, nodeAt_ok hk, run_bind_ok, h1, Tree.ser]
      rw [writeString_append, writeString_append]
      have hframe : ∀ {t u : State}, WriterFrame t u → u.node = t.node ∧ letterSize u = letterSize t := by
        intro t u hu
        rw [WriterFrame] at hu
        rw [hu]
        exact ⟨rfl, rfl⟩
      rcases h0 : writeString jointBits s with (⟨e, t⟩ | r) | t
      · rfl
      · rfl
      · have ht := hframe (post_of_ok (writeString_frame jointBits s) h0)
        simp only [run_bind_ok]
        rw [iha (treeAt_of_node ha ht.1) (by omega), ht.2]
        refine bind_congr_post (writeString_frame _ t) fun u hu => ?_
        have hu := hframe hu
        rw [ihb (treeAt_of_node hb (hu.1.trans ht.1)) (by omega), hu.2, ht.2]

end Sys2Proof.Machine
end

