-- ==== Sys2Proof/Laws/Compress.lean ====
section
/-! SUPPORT. The steps of compression from a state that meets the invariant: each goes on, keeps the invariant, and raises only what its rule raises (40 to 44). -/

namespace Sys2Proof.Machine

/-- From `s`, a part of a step keeps the invariant, raises only these kinds, and stops at no fault. -/
abbrev Run.safe (s : State) (kinds : List ErrorKind) (x : Run State) : Prop :=
  Run.post (fun t => Inv t ∧ HostKept s t) (Raised s kinds) (fun _ => False) x

theorem Raised.of_port {s t : State} {kinds : List ErrorKind} {e : ErrorKind} (he : e ∈ kinds)
    (h : t = { s with port := t.port }) (hs : Inv s) : Raised s kinds e t :=
  ⟨he, .of_port h, by rw [h]; exact hs.tables.obufForm⟩

theorem Raised.of_writer {s t : State} {kinds : List ErrorKind} {e : ErrorKind} {n : Nat} (he : e ∈ kinds)
    (h : WriterFrame s t) (hw : WriterOk n t) : Raised s kinds e t := ⟨he, .of_writer h, hw.2.1⟩

theorem WriterOk.of_running {s : State} (h : InvRunning s) : WriterOk 7 s :=
  ⟨by have := h.writer; omega, h.tables.obufForm, h.position⟩

theorem sizes_arith (f l : Nat) (hl : 2 ≤ l) :
    let z := sizes f l
    z.usableBits = z.n * l ∧ z.usableBits + z.remBits = 8 * f ∧ z.totalBits = 8 * f := by
  have h : 8 * f / l * l ≤ 8 * f := Nat.div_mul_le_self _ _
  refine ⟨Nat.mul_comm _ _, ?_, rfl⟩
  simp only [sizes]
  rw [Nat.mul_comm l]
  omega

theorem sizesHold_iff {s : State} : sizesHold s = true ↔
    s.totalBits = (sizes s.f.toNat s.l.toNat).totalBits ∧ s.n = (sizes s.f.toNat s.l.toNat).n ∧
      s.usableBits = (sizes s.f.toNat s.l.toNat).usableBits ∧ s.remBits = (sizes s.f.toNat s.l.toNat).remBits := by
  rw [sizesHold, decide_eq_true_eq]
  cases sizes s.f.toNat s.l.toNat
  simp

/-- What the sizes are to the reader and the writer. -/
theorem sized_arith {s : State} (h : letterSizeOk s.l.toNat = true ∧ sizesHold s = true) :
    2 ≤ letterSize s ∧ letterSize s ≤ 16 ∧ s.usableBits = s.n * letterSize s ∧
      s.usableBits + s.remBits = 8 * s.f.toNat ∧ s.totalBits = 8 * s.f.toNat := by
  obtain ⟨h1, h2⟩ := letterSizeOk_iff.1 h.1
  obtain ⟨a, b, c, d⟩ := sizesHold_iff.1 h.2
  obtain ⟨e1, e2, e3⟩ := sizes_arith s.f.toNat s.l.toNat h1
  rw [a, b, c, d]
  exact ⟨h1, h2, e1, e2, e3⟩

theorem sizesHold_congr {s t : State} (h : sizesHold s = true) (h1 : t.totalBits = s.totalBits) (h2 : t.n = s.n)
    (h3 : t.usableBits = s.usableBits) (h4 : t.remBits = s.remBits) (h5 : t.f = s.f) (h6 : t.l = s.l) :
    sizesHold t = true := by
  rw [sizesHold, h1, h2, h3, h4, h5, h6]
  exact h

theorem sizesHold_setSizes (s : State) : sizesHold (setSizes s) = true := by simp [sizesHold, setSizes]

/-! ## C_SETUP -/

theorem cSetup_safe {s : State} (h : Inv s) (hp : s.phase = phaseCode .cSetup) :
    Run.safe s [.invalidArgument, .io] (cSetup s) := by
  have hc := h.common hp (by decide) (by decide)
  unfold cSetup
  simp only
  split
  · next hl =>
    split
    · exact ⟨by simp, ⟨rfl, rfl, rfl, rfl, rfl, rfl, rfl⟩, hc.tables.obufForm⟩
    · next hcap =>
      refine ⟨?_, ⟨rfl, rfl, rfl, rfl, rfl, rfl, rfl⟩⟩
      generalize ht : cSetupLatch { s with l := s.lsize, f := s.inLen } = t
      have hrun : InvRunning t := by
        subst ht
        refine { tables := ?_, inputs := hc.inputs, noError := hc.noError, noOutput := hc.noOutput, writer := ?_,
                 position := ?_, reader := ?_ }
        · exact {
            freqForm := rfl, freqExtent := rfl, nodeForm := hc.tables.nodeForm, nodeExtent := hc.tables.nodeExtent
            activeForm := List.Pairwise.nil, codeForm := Table.wf_mapEntries (f := fun e : CodeEntry => { e with valid := false }) hc.tables.codeForm
            codeExtent := Table.below_mapEntries (d := CodeEntry.blank) (f := fun e : CodeEntry => { e with valid := false }) hc.tables.codeExtent
            ibufForm := hc.tables.ibufForm, obufForm := hc.tables.obufForm }
        · exact Nat.zero_lt_succ _
        · exact Nat.zero_le _
        · exact ⟨rfl, Nat.not_lt.1 hcap⟩
      have hsz : letterSizeOk t.l.toNat = true ∧ sizesHold t = true := by
        subst ht
        exact ⟨hl, sizesHold_setSizes _⟩
      by_cases hn : 0 < t.n
      · refine hrun.enter (p := .cCount) ?_ (by decide) (sized := fun _ => hsz) (whole := fun _ => by subst ht; rfl)
          (counting := fun _ => ?_)
        · subst ht; exact congrArg phaseCode (if_pos hn)
        · subst ht
          exact ⟨hn, rfl, rfl, rfl, rfl, fun h => absurd h (Nat.lt_irrefl 0)⟩
      · refine hrun.enter (p := .cHdr) ?_ (by decide) (sized := fun _ => hsz) (whole := fun _ => by subst ht; rfl)
          (header := fun _ => .inl ?_)
        · subst ht; exact congrArg phaseCode (if_neg hn)
        · subst ht
          exact ⟨rfl, Nat.eq_zero_of_not_pos hn⟩
  · exact ⟨by simp, ⟨rfl, rfl, rfl, rfl, rfl, rfl, rfl⟩, hc.tables.obufForm⟩

/-- A step of a safe part goes on and keeps the invariant and what is the host's. -/
theorem endStep_safe {s : State} {kinds : List ErrorKind} {p : Phase} {r : Run State} (h : Inv s)
    (hr : Run.safe s kinds r) : ∃ t, endStep p r = .next t ∧ Inv t ∧ HostKept s t := by
  rcases r with (⟨e, t⟩ | f) | t
  · have hr : Raised s kinds e t := hr
    exact ⟨_, rfl, hr.inv h p, hr.2.1.trans (.takeError _ _ _)⟩
  · exact hr.elim
  · exact ⟨t, rfl, hr.1, hr.2⟩

/-! ## C_COUNT -/

theorem mem_phases {s : State} {p : Phase} (hp : s.phase = phaseCode p) {ps : List Phase} (h : p ∈ ps) : inPhase s ps :=
  (inPhase_iff hp ps).2 h

/-- A letter of the body can be read (40_frequency_analyzer.md R204). -/
theorem letter_readable {s : State} (hr : InvRunning s) (hs : letterSizeOk s.l.toNat = true ∧ sizesHold s = true)
    (hw : s.f = s.inLen) {i : Nat} (hi : i < s.n) : readable s (i * letterSize s) (letterSize s) = true := by
  obtain ⟨h1, h2, h3, h4, -⟩ := sized_arith hs
  refine readable_iff.2 ⟨?_, hr.reader.2⟩
  rw [hw] at h4
  have : (i + 1) * letterSize s ≤ s.n * letterSize s := Nat.mul_le_mul_right _ hi
  rw [Nat.add_mul, Nat.one_mul] at this
  omega

theorem letterOf_lt (s : State) (i : Nat) : letterOf s i < 2 ^ letterSize s := by
  have := val_lt (inputSlice s (i * letterSize s) (letterSize s))
  rwa [inputSlice_length] at this

theorem Table.set_ne_nil {α : Type} [DecidableEq α] {d : α} {m : Table α} {a : Nat} {x : α} (h : x ≠ d)
    (hm : Table.rising m = true) : Table.set d a x m ≠ [] := by
  intro h0
  have := Table.get_set_same (d := d) m hm a x
  rw [h0] at this
  exact h this.symm

theorem inPhase_of {s : State} (p : Phase) (ps : List Phase) (hp : s.phase = phaseCode p) (h : p ∈ ps := by decide) :
    inPhase s ps := ⟨p, h, hp⟩

theorem cCount_safe {s : State} (h : Inv s) (hp : s.phase = phaseCode .cCount) : Run.safe s [.io] (cCount s) := by
  have hr := h.running hp (by decide)
  have hsz := h.sized (inPhase_of _ _ hp)
  have hwh := h.whole (inPhase_of _ _ hp)
  obtain ⟨hi, hn, ha, hroot, hcb, hne⟩ := h.counting (inPhase_of _ _ hp)
  unfold cCount inputLetter
  rw [Run.safe, post_bind]
  refine post_mono (inputBits_post (letter_readable hr hsz hwh hi)) ?_ ?_ (fun _ h => h)
  · rintro _ rfl
    dsimp only
    have hv := letterOf_lt s s.i
    change Run.post _ _ _ (letterIndex (letterOf s s.i) >>= _)
    rw [letterIndex_ok (lt_of_lt_of_le hv (two_pow_le_letterCap hsz.1)), run_bind_ok, post_ok]
    generalize hfreq : Table.set 0 (letterOf s s.i) (freqOf s (letterOf s s.i) + 1) s.freq = freq
    have hwf : Table.wf 0 freq = true := by subst hfreq; exact Table.wf_set h.tables.freqForm _ _
    have hnil : freq ≠ [] := by
      subst hfreq; exact Table.set_ne_nil (Nat.succ_ne_zero _) (Table.wf_iff.1 h.tables.freqForm).1
    have hbel : Table.below (2 ^ letterSize s) freq = true := by subst hfreq; exact Table.below_set hcb hv _
    have hext : Table.below Config.letterCap freq = true := by
      subst hfreq
      exact Table.below_set h.tables.freqExtent (lt_of_lt_of_le hv (two_pow_le_letterCap hsz.1)) _
    have hT : TablesOk freq s.node s.active s.code s.ibuf s.obuf :=
      { h.tables with freqForm := hwf, freqExtent := hext }
    have hcl : countLetter (letterOf s s.i) { s with port := s.port.drop (letterSize s) } =
        { s with port := s.port.drop (letterSize s), freq := freq } := by
      rw [← hfreq]; rfl
    rw [hcl]
    unfold leaveAtEnd
    dsimp only
    split
    · next he =>
      refine ⟨?_, ⟨rfl, rfl, rfl, rfl, rfl, rfl, rfl⟩⟩
      exact InvRunning.enter (p := .cLeaves) { hr with tables := hT } rfl (by decide)
        (sized := fun _ => hsz) (whole := fun _ => hwh)
        (leaves := fun _ => ⟨lt_of_le_of_lt (Nat.zero_le _) hi, hn, ha, hroot, hbel, hnil⟩)
    · next he =>
      refine ⟨?_, ⟨rfl, rfl, rfl, rfl, rfl, rfl, rfl⟩⟩
      exact InvRunning.enter (p := .cCount) { hr with tables := hT } hp (by decide)
        (sized := fun _ => hsz) (whole := fun _ => hwh)
        (counting := fun _ => ⟨lt_of_le_of_ne hi he, hn, ha, hroot, hbel, fun _ => hnil⟩)
  · rintro e t ⟨rfl, ht⟩
    exact Raised.of_port (by simp) ht h

/-! ## C_LEAVES -/

theorem frequencyTable_below {s : State} (hw : Table.wf 0 s.freq = true) (hb : countsBelow s) :
    frequencyTable s = s.freq := by
  refine List.filter_eq_self.2 fun e he => ?_
  have h1 := (Table.wf_iff.1 hw).2 e he
  simp only [countsBelow, Table.below, List.all_eq_true, decide_eq_true_eq] at hb
  simp only [Bool.and_eq_true, decide_eq_true_eq]
  exact ⟨hb e he, Nat.pos_of_ne_zero h1⟩

theorem Table.rising_length {α : Type} {m : Table α} (hm : Table.rising m = true) {lo hi : Nat}
    (h : ∀ e ∈ m, lo ≤ e.1 ∧ e.1 < hi) : m.length ≤ hi - lo := by
  induction m generalizing lo with
  | nil => simp
  | cons e m ih =>
    have hr := (Table.rising_cons (e := e)).1 hm
    have h0 := h e (by simp)
    have := ih hr.1 (lo := e.1 + 1) fun x hx => ⟨hr.2 x hx, (h x (by simp [hx])).2⟩
    simp only [List.length_cons]
    omega

theorem countsBelow_length {s : State} (hw : Table.wf 0 s.freq = true) (hb : countsBelow s) :
    s.freq.length ≤ 2 ^ letterSize s := by
  simp only [countsBelow, Table.below, List.all_eq_true, decide_eq_true_eq] at hb
  simpa using Table.rising_length (Table.wf_iff.1 hw).1 (lo := 0) fun e he => ⟨Nat.zero_le _, hb e he⟩

theorem cLeaves_safe {s : State} (h : Inv s) (hp : s.phase = phaseCode .cLeaves) : Run.safe s [] (cLeaves s) := by
  have hr := h.running hp (by decide)
  have hsz := h.sized (inPhase_of _ _ hp)
  have hwh := h.whole (inPhase_of _ _ hp)
  obtain ⟨hn, hn0, ha, hroot, hcb, hne⟩ := h.leaves (inPhase_of _ _ hp)
  have hlen := countsBelow_length h.tables.freqForm hcb
  have hcap := two_pow_le_letterCap hsz.1
  have hnum : s.freq.length ≤ Config.letterCap := le_trans hlen hcap
  unfold cLeaves
  rw [frequencyTable_below h.tables.freqForm hcb]
  obtain ⟨t, ht, h1, h2, h3, h4⟩ := addLeaves_ok (es := s.freq) h.tables.nodeForm
    (by rw [hn0]; exact le_trans (by omega : 0 + s.freq.length ≤ Config.letterCap) (by decide)) (by rw [hn0, ha]; rfl)
  rw [hn0] at h1 h2 h3
  simp only [Nat.zero_add] at h1 h2 h3
  rw [ht, run_bind_ok]
  have hext : Table.below Config.treeNodeCap t.node = true := addLeaves_below h.tables.nodeExtent ht
  rw [Run.safe, post_ok]
  generalize hu : setPhase .cMerge t = u
  have hu' : u = { s with
      node := t.node, nNodes := s.freq.length, active := List.range s.freq.length, phase := phaseCode .cMerge } := by
    rw [← hu, h3]; rfl
  have hslot : ∀ k, slotOf u k = slotOf t k := by intro k; rw [← hu]; rfl
  refine ⟨?_, by rw [hu']; exact ⟨rfl, rfl, rfl, rfl, rfl, rfl, rfl⟩⟩
  refine InvRunning.enter (p := .cMerge) ?_ (by rw [hu']) (by decide)
    (sized := fun _ => by rw [hu']; exact hsz) (whole := fun _ => by rw [hu']; exact hwh) (merging := fun _ => ?_)
  · have hT : TablesOk s.freq t.node (List.range s.freq.length) s.code s.ibuf s.obuf :=
      { h.tables with nodeForm := h4, nodeExtent := hext, activeForm := List.pairwise_lt_range }
    rw [hu']
    exact { hr with tables := hT }
  · refine ⟨by rw [hu']; exact hn, by rw [hu']; exact hroot, ?_, ?_, ?_, ?_⟩
    · rw [hu']
      simpa using hne
    · rw [hu']
      simp only [List.length_range]
      omega
    · rw [hu']
      simp
    · intro k hk hj
      rw [hu'] at hk
      rw [hslot, h1 k hk] at hj
      simp at hj

/-! ## C_MERGE -/

theorem merged_slot {s : State} (hw : Table.wf NodeSlot.blank s.node = true) (a b k : Nat) :
    slotOf (merged s a b) k = if k = s.nNodes then jointSlot s a b else slotOf s k :=
  slotOf_set (s := s) hw s.nNodes (jointSlot s a b) k

theorem mergedActive_length {s : State} {a b : Nat} (hp : s.active.Pairwise (· < ·)) (ha : a ∈ s.active)
    (hb : b ∈ s.active) (hne : a ≠ b) (hin : ∀ k ∈ s.active, k < s.nNodes) :
    (mergedActive s a b).length + 1 = s.active.length := by
  have hnd : s.active.Nodup := hp.imp fun h => Nat.ne_of_lt h
  have h1 : (s.active.filter fun k => decide (k ≠ a)) = s.active.erase a := by
    rw [hnd.erase_eq_filter]
    congr 1
    funext k
    by_cases hk : k = a <;> simp [hk]
  have h2 : ((s.active.filter fun k => decide (k ≠ a)).filter fun k => decide (k ≠ b)) = (s.active.erase a).erase b := by
    rw [h1, (hnd.erase a).erase_eq_filter]
    congr 1
    funext k
    by_cases hk : k = b <;> simp [hk]
  have h3 : ∀ m ∈ (s.active.erase a).erase b, m < s.nNodes :=
    fun m hm => hin m (List.mem_of_mem_erase (List.mem_of_mem_erase hm))
  have hb' : b ∈ s.active.erase a := (List.mem_erase_of_ne (Ne.symm hne)).2 hb
  have l1 := List.length_erase_of_mem ha
  have l2 := List.length_erase_of_mem hb'
  have p1 := List.length_pos_of_mem ha
  have p2 := List.length_pos_of_mem hb'
  unfold mergedActive
  rw [h2, insertActive_above h3, List.length_append]
  simp only [List.length_singleton]
  omega

theorem cMerge_safe {s : State} (h : Inv s) (hp : s.phase = phaseCode .cMerge) : Run.safe s [] (cMerge s) := by
  have hr := h.running hp (by decide)
  have hsz := h.sized (inPhase_of _ _ hp)
  have hwh := h.whole (inPhase_of _ _ hp)
  obtain ⟨hn, hroot, hne, hcnt, hin, hcb⟩ := h.merging (inPhase_of _ _ hp)
  have hpos := List.length_pos_iff.2 hne
  by_cases h1 : s.active.length = 1
  · obtain ⟨r, hr1⟩ := List.length_eq_one_iff.1 h1
    have hrn := hin r (by rw [hr1]; simp)
    have : cMerge s = .ok (setPhase .cCodegen { s with root := some r }) := by
      unfold cMerge; rw [hr1]
    rw [this, Run.safe, post_ok]
    refine ⟨?_, ⟨rfl, rfl, rfl, rfl, rfl, rfl, rfl⟩⟩
    refine InvRunning.enter (p := .cCodegen) { hr with } rfl (by decide) (sized := fun _ => hsz) (whole := fun _ => hwh)
      (built := fun _ => ⟨hn, ⟨r, rfl, hrn, ?_⟩, hcb⟩)
    have : 2 * Config.letterCap = Config.treeNodeCap + 1 := rfl
    change s.nNodes ≤ _
    omega
  · have hcap : s.nNodes < Config.treeNodeCap := by
      have : 2 * Config.letterCap = Config.treeNodeCap + 1 := rfl
      omega
    obtain ⟨a, b, ha, hb, hab, -, -, hok⟩ := cMerge_ok h.tables.activeForm (by omega) hin hcap
    have hlen := mergedActive_length h.tables.activeForm ha hb hab hin
    rw [hok, Run.safe, post_ok]
    refine ⟨?_, ⟨rfl, rfl, rfl, rfl, rfl, rfl, rfl⟩⟩
    have hT : TablesOk s.freq (merged s a b).node (mergedActive s a b) s.code s.ibuf s.obuf :=
      { h.tables with
        nodeForm := Table.wf_set h.tables.nodeForm _ _
        nodeExtent := Table.below_set h.tables.nodeExtent hcap _
        activeForm := mergedActive_pairwise h.tables.activeForm }
    refine InvRunning.enter (p := .cMerge) { hr with tables := hT } hp (by decide) (sized := fun _ => hsz)
      (whole := fun _ => hwh) (merging := fun _ => ⟨hn, hroot, ?_, ?_, ?_, ?_⟩)
    · intro h0
      have : s.nNodes ∈ mergedActive s a b := mem_mergedActive.2 (.inl rfl)
      rw [show mergedActive s a b = [] from h0] at this
      simp at this
    · change s.nNodes + 1 + (mergedActive s a b).length ≤ _
      omega
    · intro k hk
      change k < s.nNodes + 1
      rcases mem_mergedActive.1 hk with rfl | h
      · exact Nat.lt_succ_self _
      · exact Nat.lt_succ_of_lt (hin k h.1)
    · intro k hk hj
      rw [merged_slot h.tables.nodeForm] at hj ⊢
      split
      · next he =>
        rw [he]
        exact ⟨hin b hb, hin a ha⟩
      · next he =>
        rw [if_neg he] at hj
        have hk : k < s.nNodes + 1 := hk
        exact hcb k (by omega) hj

/-! ## C_CODEGEN, C_HDR and C_TREE_WR -/

/-- A node whose descendants all have lower indices is the root of a tree (41_tree_builder.md R233). -/
theorem tree_of_childrenBelow {s : State} (hn : s.nNodes ≤ Config.treeNodeCap) (h : childrenBelow s) (k : Nat)
    (hk : k < s.nNodes) : ∃ tree : Tree, treeAt s k tree = true ∧ Machine.Tree.height tree ≤ k + 1 := by
  induction k using Nat.strongRecOn with
  | ind k ih =>
    cases hkind : (slotOf s k).kind with
    | leaf => exact ⟨.leaf (slotOf s k).letter, treeAt_leaf.2 ⟨by omega, hkind, rfl⟩, by simp [Tree.height]⟩
    | joint =>
      obtain ⟨hl, hr⟩ := h k hk hkind
      obtain ⟨a, ha, ha'⟩ := ih _ hl (by omega)
      obtain ⟨b, hb, hb'⟩ := ih _ hr (by omega)
      refine ⟨.joint a b, treeAt_joint.2 ⟨by omega, hkind, ha, hb⟩, ?_⟩
      simp only [Tree.height]
      omega

theorem tree_of_root {s : State} (h : rootInside s ∧ childrenBelow s) :
    ∃ (r : Nat) (tree : Tree), s.root = some r ∧ treeAt s r tree = true ∧ tree.height ≤ Config.treeNodeCap := by
  obtain ⟨⟨r, hr, hrn, hcap⟩, hcb⟩ := h
  obtain ⟨tree, ht, hh⟩ := tree_of_childrenBelow hcap hcb r hrn
  exact ⟨r, tree, hr, ht, by omega⟩

theorem assignPaths_below {paths : List (BitVec 16 × Bits)} {c : Table CodeEntry}
    (hc : Table.below Config.letterCap c = true) : Table.below Config.letterCap (assignPaths paths c) = true := by
  induction paths generalizing c with
  | nil => exact hc
  | cons x paths ih => exact ih (Table.below_set hc x.1.isLt _)

theorem cCodegen_safe {s : State} (h : Inv s) (hp : s.phase = phaseCode .cCodegen) : Run.safe s [] (cCodegen s) := by
  have hr := h.running hp (by decide)
  have hsz := h.sized (inPhase_of _ _ hp)
  have hwh := h.whole (inPhase_of _ _ hp)
  obtain ⟨hn, hroot, hcb⟩ := h.built (inPhase_of _ _ hp)
  obtain ⟨r, tree, hr1, ht, hh⟩ := tree_of_root ⟨hroot, hcb⟩
  rw [cCodegen_ok hr1 ht hh, Run.safe, post_ok]
  refine ⟨?_, ⟨rfl, rfl, rfl, rfl, rfl, rfl, rfl⟩⟩
  have hT : TablesOk s.freq s.node s.active (assignPaths tree.codes s.code) s.ibuf s.obuf :=
    { h.tables with codeForm := assignPaths_wf h.tables.codeForm, codeExtent := assignPaths_below h.tables.codeExtent }
  exact InvRunning.enter (p := .cHdr) { hr with tables := hT } rfl (by decide) (sized := fun _ => hsz)
    (whole := fun _ => hwh) (header := fun _ => .inr ⟨hn, hroot, hcb⟩)

/-- After a write the running invariant holds again. -/
theorem InvRunning.wrote {s t : State} (h : InvRunning s) (hf : WriterFrame s t) {n : Nat} (hn : n < 8)
    (hw : WriterOk n t) : InvRunning t where
  tables := by
    rw [WriterFrame] at hf
    rw [hf]
    exact { h.tables with obufForm := hw.2.1 }
  inputs := by rw [hf]; exact h.inputs
  noError := by rw [hf]; exact h.noError
  noOutput := by rw [hf]; exact h.noOutput
  writer := lt_of_le_of_lt hw.1 hn
  position := hw.2.2
  reader := by rw [hf]; exact h.reader

theorem writeBits_post {w v : Nat} {s : State} (h : WriterOk 7 s) :
    Run.post (fun t => WriterFrame s t ∧ WriterOk 7 t) (fun e t => e = .io ∧ WriterFrame s t ∧ WriterOk 8 t)
      (fun _ => False) (writeBits w v s) := writeString_post h

theorem cHdr_safe {s : State} (h : Inv s) (hp : s.phase = phaseCode .cHdr) : Run.safe s [.io] (cHdr s) := by
  have hr := h.running hp (by decide)
  have hsz := h.sized (inPhase_of _ _ hp)
  have hwh := h.whole (inPhase_of _ _ hp)
  have hhd := h.header (inPhase_of _ _ hp)
  unfold cHdr
  rw [Run.safe, post_bind]
  refine post_mono (writeBits_post (.of_running hr)) ?_ ?_ (fun _ h => h)
  · rintro t ⟨hf, hw⟩
    rw [post_bind]
    refine post_mono (writeBits_post hw) ?_ ?_ (fun _ h => h)
    · rintro u ⟨hf', hw'⟩
      have hsu := hf.trans hf'
      have hru := hr.wrote hsu (by decide) hw'
      rw [post_ok]
      have hk := HostKept.of_writer hsu
      rw [WriterFrame] at hsu
      refine ⟨?_, hk.trans ⟨rfl, rfl, rfl, rfl, rfl, rfl, rfl⟩⟩
      have hroot : u.root = s.root := by rw [hsu]
      have hsz' : letterSizeOk u.l.toNat = true ∧ sizesHold u = true := by rw [hsu]; exact hsz
      have hwh' : u.f = u.inLen := by rw [hsu]; exact hwh
      split
      · next hne =>
        rw [hroot] at hne
        rcases hhd with ⟨h0, -⟩ | hb
        · exact absurd h0 hne
        · refine InvRunning.enter (p := .cTreeWr) { hru with } rfl (by decide) (sized := fun _ => hsz')
            (whole := fun _ => hwh') (built := fun _ => ?_)
          rw [hsu]
          exact hb
      · exact InvRunning.enter (p := .cRem) { hru with } rfl (by decide) (sized := fun _ => hsz')
            (whole := fun _ => hwh')
    · rintro e u ⟨rfl, hf', hw'⟩
      exact .of_writer (by simp) (hf.trans hf') hw'
  · rintro e t ⟨rfl, hf, hw⟩
    exact .of_writer (by simp) hf hw

theorem cTreeWr_safe {s : State} (h : Inv s) (hp : s.phase = phaseCode .cTreeWr) : Run.safe s [.io] (cTreeWr s) := by
  have hr := h.running hp (by decide)
  have hsz := h.sized (inPhase_of _ _ hp)
  have hwh := h.whole (inPhase_of _ _ hp)
  obtain ⟨hn, hroot, hcb⟩ := h.built (inPhase_of _ _ hp)
  obtain ⟨r, tree, hr1, ht, hh⟩ := tree_of_root ⟨hroot, hcb⟩
  unfold cTreeWr
  rw [rootNode_some hr1, run_bind_ok, serialize_eq ht hh, Run.safe, post_bind]
  refine post_mono (writeString_post (.of_running hr)) ?_ ?_ (fun _ h => h)
  · rintro u ⟨hsu, hw⟩
    have hru := hr.wrote hsu (by decide) hw
    have hk := HostKept.of_writer hsu
    rw [WriterFrame] at hsu
    rw [post_ok]
    refine ⟨?_, hk.trans ⟨rfl, rfl, rfl, rfl, rfl, rfl, rfl⟩⟩
    exact InvRunning.enter (p := .cEncode) { hru with } rfl (by decide)
      (sized := fun _ => by rw [hsu]; exact hsz) (whole := fun _ => by rw [hsu]; exact hwh)
      (encoding := fun _ => by rw [hsu]; exact hn)
  · rintro e t ⟨rfl, hf, hw⟩
    exact .of_writer (by simp) hf hw

/-! ## C_ENCODE, C_REM and C_PAD -/

theorem InvRunning.read {s t : State} (h : InvRunning s) (ht : t = { s with port := t.port }) : InvRunning t := by
  rw [ht]; exact { h with }

theorem cEncode_safe {s : State} (h : Inv s) (hp : s.phase = phaseCode .cEncode) :
    Run.safe s [.io, .internal] (cEncode s) := by
  have hr := h.running hp (by decide)
  have hsz := h.sized (inPhase_of _ _ hp)
  have hwh := h.whole (inPhase_of _ _ hp)
  have hi := h.encoding (inPhase_of _ _ hp)
  unfold cEncode inputLetter
  rw [Run.safe, post_bind]
  refine post_mono (inputBits_post (letter_readable hr hsz hwh hi)) ?_ ?_ (fun _ h => h)
  · rintro _ rfl
    dsimp only
    have hv := letterOf_lt s s.i
    change Run.post _ _ _ (letterIndex (letterOf s s.i) >>= _)
    rw [letterIndex_ok (lt_of_lt_of_le hv (two_pow_le_letterCap hsz.1)), run_bind_ok]
    generalize hs1 : ({ s with port := s.port.drop (letterSize s) } : State) = s1
    have he1 : s1 = { s with port := s1.port } := by rw [← hs1]
    have hr1 := hr.read he1
    split
    · rw [post_bind]
      refine post_mono (writeString_post (.of_running hr1)) ?_ ?_ (fun _ h => h)
      · rintro u ⟨hsu, hw⟩
        have hru := hr1.wrote hsu (by decide) hw
        have hk := (HostKept.of_port he1).trans (HostKept.of_writer hsu)
        rw [WriterFrame] at hsu
        have hsz' : letterSizeOk u.l.toNat = true ∧ sizesHold u = true := by rw [hsu, he1]; exact hsz
        have hwh' : u.f = u.inLen := by rw [hsu, he1]; exact hwh
        have hp' : u.phase = phaseCode .cEncode := by rw [hsu, he1]; exact hp
        have hi' : u.i < u.n := by rw [hsu, he1]; exact hi
        rw [post_ok]
        unfold leaveAtEnd
        dsimp only
        split
        · exact ⟨InvRunning.enter (p := .cRem) { hru with } rfl (by decide) (sized := fun _ => hsz')
            (whole := fun _ => hwh'), hk.trans ⟨rfl, rfl, rfl, rfl, rfl, rfl, rfl⟩⟩
        · next hne =>
          exact ⟨InvRunning.enter (p := .cEncode) { hru with } hp' (by decide) (sized := fun _ => hsz')
            (whole := fun _ => hwh') (encoding := fun _ => lt_of_le_of_ne hi' hne),
            hk.trans ⟨rfl, rfl, rfl, rfl, rfl, rfl, rfl⟩⟩
      · rintro e t ⟨rfl, hf, hw⟩
        exact ⟨by simp, (HostKept.of_port he1).trans (.of_writer hf), hw.2.1⟩
    · exact .of_port (by simp) he1 h
  · rintro e t ⟨rfl, ht⟩
    exact .of_port (by simp) ht h

/-- The remainder of the input can be read by position (44_stream_encoder.md R341). -/
theorem remainder_readable {s : State} (hr : InvRunning s) (hs : letterSizeOk s.l.toNat = true ∧ sizesHold s = true)
    (hw : s.f = s.inLen) : readable s s.usableBits s.remBits = true := by
  obtain ⟨-, -, -, h4, -⟩ := sized_arith hs
  rw [hw] at h4
  exact readable_iff.2 ⟨le_of_eq h4, hr.reader.2⟩

theorem cRem_eq (s : State) :
    cRem s = ((if 0 < s.remBits then copyRemainder s else .ok s) >>= fun t => .ok (setPhase .cPad t)) := by
  unfold cRem
  split <;> rfl

theorem cRem_safe {s : State} (h : Inv s) (hp : s.phase = phaseCode .cRem) : Run.safe s [.io] (cRem s) := by
  have hr := h.running hp (by decide)
  have hsz := h.sized (inPhase_of _ _ hp)
  have hwh := h.whole (inPhase_of _ _ hp)
  rw [cRem_eq, Run.safe, post_bind]
  have hcopy : Run.post (fun t => (letterSizeOk t.l.toNat = true ∧ sizesHold t = true) ∧ t.f = t.inLen ∧
      InvRunning t ∧ HostKept s t) (Raised s [.io]) (fun _ => False)
      (if 0 < s.remBits then copyRemainder s else .ok s) := by
    split
    · unfold copyRemainder
      rw [post_bind]
      refine post_mono (inputBits_post (remainder_readable hr hsz hwh)) ?_ ?_ (fun _ h => h)
      · rintro _ rfl
        dsimp only
        generalize hs1 : ({ s with port := s.port.drop s.remBits } : State) = s1
        have he1 : s1 = { s with port := s1.port } := by rw [← hs1]
        have hr1 := hr.read he1
        refine post_mono (writeBits_post (.of_running hr1)) ?_ ?_ (fun _ h => h)
        · rintro u ⟨hsu, hw⟩
          have hru := hr1.wrote hsu (by decide) hw
          have hk := (HostKept.of_port he1).trans (HostKept.of_writer hsu)
          rw [WriterFrame] at hsu
          exact ⟨by rw [hsu, he1]; exact hsz, by rw [hsu, he1]; exact hwh, hru, hk⟩
        · rintro e t ⟨rfl, hf, hw⟩
          exact ⟨by simp, (HostKept.of_port he1).trans (.of_writer hf), hw.2.1⟩
      · rintro e t ⟨rfl, ht⟩
        exact .of_port (by simp) ht h
    · exact ⟨hsz, hwh, hr, .refl s⟩
  refine post_mono hcopy ?_ (fun _ _ h => h) (fun _ h => h)
  rintro t ⟨hsz', hwh', hrt, hk⟩
  exact ⟨InvRunning.enter (p := .cPad) { hrt with } rfl (by decide) (sized := fun _ => hsz') (whole := fun _ => hwh'),
    hk.trans ⟨rfl, rfl, rfl, rfl, rfl, rfl, rfl⟩⟩

/-- Flush and the end of the operation, from any running state. -/
theorem finishOutput_safe {s : State} (h : InvRunning s) : Run.safe s [.io] (finishOutput s) := by
  unfold finishOutput
  rw [Run.safe, post_bind]
  refine post_mono (flush_post (.of_running h)) ?_ ?_ (fun _ h => h)
  · rintro t ⟨hf, hw⟩
    have ht := h.wrote hf (by decide) hw
    exact ⟨inv_finish _ ht.tables.ibufForm ht.tables.obufForm ht.noError ht.inputs,
      (HostKept.of_writer hf).trans (.finish _ _)⟩
  · rintro e t ⟨rfl, hf, hw⟩
    exact .of_writer (by simp) hf hw

end Sys2Proof.Machine
end

