-- ==== Sys2Proof/Laws/Decompress.lean ====
section
/-! SUPPORT. The steps of decompression from a state that meets the invariant: each goes on, keeps the invariant, and raises only what its rule raises (43 and 45). -/

namespace Sys2Proof.Machine

/-! ## D_SETUP and D_HDR -/

theorem dSetup_safe {s : State} (h : Inv s) (hp : s.phase = phaseCode .dSetup) : Run.safe s [.io] (dSetup s) := by
  have hc := h.common hp (by decide) (by decide)
  unfold dSetup
  split
  · exact ⟨by simp, .refl s, hc.tables.obufForm⟩
  · next hcap =>
    dsimp only
    split
    · exact ⟨inv_finish _ hc.tables.ibufForm hc.tables.obufForm hc.noError hc.inputs,
        ⟨rfl, rfl, rfl, rfl, rfl, rfl, rfl⟩⟩
    · refine ⟨?_, ⟨rfl, rfl, rfl, rfl, rfl, rfl, rfl⟩⟩
      refine InvRunning.enter (p := .dHdr) ?_ rfl (by decide) (cursor := fun _ => Nat.zero_le _) (fresh := fun _ => rfl)
        (unwritten := fun _ => rfl)
      exact { tables := { hc.tables with }, inputs := hc.inputs, noError := hc.noError, noOutput := hc.noOutput
              writer := Nat.zero_lt_succ _, position := Nat.zero_le _, reader := ⟨rfl, Nat.not_lt.1 hcap⟩ }

theorem InvRunning.readerOk {s : State} (h : InvRunning s) : ReaderOk s := h.reader

/-- A read that moves the cursor keeps the running invariant. -/
theorem InvRunning.moved {s t : State} (h : InvRunning s) (ht : t = { s with port := t.port, rdPos := t.rdPos }) :
    InvRunning t := by
  rw [ht]; exact { h with }

theorem HostKept.of_read {s t : State} (h : t = { s with port := t.port, rdPos := t.rdPos }) : HostKept s t := by
  rw [h]; exact ⟨rfl, rfl, rfl, rfl, rfl, rfl, rfl⟩

/-- What a read raises. -/
theorem Raised.of_read {s u t : State} {kinds : List ErrorKind} {e : ErrorKind} {w : Nat} (hk : HostKept s u)
    (ho : Memory.wf u.obuf = true) (hio : .io ∈ kinds) (hco : .corrupt ∈ kinds)
    (h : (e = .io ∨ e = .corrupt ∧ u.inBits < u.rdPos + w) ∧ t = { u with port := t.port }) : Raised s kinds e t := by
  obtain ⟨h, ht⟩ := h
  refine ⟨?_, hk.trans (.of_port ht), by rw [ht]; exact ho⟩
  rcases h with rfl | ⟨rfl, -⟩
  · exact hio
  · exact hco

theorem dHdr_safe {s : State} (h : Inv s) (hp : s.phase = phaseCode .dHdr) : Run.safe s [.io, .corrupt] (dHdr s) := by
  have hr := h.running hp (by decide)
  have hcur := h.cursor (inPhase_of _ _ hp)
  have hfresh := h.fresh (inPhase_of _ _ hp)
  have hun := h.unwritten (inPhase_of _ _ hp)
  have hobuf := h.tables.obufForm
  unfold dHdr
  rw [Run.safe, post_bind]
  refine post_mono (readOrCorrupt_post hr.readerOk) ?_ ?_ (fun _ h => h)
  · rintro _ ⟨hle, rfl⟩
    dsimp only
    split
    · next hl =>
      generalize hs1 : ({ s with
        l := BitVec.ofNat 8 (val (inputSlice s s.rdPos 8)), rdPos := s.rdPos + 8, port := s.port.drop 8 } : State) = s1
      have hr1 : InvRunning s1 := by rw [← hs1]; exact { hr with }
      have hk1 : HostKept s s1 := by rw [← hs1]; exact ⟨rfl, rfl, rfl, rfl, rfl, rfl, rfl⟩
      have hl1 : letterSizeOk s1.l.toNat = true := by
        have hlt := (letterSizeOk_iff.1 hl).2
        rw [← hs1]
        simp only [BitVec.toNat_ofNat]
        rw [Nat.mod_eq_of_lt (by omega)]
        exact hl
      have hu1 : s1.obuf = s.obuf ∧ s1.nNodes = s.nNodes ∧ bitsWritten s1 = bitsWritten s := by
        rw [← hs1]; exact ⟨rfl, rfl, rfl⟩
      rw [post_bind]
      refine post_mono (readOrCorrupt_post hr1.readerOk) ?_ ?_ (fun _ h => h)
      · rintro _ ⟨hle', rfl⟩
        dsimp only
        rw [post_ok]
        generalize hs2 : setSizes { s1 with
          port := s1.port.drop 64, rdPos := s1.rdPos + 64
          f := BitVec.ofNat 64 (val (inputSlice s1 s1.rdPos 64)) } = s2
        have hr2 : InvRunning s2 := by rw [← hs2]; exact { hr1 with }
        have hk2 : HostKept s1 s2 := by rw [← hs2]; exact ⟨rfl, rfl, rfl, rfl, rfl, rfl, rfl⟩
        have hsz : letterSizeOk s2.l.toNat = true ∧ sizesHold s2 = true := by
          rw [← hs2]; exact ⟨hl1, sizesHold_setSizes _⟩
        have hcur2 : s2.rdPos ≤ s2.inBits := by rw [← hs2]; exact hle'
        have hn2 : s2.nNodes = 0 := by rw [← hs2]; exact hu1.2.1.trans hfresh
        have hb2 : bitsWritten s2 = 0 := by rw [← hs2]; exact hu1.2.2.trans hun
        obtain ⟨-, -, hus, -, -⟩ := sized_arith hsz
        refine ⟨?_, hk1.trans (hk2.trans ⟨rfl, rfl, rfl, rfl, rfl, rfl, rfl⟩)⟩
        split
        · next hpos =>
          refine InvRunning.enter (p := .dTreeRd) { hr2 with } rfl (by decide) (cursor := fun _ => hcur2)
            (sized := fun _ => hsz) (fresh := fun _ => hn2) (unwritten := fun _ => hb2) (treeNext := fun _ => ?_)
          change 0 < s2.n
          rcases Nat.eq_zero_or_pos s2.n with h0 | h0
          · rw [hus, h0, Nat.zero_mul] at hpos; exact absurd hpos (Nat.lt_irrefl 0)
          · exact h0
        · next hpos =>
          refine InvRunning.enter (p := .dRem) { hr2 with } rfl (by decide) (cursor := fun _ => hcur2)
            (sized := fun _ => hsz) (bodyWritten := fun _ => ?_)
          exact hb2.trans (Nat.eq_zero_of_not_pos hpos).symm
      · intro e t ht
        exact .of_read hk1 (by rw [hu1.1]; exact hobuf) (by simp) (by simp) ht
    · exact ⟨by simp, ⟨rfl, rfl, rfl, rfl, rfl, rfl, rfl⟩, hobuf⟩
  · intro e t ht
    exact .of_read (.refl s) hobuf (by simp) (by simp) ht

/-! ## D_TREE_RD -/

/-- What a call of ReadTree does to the state, whatever the stream holds (43_header_codec.md R298). -/
structure TreeRead (s : State) (k : Nat) (t : State) : Prop where
  frame : t = { s with node := t.node, nNodes := t.nNodes, rdPos := t.rdPos, port := t.port }
  low : s.nNodes ≤ k
  high : k < t.nNodes
  room : t.nNodes ≤ Config.treeNodeCap
  forward : s.rdPos < t.rdPos
  cursor : t.rdPos ≤ s.inBits
  form : Table.wf NodeSlot.blank t.node = true
  extent : Table.below Config.treeNodeCap t.node = true
  old : ∀ j < s.nNodes, slotOf t j = slotOf s j
  inside : ∀ j, s.nNodes ≤ j → j < t.nNodes → (slotOf t j).kind = .joint →
    (slotOf t j).left < t.nNodes ∧ (slotOf t j).right < t.nNodes

/-- What ReadTree may have changed where it raises. -/
def TreeFrame (s t : State) : Prop :=
  t = { s with node := t.node, nNodes := t.nNodes, rdPos := t.rdPos, port := t.port }

theorem TreeFrame.trans {s t u : State} (h : TreeFrame s t) (h' : TreeFrame t u) : TreeFrame s u := by
  unfold TreeFrame at *
  rw [h'.trans (by rw [h])]

/-- What a read of bits does, as a change of the tree reader's registers. -/
theorem readOrCorrupt_tree {w : Nat} {s : State} (hr : ReaderOk s) :
    Run.post (fun r => TreeFrame s r.2 ∧ r.2.node = s.node ∧ r.2.nNodes = s.nNodes ∧ r.2.rdPos = s.rdPos + w ∧
        s.rdPos + w ≤ s.inBits)
      (fun e t => (e = .io ∨ e = .corrupt) ∧ TreeFrame s t) (fun _ => False) (readOrCorrupt w s) := by
  refine post_mono (readOrCorrupt_post hr) ?_ ?_ (fun _ h => h)
  · rintro _ ⟨hle, rfl⟩
    exact ⟨rfl, rfl, rfl, rfl, hle⟩
  · rintro e t ⟨h, ht⟩
    refine ⟨h.imp id (fun h => h.1), ?_⟩
    rw [ht]
    rfl

theorem TreeFrame.reader {s t : State} (h : TreeFrame s t) (hr : ReaderOk s) : t.inBits = s.inBits ∧ ReaderOk t := by
  rw [TreeFrame] at h
  rw [h]
  exact ⟨rfl, hr⟩

/-- The beginning of a call of ReadTree: the index and the flag bit (R298). -/
def treeHead (s : State) : Run (Nat × Nat × State) := do
  let (k, s) ← allocNode s
  let (flag, s) ← readOrCorrupt 1 s
  .ok (k, flag, s)

/-- A call of ReadTree that has read the flag of a leaf (R298). -/
def treeLeafPart (k : Nat) (s : State) : Run (Nat × State) := do
  let (v, s) ← readOrCorrupt (letterSize s) s
  let s ← setNode k { slotOf s k with kind := .leaf, letter := BitVec.ofNat 16 v } s
  .ok (k, s)

/-- A call of ReadTree that has read the flag of a joint (R298). -/
def treeJointPart (fuel k : Nat) (s : State) : Run (Nat × State) := do
  let (l, s) ← readTreeCall fuel s
  let (r, s) ← readTreeCall fuel s
  let s ← setNode k { slotOf s k with kind := .joint, left := l, right := r } s
  .ok (k, s)

theorem readTreeCall_parts (fuel : Nat) (s : State) :
    readTreeCall (fuel + 1) s =
      (treeHead s >>= fun x => if x.2.1 = 0 then treeLeafPart x.1 x.2.2 else treeJointPart fuel x.1 x.2.2) := by
  rw [readTreeCall, treeHead]
  rcases allocNode s with (⟨e, t⟩ | r) | ⟨k, t⟩
  · rfl
  · rfl
  · simp only [run_bind_ok]
    rcases readOrCorrupt 1 t with (⟨e, u⟩ | r) | ⟨flag, u⟩ <;> rfl

theorem treeHead_post {s : State} (hr : ReaderOk s) :
    Run.post (fun x => x.1 = s.nNodes ∧ s.nNodes ≠ Config.treeNodeCap ∧ TreeFrame s x.2.2 ∧ x.2.2.node = s.node ∧
        x.2.2.nNodes = s.nNodes + 1 ∧ x.2.2.rdPos = s.rdPos + 1 ∧ s.rdPos + 1 ≤ s.inBits)
      (fun e t => (e = .io ∨ e = .corrupt) ∧ TreeFrame s t) (fun _ => False) (treeHead s) := by
  unfold treeHead
  rw [post_bind]
  refine post_mono (allocNode_frame s) ?_ ?_ (fun _ h => h)
  · rintro _ ⟨rfl, hne⟩
    dsimp only
    rw [post_bind]
    refine post_mono (readOrCorrupt_tree (s := { s with nNodes := s.nNodes + 1 }) hr) ?_ ?_ (fun _ h => h)
    · rintro ⟨flag, t⟩ ⟨h1, h2, h3, h4, h5⟩
      exact ⟨rfl, hne, TreeFrame.trans (t := { s with nNodes := s.nNodes + 1 }) rfl h1, h2, h3, h4, h5⟩
    · rintro e t ⟨h, ht⟩
      exact ⟨h, TreeFrame.trans (t := { s with nNodes := s.nNodes + 1 }) rfl ht⟩
  · rintro e t ⟨rfl, rfl, -⟩
    exact ⟨.inr rfl, rfl⟩

/-- A store to NODE, in the terms of the tree reader. -/
theorem setNode_tree {s : State} {k : Nat} (x : NodeSlot) (hk : k < Config.treeNodeCap)
    (hw : Table.wf NodeSlot.blank s.node = true) (he : Table.below Config.treeNodeCap s.node = true) :
    ∃ t, setNode k x s = .ok t ∧ TreeFrame s t ∧ t.nNodes = s.nNodes ∧ t.rdPos = s.rdPos ∧
      Table.wf NodeSlot.blank t.node = true ∧ Table.below Config.treeNodeCap t.node = true ∧
      ∀ j, slotOf t j = if j = k then x else slotOf s j :=
  ⟨_, setNode_ok hk, rfl, rfl, rfl, Table.wf_set hw _ _, Table.below_set he hk _, fun j => slotOf_set (s := s) hw k x j⟩

theorem treeLeafPart_post {k : Nat} {s : State} (hr : ReaderOk s) (hk : k < Config.treeNodeCap)
    (hw : Table.wf NodeSlot.blank s.node = true) (he : Table.below Config.treeNodeCap s.node = true) :
    Run.post (fun r => r.1 = k ∧ TreeFrame s r.2 ∧ r.2.nNodes = s.nNodes ∧ s.rdPos ≤ r.2.rdPos ∧ r.2.rdPos ≤ s.inBits ∧
        Table.wf NodeSlot.blank r.2.node = true ∧ Table.below Config.treeNodeCap r.2.node = true ∧
        (slotOf r.2 k).kind = .leaf ∧ ∀ j, j ≠ k → slotOf r.2 j = slotOf s j)
      (fun e t => (e = .io ∨ e = .corrupt) ∧ TreeFrame s t) (fun _ => False) (treeLeafPart k s) := by
  unfold treeLeafPart
  rw [post_bind]
  refine post_mono (readOrCorrupt_tree hr) ?_ (fun _ _ h => h) (fun _ h => h)
  rintro ⟨v, t⟩ ⟨h1, h2, h3, h4, h5⟩
  dsimp only at h1 h2 h3 h4 ⊢
  obtain ⟨u, hu, f1, f2, f3, f4, f5, f6⟩ := setNode_tree (s := t)
    { slotOf t k with kind := .leaf, letter := BitVec.ofNat 16 v } hk (by rw [h2]; exact hw) (by rw [h2]; exact he)
  rw [hu, run_bind_ok, post_ok]
  refine ⟨rfl, h1.trans f1, f2.trans h3, by rw [f3]; omega, by rw [f3]; omega, f4, f5, by rw [f6, if_pos rfl], ?_⟩
  intro j hj
  rw [f6, if_neg hj]
  simp only [slotOf, h2]

theorem treeJointPart_post {fuel k : Nat} {s : State} (hr : ReaderOk s) (hk : k < Config.treeNodeCap)
    (hkn : k < s.nNodes)
    (hl : Run.post (fun r => TreeRead s r.1 r.2) (fun e t => (e = .io ∨ e = .corrupt) ∧ TreeFrame s t) (fun _ => False)
      (readTreeCall fuel s))
    (hrr : ∀ u l, TreeRead s l u → Run.post (fun r => TreeRead u r.1 r.2)
      (fun e t => (e = .io ∨ e = .corrupt) ∧ TreeFrame u t) (fun _ => False) (readTreeCall fuel u)) :
    Run.post (fun r => r.1 = k ∧ TreeFrame s r.2 ∧ s.nNodes < r.2.nNodes ∧ r.2.nNodes ≤ Config.treeNodeCap ∧
        s.rdPos ≤ r.2.rdPos ∧ r.2.rdPos ≤ s.inBits ∧
        Table.wf NodeSlot.blank r.2.node = true ∧ Table.below Config.treeNodeCap r.2.node = true ∧
        (slotOf r.2 k).left < r.2.nNodes ∧ (slotOf r.2 k).right < r.2.nNodes ∧
        (∀ j < s.nNodes, j ≠ k → slotOf r.2 j = slotOf s j) ∧
        ∀ j, s.nNodes ≤ j → j < r.2.nNodes → (slotOf r.2 j).kind = .joint →
          (slotOf r.2 j).left < r.2.nNodes ∧ (slotOf r.2 j).right < r.2.nNodes)
      (fun e t => (e = .io ∨ e = .corrupt) ∧ TreeFrame s t) (fun _ => False) (treeJointPart fuel k s) := by
  unfold treeJointPart
  rw [post_bind]
  refine post_mono hl ?_ (fun _ _ h => h) (fun _ h => h)
  rintro ⟨l, u⟩ hu
  dsimp only at hu ⊢
  have fu : TreeFrame s u := hu.frame
  rw [post_bind]
  refine post_mono (hrr u l hu) ?_ (fun _ _ h => ⟨h.1, fu.trans h.2⟩) (fun _ h => h)
  rintro ⟨r, w⟩ hv
  dsimp only at hv ⊢
  have fv : TreeFrame s w := fu.trans hv.frame
  obtain ⟨t, ht, f1, f2, f3, f4, f5, f6⟩ := setNode_tree (s := w)
    { slotOf w k with kind := .joint, left := l, right := r } hk hv.form hv.extent
  have c1 := hu.low; have c2 := hu.high; have c3 := hu.forward; have c4 := hu.cursor
  have d1 := hv.low; have d2 := hv.high; have d3 := hv.forward; have d4 := hv.cursor; have d5 := hv.room
  have e1 := (TreeFrame.reader fu hr).1
  rw [ht, run_bind_ok, post_ok]
  refine ⟨rfl, fv.trans f1, by rw [f2]; omega, by rw [f2]; omega, by rw [f3]; omega, by rw [f3]; omega, f4, f5, ?_, ?_,
    ?_, ?_⟩
  · rw [f2, f6, if_pos rfl]
    change l < _
    omega
  · rw [f2, f6, if_pos rfl]
    exact d2
  · intro j hj hjk
    rw [f6, if_neg hjk, hv.old j (by omega), hu.old j hj]
  · intro j hj hj' hkind
    have hjk : j ≠ k := by omega
    rw [f2] at hj' ⊢
    rw [f6, if_neg hjk] at hkind ⊢
    rcases Nat.lt_or_ge j u.nNodes with h | h
    · rw [hv.old j h] at hkind ⊢
      have := hu.inside j hj h hkind
      omega
    · exact hv.inside j h hj' hkind

/-- Whatever a call of ReadTree answers, with fuel for the bits that are left. -/
theorem readTreeCall_post {fuel : Nat} {s : State} (hr : ReaderOk s) (hf : s.inBits - s.rdPos + 1 ≤ fuel)
    (hn : s.nNodes ≤ Config.treeNodeCap) (hw : Table.wf NodeSlot.blank s.node = true)
    (he : Table.below Config.treeNodeCap s.node = true) :
    Run.post (fun r => TreeRead s r.1 r.2) (fun e t => (e = .io ∨ e = .corrupt) ∧ TreeFrame s t) (fun _ => False)
      (readTreeCall fuel s) := by
  induction fuel generalizing s with
  | zero => omega
  | succ fuel ih =>
    rw [readTreeCall_parts, post_bind]
    refine post_mono (treeHead_post hr) ?_ (fun _ _ h => h) (fun _ h => h)
    rintro ⟨k, flag, t⟩ ⟨h1, h2, h3, h4, h5, h6, h7⟩
    dsimp only at h1 h3 h4 h5 h6 ⊢
    obtain ⟨e1, e2⟩ := h3.reader hr
    have hk : k < Config.treeNodeCap := by omega
    have hw' : Table.wf NodeSlot.blank t.node = true := by rw [h4]; exact hw
    have he' : Table.below Config.treeNodeCap t.node = true := by rw [h4]; exact he
    have hslot : ∀ j, slotOf t j = slotOf s j := fun j => by simp only [slotOf, h4]
    split
    · refine post_mono (treeLeafPart_post (k := k) e2 hk hw' he') ?_ (fun _ _ h => ⟨h.1, h3.trans h.2⟩) (fun _ h => h)
      rintro ⟨k', u⟩ ⟨g0, g1, g2, g3, g4, g5, g6, g7, g8⟩
      dsimp only at g0 g1 g2 g3 g4 g5 g6 g7 g8 ⊢
      subst g0
      refine ⟨h3.trans g1, by omega, by omega, by omega, by omega, by omega, g5, g6, ?_, ?_⟩
      · intro j hj
        rw [g8 j (by omega), hslot]
      · intro j hj hj' hkind
        rw [show j = k' by omega, g7] at hkind
        cases hkind
    · refine post_mono (treeJointPart_post (fuel := fuel) (k := k) e2 hk (by omega)
        (ih e2 (by omega) (by omega) hw' he') ?_) ?_ (fun _ _ h => ⟨h.1, h3.trans h.2⟩) (fun _ h => h)
      · intro u l hu
        have fu : TreeFrame t u := hu.frame
        have e3 := fu.reader e2
        have c3 := hu.forward
        exact ih e3.2 (by omega) hu.room hu.form hu.extent
      · rintro ⟨k', u⟩ ⟨g0, g1, g2, g3, g4, g5, g6, g7, g8, g9, g10, g11⟩
        dsimp only at g0 g1 g2 g3 g4 g5 g6 g7 g8 g9 g10 g11 ⊢
        subst g0
        refine ⟨h3.trans g1, by omega, by omega, by omega, by omega, by omega, g6, g7, ?_, ?_⟩
        · intro j hj
          rw [g10 j (by omega) (by omega), hslot]
        · intro j hj hj' hkind
          by_cases hjk : j = k'
          · rw [hjk]
            exact ⟨g8, g9⟩
          · exact g11 j (by omega) hj' hkind

theorem dTreeRd_safe {s : State} (h : Inv s) (hp : s.phase = phaseCode .dTreeRd) :
    Run.safe s [.io, .corrupt] (dTreeRd s) := by
  have hr := h.running hp (by decide)
  have hsz := h.sized (inPhase_of _ _ hp)
  have hfresh := h.fresh (inPhase_of _ _ hp)
  have hun := h.unwritten (inPhase_of _ _ hp)
  have hn := h.treeNext (inPhase_of _ _ hp)
  unfold dTreeRd
  split
  · exact ⟨inv_finish _ h.tables.ibufForm h.tables.obufForm hr.noError hr.inputs, ⟨rfl, rfl, rfl, rfl, rfl, rfl, rfl⟩⟩
  · have hpost := readTreeCall_post (fuel := s.inBits - s.rdPos + 1) hr.readerOk le_rfl (by rw [hfresh]; exact Nat.zero_le _)
      h.tables.nodeForm h.tables.nodeExtent
    rw [Run.safe, post_bind]
    rcases hx : readTreeCall (s.inBits - s.rdPos + 1) s with (⟨e, t⟩ | r) | ⟨k, t⟩
    · rw [hx] at hpost
      obtain ⟨he, ht⟩ := hpost
      obtain ⟨p, hread⟩ := readTree_of_raise hx
      rw [hread]
      rw [TreeFrame] at ht
      refine ⟨by rcases he with rfl | rfl <;> simp, ?_, ?_⟩
      · rw [ht]; exact ⟨rfl, rfl, rfl, rfl, rfl, rfl, rfl⟩
      · rw [ht]; exact h.tables.obufForm
    · rw [hx] at hpost; exact hpost.elim
    · rw [hx] at hpost
      have hpost : TreeRead s k t := hpost
      rw [readTree_of_call hx, post_ok]
      have ht := hpost.frame
      have hn0 := hpost.low
      refine ⟨?_, by rw [ht]; exact ⟨rfl, rfl, rfl, rfl, rfl, rfl, rfl⟩⟩
      have hb : ∀ x : State, x.wrPos = s.wrPos → x.wrCnt = s.wrCnt → bitsWritten x = 0 := by
        intro x h1 h2
        rw [bitsWritten, h1, h2]; exact hun
      have hT : TablesOk s.freq t.node s.active s.code s.ibuf s.obuf :=
        { h.tables with nodeForm := hpost.form, nodeExtent := hpost.extent }
      have hc : ∀ x : State, x.node = t.node → x.nNodes = t.nNodes → childrenInside x := by
        intro x h1 h2 j hj hkind
        have hs : slotOf x j = slotOf t j := by unfold slotOf; rw [h1]
        rw [hs] at hkind ⊢
        rw [h2] at hj ⊢
        exact hpost.inside j (by rw [hfresh]; exact Nat.zero_le _) hj hkind
      have hcur := hpost.cursor
      refine InvRunning.enter (p := .dDecode) ?_ rfl (by decide) (cursor := fun _ => ?_) (sized := fun _ => ?_)
        (written := fun _ => ?_) (decoding := fun _ => ⟨?_, ⟨k, rfl, hpost.high, hpost.room⟩, hc _ rfl rfl⟩)
      · rw [ht]; exact { hr with tables := hT }
      · change t.rdPos ≤ t.inBits
        rw [show t.inBits = s.inBits by rw [ht]]
        exact hcur
      · rw [ht]; exact hsz
      · change _ = 0 * _
        rw [Nat.zero_mul]
        exact hb _ (by rw [ht]; rfl) (by rw [ht]; rfl)
      · rw [ht]; exact hn

/-! ## D_DECODE, D_REM and D_FLUSH -/

theorem bitsWritten_appended {s t : State} {a : Bits} (h : Appended s a t) (hc : s.wrCnt < 8) :
    bitsWritten t = bitsWritten s + a.length := by
  simp only [bitsWritten, h.position, h.count, bytesCompleted]
  omega

/-- The output so far and some more bits, within the file size, stay in the 64 bits of `wr_pos` (log 7). -/
theorem posOk_of_bits {s : State} {k : Nat} (hc : s.wrCnt < 8) (h : bitsWritten s + k ≤ 8 * s.f.toNat) : PosOk s k := by
  refine .inr ?_
  have := s.f.isLt
  simp only [bytesCompleted, bitsWritten] at h ⊢
  omega

/-- What reading does: only the cursor and the port's answers change, and the cursor stays inside. -/
structure ReadOnly (s t : State) : Prop where
  frame : t = { s with port := t.port, rdPos := t.rdPos }
  forward : s.rdPos ≤ t.rdPos
  cursor : t.rdPos ≤ s.inBits

theorem ReadOnly.refl {s : State} (h : s.rdPos ≤ s.inBits) : ReadOnly s s := ⟨rfl, le_rfl, h⟩

theorem ReadOnly.trans {s t u : State} (h : ReadOnly s t) (h' : ReadOnly t u) : ReadOnly s u := by
  refine ⟨h'.frame.trans (by rw [h.frame]), le_trans h.forward h'.forward, ?_⟩
  have := h'.cursor
  rwa [show t.inBits = s.inBits by rw [h.frame]] at this

theorem readOrCorrupt_only {w : Nat} {s : State} (hr : ReaderOk s) :
    Run.post (fun r => ReadOnly s r.2 ∧ r.2.rdPos = s.rdPos + w)
      (fun e t => (e = .io ∨ e = .corrupt) ∧ t = { s with port := t.port, rdPos := t.rdPos }) (fun _ => False)
      (readOrCorrupt w s) := by
  refine post_mono (readOrCorrupt_post hr) ?_ ?_ (fun _ h => h)
  · rintro _ ⟨hle, rfl⟩
    exact ⟨⟨rfl, Nat.le_add_right _ _, hle⟩, rfl⟩
  · rintro e t ⟨h, ht⟩
    refine ⟨h.imp id (fun h => h.1), ?_⟩
    rw [ht]

/-- Whatever the walk of D_DECODE answers, from a node in use (R370). -/
theorem treeWalk_post {fuel k : Nat} {s : State} (hr : ReaderOk s) (hcur : s.rdPos ≤ s.inBits)
    (hf : s.inBits - s.rdPos + 1 ≤ fuel)
    (hk : k < s.nNodes) (hn : s.nNodes ≤ Config.treeNodeCap) (hc : childrenInside s) :
    Run.post (fun r => ReadOnly s r.2)
      (fun e t => (e = .io ∨ e = .corrupt) ∧ t = { s with port := t.port, rdPos := t.rdPos }) (fun _ => False)
      (treeWalk fuel k s) := by
  induction fuel generalizing k s with
  | zero => omega
  | succ fuel ih =>
    rw [treeWalk, nodeAt_ok (by omega), run_bind_ok]
    split
    · exact .refl hcur
    · next hkind =>
      rw [post_bind]
      refine post_mono (readOrCorrupt_only hr) ?_ (fun _ _ h => h) (fun _ h => h)
      rintro ⟨b, t⟩ ⟨h, hpos⟩
      dsimp only at h hpos ⊢
      have e1 : t.inBits = s.inBits ∧ t.nNodes = s.nNodes ∧ ReaderOk t ∧ childrenInside t := by
        rw [h.frame]; exact ⟨rfl, rfl, hr, hc⟩
      obtain ⟨hl, hrt⟩ := hc k hk hkind
      have hcur' := h.cursor
      refine post_mono (ih (s := t) e1.2.2.1 (by omega) (by omega) (by split <;> omega) (by omega) e1.2.2.2) ?_ ?_
        (fun _ h => h)
      · rintro ⟨v, u⟩ hu
        exact h.trans hu
      · rintro e u ⟨he, hu⟩
        refine ⟨he, hu.trans ?_⟩
        rw [h.frame]

theorem decodeLetter_post {s : State} (hr : ReaderOk s) (hcur : s.rdPos ≤ s.inBits) (hroot : rootInside s)
    (hc : childrenInside s) :
    Run.post (fun r => ReadOnly s r.2)
      (fun e t => (e = .io ∨ e = .corrupt) ∧ t = { s with port := t.port, rdPos := t.rdPos }) (fun _ => False)
      (decodeLetter s) := by
  obtain ⟨r, hr1, hrn, hcap⟩ := hroot
  unfold decodeLetter
  rw [rootNode_some hr1, run_bind_ok, nodeAt_ok (by omega), run_bind_ok]
  split
  · rw [post_bind]
    refine post_mono (readOrCorrupt_only hr) ?_ (fun _ _ h => h) (fun _ h => h)
    rintro ⟨b, t⟩ ⟨h, -⟩
    exact h
  · exact treeWalk_post hr hcur le_rfl hrn hcap hc

theorem Raised.of_only {s t : State} {kinds : List ErrorKind} {e : ErrorKind} (hs : Memory.wf s.obuf = true)
    (hio : .io ∈ kinds) (hco : .corrupt ∈ kinds)
    (h : (e = .io ∨ e = .corrupt) ∧ t = { s with port := t.port, rdPos := t.rdPos }) : Raised s kinds e t := by
  obtain ⟨h, ht⟩ := h
  refine ⟨?_, .of_read ht, by rw [ht]; exact hs⟩
  rcases h with rfl | rfl
  · exact hio
  · exact hco

theorem HostKept.of_appended {s t : State} {a : Bits} (h : Appended s a t) : HostKept s t := by
  rw [h.rest]; exact ⟨rfl, rfl, rfl, rfl, rfl, rfl, rfl⟩

theorem InvRunning.appended {s t : State} {a : Bits} (h : InvRunning s) (ha : Appended s a t)
    (hpos : t.wrPos.toNat ≤ s.outCap) : InvRunning t :=
   h.wrote ha.frame (n := 7) (by decide) (ha.writerOk hpos)

theorem dDecode_safe {s : State} (h : Inv s) (hp : s.phase = phaseCode .dDecode) :
    Run.safe s [.io, .corrupt] (dDecode s) := by
  have hr := h.running hp (by decide)
  have hsz := h.sized (inPhase_of _ _ hp)
  have hcur := h.cursor (inPhase_of _ _ hp)
  have hwr := h.written (inPhase_of _ _ hp)
  obtain ⟨hi, hroot, hci⟩ := h.decoding (inPhase_of _ _ hp)
  obtain ⟨-, -, hus, htot, -⟩ := sized_arith hsz
  have hmul : (s.i + 1) * letterSize s ≤ s.n * letterSize s := Nat.mul_le_mul_right _ hi
  have hmul1 : (s.i + 1) * letterSize s = s.i * letterSize s + letterSize s := Nat.succ_mul _ _
  unfold dDecode
  rw [Run.safe, post_bind]
  refine post_mono (decodeLetter_post hr.readerOk hcur hroot hci) ?_ ?_ (fun _ h => h)
  · rintro ⟨v, t⟩ ht
    dsimp only at ht ⊢
    have hrt := hr.moved ht.frame
    have hkt := HostKept.of_read ht.frame
    have e1 : t.f = s.f ∧ letterSize t = letterSize s ∧ bitsWritten t = bitsWritten s := by
      rw [ht.frame]; exact ⟨rfl, rfl, rfl⟩
    rw [post_bind]
    refine post_mono (writeBits_spec (.of_running hrt) (posOk_of_bits hrt.writer ?_)) ?_ ?_ (fun _ h => h)
    · rw [e1.1, e1.2.1, e1.2.2, hwr]
      omega
    · rintro u ⟨ha, hpos⟩
      have hru := hrt.appended ha hpos
      have hku := hkt.trans (HostKept.of_appended ha)
      have hbits := bitsWritten_appended ha hrt.writer
      rw [bin_length, e1.2.1, e1.2.2, hwr, ← hmul1] at hbits
      have eu := ha.rest
      rw [ht.frame] at eu
      have e2 : u.i = s.i ∧ u.n = s.n ∧ u.usableBits = s.usableBits ∧ letterSize u = letterSize s ∧
          (letterSizeOk u.l.toNat = true ∧ sizesHold u = true) ∧ u.phase = s.phase ∧ rootInside u ∧ childrenInside u := by
        rw [eu]; exact ⟨rfl, rfl, rfl, rfl, hsz, rfl, hroot, hci⟩
      have hcu : u.rdPos ≤ u.inBits := by
        rw [ha.rest]
        have := ht.cursor
        rwa [show s.inBits = t.inBits by rw [ht.frame]] at this
      obtain ⟨i1, i2, i3, i4, i5, i6, i7, i8⟩ := e2
      rw [post_ok]
      unfold leaveAtEnd
      dsimp only
      split
      · next he =>
        rw [i1, i2] at he
        refine ⟨?_, hku.trans ⟨rfl, rfl, rfl, rfl, rfl, rfl, rfl⟩⟩
        refine InvRunning.enter (p := .dRem) { hru with } rfl (by decide) (cursor := fun _ => hcu) (sized := fun _ => i5)
          (bodyWritten := fun _ => ?_)
        change bitsWritten u = u.usableBits
        rw [hbits, i3, hus, he]
      · next he =>
        rw [i1, i2] at he
        refine ⟨?_, hku.trans ⟨rfl, rfl, rfl, rfl, rfl, rfl, rfl⟩⟩
        refine InvRunning.enter (p := .dDecode) { hru with } (i6.trans hp) (by decide) (cursor := fun _ => hcu)
          (sized := fun _ => i5) (written := fun _ => ?_) (decoding := fun _ => ⟨?_, i7, i8⟩)
        · change bitsWritten u = (u.i + 1) * letterSize u
          rw [hbits, i4, i1]
        · change u.i + 1 < u.n
          rw [i1, i2]
          exact lt_of_le_of_ne hi he
    · intro e u hf
      exact ⟨by rw [hf.kind]; simp, hkt.trans (.of_writer hf.frame), hf.form⟩
  · intro e t ht
    exact .of_only h.tables.obufForm (by simp) (by simp) ht

theorem dRem_eq (s : State) :
    dRem s = ((if 0 < s.remBits then readRemainder s else .ok s) >>= fun t => .ok (setPhase .dFlush t)) := by
  unfold dRem
  split <;> rfl

theorem dRem_safe {s : State} (h : Inv s) (hp : s.phase = phaseCode .dRem) : Run.safe s [.io, .corrupt] (dRem s) := by
  have hr := h.running hp (by decide)
  have hsz := h.sized (inPhase_of _ _ hp)
  have hwr := h.bodyWritten (inPhase_of _ _ hp)
  obtain ⟨-, -, hus, htot, hall⟩ := sized_arith hsz
  rw [dRem_eq, Run.safe, post_bind]
  have hcopy : Run.post (fun t => (letterSizeOk t.l.toNat = true ∧ sizesHold t = true) ∧ bitsWritten t = t.totalBits ∧
      InvRunning t ∧ HostKept s t) (Raised s [.io, .corrupt]) (fun _ => False)
      (if 0 < s.remBits then readRemainder s else .ok s) := by
    split
    · unfold readRemainder
      rw [post_bind]
      refine post_mono (readOrCorrupt_only hr.readerOk) ?_ ?_ (fun _ h => h)
      · rintro ⟨v, t⟩ ⟨ht, -⟩
        dsimp only at ht ⊢
        have hrt := hr.moved ht.frame
        have hkt := HostKept.of_read ht.frame
        have e1 : t.f = s.f ∧ t.remBits = s.remBits ∧ bitsWritten t = bitsWritten s := by
          rw [ht.frame]; exact ⟨rfl, rfl, rfl⟩
        refine post_mono (writeBits_spec (.of_running hrt) (posOk_of_bits hrt.writer ?_)) ?_ ?_ (fun _ h => h)
        · rw [e1.1, e1.2.2, hwr, e1.2.1]
          omega
        · rintro u ⟨ha, hpos⟩
          have hbits := bitsWritten_appended ha hrt.writer
          rw [bin_length, e1.2.1, e1.2.2, hwr] at hbits
          have eu := ha.rest
          rw [ht.frame] at eu
          refine ⟨by rw [eu]; exact hsz, ?_, hrt.appended ha hpos, hkt.trans (.of_appended ha)⟩
          rw [hbits, show u.totalBits = s.totalBits by rw [eu]]
          omega
        · intro e u hf
          exact ⟨by rw [hf.kind]; simp, hkt.trans (.of_writer hf.frame), hf.form⟩
      · intro e t ht
        exact .of_only h.tables.obufForm (by simp) (by simp) ht
    · exact ⟨hsz, by omega, hr, .refl s⟩
  refine post_mono hcopy ?_ (fun _ _ h => h) (fun _ h => h)
  rintro t ⟨hsz', hb, hrt, hk⟩
  exact ⟨InvRunning.enter (p := .dFlush) { hrt with } rfl (by decide) (sized := fun _ => hsz') (allWritten := fun _ => hb),
    hk.trans ⟨rfl, rfl, rfl, rfl, rfl, rfl, rfl⟩⟩

/-- D_FLUSH is entered on a byte boundary with exactly `F` bytes written (R372). -/
theorem dFlush_exact {s : State} (h : Inv s) (hp : s.phase = phaseCode .dFlush) :
    s.wrCnt = 0 ∧ s.wrPos = s.f ∧ finishOutput s = .ok (finish s.wrPos s) := by
  have hr := h.running hp (by decide)
  have hsz := h.sized (inPhase_of _ _ hp)
  have hwr := h.allWritten (inPhase_of _ _ hp)
  obtain ⟨-, -, -, -, hall⟩ := sized_arith hsz
  have hc := hr.writer
  rw [hall, bitsWritten] at hwr
  have h0 : s.wrCnt = 0 := by omega
  refine ⟨h0, BitVec.eq_of_toNat_eq (by omega), ?_⟩
  unfold finishOutput flush
  simp only [flushLoop, h0, ↓reduceIte, run_bind_ok]

end Sys2Proof.Machine
end

