-- ==== Sys2Proof/Laws/Next.lean ====
section
/-! SUPPORT. What a step that goes on leaves, phase by phase, from a state that meets the invariant: the next state written out. -/

namespace Sys2Proof.Machine

/-- What the bit writer leaves when it goes on (20_memory.md R107, R108): its own registers, OBUF and the port's answers
alone, and the bits appended, so long as `wr_pos` stays in its 64 bits (log 7). -/
structure Wrote (s : State) (bits : Bits) (t : State) : Prop where
  frame : WriterFrame s t
  form : WriterOk 7 t
  appended : PosOk s bits.length → Appended s bits t

theorem wrote_string {bits : Bits} {s t : State} (hok : WriterOk 7 s) (h : writeString bits s = .ok t) :
    Wrote s bits t :=
  ⟨(post_of_ok (writeString_post hok) h).1, (post_of_ok (writeString_post hok) h).2,
    fun hb => (post_of_ok (writeString_spec hok hb) h).1⟩

theorem wrote_flush {s t : State} (hok : WriterOk 7 s) (h : flush s = .ok t) :
    Wrote s (List.replicate (padding s) false) t := by
  have hf := post_of_ok (flush_post hok) h
  refine ⟨hf.1, ⟨le_trans hf.2.1 (Nat.zero_le _), hf.2.2⟩, fun hb => ?_⟩
  rw [List.length_replicate] at hb
  exact (post_of_ok (flush_spec hok hb) h).1

theorem inputBits_next {p w : Nat} {s : State} {r : Nat × State} (h : readable s p w = true) (hr : inputBits p w s = .ok r) :
    r = (val (inputSlice s p w), { s with port := s.port.drop w }) := 
  post_of_ok (P := fun r => r = (val (inputSlice s p w), { s with port := s.port.drop w })) (inputBits_post h) hr

theorem leaveAtEnd_eq (p : Phase) (s : State) :
    leaveAtEnd p s = { s with phase := if s.i = s.n then phaseCode p else s.phase } := by
  unfold leaveAtEnd
  by_cases h : s.i = s.n
  · rw [if_pos h, if_pos h]; rfl
  · rw [if_neg h, if_neg h]

/-! ## Compression -/

theorem cSetup_next {s t : State} (h : cSetup s = .ok t) :
    letterSizeOk s.lsize.toNat = true ∧ s.inLen.toNat ≤ s.inCap ∧
      t = cSetupLatch { s with l := s.lsize, f := s.inLen } := by
  unfold cSetup at h
  dsimp only at h
  split at h
  · next hl =>
    split at h
    · cases h
    · next hc => cases h; exact ⟨hl, Nat.not_lt.1 hc, rfl⟩
  · cases h

theorem cCount_next {s t : State} (hI : Inv s) (hp : s.phase = phaseCode .cCount) (h : cCount s = .ok t) :
    t = { s with
      freq := Table.set 0 (letterOf s s.i) (freqOf s (letterOf s s.i) + 1) s.freq
      i := s.i + 1
      port := s.port.drop (letterSize s)
      phase := if s.i + 1 = s.n then phaseCode .cLeaves else s.phase } := by
  have hr := hI.running hp (by decide)
  have hsz := hI.sized (inPhase_of _ _ hp)
  have hwh := hI.whole (inPhase_of _ _ hp)
  have hi := (hI.counting (inPhase_of _ _ hp)).1
  unfold cCount inputLetter at h
  obtain ⟨r, hx, h⟩ := run_bind_eq_ok.1 h
  rw [inputBits_next (letter_readable hr hsz hwh hi) hx] at h
  dsimp only at h
  have hv := lt_of_lt_of_le (letterOf_lt s s.i) (two_pow_le_letterCap hsz.1)
  change (letterIndex (letterOf s s.i) >>= _) = _ at h
  rw [letterIndex_ok hv, run_bind_ok] at h
  exact ((leaveAtEnd_eq _ _).symm.trans (Except.ok.inj h)).symm

theorem cLeaves_next {s t : State} (hI : Inv s) (hp : s.phase = phaseCode .cLeaves) (h : cLeaves s = .ok t) :
    (∀ (k : Nat) (hk : k < s.freq.length), slotOf t k =
        { slotOf s k with kind := .leaf, letter := BitVec.ofNat 16 s.freq[k].1, freq := s.freq[k].2 }) ∧
      t = { s with
        node := t.node, nNodes := s.freq.length, active := List.range s.freq.length, phase := phaseCode .cMerge } := by
  have hsz := hI.sized (inPhase_of _ _ hp)
  obtain ⟨hn, hn0, ha, hroot, hcb, hne⟩ := hI.leaves (inPhase_of _ _ hp)
  have hnum : s.freq.length ≤ Config.letterCap :=
    le_trans (countsBelow_length hI.tables.freqForm hcb) (two_pow_le_letterCap hsz.1)
  unfold cLeaves at h
  rw [frequencyTable_below hI.tables.freqForm hcb] at h
  obtain ⟨u, hu, h1, h2, h3, h4⟩ := addLeaves_ok (es := s.freq) hI.tables.nodeForm
    (by rw [hn0]; exact le_trans (by omega : 0 + s.freq.length ≤ Config.letterCap) (by decide)) (by rw [hn0, ha]; rfl)
  rw [hn0] at h1 h3
  simp only [Nat.zero_add] at h1 h3
  rw [hu, run_bind_ok] at h
  have ht : t = setPhase .cMerge u := by cases h; rfl
  have hslot : ∀ k, slotOf t k = slotOf u k := by intro k; rw [ht]; rfl
  refine ⟨fun k hk => by rw [hslot]; exact h1 k hk, ?_⟩
  rw [ht, h3]; rfl

theorem cMerge_next {s t : State} (hI : Inv s) (hp : s.phase = phaseCode .cMerge) (h : cMerge s = .ok t) :
    (∃ r, s.active = [r] ∧ t = { s with root := some r, phase := phaseCode .cCodegen }) ∨
      ∃ a b, a ∈ s.active ∧ b ∈ s.active ∧ a ≠ b ∧ t = merged s a b := by
  obtain ⟨hn, hroot, hne, hcnt, hin, hcb⟩ := hI.merging (inPhase_of _ _ hp)
  have hpos := List.length_pos_iff.2 hne
  by_cases h1 : s.active.length = 1
  · obtain ⟨r, hr1⟩ := List.length_eq_one_iff.1 h1
    have : cMerge s = .ok (setPhase .cCodegen { s with root := some r }) := by unfold cMerge; rw [hr1]
    rw [this] at h
    cases h
    exact .inl ⟨r, hr1, rfl⟩
  · have hcap : s.nNodes < Config.treeNodeCap := by
      have : 2 * Config.letterCap = Config.treeNodeCap + 1 := rfl
      omega
    obtain ⟨a, b, ha, hb, hab, -, -, hok⟩ := cMerge_ok hI.tables.activeForm (by omega) hin hcap
    rw [hok] at h
    cases h
    exact .inr ⟨a, b, ha, hb, hab, rfl⟩

theorem cCodegen_next {s t : State} (hI : Inv s) (hp : s.phase = phaseCode .cCodegen) (h : cCodegen s = .ok t) :
    ∃ (r : Nat) (tree : Tree), s.root = some r ∧ treeAt s r tree = true ∧ tree.height ≤ Config.treeNodeCap ∧
      t = { s with code := assignPaths tree.codes s.code, phase := phaseCode .cHdr } := by
  obtain ⟨hn, hroot, hcb⟩ := hI.built (inPhase_of _ _ hp)
  obtain ⟨r, tree, hr1, ht, hh⟩ := tree_of_root ⟨hroot, hcb⟩
  rw [cCodegen_ok hr1 ht hh] at h
  cases h
  exact ⟨r, tree, hr1, ht, hh, rfl⟩

theorem cHdr_next {s t : State} (hI : Inv s) (hp : s.phase = phaseCode .cHdr) (h : cHdr s = .ok t) :
    ∃ u, Wrote s (bin 8 s.l.toNat ++ bin 64 s.f.toNat) u ∧
      t = { u with phase := if s.root = none then phaseCode .cRem else phaseCode .cTreeWr } := by
  have hr := hI.running hp (by decide)
  unfold cHdr at h
  obtain ⟨u, hu, h⟩ := run_bind_eq_ok.1 h
  obtain ⟨w, hw, h⟩ := run_bind_eq_ok.1 h
  have hf := (post_of_ok (writeBits_post (.of_running hr)) hu).1
  have hall : writeString (bin 8 s.l.toNat ++ bin 64 s.f.toNat) s = .ok w := by
    rw [writeString_append, show writeString (bin 8 s.l.toNat) s = .ok u from hu, run_bind_ok]
    rw [← show u.f = s.f by rw [hf]]
    exact hw
  have hwr := wrote_string (.of_running hr) hall
  refine ⟨w, hwr, ?_⟩
  have hroot : w.root = s.root := by rw [hwr.frame]
  rw [hroot] at h
  cases h
  by_cases h0 : s.root = none
  · rw [if_pos h0, if_neg (by simpa using h0)]; rfl
  · rw [if_neg h0, if_pos h0]; rfl

theorem cTreeWr_next {s t : State} (hI : Inv s) (hp : s.phase = phaseCode .cTreeWr) (h : cTreeWr s = .ok t) :
    ∃ (r : Nat) (tree : Tree) (u : State), s.root = some r ∧ treeAt s r tree = true ∧
      Wrote s (tree.ser (letterSize s)) u ∧ t = { u with i := 0, phase := phaseCode .cEncode } := by
  have hr := hI.running hp (by decide)
  obtain ⟨hn, hroot, hcb⟩ := hI.built (inPhase_of _ _ hp)
  obtain ⟨r, tree, hr1, ht, hh⟩ := tree_of_root ⟨hroot, hcb⟩
  unfold cTreeWr at h
  rw [rootNode_some hr1, run_bind_ok, serialize_eq ht hh] at h
  obtain ⟨u, hu, h⟩ := run_bind_eq_ok.1 h
  cases h
  exact ⟨r, tree, u, hr1, ht, wrote_string (.of_running hr) hu, rfl⟩

theorem cEncode_next {s t : State} (hI : Inv s) (hp : s.phase = phaseCode .cEncode) (h : cEncode s = .ok t) :
    ∃ u, (codeOf s (letterOf s s.i)).valid = true ∧
      Wrote { s with port := s.port.drop (letterSize s) } (codeOf s (letterOf s s.i)).bits u ∧
      t = { u with i := s.i + 1, phase := if s.i + 1 = s.n then phaseCode .cRem else s.phase } := by
  have hr := hI.running hp (by decide)
  have hsz := hI.sized (inPhase_of _ _ hp)
  have hwh := hI.whole (inPhase_of _ _ hp)
  have hi := hI.encoding (inPhase_of _ _ hp)
  unfold cEncode inputLetter at h
  obtain ⟨r, hx, h⟩ := run_bind_eq_ok.1 h
  rw [inputBits_next (letter_readable hr hsz hwh hi) hx] at h
  dsimp only at h
  have hv := lt_of_lt_of_le (letterOf_lt s s.i) (two_pow_le_letterCap hsz.1)
  change (letterIndex (letterOf s s.i) >>= _) = _ at h
  rw [letterIndex_ok hv, run_bind_ok] at h
  generalize hs1 : ({ s with port := s.port.drop (letterSize s) } : State) = s1 at h ⊢
  have he1 : s1 = { s with port := s1.port } := by rw [← hs1]
  have hr1 := hr.read he1
  have hcode : codeOf s1 (letterOf s s.i) = codeOf s (letterOf s s.i) := by rw [he1]; rfl
  rw [hcode] at h
  split at h
  · next hval =>
    obtain ⟨u, hu, h⟩ := run_bind_eq_ok.1 h
    have hwr := wrote_string (.of_running hr1) hu
    refine ⟨u, hval, hwr, ?_⟩
    have e : u.i = s.i ∧ u.n = s.n ∧ u.phase = s.phase := by rw [hwr.frame, he1]; exact ⟨rfl, rfl, rfl⟩
    rw [← e.1, ← e.2.1, ← e.2.2]
    exact ((leaveAtEnd_eq _ _).symm.trans (Except.ok.inj h)).symm
  · cases h

theorem cRem_next {s t : State} (hI : Inv s) (hp : s.phase = phaseCode .cRem) (h : cRem s = .ok t) :
    ∃ u, Wrote { s with port := s.port.drop s.remBits } (inputSlice s s.usableBits s.remBits) u ∧
      t = { u with phase := phaseCode .cPad } := by
  have hr := hI.running hp (by decide)
  have hsz := hI.sized (inPhase_of _ _ hp)
  have hwh := hI.whole (inPhase_of _ _ hp)
  rw [cRem_eq] at h
  obtain ⟨u, hu, h⟩ := run_bind_eq_ok.1 h
  refine ⟨u, ?_, by cases h; rfl⟩
  split at hu
  · unfold copyRemainder at hu
    obtain ⟨r, hx, hu⟩ := run_bind_eq_ok.1 hu
    rw [inputBits_next (remainder_readable hr hsz hwh) hx] at hu
    dsimp only at hu
    have := wrote_string (.of_running (hr.read rfl)) hu
    rwa [show bin s.remBits (val (inputSlice s s.usableBits s.remBits)) = inputSlice s s.usableBits s.remBits by
      have := bin_val (inputSlice s s.usableBits s.remBits)
      rwa [inputSlice_length] at this] at this
  · next h0 =>
    have h0 : s.remBits = 0 := Nat.eq_zero_of_not_pos h0
    have hport : s.port.drop s.remBits = s.port := by rw [h0]; rfl
    have hnil : inputSlice s s.usableBits s.remBits = [] := by rw [h0]; rfl
    obtain rfl := Except.ok.inj hu
    rw [hport, hnil]
    exact ⟨.refl s, .of_running hr, fun _ => .nil hr.writer hr.tables.obufForm⟩

theorem finishOutput_next {s t : State} (hr : InvRunning s) (h : finishOutput s = .ok t) :
    ∃ u, Wrote s (List.replicate (padding s) false) u ∧ t = finish u.wrPos u := by
  unfold finishOutput at h
  obtain ⟨u, hu, h⟩ := run_bind_eq_ok.1 h
  cases h
  exact ⟨u, wrote_flush (.of_running hr) hu, rfl⟩

/-! ## Decompression -/

theorem readOrCorrupt_went {w : Nat} {s : State} {r : Nat × State} (h : ReaderOk s) (hr : readOrCorrupt w s = .ok r) :
    s.rdPos + w ≤ s.inBits ∧
      r = (val (inputSlice s s.rdPos w), { s with port := s.port.drop w, rdPos := s.rdPos + w }) :=
  post_of_ok (P := fun r => s.rdPos + w ≤ s.inBits ∧
    r = (val (inputSlice s s.rdPos w), { s with port := s.port.drop w, rdPos := s.rdPos + w })) (readOrCorrupt_post h) hr

theorem dSetup_next {s t : State} (h : dSetup s = .ok t) :
    s.inLen.toNat ≤ s.inCap ∧
      ((s.inLen = 0 ∧ t = finish 0 (startOperation { s with inBits := 8 * s.inLen.toNat })) ∨
        s.inLen ≠ 0 ∧ t = setPhase .dHdr (startOperation { s with inBits := 8 * s.inLen.toNat })) := by
  unfold dSetup at h
  split at h
  · cases h
  · next hc =>
    refine ⟨Nat.not_lt.1 hc, ?_⟩
    dsimp only at h
    split at h
    · next h0 => cases h; exact .inl ⟨h0, rfl⟩
    · next h0 => cases h; exact .inr ⟨h0, rfl⟩

theorem dHdr_next {s t : State} (hI : Inv s) (hp : s.phase = phaseCode .dHdr) (h : dHdr s = .ok t) :
    let l := val (inputSlice s s.rdPos 8)
    let f := val (inputSlice s (s.rdPos + 8) 64)
    letterSizeOk l = true ∧ s.rdPos + 72 ≤ s.inBits ∧
      t = { s with
        l := BitVec.ofNat 8 l, f := BitVec.ofNat 64 f
        totalBits := 8 * f, n := 8 * f / l, usableBits := l * (8 * f / l), remBits := 8 * f - l * (8 * f / l)
        rdPos := s.rdPos + 72, port := s.port.drop 72
        phase := if 0 < l * (8 * f / l) then phaseCode .dTreeRd else phaseCode .dRem } := by
  have hr := hI.running hp (by decide)
  intro l f
  unfold dHdr at h
  obtain ⟨r, hx, h⟩ := run_bind_eq_ok.1 h
  obtain ⟨hle, hx⟩ := readOrCorrupt_went hr.readerOk hx
  rw [hx] at h
  dsimp only at h
  split at h
  · next hl =>
    obtain ⟨r', hx', h⟩ := run_bind_eq_ok.1 h
    obtain ⟨hle', hx'⟩ := readOrCorrupt_went (w := 64)
      (s := { s with port := s.port.drop 8, rdPos := s.rdPos + 8, l := BitVec.ofNat 8 (val (inputSlice s s.rdPos 8)) })
      hr.readerOk hx'
    refine ⟨hl, hle', ?_⟩
    rw [hx'] at h
    have hl8 : (BitVec.ofNat 8 l).toNat = l := by
      have := (letterSizeOk_iff.1 hl).2
      rw [BitVec.toNat_ofNat, Nat.mod_eq_of_lt (by change l < 256; omega)]
    have hf64 : (BitVec.ofNat 64 f).toNat = f := by
      rw [BitVec.toNat_ofNat, Nat.mod_eq_of_lt]
      have := val_lt (inputSlice s (s.rdPos + 8) 64)
      rwa [inputSlice_length] at this
    dsimp only at h
    cases h
    simp only [setSizes, sizes, setPhase, List.drop_drop]
    rw [show inputSlice { s with
        port := s.port.drop 8, rdPos := s.rdPos + 8, l := BitVec.ofNat 8 (val (inputSlice s s.rdPos 8)) }
        (s.rdPos + 8) 64 = inputSlice s (s.rdPos + 8) 64 from rfl]
    change _ = _
    rw [show (BitVec.ofNat 64 (val (inputSlice s (s.rdPos + 8) 64))).toNat = f from hf64,
      show (BitVec.ofNat 8 (val (inputSlice s s.rdPos 8))).toNat = l from hl8]
    by_cases h0 : 0 < l * (8 * f / l)
    · rw [if_pos h0, if_pos h0]
    · rw [if_neg h0, if_neg h0]
  · cases h

theorem dTreeRd_next {s t : State} (hI : Inv s) (hp : s.phase = phaseCode .dTreeRd) (h : dTreeRd s = .ok t) :
    (s.rdPos = s.inBits ∧ t = finish 0 s) ∨
      ∃ k u, readTreeCall (s.inBits - s.rdPos + 1) s = .ok (k, u) ∧ TreeRead s k u ∧
        t = { u with root := some k, pending := [], i := 0, phase := phaseCode .dDecode } := by
  have hr := hI.running hp (by decide)
  have hfresh := hI.fresh (inPhase_of _ _ hp)
  unfold dTreeRd at h
  split at h
  · next h0 => cases h; exact .inl ⟨h0, rfl⟩
  · right
    have hpost := readTreeCall_post (fuel := s.inBits - s.rdPos + 1) hr.readerOk le_rfl
      (by rw [hfresh]; exact Nat.zero_le _) hI.tables.nodeForm hI.tables.nodeExtent
    rcases hx : readTreeCall (s.inBits - s.rdPos + 1) s with (⟨e, u⟩ | r) | ⟨k, u⟩
    · obtain ⟨p, hread⟩ := readTree_of_raise hx
      rw [hread] at h
      cases h
    · rw [hx] at hpost; exact hpost.elim
    · rw [hx] at hpost
      rw [readTree_of_call hx] at h
      cases h
      exact ⟨k, u, rfl, hpost, rfl⟩

theorem dDecode_next {s t : State} (hI : Inv s) (hp : s.phase = phaseCode .dDecode) (h : dDecode s = .ok t) :
    ∃ v u w, decodeLetter s = .ok (v, u) ∧ ReadOnly s u ∧ Wrote u (bin (letterSize s) v.toNat) w ∧
      t = { w with i := s.i + 1, phase := if s.i + 1 = s.n then phaseCode .dRem else s.phase } := by
  have hr := hI.running hp (by decide)
  have hcur := hI.cursor (inPhase_of _ _ hp)
  obtain ⟨hi, hroot, hci⟩ := hI.decoding (inPhase_of _ _ hp)
  unfold dDecode at h
  obtain ⟨⟨v, u⟩, hx, h⟩ := run_bind_eq_ok.1 h
  have hu : ReadOnly s u := post_of_ok (P := fun r => ReadOnly s r.2) (decodeLetter_post hr.readerOk hcur hroot hci) hx
  obtain ⟨w, hw, h⟩ := run_bind_eq_ok.1 h
  have hl : letterSize u = letterSize s := by rw [hu.frame]; rfl
  have hwr : Wrote u (bin (letterSize s) v.toNat) w := by
    rw [← hl]
    exact wrote_string (.of_running (hr.moved hu.frame)) hw
  refine ⟨v, u, w, hx, hu, hwr, ?_⟩
  have e : w.i = s.i ∧ w.n = s.n ∧ w.phase = s.phase := by rw [hwr.frame, hu.frame]; exact ⟨rfl, rfl, rfl⟩
  rw [← e.1, ← e.2.1, ← e.2.2]
  exact ((leaveAtEnd_eq _ _).symm.trans (Except.ok.inj h)).symm

theorem dRem_next {s t : State} (hI : Inv s) (hp : s.phase = phaseCode .dRem) (h : dRem s = .ok t) :
    ∃ u, s.rdPos + s.remBits ≤ s.inBits ∧
      Wrote { s with port := s.port.drop s.remBits, rdPos := s.rdPos + s.remBits } (inputSlice s s.rdPos s.remBits) u ∧
      t = { u with phase := phaseCode .dFlush } := by
  have hr := hI.running hp (by decide)
  have hcur := hI.cursor (inPhase_of _ _ hp)
  rw [dRem_eq] at h
  obtain ⟨u, hu, h⟩ := run_bind_eq_ok.1 h
  refine ⟨u, ?_⟩
  have ht : t = { u with phase := phaseCode .dFlush } := by cases h; rfl
  split at hu
  · unfold readRemainder at hu
    obtain ⟨r, hx, hu⟩ := run_bind_eq_ok.1 hu
    obtain ⟨hle, hx⟩ := readOrCorrupt_went hr.readerOk hx
    rw [hx] at hu
    dsimp only at hu
    have := wrote_string (.of_running (hr.moved rfl)) hu
    rw [show bin s.remBits (val (inputSlice s s.rdPos s.remBits)) = inputSlice s s.rdPos s.remBits by
      have := bin_val (inputSlice s s.rdPos s.remBits)
      rwa [inputSlice_length] at this] at this
    exact ⟨hle, this, ht⟩
  · next h0 =>
    have h0 : s.remBits = 0 := Nat.eq_zero_of_not_pos h0
    have hport : s.port.drop s.remBits = s.port := by rw [h0]; rfl
    have hpos : s.rdPos + s.remBits = s.rdPos := by rw [h0]; rfl
    have hnil : inputSlice s s.rdPos s.remBits = [] := by rw [h0]; rfl
    obtain rfl := Except.ok.inj hu
    rw [hport, hnil, hpos]
    exact ⟨hcur, ⟨.refl s, .of_running hr, fun _ => .nil hr.writer hr.tables.obufForm⟩, ht⟩

end Sys2Proof.Machine
end

