-- ==== Sys2Proof/Laws/Forest.lean ====
section
/-! SUPPORT. The trees compression builds: from the letters counted to one tree of exactly the letters of the input (41_tree_builder.md R230 to R233). -/

namespace Sys2Proof.Machine

/-- The letters of the input, in order (40_frequency_analyzer.md R204). -/
def letters (s : State) : List (BitVec 16) := (List.range s.n).map fun j => BitVec.ofNat 16 (letterOf s j)

/-- What the letters of the input are read from. -/
structure SameInput (s t : State) : Prop where
  ibuf : t.ibuf = s.ibuf
  l : t.l = s.l
  f : t.f = s.f
  n : t.n = s.n
  usable : t.usableBits = s.usableBits
  rem : t.remBits = s.remBits

theorem SameInput.letterOf {s t : State} (h : SameInput s t) (j : Nat) : Machine.letterOf t j = Machine.letterOf s j := by
  simp only [Machine.letterOf, letterSize, h.l, inputSlice_congr h.ibuf]

theorem SameInput.letters {s t : State} (h : SameInput s t) : Machine.letters t = Machine.letters s := by
  simp only [Machine.letters, h.n, h.letterOf]

theorem mem_letters {s : State} {v : BitVec 16} :
    v ∈ letters s ↔ ∃ j < s.n, BitVec.ofNat 16 (letterOf s j) = v := by
  simp [letters]

/-- The counts after `k` letters name exactly the letters among them (40_frequency_analyzer.md R202). -/
def Counted (s : State) (k : Nat) : Prop := ∀ v, freqOf s v ≠ 0 ↔ ∃ j < k, letterOf s j = v

theorem counted_step {s t : State} (hw : Table.wf 0 s.freq = true) (h : Counted s s.i) (hs : SameInput s t)
    (ht : t.freq = Table.set 0 (letterOf s s.i) (freqOf s (letterOf s s.i) + 1) s.freq) : Counted t (s.i + 1) := by
  intro v
  have hf : freqOf t v = if v = letterOf s s.i then freqOf s (letterOf s s.i) + 1 else freqOf s v := by
    simp only [freqOf, ht]
    exact Table.get_set _ (Table.wf_iff.1 hw).1 _ _ _
  rw [hf]
  simp only [hs.letterOf]
  constructor
  · intro hv
    split at hv
    · next he => exact ⟨s.i, Nat.lt_succ_self _, he.symm⟩
    · obtain ⟨j, hj, e⟩ := (h v).1 hv
      exact ⟨j, Nat.lt_succ_of_lt hj, e⟩
  · rintro ⟨j, hj, e⟩
    split
    · omega
    · next he =>
      refine (h v).2 ⟨j, ?_, e⟩
      rcases Nat.lt_succ_iff_lt_or_eq.1 hj with hj | rfl
      · exact hj
      · exact absurd e.symm he

/-- A tree whose leaves are the letters of the input, each once. -/
def Holds (s : State) (tree : Tree) : Prop := tree.letters.Nodup ∧ ∀ v, v ∈ tree.letters ↔ v ∈ letters s

theorem Holds.same {s t : State} {tree : Tree} (h : Holds s tree) (hs : SameInput s t) : Holds t tree :=
  ⟨h.1, fun v => by rw [hs.letters]; exact h.2 v⟩

/-- Each active node is the root of a tree, and together they hold the letters of the input, each once (R232). -/
structure Forest (s : State) (tree : Nat → Tree) : Prop where
  trees : ∀ k ∈ s.active, treeAt s k (tree k) = true
  distinct : (s.active.flatMap fun k => (tree k).letters).Nodup
  all : ∀ v, v ∈ (s.active.flatMap fun k => (tree k).letters) ↔ v ∈ letters s


theorem Table.keys_pairwise {α : Type} {m : Table α} (h : Table.rising m = true) : (m.map Prod.fst).Pairwise (· < ·) := by
  induction m with
  | nil => exact List.Pairwise.nil
  | cons e m ih =>
    obtain ⟨h1, h2⟩ := Table.rising_cons.1 h
    rw [List.map_cons, List.pairwise_cons]
    refine ⟨fun k hk => ?_, ih h1⟩
    obtain ⟨x, hx, rfl⟩ := List.mem_map.1 hk
    exact h2 x hx

/-- The Leaves of C_LEAVES are a forest (R230). -/
theorem forest_leaves {s t : State} (hI : Inv s) (hp : s.phase = phaseCode .cLeaves) (h : cLeaves s = .ok t)
    (hc : Counted s s.n) : Forest t fun k => .leaf (slotOf t k).letter := by
  obtain ⟨hslot, ht⟩ := cLeaves_next hI hp h
  have hsz := hI.sized (inPhase_of _ _ hp)
  obtain ⟨hn, hn0, ha, hroot, hcb, hne⟩ := hI.leaves (inPhase_of _ _ hp)
  have hnum : s.freq.length ≤ Config.letterCap :=
    le_trans (countsBelow_length hI.tables.freqForm hcb) (two_pow_le_letterCap hsz.1)
  have hact : t.active = List.range s.freq.length := by rw [ht]
  have hletters : letters t = letters s := by rw [ht]; rfl
  have hlist : (t.active.flatMap fun k => (Tree.leaf (slotOf t k).letter).letters) =
      s.freq.map fun e => BitVec.ofNat 16 e.1 := by
    rw [hact]
    change ((List.range s.freq.length).flatMap fun k => [(slotOf t k).letter]) = _
    have hflat : ∀ l : List Nat, (l.flatMap fun k => [(slotOf t k).letter]) = l.map fun k => (slotOf t k).letter := by
      intro l
      induction l with
      | nil => rfl
      | cons k l ih => rw [List.flatMap_cons, ih]; rfl
    rw [hflat]
    refine List.ext_getElem (by rw [List.length_map, List.length_map, List.length_range]) fun k h1 h2 => ?_
    rw [List.length_map] at h2
    rw [List.getElem_map, List.getElem_map, List.getElem_range, hslot k h2]
  have hext := hI.tables.freqExtent
  simp only [Table.below, List.all_eq_true, decide_eq_true_eq] at hext
  have h16 : ∀ v < Config.letterCap, (BitVec.ofNat 16 v).toNat = v := fun v hv => by
    rw [BitVec.toNat_ofNat]; exact Nat.mod_eq_of_lt hv
  refine ⟨?_, ?_, ?_⟩
  · intro k hk
    rw [hact, List.mem_range] at hk
    refine treeAt_leaf.2 ⟨?_, by rw [hslot k hk], rfl⟩
    exact lt_of_lt_of_le hk (le_trans hnum (by decide))
  · rw [hlist]
    have hk := Table.keys_pairwise (Table.wf_iff.1 hI.tables.freqForm).1
    rw [List.pairwise_map] at hk
    rw [List.Nodup, List.pairwise_map]
    refine List.Pairwise.imp_of_mem (fun {a b} ha hb hab he => ?_) hk
    have := congrArg BitVec.toNat he
    rw [h16 _ (hext a ha), h16 _ (hext b hb)] at this
    omega
  · intro v
    rw [hlist, hletters, mem_letters]
    constructor
    · intro hv
      obtain ⟨e, he, rfl⟩ := List.mem_map.1 hv
      have hget : freqOf s e.1 = e.2 := Table.get_of_mem (Table.wf_iff.1 hI.tables.freqForm).1 he
      obtain ⟨j, hj, h⟩ := (hc e.1).1 (by rw [hget]; exact (Table.wf_iff.1 hI.tables.freqForm).2 e he)
      exact ⟨j, hj, by rw [h]⟩
    · rintro ⟨j, hj, rfl⟩
      have := (hc (letterOf s j)).2 ⟨j, hj, rfl⟩
      exact List.mem_map.2 ⟨_, Table.mem_of_get_ne this, rfl⟩

/-- A tree of nodes with lower children stays where slots below it stay. -/
theorem treeAt_old {s t : State} (hc : childrenBelow s) (h : ∀ j < s.nNodes, slotOf t j = slotOf s j) {k : Nat}
    (hk : k < s.nNodes) {tree : Tree} (ht : treeAt s k tree = true) : treeAt t k tree = true := by
  induction tree generalizing k with
  | leaf v =>
    rw [treeAt_leaf] at ht ⊢
    rw [h k hk]; exact ht
  | joint a b iha ihb =>
    rw [treeAt_joint] at ht ⊢
    rw [h k hk]
    have hb := hc k hk ht.2.1
    exact ⟨ht.1, ht.2.1, iha (by omega) ht.2.2.1, ihb (by omega) ht.2.2.2⟩

theorem mergedActive_perm {s : State} {a b : Nat} (hp : s.active.Pairwise (· < ·)) (ha : a ∈ s.active)
    (hb : b ∈ s.active) (hne : a ≠ b) (hin : ∀ k ∈ s.active, k < s.nNodes) :
    ∃ rest, s.active.Perm (b :: a :: rest) ∧ (mergedActive s a b).Perm (s.nNodes :: rest) ∧ ∀ k ∈ rest, k ∈ s.active := by
  have hnd : s.active.Nodup := hp.imp fun h => Nat.ne_of_lt h
  have h1 : (s.active.filter fun k => decide (k ≠ a)) = s.active.erase a := by
    rw [hnd.erase_eq_filter]
    congr 1
    funext k
    by_cases hk : k = a <;> simp [hk]
  have h2 : ((s.active.filter fun k => decide (k ≠ a)).filter fun k => decide (k ≠ b)) = (s.active.erase a).erase b := by
    rw [h1, (hnd.erase a).erase_eq_filter]
    congr 1
    funext k
    by_cases hk : k = b <;> simp [hk]
  have hb' : b ∈ s.active.erase a := (List.mem_erase_of_ne (Ne.symm hne)).2 hb
  have hrest : ∀ k ∈ (s.active.erase a).erase b, k ∈ s.active := fun k hk =>
    List.mem_of_mem_erase (List.mem_of_mem_erase hk)
  refine ⟨(s.active.erase a).erase b, ?_, ?_, hrest⟩
  · exact (List.perm_cons_erase ha).trans (((List.perm_cons_erase hb').cons a).trans (List.Perm.swap _ _ _))
  · unfold mergedActive
    rw [h2, insertActive_above fun m hm => hin m (hrest m hm)]
    exact List.perm_append_singleton _ _

/-- A merge keeps the forest, the second popped node on the left (R232). -/
theorem forest_merge {s : State} {a b : Nat} (hI : Inv s) (hp : s.phase = phaseCode .cMerge) (ha : a ∈ s.active)
    (hb : b ∈ s.active) (hne : a ≠ b) {tree : Nat → Tree} (h : Forest s tree) :
    Forest (merged s a b) fun k => if k = s.nNodes then .joint (tree b) (tree a) else tree k := by
  obtain ⟨hn, hroot, hnil, hcnt, hin, hcb⟩ := hI.merging (inPhase_of _ _ hp)
  have hlen := mergedActive_length hI.tables.activeForm ha hb hne hin
  have hcap : s.nNodes < Config.treeNodeCap := by
    have : 2 * Config.letterCap = Config.treeNodeCap + 1 := rfl
    have := List.length_pos_of_mem ha
    by_contra hc
    have h1 : s.active.length = 1 := by omega
    obtain ⟨r, hr⟩ := List.length_eq_one_iff.1 h1
    rw [hr, List.mem_singleton] at ha hb
    exact hne (ha.trans hb.symm)
  have hslot := merged_slot (a := a) (b := b) hI.tables.nodeForm
  have hold : ∀ j < s.nNodes, slotOf (merged s a b) j = slotOf s j := fun j hj => by
    rw [hslot, if_neg (Nat.ne_of_lt hj)]
  obtain ⟨rest, hperm, hperm', hrest⟩ := mergedActive_perm hI.tables.activeForm ha hb hne hin
  have hflat : ((mergedActive s a b).flatMap fun k => (if k = s.nNodes then Tree.joint (tree b) (tree a) else tree k).letters).Perm
      (s.active.flatMap fun k => (tree k).letters) := by
    refine (hperm'.flatMap_right _).trans (List.Perm.trans ?_ (hperm.flatMap_right _).symm)
    simp only [List.flatMap_cons, ↓reduceIte, Tree.letters, List.append_assoc]
    have : (rest.flatMap fun k => (if k = s.nNodes then Tree.joint (tree b) (tree a) else tree k).letters) =
        rest.flatMap fun k => (tree k).letters := by
      clear hperm hperm'
      induction rest with
      | nil => rfl
      | cons m rest ih =>
        have hm : m ≠ s.nNodes := Nat.ne_of_lt (hin m (hrest m List.mem_cons_self))
        rw [List.flatMap_cons, List.flatMap_cons, if_neg hm, ih fun k hk => hrest k (List.mem_cons_of_mem m hk)]
    rw [this]
  refine ⟨?_, hflat.nodup_iff.2 h.distinct, fun v => (hflat.mem_iff).trans (h.all v)⟩
  intro k hk
  rcases mem_mergedActive.1 hk with rfl | ⟨hk, -, -⟩
  · rw [if_pos rfl]
    refine treeAt_joint.2 ⟨hcap, ?_, ?_, ?_⟩
    · rw [hslot, if_pos rfl]; rfl
    · rw [hslot, if_pos rfl]; exact treeAt_old hcb hold (hin b hb) (h.trees b hb)
    · rw [hslot, if_pos rfl]; exact treeAt_old hcb hold (hin a ha) (h.trees a ha)
  · rw [if_neg (Nat.ne_of_lt (hin k hk))]
    exact treeAt_old hcb hold (hin k hk) (h.trees k hk)

/-- The one tree left holds the letters of the input (R233). -/
theorem Forest.root {s : State} {tree : Nat → Tree} (h : Forest s tree) {r : Nat} (hr : s.active = [r]) :
    treeAt s r (tree r) = true ∧ Holds s (tree r) := by
  have h2 := h.distinct
  have h3 := h.all
  rw [hr] at h2 h3
  simp only [List.flatMap_cons, List.flatMap_nil, List.append_nil] at h2 h3
  exact ⟨h.trees r (by rw [hr]; simp), h2, h3⟩

end Sys2Proof.Machine
end

