-- ==== Sys2Proof/Laws/PerInstr.lean ====
section
/-! SUPPORT. Statements made per instruction. RoundTrip: decoding the encoding of a well-formed instruction gives it back, whatever bits follow a tree token (30_encoding.md R151 to R153, R157, R158). -/

namespace Sys2Proof.Laws.RoundTrip

/-- Bits that follow an encoding in the stream: they follow a tree token, and nothing else. -/
def followedBy (rest : Bits) : Encoded → Encoded
  | .token l bits => .token l (bits ++ rest)
  | .command w => .command w
  | .phase c => .phase c

/-- The bits left over: those after a tree token. -/
def leftOver (rest : Bits) : Encoded → Bits
  | .token _ _ => rest
  | .command _ => []
  | .phase _ => []

/-- The encoding of `i`, in a stream of letters of any size that admits it, decodes to `i`. -/
def Statement (i : Instr) : Prop :=
  ∀ (letterSize : Nat) (rest : Bits), i.wellFormed letterSize = true →
    decode (followedBy rest (encode letterSize i)) = .ok (i, leftOver rest (encode letterSize i))

theorem compress : Statement .compress := fun _ _ _ => rfl
theorem decompress : Statement .decompress := fun _ _ _ => rfl

theorem illegalCommand (word : BitVec 64) : Statement (.illegalCommand word) := by
  intro letterSize rest h
  simp only [Instr.wellFormed, Bool.and_eq_true, decide_eq_true_eq] at h
  obtain ⟨h1, h2⟩ := h
  simp only [encode, followedBy, leftOver, decode, decodeCommand, if_neg h1, if_neg h2]

theorem treeLeaf (letter : BitVec 16) : Statement (.treeLeaf letter) := by
  intro letterSize rest h
  simp only [Instr.wellFormed, Bool.and_eq_true, decide_eq_true_eq] at h
  simp [encode, followedBy, leftOver, leafBits, decode, decodeToken, h.1, val_bin, Nat.mod_eq_of_lt h.2]

theorem treeJoint : Statement .treeJoint := by
  intro letterSize rest h
  simp only [Instr.wellFormed] at h
  simp [encode, followedBy, leftOver, jointBits, decode, decodeToken, h]

theorem phaseIdle : Statement .phaseIdle := fun _ _ _ => rfl
theorem phaseCSetup : Statement .phaseCSetup := fun _ _ _ => rfl
theorem phaseCCount : Statement .phaseCCount := fun _ _ _ => rfl
theorem phaseCLeaves : Statement .phaseCLeaves := fun _ _ _ => rfl
theorem phaseCMerge : Statement .phaseCMerge := fun _ _ _ => rfl
theorem phaseCCodegen : Statement .phaseCCodegen := fun _ _ _ => rfl
theorem phaseCHdr : Statement .phaseCHdr := fun _ _ _ => rfl
theorem phaseCTreeWr : Statement .phaseCTreeWr := fun _ _ _ => rfl
theorem phaseCEncode : Statement .phaseCEncode := fun _ _ _ => rfl
theorem phaseCRem : Statement .phaseCRem := fun _ _ _ => rfl
theorem phaseCPad : Statement .phaseCPad := fun _ _ _ => rfl
theorem phaseDSetup : Statement .phaseDSetup := fun _ _ _ => rfl
theorem phaseDHdr : Statement .phaseDHdr := fun _ _ _ => rfl
theorem phaseDTreeRd : Statement .phaseDTreeRd := fun _ _ _ => rfl
theorem phaseDDecode : Statement .phaseDDecode := fun _ _ _ => rfl
theorem phaseDRem : Statement .phaseDRem := fun _ _ _ => rfl
theorem phaseDFlush : Statement .phaseDFlush := fun _ _ _ => rfl
theorem phaseDone : Statement .phaseDone := fun _ _ _ => rfl
theorem phaseError : Statement .phaseError := fun _ _ _ => rfl

/-- A reserved code decodes to the reserved instruction of that code. -/
theorem decodePhase_reserved : ∀ c : BitVec 5, reservedPhase c = true → decodePhase c = .phaseReserved c := by decide

theorem phaseReserved (code : BitVec 5) : Statement (.phaseReserved code) := by
  intro letterSize rest h
  simp only [Instr.wellFormed] at h
  simp [encode, followedBy, leftOver, decode, decodePhase_reserved code h]

end Sys2Proof.Laws.RoundTrip
end

