-- ==== Sys2Proof/Laws/Steps.lean ====
section
/-! SUPPORT. Runs of many steps, put together from single steps, for any machine of Host/Core.lean. -/

namespace Sys2Proof.Machine

variable {M : Host.Core}

/-- A step that goes on, then the rest of the run. -/
theorem run_succ {k : Nat} {s t : M.State} (h : M.step s = .next t) : M.run (k + 1) s = M.run k t := by
  rw [Host.Core.run.eq_def]
  simp only [h]

theorem run_zero {s : M.State} : M.run 0 s = .next s := by rw [Host.Core.run.eq_def]

theorem run_one {s t : M.State} (h : M.step s = .next t) : M.run 1 s = .next t := by
  rw [run_succ h, Host.Core.run.eq_def]

/-- One run after another. -/
theorem run_add {j k : Nat} {s t : M.State} (h : M.run j s = .next t) : M.run (j + k) s = M.run k t := by
  induction j generalizing s with
  | zero =>
    rw [Host.Core.run.eq_def] at h
    cases h
    rw [Nat.zero_add]
  | succ j ih =>
    rcases hs : M.step s with u | r | r
    · rw [run_succ hs] at h
      rw [show j + 1 + k = j + k + 1 by omega, run_succ hs, ih h]
    · rw [Host.Core.run.eq_def] at h
      simp only [hs] at h
      cases h
    · rw [Host.Core.run.eq_def] at h
      simp only [hs] at h
      cases h

/-- A run of one more step than another that goes on. -/
theorem run_prefix {j k : Nat} {s t : M.State} (h : M.run (j + k) s = .next t) : ∃ u, M.run j s = .next u := by
  induction j generalizing s with
  | zero => exact ⟨s, by rw [Host.Core.run.eq_def]⟩
  | succ j ih =>
    rw [show j + 1 + k = j + k + 1 by omega] at h
    rcases hs : M.step s with u | r | r
    · rw [run_succ hs] at h
      obtain ⟨v, hv⟩ := ih h
      exact ⟨v, by rw [run_succ hs, hv]⟩
    · rw [Host.Core.run.eq_def] at h
      simp only [hs] at h
      cases h
    · rw [Host.Core.run.eq_def] at h
      simp only [hs] at h
      cases h

/-- A state that steps to itself is where every run from it ends. -/
theorem run_fixed {k : Nat} {s : M.State} (h : M.step s = .next s) : M.run k s = .next s := by
  induction k with
  | zero => rw [Host.Core.run.eq_def]
  | succ k ih => rw [run_succ h, ih]

end Sys2Proof.Machine
end

