-- ==== Sys2Proof/Laws/Progress.lean ====
section
/-! SUPPORT. The step of a phase as one statement over the phases, and a bound on the steps an operation still takes (70_reset_and_hazards.md R721). -/

namespace Sys2Proof.Machine

theorem phase_of_legal {c : BitVec 5} (h : reservedPhase c = false) : ∃ p, c = phaseCode p := by
  have hd : ∀ n < 32, reservedPhase (BitVec.ofNat 5 n) = false →
      ∃ p ∈ ([.idle, .cSetup, .cCount, .cLeaves, .cMerge, .cCodegen, .cHdr, .cTreeWr, .cEncode, .cRem, .cPad, .dSetup,
        .dHdr, .dTreeRd, .dDecode, .dRem, .dFlush, .done, .error] : List Phase), BitVec.ofNat 5 n = phaseCode p := by
    decide
  have := hd c.toNat c.isLt
  rw [BitVec.ofNat_toNat, BitVec.setWidth_eq] at this
  obtain ⟨p, -, h⟩ := this h
  exact ⟨p, h⟩

/-- The rule of a phase (30_encoding.md R153); a quiescent phase has none. -/
def phaseRule : Phase → State → Run State
  | .idle | .done | .error => .ok
  | .cSetup => cSetup
  | .cCount => cCount
  | .cLeaves => cLeaves
  | .cMerge => cMerge
  | .cCodegen => cCodegen
  | .cHdr => cHdr
  | .cTreeWr => cTreeWr
  | .cEncode => cEncode
  | .cRem => cRem
  | .cPad => finishOutput
  | .dSetup => dSetup
  | .dHdr => dHdr
  | .dTreeRd => dTreeRd
  | .dDecode => dDecode
  | .dRem => dRem
  | .dFlush => finishOutput

theorem exec_phase (p : Phase) (s : State) : exec (decodePhase (phaseCode p)) s = endStep p (phaseRule p s) := by
  cases p <;> rfl

/-- The kinds of error a phase raises (60_exceptions.md R600). -/
def phaseKinds : Phase → List ErrorKind
  | .idle | .done | .error | .cLeaves | .cMerge | .cCodegen | .dFlush => []
  | .cSetup => [.invalidArgument, .io]
  | .cCount | .cHdr | .cTreeWr | .cRem | .cPad | .dSetup => [.io]
  | .cEncode => [.io, .internal]
  | .dHdr | .dTreeRd | .dDecode | .dRem => [.io, .corrupt]

theorem phaseRule_safe {s : State} (h : Inv s) {p : Phase} (hp : s.phase = phaseCode p) :
    Run.safe s (phaseKinds p) (phaseRule p s) := by
  cases p
  case idle | done | error => exact ⟨h, .refl s⟩
  case cSetup => exact cSetup_safe h hp
  case cCount => exact cCount_safe h hp
  case cLeaves => exact cLeaves_safe h hp
  case cMerge => exact cMerge_safe h hp
  case cCodegen => exact cCodegen_safe h hp
  case cHdr => exact cHdr_safe h hp
  case cTreeWr => exact cTreeWr_safe h hp
  case cEncode => exact cEncode_safe h hp
  case cRem => exact cRem_safe h hp
  case cPad => exact finishOutput_safe (h.running hp (by decide))
  case dFlush =>
    have hs := finishOutput_safe (h.running hp (by decide))
    have he : phaseRule .dFlush s = .ok (finish s.wrPos s) := (dFlush_exact h hp).2.2
    rw [he]
    exact post_of_ok (P := fun t => Inv t ∧ HostKept s t) hs he
  case dSetup => exact dSetup_safe h hp
  case dHdr => exact dHdr_safe h hp
  case dTreeRd => exact dTreeRd_safe h hp
  case dDecode => exact dDecode_safe h hp
  case dRem => exact dRem_safe h hp

/-- The step of a phase goes on: with the rule's next state, or into ERROR with a kind the phase raises. -/
theorem exec_phase_cases {s : State} (h : Inv s) {p : Phase} (hp : s.phase = phaseCode p) :
    ∃ t, exec (decodePhase s.phase) s = .next t ∧ Inv t ∧ HostKept s t ∧
      (phaseRule p s = .ok t ∨
        ∃ e u, phaseRule p s = .error (.raise e u) ∧ t = takeError e p u ∧ Raised s (phaseKinds p) e u) := by
  have hs := phaseRule_safe h hp
  rw [hp, exec_phase]
  rcases hr : phaseRule p s with (⟨e, u⟩ | f) | t
  · rw [hr] at hs
    have hu : Raised s (phaseKinds p) e u := hs
    exact ⟨_, rfl, hu.inv h p, hu.2.1.trans (.takeError e p u), .inr ⟨e, u, rfl, rfl, hu⟩⟩
  · rw [hr] at hs; exact hs.elim
  · rw [hr] at hs; exact ⟨t, rfl, hs.1, hs.2, .inl rfl⟩

/-- The step of the machine with no input to come. -/
theorem step_alone {s : State} (h : s.inputs = []) : step s = exec (decodePhase s.phase) s := by
  unfold step nextMove
  rw [h]

/-! ## The steps an operation still takes -/

/-- A bound on the steps an operation takes from a phase (R721). -/
def phaseBound : Phase → State → Nat
  | .idle, _ | .done, _ | .error, _ => 0
  | .cSetup, _ | .dSetup, _ => 2 ^ 68
  | .dHdr, _ => 2 ^ 67
  | .cCount, s => (s.n - s.i) + s.n + 131081
  | .cLeaves, s => s.n + 131081
  | .cMerge, s => s.n + s.active.length + 8
  | .cCodegen, s => s.n + 7
  | .cHdr, s => s.n + 6
  | .cTreeWr, s | .dTreeRd, s => s.n + 5
  | .cEncode, s | .dDecode, s => (s.n - s.i) + 4
  | .cRem, _ | .dRem, _ => 3
  | .cPad, _ | .dFlush, _ => 2

theorem n_bound {s : State} (h : letterSizeOk s.l.toNat = true ∧ sizesHold s = true) : s.n ≤ 2 ^ 66 := by
  obtain ⟨h1, -⟩ := letterSizeOk_iff.1 h.1
  rw [(sizesHold_iff.1 h.2).2.1]
  have hf := s.f.isLt
  refine le_trans (Nat.div_le_div_left h1 (by decide)) ?_
  omega

/-- A rule that goes on leads to a phase other than ERROR, from which fewer steps are left. -/
theorem phaseRule_bound {s t : State} (h : Inv s) {p : Phase} (hp : s.phase = phaseCode p) (hq : p ∉ [.idle, .done, .error])
    (ht : phaseRule p s = .ok t) (hI : Inv t) :
    ∃ q, t.phase = phaseCode q ∧ q ≠ .error ∧ phaseBound q t < phaseBound p s := by
  cases p
  case idle | done | error => exact absurd (by decide) hq
  case cSetup =>
    obtain ⟨hl, hc, e⟩ := cSetup_next ht
    by_cases hn : 0 < t.n
    · have hp' : t.phase = phaseCode .cCount := by
        rw [e] at hn ⊢
        exact congrArg phaseCode (if_pos hn)
      have := n_bound (hI.sized (inPhase_of _ _ hp'))
      exact ⟨.cCount, hp', by decide, by simp only [phaseBound]; omega⟩
    · have hp' : t.phase = phaseCode .cHdr := by
        rw [e] at hn ⊢
        exact congrArg phaseCode (if_neg hn)
      exact ⟨.cHdr, hp', by decide, by simp only [phaseBound]; omega⟩
  case cCount =>
    have hi := (h.counting (inPhase_of _ _ hp)).1
    have e := cCount_next h hp ht
    have e1 : t.i = s.i + 1 ∧ t.n = s.n ∧ t.phase = if s.i + 1 = s.n then phaseCode .cLeaves else s.phase := by
      rw [e]; exact ⟨rfl, rfl, rfl⟩
    obtain ⟨e1, e2, e3⟩ := e1
    by_cases hl : s.i + 1 = s.n
    · rw [if_pos hl] at e3
      exact ⟨.cLeaves, e3, by decide, by simp only [phaseBound, e2]; omega⟩
    · rw [if_neg hl, hp] at e3
      exact ⟨.cCount, e3, by decide, by simp only [phaseBound, e1, e2]; omega⟩
  case cLeaves =>
    have e := (cLeaves_next h hp ht).2
    have e1 : t.n = s.n ∧ t.phase = phaseCode .cMerge := by rw [e]; exact ⟨rfl, rfl⟩
    have hc := (hI.merging (inPhase_of _ _ e1.2)).2.2.2.1
    have : 2 * Config.letterCap = 131072 := rfl
    exact ⟨.cMerge, e1.2, by decide, by simp only [phaseBound, e1.1]; omega⟩
  case cMerge =>
    obtain ⟨hn, hroot, hne, hcnt, hin, hcb⟩ := h.merging (inPhase_of _ _ hp)
    rcases cMerge_next h hp ht with ⟨r, hr, rfl⟩ | ⟨a, b, ha, hb, hab, rfl⟩
    · refine ⟨.cCodegen, rfl, by decide, ?_⟩
      simp only [phaseBound, hr, List.length_singleton]
      omega
    · refine ⟨.cMerge, hp, by decide, ?_⟩
      have := mergedActive_length h.tables.activeForm ha hb hab hin
      change s.n + (mergedActive s a b).length + 8 < s.n + s.active.length + 8
      omega
  case cCodegen =>
    obtain ⟨r, tree, -, -, -, rfl⟩ := cCodegen_next h hp ht
    exact ⟨.cHdr, rfl, by decide, by simp only [phaseBound]; omega⟩
  case cHdr =>
    obtain ⟨u, hu, rfl⟩ := cHdr_next h hp ht
    have e : u.n = s.n := by rw [hu.frame]
    by_cases h0 : s.root = none
    · exact ⟨.cRem, if_pos h0, by decide, by simp only [phaseBound]; omega⟩
    · exact ⟨.cTreeWr, if_neg h0, by decide, by simp only [phaseBound, e]; omega⟩
  case cTreeWr =>
    obtain ⟨r, tree, u, -, -, hu, rfl⟩ := cTreeWr_next h hp ht
    have e : u.n = s.n := by rw [hu.frame]
    exact ⟨.cEncode, rfl, by decide, by simp only [phaseBound, e]; omega⟩
  case cEncode =>
    have hi := h.encoding (inPhase_of _ _ hp)
    obtain ⟨u, -, hu, rfl⟩ := cEncode_next h hp ht
    have e : u.n = s.n := by rw [hu.frame]
    by_cases hl : s.i + 1 = s.n
    · exact ⟨.cRem, if_pos hl, by decide, by simp only [phaseBound]; omega⟩
    · exact ⟨.cEncode, (if_neg hl).trans hp, by decide, by simp only [phaseBound, e]; omega⟩
  case cRem =>
    obtain ⟨u, -, rfl⟩ := cRem_next h hp ht
    exact ⟨.cPad, rfl, by decide, by simp only [phaseBound]; omega⟩
  case cPad | dFlush =>
    obtain ⟨u, -, rfl⟩ := finishOutput_next (h.running hp (by decide)) ht
    exact ⟨.done, rfl, by decide, by simp only [phaseBound]; omega⟩
  case dSetup =>
    obtain ⟨-, ⟨-, rfl⟩ | ⟨-, rfl⟩⟩ := dSetup_next ht
    · exact ⟨.done, rfl, by decide, by simp only [phaseBound]; omega⟩
    · exact ⟨.dHdr, rfl, by decide, by simp only [phaseBound]; omega⟩
  case dHdr =>
    obtain ⟨-, -, e⟩ := dHdr_next h hp ht
    have e1 := congrArg State.phase e
    dsimp only at e1
    split at e1
    · have := n_bound (hI.sized (inPhase_of _ _ e1))
      exact ⟨.dTreeRd, e1, by decide, by simp only [phaseBound]; omega⟩
    · exact ⟨.dRem, e1, by decide, by simp only [phaseBound]; omega⟩
  case dTreeRd =>
    rcases dTreeRd_next h hp ht with ⟨-, rfl⟩ | ⟨k, u, -, hu, rfl⟩
    · exact ⟨.done, rfl, by decide, by simp only [phaseBound]; omega⟩
    · have e : u.n = s.n := by rw [hu.frame]
      exact ⟨.dDecode, rfl, by decide, by simp only [phaseBound, e]; omega⟩
  case dDecode =>
    have hi := (h.decoding (inPhase_of _ _ hp)).1
    obtain ⟨v, u, w, -, hu, hw, rfl⟩ := dDecode_next h hp ht
    have e : w.n = s.n := by rw [hw.frame, hu.frame]
    by_cases hl : s.i + 1 = s.n
    · exact ⟨.dRem, if_pos hl, by decide, by simp only [phaseBound]; omega⟩
    · exact ⟨.dDecode, (if_neg hl).trans hp, by decide, by simp only [phaseBound, e]; omega⟩
  case dRem =>
    obtain ⟨u, -, -, rfl⟩ := dRem_next h hp ht
    exact ⟨.dFlush, rfl, by decide, by simp only [phaseBound]; omega⟩

end Sys2Proof.Machine
end

