-- ==== Sys2Proof/Laws/Port.lean ====
section
/-! SUPPORT. What a part of a step does with the answers of the memory port, from whatever state: it uses them up in order, goes on only over ok, and raises Io at a fault (20_memory.md R103, 60_exceptions.md R604 (c)). -/

namespace Sys2Proof.Machine

/-- From `s` to `t` some answers were used up, each ok. -/
def PortUsed (s t : State) : Prop := ∃ oks, s.port = oks ++ t.port ∧ ∀ a ∈ oks, a = PortAnswer.ok

/-- A raise used up answers that are ok, or is Io at the fault that ends them. -/
def PortRaised (s : State) (e : ErrorKind) (t : State) : Prop :=
  PortUsed s t ∨ e = .io ∧ ∃ oks, s.port = oks ++ .fault :: t.port ∧ ∀ a ∈ oks, a = PortAnswer.ok

/-- A part of a step asks the port so; `out` is the state in its result. -/
abbrev Run.asks {α : Type} (out : α → State) (s : State) (x : Run α) : Prop :=
  Run.post (fun a => PortUsed s (out a)) (PortRaised s) (fun _ => True) x

theorem PortUsed.of_port {s t : State} (h : t.port = s.port) : PortUsed s t := ⟨[], h.symm, by simp⟩

theorem PortUsed.refl (s : State) : PortUsed s s := .of_port rfl

theorem PortUsed.trans {s t u : State} (h : PortUsed s t) (h' : PortUsed t u) : PortUsed s u := by
  obtain ⟨xs, hx, hxs⟩ := h
  obtain ⟨ys, hy, hys⟩ := h'
  refine ⟨xs ++ ys, by rw [hx, hy, List.append_assoc], fun a ha => ?_⟩
  exact (List.mem_append.1 ha).elim (hxs a) (hys a)

theorem PortUsed.raised {s t u : State} {e : ErrorKind} (h : PortUsed s t) (h' : PortRaised t e u) : PortRaised s e u := by
  rcases h' with h' | ⟨he, ys, hy, hys⟩
  · exact .inl (h.trans h')
  · obtain ⟨xs, hx, hxs⟩ := h
    refine .inr ⟨he, xs ++ ys, by rw [hx, hy, List.append_assoc], fun a ha => ?_⟩
    exact (List.mem_append.1 ha).elim (hxs a) (hys a)

section
variable {α β : Type} {out : α → State} {out' : β → State} {s : State}

theorem asks_after {t : State} {x : Run α} (h : PortUsed s t) (hx : Run.asks out t x) : Run.asks out s x :=
  post_mono hx (fun _ ha => h.trans ha) (fun _ _ hr => h.raised hr) (fun _ _ => trivial)

theorem asks_ok {a : α} (h : (out a).port = s.port) : Run.asks out s (.ok a) := PortUsed.of_port h

theorem asks_raise {e : ErrorKind} {t : State} (h : t.port = s.port) : Run.asks out s (raise e t) := .inl (.of_port h)

theorem asks_bind {x : Run α} {f : α → Run β} (hx : Run.asks out s x) (hf : ∀ a, Run.asks out' (out a) (f a)) :
    Run.asks out' s (x >>= f) := by
  rw [Run.asks, post_bind]
  exact post_mono hx (fun a ha => asks_after ha (hf a)) (fun _ _ h => h) (fun _ _ => trivial)

/-- A part that answers no state and asks nothing of the port. -/
theorem asks_bind_pure {x : Run α} {f : α → Run β} (hx : Run.post (fun _ => True) (fun _ _ => False) (fun _ => True) x)
    (hf : ∀ a, Run.asks out' s (f a)) : Run.asks out' s (x >>= f) := by
  rw [Run.asks, post_bind]
  exact post_mono hx (fun a _ => hf a) (fun _ _ h => h.elim) (fun _ _ => trivial)

end

/-! ## The memory port and the bit reader and writer -/

theorem memRead_asks (a : Nat) (s : State) : Run.asks Prod.snd s (memRead a s) := by
  unfold memRead drawPort
  split
  · rcases hp : s.port with _ | ⟨_ | _, rest⟩
    · exact asks_ok rfl
    · exact ⟨[.ok], hp, by simp⟩
    · exact .inr ⟨rfl, [], hp, by simp⟩
  · trivial

theorem memWrite_asks (a : Nat) (v : Byte) (s : State) : Run.asks id s (memWrite a v s) := by
  unfold memWrite drawPort
  split
  · exact asks_raise rfl
  · rcases hp : s.port with _ | ⟨_ | _, rest⟩
    · exact asks_ok rfl
    · exact ⟨[.ok], hp, by simp⟩
    · exact .inr ⟨rfl, [], hp, by simp⟩

theorem inputBits_asks (p w : Nat) (s : State) : Run.asks Prod.snd s (inputBits p w s) := by
  unfold inputBits
  generalize 0 = acc
  induction w generalizing p acc s with
  | zero => exact asks_ok rfl
  | succ w ih => exact asks_bind (asks_bind (memRead_asks _ s) fun _ => asks_ok rfl) fun _ => ih _ _ _

theorem readBits_asks (w : Nat) (s : State) : Run.asks Prod.snd s (readBits w s) := by
  unfold readBits
  split
  · exact asks_ok rfl
  · exact asks_bind (inputBits_asks _ w s) fun _ => asks_ok rfl

theorem readOrCorrupt_asks (w : Nat) (s : State) : Run.asks Prod.snd s (readOrCorrupt w s) := by
  refine asks_bind (readBits_asks w s) fun ⟨r, t⟩ => ?_
  cases r
  · exact asks_raise rfl
  · exact asks_ok rfl

theorem nextByte_port (s : State) : (nextByte s).port = s.port := by unfold nextByte; split <;> rfl

theorem writeBit_asks (b : Bool) (s : State) : Run.asks id s (writeBit b s) := by
  unfold writeBit
  dsimp only
  split
  · exact asks_bind (asks_after (.of_port rfl) (memWrite_asks _ _ _)) fun t => asks_ok (nextByte_port t)
  · exact asks_ok rfl

theorem writeString_asks (bs : Bits) (s : State) : Run.asks id s (writeString bs s) := by
  induction bs generalizing s with
  | nil => exact asks_ok rfl
  | cons b bs ih => exact asks_bind (writeBit_asks b s) fun t => ih t

theorem writeBits_asks (w v : Nat) (s : State) : Run.asks id s (writeBits w v s) := writeString_asks _ s

theorem flush_asks (s : State) : Run.asks id s (flush s) := by
  unfold flush
  generalize 7 = fuel
  induction fuel generalizing s with
  | zero => rw [flushLoop]; split <;> first | exact asks_ok rfl | trivial
  | succ fuel ih =>
    rw [flushLoop]
    split
    · exact asks_ok rfl
    · exact asks_bind (writeBit_asks false s) fun t => ih t

/-! ## Tables ask nothing -/

theorem nodeAt_pure (k : Nat) (s : State) : Run.post (fun _ => True) (fun _ _ => False) (fun _ => True) (nodeAt k s) := by
  unfold nodeAt; split <;> trivial

theorem rootNode_pure (s : State) : Run.post (fun _ => True) (fun _ _ => False) (fun _ => True) (rootNode s) := by
  unfold rootNode; split <;> trivial

theorem letterIndex_pure (v : Nat) : Run.post (fun _ => True) (fun _ _ => False) (fun _ => True) (letterIndex v) := by
  unfold letterIndex; split <;> trivial

theorem setNode_asks (k : Nat) (slot : NodeSlot) (s : State) : Run.asks id s (setNode k slot s) := by
  unfold setNode
  split
  · exact asks_ok rfl
  · trivial

theorem leaveAtEnd_port (p : Phase) (s : State) : (leaveAtEnd p s).port = s.port := by rw [leaveAtEnd_eq]

/-! ## The rules of the phases -/

theorem inputLetter_asks (k : Nat) (s : State) : Run.asks Prod.snd s (inputLetter k s) := inputBits_asks _ _ s

theorem addLeaves_asks (es : List (Nat × Nat)) (s : State) : Run.asks id s (addLeaves es s) := by
  induction es generalizing s with
  | nil => exact asks_ok rfl
  | cons e es ih => exact asks_bind (asks_bind (setNode_asks _ _ s) fun _ => asks_ok rfl) fun t => ih t

theorem popMin_asks (s : State) : Run.asks Prod.snd s (popMin s) := by
  unfold popMin
  split
  · trivial
  · exact asks_ok rfl

theorem mergeTwo_asks (s : State) : Run.asks id s (mergeTwo s) :=
  asks_bind (popMin_asks s) fun _ => asks_bind (popMin_asks _) fun _ =>
    asks_bind_pure (nodeAt_pure _ _) fun _ => asks_bind_pure (nodeAt_pure _ _) fun _ =>
      asks_bind (setNode_asks _ _ _) fun _ => asks_ok rfl

theorem codeWalk_asks (fuel k : Nat) (path : Bits) (s : State) : Run.asks id s (codeWalk fuel k path s) := by
  induction fuel generalizing k path s with
  | zero => trivial
  | succ fuel ih =>
    refine asks_bind_pure (nodeAt_pure _ _) fun x => ?_
    split
    · exact asks_ok rfl
    · exact asks_bind (ih _ _ s) fun t => ih _ _ t

theorem serialize_asks (fuel k : Nat) (s : State) : Run.asks id s (serialize fuel k s) := by
  induction fuel generalizing k s with
  | zero => trivial
  | succ fuel ih =>
    refine asks_bind_pure (nodeAt_pure _ _) fun x => ?_
    split
    · exact writeString_asks _ s
    · exact asks_bind (writeString_asks _ s) fun t => asks_bind (ih _ t) fun u => ih _ u

theorem finishOutput_asks (s : State) : Run.asks id s (finishOutput s) :=
  asks_bind (flush_asks s) fun _ => asks_ok rfl

theorem allocNode_asks (s : State) : Run.asks Prod.snd s (allocNode s) := by
  unfold allocNode
  split
  · exact asks_raise rfl
  · exact asks_ok rfl

theorem deliver_asks (k : Nat) (ps : List PendingJoint) (s : State) : Run.asks id s (deliver k ps s) := by
  induction ps generalizing k s with
  | nil => exact asks_ok rfl
  | cons j ps ih =>
    obtain ⟨j, _ | l⟩ := j
    · exact asks_ok rfl
    · exact asks_bind (setNode_asks _ _ s) fun t => ih j t

theorem placeLeaf_asks (k : Nat) (v : BitVec 16) (s : State) : Run.asks id s (placeLeaf k v s) :=
  asks_bind (setNode_asks _ _ s) fun t => deliver_asks k _ t

theorem readToken_asks (s : State) : Run.asks id s (readToken s) := by
  refine asks_bind (allocNode_asks s) fun _ => asks_bind (readOrCorrupt_asks 1 _) fun r => ?_
  dsimp only
  split
  · exact asks_bind (readOrCorrupt_asks _ _) fun _ => placeLeaf_asks _ _ _
  · exact asks_ok rfl

theorem readTree_asks (s : State) : Run.asks id s (readTree s) := by
  unfold readTree
  refine asks_after (.of_port rfl) (t := { s with pending := [] }) ?_
  generalize s.inBits - s.rdPos + 1 = fuel
  generalize { s with pending := [] } = s
  induction fuel generalizing s with
  | zero => trivial
  | succ fuel ih =>
    refine asks_bind (readToken_asks s) fun t => ?_
    split
    · exact asks_ok rfl
    · exact ih t

theorem treeWalk_asks (fuel k : Nat) (s : State) : Run.asks Prod.snd s (treeWalk fuel k s) := by
  induction fuel generalizing k s with
  | zero => trivial
  | succ fuel ih =>
    refine asks_bind_pure (nodeAt_pure _ _) fun x => ?_
    split
    · exact asks_ok rfl
    · exact asks_bind (readOrCorrupt_asks 1 s) fun r => ih _ r.2

theorem decodeLetter_asks (s : State) : Run.asks Prod.snd s (decodeLetter s) := by
  refine asks_bind_pure (rootNode_pure s) fun k => asks_bind_pure (nodeAt_pure _ _) fun x => ?_
  split
  · exact asks_bind (readOrCorrupt_asks 1 s) fun _ => asks_ok rfl
  · exact treeWalk_asks _ _ s

/-- Every phase's rule asks the port so (R103, R604 (c)). -/
theorem phaseRule_asks (p : Phase) (s : State) : Run.asks id s (phaseRule p s) := by
  cases p
  case idle | done | error => exact asks_ok rfl
  case cSetup =>
    change Run.asks id s (cSetup s)
    unfold cSetup
    dsimp only
    split
    · split
      · exact asks_raise rfl
      · exact asks_ok rfl
    · exact asks_raise rfl
  case cCount =>
    exact asks_bind (inputLetter_asks _ s) fun _ => asks_bind_pure (letterIndex_pure _) fun _ =>
      asks_ok (leaveAtEnd_port _ _)
  case cLeaves => exact asks_bind (addLeaves_asks _ s) fun _ => asks_ok rfl
  case cMerge =>
    change Run.asks id s (cMerge s)
    unfold cMerge
    split
    · exact asks_ok rfl
    · exact mergeTwo_asks s
  case cCodegen =>
    refine asks_bind_pure (rootNode_pure s) fun k => asks_bind_pure (nodeAt_pure _ _) fun x => ?_
    dsimp only
    split
    · exact asks_ok rfl
    · exact asks_bind (codeWalk_asks _ _ _ s) fun _ => asks_ok rfl
  case cHdr =>
    exact asks_bind (writeBits_asks _ _ s) fun t => asks_bind (writeBits_asks _ _ t) fun _ => asks_ok rfl
  case cTreeWr =>
    exact asks_bind_pure (rootNode_pure s) fun _ => asks_bind (serialize_asks _ _ s) fun _ => asks_ok rfl
  case cEncode =>
    refine asks_bind (inputLetter_asks _ s) fun r => asks_bind_pure (letterIndex_pure _) fun v => ?_
    split
    · exact asks_bind (writeString_asks _ _) fun _ => asks_ok (leaveAtEnd_port _ _)
    · exact asks_raise rfl
  case cRem =>
    change Run.asks id s (cRem s)
    unfold cRem
    dsimp only
    split
    · exact asks_bind (asks_bind (inputBits_asks _ _ s) fun _ => writeBits_asks _ _ _) fun _ => asks_ok rfl
    · exact asks_ok rfl
  case cPad | dFlush => exact finishOutput_asks s
  case dSetup =>
    change Run.asks id s (dSetup s)
    unfold dSetup
    dsimp only
    split
    · exact asks_raise rfl
    · split <;> exact asks_ok rfl
  case dHdr =>
    refine asks_bind (readOrCorrupt_asks 8 s) fun r => ?_
    dsimp only
    split
    · exact asks_bind (asks_after (.of_port rfl) (readOrCorrupt_asks 64 _)) fun _ => asks_ok rfl
    · exact asks_raise rfl
  case dTreeRd =>
    change Run.asks id s (dTreeRd s)
    unfold dTreeRd
    split
    · exact asks_ok rfl
    · exact asks_bind (readTree_asks s) fun _ => asks_ok rfl
  case dDecode =>
    exact asks_bind (decodeLetter_asks s) fun _ => asks_bind (writeBits_asks _ _ _) fun _ => asks_ok (leaveAtEnd_port _ _)
  case dRem =>
    change Run.asks id s (dRem s)
    unfold dRem
    dsimp only
    split
    · exact asks_bind (asks_bind (readOrCorrupt_asks _ s) fun _ => writeBits_asks _ _ _) fun _ => asks_ok rfl
    · exact asks_ok rfl

/-! ## The port's next answer a fault -/

section
variable {s : State} {answers : List PortAnswer} (hp : s.port = .fault :: answers)
include hp

theorem memWrite_fault {a : Nat} (v : Byte) (ha : a < s.outCap) : memWrite a v s = raise .io { s with port := answers } := by
  unfold memWrite drawPort
  rw [if_neg (Nat.not_le.2 ha), hp]

theorem readOrCorrupt_fault {w : Nat} (hr : readerOk s = true) (hle : s.rdPos + w ≤ s.inBits) (hw : 0 < w) :
    readOrCorrupt w s = raise .io { s with port := answers } := by
  obtain ⟨⟨h1, h2⟩, -⟩ := readerOk_iff.1 hr
  unfold readOrCorrupt readBits
  rw [if_neg (by omega), inputBits_fault hp (readable_iff.2 ⟨by omega, h2⟩) hw]
  rfl

/-- A bit that completes a byte meets the fault. -/
theorem writeBit_fault (b : Bool) (hc : s.wrCnt + 1 = 8) (hw : s.wrPos.toNat < s.outCap) :
    writeBit b s = raise .io { shiftIn b s with port := answers } := by
  unfold writeBit
  dsimp only
  rw [if_pos (show (shiftIn b s).wrCnt = 8 from hc),
    memWrite_fault (s := shiftIn b s) (a := (shiftIn b s).wrPos.toNat) hp _ hw]
  rfl

end

/-- A read whose bytes the port answers with ok, whatever it answers after them. -/
theorem inBitsFrom_answered {w p acc : Nat} {s : State} {rest : List PortAnswer} (h : readable s p w = true)
    (hp : s.port = List.replicate w .ok ++ rest) :
    inBitsFrom w p acc s = .ok (acc * 2 ^ w + val (inputSlice s p w), { s with port := rest }) := by
  obtain ⟨h1, h2⟩ := readable_iff.1 h
  induction w generalizing p acc s with
  | zero =>
    obtain rfl : s.port = rest := hp
    rw [inBitsFrom, pow_zero, Nat.mul_one]
    rfl
  | succ w ih =>
    rw [List.replicate_succ, List.cons_append] at hp
    have hb : inBit p s = .ok ((inputBit s p).toNat, { s with port := List.replicate w .ok ++ rest }) := by
      unfold inBit memRead drawPort
      rw [if_pos ⟨by omega, h2⟩, hp]
      simp [bitOfByte_eq, inputBit]
    rw [inBitsFrom, hb, run_bind_ok]
    dsimp only
    rw [ih (s := { s with port := List.replicate w .ok ++ rest })
      (readable_iff.2 ⟨by change _ ≤ 8 * s.inLen.toNat; omega, h2⟩) rfl (by change _ ≤ 8 * s.inLen.toNat; omega) h2,
      inputSlice_cons, val_cons]
    simp only [inputSlice_port, inputSlice_length, Except.ok.injEq, Prod.mk.injEq, and_true]
    ring

theorem inputBits_answered {w p : Nat} {s : State} {rest : List PortAnswer} (h : readable s p w = true)
    (hp : s.port = List.replicate w .ok ++ rest) :
    inputBits p w s = .ok (val (inputSlice s p w), { s with port := rest }) := by
  have := inBitsFrom_answered (acc := 0) h hp
  rwa [Nat.zero_mul, Nat.zero_add] at this

theorem writeBit_within (b : Bool) {s : State} (hc : s.wrCnt + 1 ≠ 8) : writeBit b s = .ok (shiftIn b s) := if_neg hc

/-- Bits that complete a byte meet the fault at the first they complete. -/
theorem writeString_fault {bs : Bits} {s : State} {answers : List PortAnswer} (hp : s.port = .fault :: answers)
    (hc : s.wrCnt < 8) (hb : 8 ≤ s.wrCnt + bs.length) (hw : s.wrPos.toNat < s.outCap) :
    ∃ t, writeString bs s = raise .io t ∧ t = { s with port := answers, wrAcc := t.wrAcc, wrCnt := t.wrCnt } := by
  induction bs generalizing s with
  | nil => rw [List.length_nil] at hb; omega
  | cons b bs ih =>
    rw [List.length_cons] at hb
    unfold writeString
    by_cases h8 : s.wrCnt + 1 = 8
    · rw [writeBit_fault hp b h8 hw]
      exact ⟨_, rfl, rfl⟩
    · rw [writeBit_within b h8, run_bind_ok]
      refine ih (s := shiftIn b s) hp ?_ ?_ hw <;> simp only [shiftIn_wrCnt] <;> omega

theorem flush_fault {s : State} {answers : List PortAnswer} (hp : s.port = .fault :: answers) (h0 : 0 < s.wrCnt)
    (hc : s.wrCnt < 8) (hw : s.wrPos.toNat < s.outCap) :
    ∃ t, flush s = raise .io t ∧ t = { s with port := answers, wrAcc := t.wrAcc, wrCnt := t.wrCnt } := by
  unfold flush
  have hb : 8 ≤ s.wrCnt + 7 := by omega
  revert hb
  generalize 7 = fuel
  intro hb
  induction fuel generalizing s with
  | zero => omega
  | succ fuel ih =>
    rw [flushLoop, if_neg h0.ne']
    by_cases h8 : s.wrCnt + 1 = 8
    · rw [writeBit_fault hp false h8 hw]
      exact ⟨_, rfl, rfl⟩
    · rw [writeBit_within false h8, run_bind_ok]
      refine ih (s := shiftIn false s) hp ?_ ?_ hw ?_ <;> simp only [shiftIn_wrCnt] <;> omega

end Sys2Proof.Machine
end

