-- ==== Sys2Proof/Tests/Slice0.lean ====
section
/-! SUPPORT. The model's own tests: what WellFormed refuses, words written out from the encodings of 30_encoding.md, one step of each instruction, and a state that meets the hypotheses of each statement. Expected values come from 95_test_vectors.md or from the rule named. -/

namespace Sys2Proof.Tests

open Sys2Proof Sys2Proof.Machine

/-! ## WellFormed refuses ill-formed terms -/

theorem test_wf_leaf_size_low : Instr.wellFormed 1 (.treeLeaf 0) = false := by decide
theorem test_wf_leaf_size_high : Instr.wellFormed 17 (.treeLeaf 0) = false := by decide
theorem test_wf_leaf_letter : Instr.wellFormed 8 (.treeLeaf 0x100) = false := by decide
theorem test_wf_leaf_fits : Instr.wellFormed 8 (.treeLeaf 0xFF) = true := by decide
theorem test_wf_joint_size : Instr.wellFormed 0 .treeJoint = false := by decide
theorem test_wf_illegal_one : Instr.wellFormed 8 (.illegalCommand 1) = false := by decide
theorem test_wf_illegal_two : Instr.wellFormed 8 (.illegalCommand 2) = false := by decide
theorem test_wf_reserved_low : Instr.wellFormed 8 (.phaseReserved 10) = false := by decide
theorem test_wf_reserved_high : Instr.wellFormed 8 (.phaseReserved 30) = false := by decide

/-! ## Words written out from the encodings: R151 to R153, R157, R158 -/

theorem test_decode_compress : decode (.command 0x0000000000000001) = .ok (.compress, []) := by decide
theorem test_decode_decompress : decode (.command 0x0000000000000002) = .ok (.decompress, []) := by decide
theorem test_decode_illegal :
    decode (.command 0x8000000000000001) = .ok (.illegalCommand 0x8000000000000001, []) := by decide
theorem test_decode_leaf :
    decode (.token 3 [false, true, false, true, true, true]) = .ok (.treeLeaf 5, [true, true]) := by decide
theorem test_decode_joint : decode (.token 3 [true, false, true]) = .ok (.treeJoint, [false, true]) := by decide
theorem test_decode_no_flag : decode (.token 3 []) = .error .noFlag := by decide
theorem test_decode_short_letter : decode (.token 3 [false, true, true]) = .error .shortLetter := by decide
theorem test_decode_size : decode (.token 17 [true]) = .error .letterSizeDomain := by decide
theorem test_decode_idle : decode (.phase 0b00000) = .ok (.phaseIdle, []) := by decide
theorem test_decode_c_setup : decode (.phase 0b00001) = .ok (.phaseCSetup, []) := by decide
theorem test_decode_c_count : decode (.phase 0b00010) = .ok (.phaseCCount, []) := by decide
theorem test_decode_c_leaves : decode (.phase 0b00011) = .ok (.phaseCLeaves, []) := by decide
theorem test_decode_c_merge : decode (.phase 0b00100) = .ok (.phaseCMerge, []) := by decide
theorem test_decode_c_codegen : decode (.phase 0b00101) = .ok (.phaseCCodegen, []) := by decide
theorem test_decode_c_hdr : decode (.phase 0b00110) = .ok (.phaseCHdr, []) := by decide
theorem test_decode_c_tree_wr : decode (.phase 0b00111) = .ok (.phaseCTreeWr, []) := by decide
theorem test_decode_c_encode : decode (.phase 0b01000) = .ok (.phaseCEncode, []) := by decide
theorem test_decode_c_rem : decode (.phase 0b01001) = .ok (.phaseCRem, []) := by decide
theorem test_decode_c_pad : decode (.phase 0b01010) = .ok (.phaseCPad, []) := by decide
theorem test_decode_d_setup : decode (.phase 0b10000) = .ok (.phaseDSetup, []) := by decide
theorem test_decode_d_hdr : decode (.phase 0b10001) = .ok (.phaseDHdr, []) := by decide
theorem test_decode_d_tree_rd : decode (.phase 0b10010) = .ok (.phaseDTreeRd, []) := by decide
theorem test_decode_d_decode : decode (.phase 0b10011) = .ok (.phaseDDecode, []) := by decide
theorem test_decode_d_rem : decode (.phase 0b10100) = .ok (.phaseDRem, []) := by decide
theorem test_decode_d_flush : decode (.phase 0b10101) = .ok (.phaseDFlush, []) := by decide
theorem test_decode_done : decode (.phase 0b11110) = .ok (.phaseDone, []) := by decide
theorem test_decode_error : decode (.phase 0b11111) = .ok (.phaseError, []) := by decide
theorem test_decode_reserved : decode (.phase 0b10110) = .ok (.phaseReserved 22, []) := by decide

/-- A table word of three stream bytes, the first byte in bits 7:0 (log 8): "0" and the letter 0x4142 in 16 bits are
0x20, 0xA1, 0x00. -/
theorem test_table_word_leaf : decodeTableWord 24 0x00A120 = some (.treeLeaf 0x4142) := by decide

theorem test_table_word_phase : decodeTableWord 8 0x13 = some .phaseDDecode := by decide

/-! ## States of the example of 95_test_vectors.md section 1.1: 41 41 41 42 with LSIZE = 8 -/

/-- What a field is after a step that goes on. -/
def afterStep {α : Type} (o : Host.Outcome State Fault Refusal) (f : State → α) : Option α :=
  match o with
  | .next s => some (f s)
  | .fault _ => none
  | .refused _ => none

def inputBytes : Memory := [(0, 0x41), (1, 0x41), (2, 0x41), (3, 0x42)]

def sIdle : State := { State.reset with lsize := 8, inLen := 4, ibuf := inputBytes }

/-- Entered by COMPRESS. -/
def sSetup : State := { sIdle with phase := 1 }

def sCount : State :=
  { sIdle with phase := 2, l := 8, f := 4, totalBits := 32, n := 4, usableBits := 32, remBits := 0, inBits := 32, i := 3
               freq := [(0x41, 3)] }

def sLeaves : State := { sCount with phase := 3, i := 4, freq := [(0x41, 3), (0x42, 1)] }

def leafNode (v : BitVec 16) (n : Nat) : NodeSlot := { NodeSlot.blank with letter := v, freq := n }

def sMerge : State :=
  { sLeaves with phase := 4, node := [(0, leafNode 0x41 3), (1, leafNode 0x42 1)], nNodes := 2, active := [0, 1] }

def jointNode (l r n : Nat) : NodeSlot := { NodeSlot.blank with kind := .joint, left := l, right := r, freq := n }

def sCodegen : State :=
  { sMerge with
    phase := 5, node := [(0, leafNode 0x41 3), (1, leafNode 0x42 1), (2, jointNode 0 1 4)], nNodes := 3, active := [2]
    root := some 2 }

def exampleTree : Machine.Tree := .joint (.leaf 0x41) (.leaf 0x42)

def exampleCodes : Table CodeEntry := [(0x41, ⟨true, 1, [false]⟩), (0x42, ⟨true, 1, [true]⟩)]

def sHdr : State := { sCodegen with phase := 6, code := exampleCodes }

def sTreeWr : State := { sHdr with phase := 7, wrPos := 9, obuf := [(0, 8), (8, 4)] }

def sEncode : State := { sTreeWr with phase := 8, i := 3, wrPos := 11, wrCnt := 6, wrAcc := 0b010000 }

def sPad : State := { sEncode with phase := 10, i := 4, wrCnt := 7, wrAcc := 0b0100001 }

/-- C_REM with a remainder: 41 41 41 42 in letters of 3 bits leaves the bits "10". -/
def sRem : State := { sPad with phase := 9, l := 3, n := 10, usableBits := 30, remBits := 2, wrCnt := 0, wrAcc := 0 }

/-- The artifact 08 00 00 00 00 00 00 00 04 90 48 42. -/
def artifactBytes : Memory := [(0, 0x08), (8, 0x04), (9, 0x90), (10, 0x48), (11, 0x42)]

def sDSetup : State := { State.reset with inLen := 12, ibuf := artifactBytes, phase := 16 }

def sDHdr : State := { sDSetup with phase := 17, inBits := 96 }

def sDTree : State :=
  { sDHdr with phase := 18, l := 8, f := 4, totalBits := 32, n := 4, usableBits := 32, remBits := 0, rdPos := 72 }

/-- As ReadTree numbers the nodes: the Joint first. -/
def sDDecode : State :=
  { sDTree with
    phase := 19, node := [(0, jointNode 1 2 0), (1, leafNode 0x41 0), (2, leafNode 0x42 0)], nNodes := 3, root := some 0
    rdPos := 94, i := 3, wrPos := 3, obuf := [(0, 0x41), (1, 0x41), (2, 0x41)] }

def sDFlush : State :=
  { sDDecode with phase := 21, i := 4, rdPos := 95, wrPos := 4, obuf := inputBytes }

/-- D_REM with a remainder: the letter size 3 and a file of one byte leave two bits. -/
def sDRem : State :=
  { sDDecode with phase := 20, l := 3, f := 1, totalBits := 8, n := 2, usableBits := 6, remBits := 2, wrPos := 0
                  wrCnt := 6, wrAcc := 0b010000, obuf := [] }

/-! ## One step of each instruction -/

theorem test_compress : afterStep (exec .compress sIdle) (fun t => (t.phase, t.outLen)) = some (1, 0) := by decide
theorem test_compress_busy : afterStep (exec .compress sCount) (·.phase) = some 2 := by decide
theorem test_decompress : afterStep (exec .decompress sIdle) (·.phase) = some 16 := by decide
/-- R403: STATUS of an illegal command, ERR_CODE 5 and ERR_PHASE 0, is 0x001F0506. -/
theorem test_illegal_command : afterStep (exec (.illegalCommand 3) sIdle) statusReg = some 0x001F0506 := by decide
theorem test_leaf_joins : afterStep (exec (.treeLeaf 0x42) { sDTree with nNodes := 2, pending := [⟨0, some 1⟩] })
    (fun t => (slotOf t 0, slotOf t 2, t.root)) = some (jointNode 1 2 0, leafNode 0x42 0, some 0) := by decide
theorem test_joint_pushes : afterStep (exec .treeJoint sDTree) (fun t => (t.nNodes, t.pending)) = some (1, [⟨0, none⟩]) := by
  decide
theorem test_idle : exec .phaseIdle sIdle = .next sIdle := rfl
/-- R201: F = 4 and L = 8 give 4 letters and no remainder. -/
theorem test_c_setup : afterStep (exec .phaseCSetup sSetup) (fun t => (t.n, t.remBits, t.phase)) = some (4, 0, 2) := by
  decide
theorem test_c_setup_rejects : afterStep (exec .phaseCSetup { sSetup with lsize := 17 }) statusReg = some 0x011F0106 := by
  decide
theorem test_c_count : afterStep (exec .phaseCCount sCount) (fun t => (t.freq, t.phase)) =
    some ([(0x41, 3), (0x42, 1)], 3) := by decide
theorem test_c_leaves : afterStep (exec .phaseCLeaves sLeaves) (fun t => (t.node, t.active)) =
    some ([(0, leafNode 0x41 3), (1, leafNode 0x42 1)], [0, 1]) := by decide
theorem test_c_merge : afterStep (exec .phaseCMerge sMerge) (fun t => (slotOf t 2, t.active)) =
    some (jointNode 0 1 4, [2]) := by decide
theorem test_c_merge_root : afterStep (exec .phaseCMerge { sCodegen with phase := 4, root := none })
    (fun t => (t.root, t.phase)) = some (some 2, 5) := by decide
theorem test_c_codegen : afterStep (exec .phaseCCodegen sCodegen) (·.code) = some exampleCodes := by decide +kernel
theorem test_c_hdr : afterStep (exec .phaseCHdr sHdr) (fun t => (t.obuf, t.phase)) = some ([(0, 8), (8, 4)], 7) := by
  decide +kernel
/-- The tree bits "1001000001001000010" are two bytes, 90 48, and "010". -/
theorem test_c_tree_wr : afterStep (exec .phaseCTreeWr sTreeWr) (fun t => (t.obuf, t.wrCnt, t.wrAcc)) =
    some ([(0, 8), (8, 4), (9, 0x90), (10, 0x48)], 3, 0b010) := by decide +kernel
theorem test_c_encode : afterStep (exec .phaseCEncode sEncode) (fun t => (t.wrCnt, t.wrAcc, t.phase)) =
    some (7, 0b0100001, 9) := by decide +kernel
theorem test_c_rem : afterStep (exec .phaseCRem sRem) (fun t => (t.wrCnt, t.wrAcc)) = some (2, 0b10) := by decide +kernel
theorem test_c_pad : afterStep (exec .phaseCPad sPad) (fun t => (Memory.read t.obuf 11, t.outLen, t.phase)) =
    some (0x42, 12, 30) := by decide +kernel
theorem test_d_setup_empty : afterStep (exec .phaseDSetup { sDSetup with inLen := 0 }) (fun t => (t.phase, t.outLen)) =
    some (30, 0) := by decide
theorem test_d_setup : afterStep (exec .phaseDSetup sDSetup) (fun t => (t.inBits, t.phase)) = some (96, 17) := by decide
theorem test_d_hdr : afterStep (exec .phaseDHdr sDHdr) (fun t => (t.l, t.f, t.n, t.phase)) = some (8, 4, 4, 18) := by
  decide +kernel
/-- 95_test_vectors.md section 2.5: letter_size 0 is Corrupt in D_HDR. -/
theorem test_d_hdr_rejects : afterStep (exec .phaseDHdr { sDHdr with ibuf := [] }) statusReg = some 0x111F0206 := by
  decide +kernel
theorem test_d_tree_rd : afterStep (exec .phaseDTreeRd sDTree) (fun t => (t.node, t.root, t.rdPos)) =
    some ([(0, jointNode 1 2 0), (1, leafNode 0x41 0), (2, leafNode 0x42 0)], some 0, 91) := by decide +kernel
theorem test_d_tree_rd_checkpoint : afterStep (exec .phaseDTreeRd { sDTree with inBits := 72 }) (·.phase) = some 30 := by
  decide
theorem test_d_decode : afterStep (exec .phaseDDecode sDDecode) (fun t => (t.obuf, t.rdPos, t.phase)) =
    some (inputBytes, 95, 20) := by decide +kernel
theorem test_d_rem : afterStep (exec .phaseDRem sDRem) (fun t => (t.obuf, t.wrPos, t.phase)) =
    some ([(0, 0b01000010)], 1, 21) := by decide +kernel
theorem test_d_flush : afterStep (exec .phaseDFlush sDFlush) (fun t => (t.outLen, t.phase)) = some (4, 30) := by decide
theorem test_done : exec .phaseDone sIdle = .next sIdle := rfl
theorem test_error : exec .phaseError sIdle = .next sIdle := rfl
theorem test_reserved : exec (.phaseReserved 11) sIdle = .fault .reservedPhase := rfl

/-- From reset, a table word placed for the next fetch runs (log 8). -/
theorem test_fetch_command : afterStep (step (State.reset.withFetchWord 64 1)) (·.phase) = some 1 := by decide +kernel
theorem test_fetch_phase : afterStep (step (State.reset.withFetchWord 8 1)) (·.phase) = some 31 := by decide +kernel
theorem test_fetch_token : afterStep (step (State.reset.withFetchWord 24 0x00A120)) (fun t => (slotOf t 0).letter) =
    some 0x4142 := by decide +kernel

/-! ## States that meet the hypotheses of the statements, a theorem for each statement -/

/-- A state of the given inputs. -/
def withInputs (is : List Input) (s : State) : State := { s with inputs := is }

def hostDo (e : HostAccess) (s : State) : State := withInputs [.host e] s

theorem witness_ResetGivesStatedValues :
    (hostDo (.reset { Unspecified.zero with l := 9 }) sCount).inputs = .host (.reset { Unspecified.zero with l := 9 }) :: [] :=
  rfl

theorem witness_CommandWordIsDispatched :
    busy sCount = true ∧ busy sIdle = false ∧ (0 : BitVec 64) ≠ 1 ∧ (0 : BitVec 64) ≠ 2 ∧ (3 : BitVec 64) ≠ 1 ∧
      (3 : BitVec 64) ≠ 2 := by decide

theorem witness_StepRunsDecodedInstruction :
    decode (.phase sCount.phase) = .ok (.phaseCCount, []) ∧ sCount.inputs = [] ∧
      (withInputs [.tick] sCount).inputs = .tick :: [] ∧
      (withInputs [.wait] sCount).inputs = .wait :: [] ∧ doneFlag sCount = false ∧
      decode (.command 1) = .ok (.compress, []) ∧ (hostDo (.write 0 8 1) sIdle).inputs = .host (.write 0 8 1) :: [] := by
  decide

theorem witness_WaitEndsAtDone :
    (withInputs [.wait] { sIdle with phase := 30 }).inputs = .wait :: [] ∧
      doneFlag (withInputs [.wait] { sIdle with phase := 30 }) = true ∧
      doneFlag (withInputs [.wait] { sIdle with phase := 31 }) = true := by decide

theorem witness_ReservedPhaseIsStuck :
    reservedPhase 11 = true ∧ reservedPhase 15 = true ∧ reservedPhase 22 = true ∧ reservedPhase 29 = true := by decide

theorem witness_StatusFieldsAreComputed :
    sCount.phase ≠ 0 ∧ sCount.phase ≠ 30 ∧ sCount.phase ≠ 31 ∧ sIdle.phase = 0 ∧
      (hostDo (.write 0x08 8 0) sIdle).inputs = .host (.write 0x08 8 0) :: [] := by decide

theorem witness_RegisterReadsReturnValues :
    (hostDo (.read 0x00 8) sIdle).inputs = .host (.read 0x00 8) :: [] ∧ 0x00 % 8 = 0 ∧ 0x08 % 8 = 0 ∧ 0x10 % 8 = 0 ∧
      0x18 % 8 = 0 ∧ 0x20 % 8 = 0 ∧ 0x28 % 8 = 0 ∧ 0x28 ≤ 0x28 := by decide

theorem witness_RegisterWritesStoreWhenIdle :
    (hostDo (.write 0x10 8 0x1FF) sIdle).inputs = .host (.write 0x10 8 0x1FF) :: [] ∧ 0x10 % 8 = 0 ∧ 0x10 ≠ 0 ∧
      busy (hostDo (.write 0x10 8 0x1FF) sIdle) = false ∧ busy (hostDo (.write 0x10 8 0x1FF) sCount) = true ∧
      0x18 % 8 = 0 ∧ 0x18 ≠ 0 ∧ 0x08 % 8 = 0 ∧ 0x08 ≠ 0x10 ∧ 0x08 ≠ 0x18 := by decide

theorem witness_OddRegisterAccessIsRefused :
    ¬ (4 = 8 ∧ 0x08 % 8 = 0) ∧ ¬ (8 = 8 ∧ 0x0C % 8 = 0) ∧
      (hostDo (.read 0x0C 8) sIdle).inputs = .host (.read 0x0C 8) :: [] ∧
      (hostDo (.write 0x08 4 0) sIdle).inputs = .host (.write 0x08 4 0) :: [] := by decide

theorem witness_BusyBufferAccesses :
    busy (hostDo (.store .ibuf 0 [1]) sCount) = true ∧
      (hostDo (.store .ibuf 0 [1]) sCount).inputs = .host (.store .ibuf 0 [1]) :: [] ∧
      (hostDo (.store .obuf 0 [1]) sCount).inputs = .host (.store .obuf 0 [1]) :: [] ∧
      (hostDo (.fetch .obuf 65535 1) sCount).inputs = .host (.fetch .obuf 65535 1) :: [] ∧
      65535 + 1 ≤ capacity .obuf (hostDo (.fetch .obuf 65535 1) sCount) := by decide

theorem witness_HostBufferAccessesMoveBytes :
    busy sIdle = false ∧ Memory.wf sIdle.ibuf = true ∧ Memory.wf sIdle.obuf = true ∧
      (hostDo (.store .ibuf 65535 [1]) sIdle).inputs = .host (.store .ibuf 65535 [1]) :: [] ∧
      65535 + [1].length ≤ (hostDo (.store .ibuf 65535 [1]) sIdle).inCap ∧
      (hostDo (.store .obuf 65535 [1]) sIdle).inputs = .host (.store .obuf 65535 [1]) :: [] ∧
      65535 + [1].length ≤ (hostDo (.store .obuf 65535 [1]) sIdle).outCap ∧
      (hostDo (.fetch .ibuf 0 65536) sIdle).inputs = .host (.fetch .ibuf 0 65536) :: [] ∧
      0 + 65536 ≤ (hostDo (.fetch .ibuf 0 65536) sIdle).inCap ∧
      (hostDo (.fetch .obuf 0 65536) sIdle).inputs = .host (.fetch .obuf 0 65536) :: [] ∧
      0 + 65536 ≤ (hostDo (.fetch .obuf 0 65536) sIdle).outCap := by decide

theorem witness_CompressSetupRejects :
    ({ sSetup with lsize := 1 } : State).lsize.toNat < 2 ∧ 16 < ({ sSetup with lsize := 17 } : State).lsize.toNat ∧
      2 ≤ ({ sSetup with inLen := 65537 } : State).lsize.toNat ∧
      ({ sSetup with inLen := 65537 } : State).lsize.toNat ≤ 16 ∧
      ({ sSetup with inLen := 65537 } : State).inCap < ({ sSetup with inLen := 65537 } : State).inLen.toNat := by decide

theorem witness_CompressSetupInitialises :
    2 ≤ sSetup.lsize.toNat ∧ sSetup.lsize.toNat ≤ 16 ∧ sSetup.inLen.toNat ≤ sSetup.inCap ∧
      Table.wf CodeEntry.blank { sSetup with code := exampleCodes }.code = true := by decide

theorem witness_DecompressSetupInitialises :
    ({ sDSetup with inLen := 65537 } : State).inCap < ({ sDSetup with inLen := 65537 } : State).inLen.toNat ∧
      ({ sDSetup with inLen := 0 } : State).inLen = 0 ∧ sDSetup.inLen ≠ 0 ∧ sDSetup.inLen.toNat ≤ sDSetup.inCap := by
  decide

theorem witness_CountStepCountsOneLetter :
    portOk sCount = true ∧ letterSizeOk sCount.l.toNat = true ∧
      readable sCount (sCount.i * sCount.l.toNat) sCount.l.toNat = true ∧ Table.wf 0 sCount.freq = true := by decide

theorem witness_FrequencyTableIsAscending : Table.wf 0 sLeaves.freq = true := by decide

theorem witness_LeavesAreTheLettersPresent :
    letterSizeOk sLeaves.l.toNat = true ∧ Table.wf 0 sLeaves.freq = true ∧ Table.wf NodeSlot.blank sLeaves.node = true ∧
      sLeaves.nNodes = 0 ∧ sLeaves.active = [] := by decide

theorem witness_MergeJoinsTwoLeastNodes :
    Table.wf NodeSlot.blank sMerge.node = true ∧ sMerge.active.Pairwise (· < ·) ∧ sMerge.nNodes < Config.treeNodeCap ∧
      (∀ k ∈ sMerge.active, k < sMerge.nNodes) ∧ 1 ∈ sMerge.active ∧ 0 ∈ sMerge.active ∧ 1 ≠ 0 ∧
      (∀ k ∈ sMerge.active, k ≠ 1 → (slotOf sMerge 1).freq < (slotOf sMerge k).freq ∨
        ((slotOf sMerge 1).freq = (slotOf sMerge k).freq ∧ 1 < k)) ∧
      (∀ k ∈ sMerge.active, k ≠ 1 → k ≠ 0 → (slotOf sMerge 0).freq < (slotOf sMerge k).freq ∨
        ((slotOf sMerge 0).freq = (slotOf sMerge k).freq ∧ 0 < k)) := by decide

theorem witness_MergeEndsAtOneNode : sCodegen.active = [2] := by decide

theorem witness_CodesAreTreePaths :
    sCodegen.root = some 2 ∧ treeAt sCodegen 2 exampleTree = true ∧ exampleTree.height ≤ Config.treeNodeCap ∧
      exampleTree.letters.Nodup ∧ Table.wf CodeEntry.blank sCodegen.code = true := by decide

theorem witness_HeaderWritesTwoFields :
    portOk sHdr = true ∧ Memory.wf sHdr.obuf = true ∧ room sHdr 72 = true := by decide

theorem witness_TreeIsWrittenInPreOrder :
    portOk sTreeWr = true ∧ Memory.wf sTreeWr.obuf = true ∧ sTreeWr.root = some 2 ∧
      treeAt sTreeWr 2 exampleTree = true ∧ exampleTree.height ≤ Config.treeNodeCap ∧
      room sTreeWr (exampleTree.ser sTreeWr.l.toNat).length = true := by decide

theorem witness_EncodeWritesTheCode :
    portOk sEncode = true ∧ Memory.wf sEncode.obuf = true ∧ letterSizeOk sEncode.l.toNat = true ∧
      readable sEncode (sEncode.i * sEncode.l.toNat) sEncode.l.toNat = true ∧
      (codeOf sEncode (letterOf sEncode sEncode.i)).valid = true ∧
      room sEncode (codeOf sEncode (letterOf sEncode sEncode.i)).bits.length = true := by decide

theorem witness_EncodeWithoutCodeIsInternal :
    portOk { sEncode with code := [] } = true ∧ letterSizeOk { sEncode with code := [] }.l.toNat = true ∧
      readable { sEncode with code := [] } (sEncode.i * sEncode.l.toNat) sEncode.l.toNat = true ∧
      (codeOf { sEncode with code := [] } (letterOf { sEncode with code := [] } sEncode.i)).valid = false := by decide

theorem witness_RemainderIsCopiedByPosition :
    sPad.remBits = 0 ∧ 0 < sRem.remBits ∧ portOk sRem = true ∧ Memory.wf sRem.obuf = true ∧
      readable sRem sRem.usableBits sRem.remBits = true ∧ room sRem sRem.remBits = true := by decide

theorem witness_PadFlushesAndFinishes :
    portOk sPad = true ∧ Memory.wf sPad.obuf = true ∧ room sPad (padding sPad) = true ∧
      room sRem (padding sRem) = true ∧ sRem.wrCnt = 0 := by decide

theorem witness_HeaderReadsTwoFields :
    portOk sDHdr = true ∧ readerOk sDHdr = true ∧ sDHdr.rdPos + 72 ≤ sDHdr.inBits ∧
      letterSizeOk (val (inputSlice sDHdr sDHdr.rdPos 8)) = true := by decide

def sShort : State := { sDHdr with inLen := 8, inBits := 64 }

theorem witness_BadHeaderIsCorrupt :
    portOk sShort = true ∧ readerOk sShort = true ∧ sShort.rdPos + 8 ≤ sShort.inBits ∧ sShort.inBits < sShort.rdPos + 72 ∧
      readerOk { sShort with inLen := 0, inBits := 0 } = true ∧ { sShort with inBits := 0 }.inBits < sShort.rdPos + 8 ∧
      letterSizeOk (val (inputSlice { sShort with ibuf := [] } 0 8)) = false := by decide

theorem witness_NoTreeBitsIsEmptyOutput : { sDTree with rdPos := 96 }.rdPos = { sDTree with rdPos := 96 }.inBits := by
  decide

/-- The bits after the header: 90 48 42. -/
theorem bits_example : bitsLeft sDTree =
    [true, false, false, true, false, false, false, false, false, true, false, false, true, false, false, false, false,
      true, false, false, false, false, true, false] := by decide +kernel

theorem ser_example : exampleTree.ser 8 =
    [true, false, false, true, false, false, false, false, false, true, false, false, true, false, false, false, false,
      true, false] := by decide +kernel

theorem letters_example : ∀ v ∈ exampleTree.letters, v.toNat < 2 ^ 8 := by simp [exampleTree, Tree.letters]

theorem witness_SerializedTreeIsReadBack :
    portOk sDTree = true ∧ readerOk sDTree = true ∧ letterSizeOk sDTree.l.toNat = true ∧
      Table.wf NodeSlot.blank sDTree.node = true ∧ sDTree.nNodes + exampleTree.size ≤ Config.treeNodeCap ∧
      (∀ v ∈ exampleTree.letters, v.toNat < 2 ^ sDTree.l.toNat) ∧
      exampleTree.ser sDTree.l.toNat <+: bitsLeft sDTree :=
  ⟨by decide, by decide, by decide, by decide, by decide, letters_example, by
    rw [bits_example, show sDTree.l.toNat = 8 from rfl, ser_example]
    exact ⟨[false, false, false, true, false], rfl⟩⟩

def sCut : State := { sDTree with inLen := 11, inBits := 88 }

theorem cut_example : bitsLeft sCut =
    [true, false, false, true, false, false, false, false, false, true, false, false, true, false, false, false] := by
  decide +kernel

theorem witness_TruncatedTreeIsCorrupt :
    portOk sCut = true ∧ readerOk sCut = true ∧ letterSizeOk sCut.l.toNat = true ∧
      Table.wf NodeSlot.blank sCut.node = true ∧ sCut.nNodes + exampleTree.size ≤ Config.treeNodeCap ∧
      (∀ v ∈ exampleTree.letters, v.toNat < 2 ^ sCut.l.toNat) ∧ bitsLeft sCut ≠ [] ∧
      bitsLeft sCut <+: exampleTree.ser sCut.l.toNat ∧ bitsLeft sCut ≠ exampleTree.ser sCut.l.toNat := by
  rw [cut_example, show sCut.l.toNat = 8 from rfl, ser_example]
  exact ⟨by decide, by decide, by decide, by decide, by decide, letters_example, by decide, ⟨[false, true, false], rfl⟩,
    by decide⟩

theorem witness_FullNodeStoreIsCorrupt :
    { sDTree with nNodes := 131071 }.nNodes = 131071 ∧
      { sDTree with nNodes := 131071 }.rdPos ≠ { sDTree with nNodes := 131071 }.inBits := by decide

def sTokens : State := { sDTree with nNodes := 4, pending := [⟨3, some 2⟩, ⟨0, none⟩] }

theorem witness_TreeTokensAllocateNodes :
    sTokens.nNodes < Config.treeNodeCap ∧ Table.wf NodeSlot.blank sTokens.node = true ∧
      sTokens.pending = (([(3, 2)] : List (Nat × Nat)).map fun e => ⟨e.1, some e.2⟩) ++ [⟨0, none⟩] ∧
      (([(3, 2)] : List (Nat × Nat)).map Prod.fst).Nodup ∧ (∀ e ∈ ([(3, 2)] : List (Nat × Nat)), e.1 < sTokens.nNodes) ∧
      (∀ e ∈ ([⟨0, none⟩] : List PendingJoint).head?, e.left = none) ∧
      { sTokens with pending := [] }.pending = (([] : List (Nat × Nat)).map fun e => ⟨e.1, some e.2⟩) ++ [] := by decide

theorem witness_DecodeWalksToALeaf :
    portOk sDDecode = true ∧ readerOk sDDecode = true ∧ Memory.wf sDDecode.obuf = true ∧ sDDecode.root = some 0 ∧
      treeAt sDDecode 0 exampleTree = true ∧ exampleTree.decodeOne (bitsLeft sDDecode) = some (0x42, [false]) ∧
      room sDDecode sDDecode.l.toNat = true := by decide

theorem witness_TruncatedBodyIsCorrupt :
    portOk { sDDecode with rdPos := 96 } = true ∧ readerOk { sDDecode with rdPos := 96 } = true ∧
      { sDDecode with rdPos := 96 }.root = some 0 ∧ treeAt { sDDecode with rdPos := 96 } 0 exampleTree = true ∧
      exampleTree.decodeOne (bitsLeft { sDDecode with rdPos := 96 }) = none := by decide

theorem witness_RemainderIsReadOrCorrupt :
    sDDecode.remBits = 0 ∧ 0 < sDRem.remBits ∧ { sDRem with rdPos := 95 }.inBits < 95 + sDRem.remBits ∧
      sDRem.rdPos + sDRem.remBits ≤ sDRem.inBits ∧ portOk sDRem = true ∧ readerOk sDRem = true ∧
      Memory.wf sDRem.obuf = true ∧ room sDRem sDRem.remBits = true := by decide

theorem witness_FlushFinishesDecompression :
    sDFlush.wrCnt = 0 ∧ portOk sDRem = true ∧ Memory.wf sDRem.obuf = true ∧ room sDRem (padding sDRem) = true := by decide

theorem witness_HeaderBeyondCapacityIsIo :
    portOk { sHdr with outCap := 8 } = true ∧ Memory.wf { sHdr with outCap := 8 }.obuf = true ∧ sHdr.wrPos = 0 ∧
      sHdr.wrCnt = 0 ∧ { sHdr with outCap := 8 }.outCap < 9 := by decide

def faulty (s : State) : State := { s with port := [.fault] }

/-- C_ENCODE with one bit left in the byte being assembled, the port faulting at the byte its code completes. -/
def sEncodeFull : State := { sEncode with wrCnt := 7, wrAcc := 0, port := List.replicate 8 .ok ++ .fault :: [] }

theorem witness_PortFaultIsIo :
    (afterStep (exec .phaseCHdr { sHdr with port := [.ok, .fault, .ok] }) (fun t => (t.port, t.phase)) =
      some ([.ok], 31) ∧ { sHdr with port := [.ok, .fault, .ok] }.port = [.ok, .fault] ++ [.ok] ∧
      PortAnswer.fault ∈ [PortAnswer.ok, .fault]) ∧
    ((faulty sCount).port = .fault :: [] ∧ letterSizeOk sCount.l.toNat = true ∧
      readable (faulty sCount) (sCount.i * sCount.l.toNat) sCount.l.toNat = true ∧
      readable (faulty sEncode) (sEncode.i * sEncode.l.toNat) sEncode.l.toNat = true ∧
      0 < sRem.remBits ∧ readable (faulty sRem) sRem.usableBits sRem.remBits = true ∧
      readerOk (faulty sDHdr) = true ∧ sDHdr.rdPos + 8 ≤ sDHdr.inBits ∧
      readerOk (faulty sDTree) = true ∧ sDTree.rdPos < sDTree.inBits ∧ sDTree.nNodes < Config.treeNodeCap ∧
      readerOk (faulty sDDecode) = true ∧ sDDecode.rdPos < sDDecode.inBits ∧ sDDecode.root = some 0 ∧
      readerOk (faulty sDRem) = true ∧ 0 < sDRem.remBits ∧ sDRem.rdPos + sDRem.remBits ≤ sDRem.inBits ∧
      sHdr.wrCnt < 8 ∧ sHdr.wrPos.toNat < sHdr.outCap ∧ sPad.wrCnt < 8 ∧ sPad.wrPos.toNat < sPad.outCap ∧
      0 < sPad.wrCnt) ∧
    (sEncodeFull.port = List.replicate sEncodeFull.l.toNat .ok ++ .fault :: [] ∧
      readable sEncodeFull (sEncodeFull.i * sEncodeFull.l.toNat) sEncodeFull.l.toNat = true ∧
      (codeOf sEncodeFull (letterOf sEncodeFull sEncodeFull.i)).valid = true ∧ sEncodeFull.wrCnt < 8 ∧
      8 ≤ sEncodeFull.wrCnt + (codeOf sEncodeFull (letterOf sEncodeFull sEncodeFull.i)).bits.length ∧
      sEncodeFull.wrPos.toNat < sEncodeFull.outCap) := by decide +kernel

theorem witness_BlockNeverWritesHostState : afterStep (exec .phaseCCount sCount) (·.ibuf) = some inputBytes := by decide

theorem witness_OnlyCompressSetupReadsLsize : Instr.phaseCCount ≠ .phaseCSetup := by decide

/-- OUT_CAP of the example states. -/
theorem cap_example : Config.resetOutCap < 2 ^ 64 := by norm_num [Config.resetOutCap]

/-! ### States that meet the invariant -/

theorem tables_example (freq : Table Nat) (node : Table NodeSlot) (active : List Nat) (code : Table CodeEntry)
    (ibuf obuf : Memory)
    (h : (Table.wf 0 freq && Table.below Config.letterCap freq && Table.wf NodeSlot.blank node &&
      Table.below Config.treeNodeCap node && decide (active.Pairwise (· < ·)) && Table.wf CodeEntry.blank code &&
      Table.below Config.letterCap code && Memory.wf ibuf && Memory.wf obuf) = true) :
    TablesOk freq node active code ibuf obuf := by
  simp only [Bool.and_eq_true, decide_eq_true_eq] at h
  obtain ⟨⟨⟨⟨⟨⟨⟨⟨h1, h2⟩, h3⟩, h4⟩, h5⟩, h6⟩, h7⟩, h8⟩, h9⟩ := h
  exact ⟨h1, h2, h3, h4, h5, h6, h7, h8, h9⟩

/-- Reset, and every state of a quiescent or setup phase built on it. -/
theorem inv_quiet (s : State) (p : Phase) (hp : s.phase = phaseCode p) (hq : p ∈ [.idle, .cSetup, .dSetup])
    (ht : TablesOk s.freq s.node s.active s.code s.ibuf s.obuf) (hi : s.inputs = [])
    (he : s.errCode = 0 ∧ s.errPhase = 0) (ho : s.outLen = 0) : Inv s :=
  Inv.ofQuiet hp (by rcases List.mem_cons.1 hq with rfl | hq <;> [decide; (fin_cases hq <;> decide)]) ht
    (by rw [hi]; simp) (fun _ => he) (by rintro rfl; exact absurd hq (by decide)) (fun _ => ho)

theorem inv_setup : Inv sSetup := inv_quiet _ .cSetup rfl (by decide) (tables_example _ _ _ _ _ _ (by decide)) rfl ⟨rfl, rfl⟩ rfl

theorem inv_d_setup : Inv sDSetup :=
  inv_quiet _ .dSetup rfl (by decide) (tables_example _ _ _ _ _ _ (by decide)) rfl ⟨rfl, rfl⟩ rfl

theorem inv_idle : Inv sIdle := inv_quiet _ .idle rfl (by decide) (tables_example _ _ _ _ _ _ (by decide)) rfl ⟨rfl, rfl⟩ rfl

theorem running_example (s : State) (ht : TablesOk s.freq s.node s.active s.code s.ibuf s.obuf) (hi : s.inputs = [])
    (he : s.errCode = 0 ∧ s.errPhase = 0) (ho : s.outLen = 0)
    (h : s.wrCnt < 8 ∧ s.wrPos.toNat ≤ s.outCap ∧ s.inBits = 8 * s.inLen.toNat ∧ s.inLen.toNat ≤ s.inCap) :
    InvRunning s where
  tables := ht
  inputs := by rw [hi]; simp
  noError := he
  noOutput := ho
  writer := h.1
  position := h.2.1
  reader := h.2.2

theorem inv_d_flush : Inv sDFlush :=
  (running_example _ (tables_example _ _ _ _ _ _ (by decide)) rfl ⟨rfl, rfl⟩ rfl (by decide)).enter (p := .dFlush) rfl
    (by decide) (sized := fun _ => by decide) (allWritten := fun _ => by decide)

theorem inv_count : Inv sCount :=
  (running_example _ (tables_example _ _ _ _ _ _ (by decide)) rfl ⟨rfl, rfl⟩ rfl (by decide)).enter (p := .cCount) rfl
    (by decide) (sized := fun _ => by decide) (whole := fun _ => rfl)
    (counting := fun _ => ⟨by decide, rfl, rfl, rfl, rfl, fun _ => by decide⟩)

theorem witness_DecompressedLengthIsFileSize : Inv sDFlush ∧ sDFlush.phase = 21 := ⟨inv_d_flush, rfl⟩

theorem witness_ErrorKindsByPhase :
    Inv { sSetup with lsize := 17 } ∧
      nextMove { sSetup with lsize := 17 } = (.run .phaseCSetup, { sSetup with lsize := 17 }) ∧
      Instr.phaseCSetup ≠ .phaseError ∧ afterStep (exec .phaseCSetup { sSetup with lsize := 17 }) (·.phase) = some 31 :=
  ⟨inv_quiet _ .cSetup rfl (by decide) (tables_example _ _ _ _ _ _ (by decide)) rfl ⟨rfl, rfl⟩ rfl, rfl, by decide,
    by decide⟩

theorem witness_OutputIsWrittenInOrder :
    (Inv sSetup ∧ sSetup.outCap < 2 ^ 64 ∧ afterStep (exec (decodePhase sSetup.phase) sSetup) (·.phase) = some 2) ∧
      (Inv sDFlush ∧ sDFlush.phase ≠ 1 ∧ sDFlush.phase ≠ 16 ∧
        afterStep (exec (decodePhase sDFlush.phase) sDFlush) (·.phase) = some 30) ∧
      (Inv sCount ∧ sCount.phase ≠ 1 ∧ sCount.phase ≠ 16 ∧
        afterStep (exec (decodePhase sCount.phase) sCount) (·.phase) = some 3) ∧
      afterStep (exec (decodePhase sCount.phase) { sCount with port := [.fault] }) (·.phase) = some 31 :=
  ⟨⟨inv_setup, cap_example, by decide⟩, ⟨inv_d_flush, by decide, by decide, by decide⟩,
    ⟨inv_count, by decide, by decide, by decide⟩, by decide⟩

theorem witness_StepKeepsInvariant : Inv sSetup ∧ afterStep (step sSetup) (·.phase) = some 2 := ⟨inv_setup, by decide⟩

theorem witness_OnlyHostHazardsStop : Inv sIdle := inv_idle

theorem witness_EveryOperationEnds : Inv sSetup ∧ sSetup.inputs = [] := ⟨inv_setup, rfl⟩

/-- Steps put together. -/
theorem run_step {s t : State} {k : Nat} (h : afterStep (step s) id = some t) :
    Sys2Proof.core.run (k + 1) s = Sys2Proof.core.run k t := by
  have h1 : step s = .next t := by
    unfold afterStep at h
    split at h
    · next u hu => rw [hu]; cases h; rfl
    · cases h
    · cases h
  exact run_succ (M := Sys2Proof.core) h1

theorem run_last {s : State} {p : BitVec 5} (h : afterStep (step s) (·.phase) = some p) :
    afterStep (Sys2Proof.core.run 1 s) (·.phase) = some p := by
  unfold afterStep at h
  split at h
  · next u hu => exact (congrArg (fun o => afterStep o (·.phase)) (run_one (M := Sys2Proof.core) hu)).trans h
  · cases h
  · cases h

/-- COMPRESS of no bytes ends in DONE in 4 steps (R721). -/
def sEmpty : State := { sSetup with inLen := 0 }

def sEmpty1 : State := { sEmpty with l := 8, phase := 6 }

def sEmpty2 : State := { sEmpty1 with obuf := [(0, 8)], wrPos := 9, phase := 9 }

def sEmpty3 : State := { sEmpty2 with phase := 10 }

theorem run_empty : afterStep (Sys2Proof.core.run 4 sEmpty) (·.phase) = some 30 := by
  rw [run_step (t := sEmpty1) (by decide +kernel), run_step (t := sEmpty2) (by decide +kernel),
    run_step (t := sEmpty3) (by decide +kernel)]
  exact run_last (by decide +kernel)

/-- COMPRESS of one byte ends in DONE in 2·1 + 1 + 7 steps (R721). -/
def sOne : State := { sSetup with inLen := 1 }

def sOne1 : State := { sOne with l := 8, f := 1, totalBits := 8, n := 1, usableBits := 8, inBits := 8, phase := 2 }

def sOne2 : State := { sOne1 with freq := [(0x41, 1)], i := 1, phase := 3 }

def sOne3 : State := { sOne2 with node := [(0, leafNode 0x41 1)], nNodes := 1, active := [0], phase := 4 }

def sOne4 : State := { sOne3 with root := some 0, phase := 5 }

def sOne5 : State := { sOne4 with code := [(0x41, ⟨true, 1, [false]⟩)], phase := 6 }

def sOne6 : State := { sOne5 with obuf := [(0, 8), (8, 1)], wrPos := 9, phase := 7 }

def sOne7 : State :=
  { sOne6 with obuf := [(0, 8), (8, 1), (9, 0x20)], wrPos := 10, wrCnt := 1, wrAcc := 1, i := 0, phase := 8 }

def sOne8 : State := { sOne7 with wrCnt := 2, wrAcc := 2, i := 1, phase := 9 }

def sOne9 : State := { sOne8 with phase := 10 }

theorem run_one : afterStep (Sys2Proof.core.run 10 sOne) (·.phase) = some 30 := by
  rw [run_step (t := sOne1) (by decide +kernel), run_step (t := sOne2) (by decide +kernel),
    run_step (t := sOne3) (by decide +kernel), run_step (t := sOne4) (by decide +kernel),
    run_step (t := sOne5) (by decide +kernel), run_step (t := sOne6) (by decide +kernel),
    run_step (t := sOne7) (by decide +kernel), run_step (t := sOne8) (by decide +kernel),
    run_step (t := sOne9) (by decide +kernel)]
  exact run_last (by decide +kernel)

theorem inv_empty : Inv sEmpty :=
  inv_quiet _ .cSetup rfl (by decide) (tables_example _ _ _ _ _ _ (by decide)) rfl ⟨rfl, rfl⟩ rfl

theorem inv_one : Inv sOne :=
  inv_quiet _ .cSetup rfl (by decide) (tables_example _ _ _ _ _ _ (by decide)) rfl ⟨rfl, rfl⟩ rfl

theorem witness_CompressOutcomes :
    Inv sEmpty ∧ sEmpty.phase = 1 ∧ sEmpty.inputs = [] ∧ letterSizeOk sEmpty.lsize.toNat = true ∧
      afterStep (Sys2Proof.core.run 4 sEmpty) (·.phase) = some 30 ∧ quiescent 30 = true ∧
      letterSizeOk { sEmpty with lsize := 1 }.lsize.toNat = false ∧
      afterStep (Sys2Proof.core.run 1 { sEmpty with lsize := 1 }) (·.phase) = some 31 ∧ quiescent 31 = true ∧
      { sEmpty with inCap := 0, inLen := 1 }.inCap < { sEmpty with inCap := 0, inLen := 1 }.inLen.toNat ∧
      afterStep (Sys2Proof.core.run 1 { sEmpty with inCap := 0, inLen := 1 }) (·.phase) = some 31 :=
  ⟨inv_empty, rfl, rfl, by decide, run_empty, by decide, by decide, run_last (by decide), by decide, by decide,
    run_last (by decide)⟩

theorem witness_CompressWritesTheArtifact :
    (Inv sEmpty ∧ sEmpty.phase = 1 ∧ sEmpty.inputs = [] ∧ sEmpty.outCap < 2 ^ 64 ∧
        afterStep (Sys2Proof.core.run 4 sEmpty) (·.phase) = some 30) ∧
      (Inv sOne ∧ sOne.phase = 1 ∧ sOne.inputs = [] ∧ sOne.outCap < 2 ^ 64 ∧
        afterStep (Sys2Proof.core.run 10 sOne) (·.phase) = some 30) :=
  ⟨⟨inv_empty, rfl, rfl, cap_example, run_empty⟩, ⟨inv_one, rfl, rfl, cap_example, run_one⟩⟩

/-- The second operation's start, with the nine bytes an empty input's artifact has. -/
def sEmptyBack : State := { sDSetup with inLen := 9, ibuf := [(0, 8)] }

theorem witness_DecompressInvertsCompress :
    (Inv sEmpty ∧ sEmpty.phase = 1 ∧ sEmpty.inputs = [] ∧ letterSizeOk sEmpty.lsize.toNat = true ∧
        sEmpty.inLen.toNat ≤ sEmpty.inCap ∧ portOk sEmpty = true) ∧
      afterStep (step sEmpty3) (fun t => (t.outLen, t.obuf)) = some (9, [(0, 8)]) ∧
      Inv sEmptyBack ∧ sEmptyBack.phase = 16 ∧ sEmptyBack.inputs = [] ∧ sEmptyBack.inLen.toNat ≤ sEmptyBack.inCap ∧
      portOk sEmptyBack = true ∧ sEmpty.inLen.toNat ≤ sEmptyBack.outCap :=
  ⟨⟨inv_empty, rfl, rfl, by decide, by decide, by decide⟩, by decide +kernel,
    inv_quiet _ .dSetup rfl (by decide) (tables_example _ _ _ _ _ _ (by decide)) rfl ⟨rfl, rfl⟩ rfl, rfl, rfl, by decide,
    by decide, by decide⟩

/-! ### Encodings and trees -/

theorem witness_DecodeInvertsEncode :
    Instr.wellFormed 2 (.treeLeaf 3) = true ∧ Instr.wellFormed 16 (.treeLeaf 0xFFFF) = true ∧
      Instr.wellFormed 8 (.illegalCommand 0) = true ∧ Instr.wellFormed 8 (.phaseReserved 29) = true := by decide

theorem witness_WalkFindsThePath :
    ((0x42 : BitVec 16), [true]) ∈ exampleTree.codes ∧
      exampleTree.decodeOne [true, false] = some (0x42, [false]) := by decide

theorem witness_SizesAddUp : 2 ≤ 3 ∧ 7 < 2 ^ 64 := by norm_num

end Sys2Proof.Tests
end

section
/-! PROOF. The STATUS register, field by field (10_state.md R43). -/

namespace Sys2Proof.Machine

/-! ## The flags and the fields, by the phase -/

theorem errFlag_iff {s : State} : errFlag s = true ↔ s.phase = 31 := decide_eq_true_iff

theorem doneFlag_iff {s : State} : doneFlag s = true ↔ s.phase = 30 ∨ s.phase = 31 := by
  rw [doneFlag, Bool.or_eq_true, errFlag_iff, decide_eq_true_eq]; rfl

theorem statusErrCode_eq (s : State) : statusErrCode s = if s.phase = 31 then s.errCode else 0 := by
  simp only [statusErrCode, errFlag_iff]

theorem statusErrPhase_eq (s : State) : statusErrPhase s = if s.phase = 31 then s.errPhase else 0 := by
  simp only [statusErrPhase, errFlag_iff]

/-! ## The register as a number -/

/-- The fields do not overlap and end below bit 64, so the register is their sum. -/
theorem statusReg_toNat (s : State) :
    (statusReg s).toNat =
      (busy s).toNat + 2 * (doneFlag s).toNat + 4 * (errFlag s).toNat + 2 ^ 8 * (statusErrCode s).toNat
        + 2 ^ 16 * s.phase.toNat + 2 ^ 24 * (statusErrPhase s).toNat := by
  have hb := (busy s).toNat_lt
  have hd := (doneFlag s).toNat_lt
  have he := (errFlag s).toNat_lt
  have hc := (statusErrCode s).isLt
  have hp := s.phase.isLt
  have hq := (statusErrPhase s).isLt
  rw [statusReg, BitVec.toNat_ofNat]
  omega

/-- A bit of a word, by the number the word is. -/
theorem getLsbD_eq_of_toNat {w i : Nat} {x : BitVec w} {b : Bool} (h : x.toNat / 2 ^ i % 2 = b.toNat) :
    x.getLsbD i = b := by
  rw [← BitVec.testBit_toNat, Nat.testBit_eq_decide_div_mod_eq, h]
  cases b <;> rfl

/-- A field of a word, by the number the word is. -/
theorem extractLsb'_eq_of_toNat {w k n : Nat} {x : BitVec w} {v : BitVec n}
    (h : x.toNat / 2 ^ k % 2 ^ n = v.toNat) : x.extractLsb' k n = v := by
  refine BitVec.eq_of_toNat_eq ?_
  rw [BitVec.extractLsb'_toNat, Nat.shiftRight_eq_div_pow, h]

theorem extractLsb'_eq_zero_of_toNat {w k n : Nat} {x : BitVec w} (h : x.toNat / 2 ^ k % 2 ^ n = 0) :
    x.extractLsb' k n = 0 :=
  extractLsb'_eq_of_toNat (h.trans BitVec.toNat_zero.symm)

/-! ## Bits and fields -/

theorem statusReg_flags (s : State) :
    (statusReg s).getLsbD 0 = busy s ∧ (statusReg s).getLsbD 1 = doneFlag s ∧ (statusReg s).getLsbD 2 = errFlag s := by
  have hb := (busy s).toNat_lt
  have hd := (doneFlag s).toNat_lt
  have he := (errFlag s).toNat_lt
  have bit {i : Nat} {b : Bool} := @getLsbD_eq_of_toNat 64 i (statusReg s) b
  rw [statusReg_toNat] at bit
  exact ⟨bit (by omega), bit (by omega), bit (by omega)⟩

/-- The fields above the flags: ERR_CODE, PHASE and ERR_PHASE, and the bits between them and above them, which are 0. -/
theorem statusReg_fields (s : State) :
    (statusReg s).extractLsb' 3 5 = 0 ∧
    (statusReg s).extractLsb' 8 4 = statusErrCode s ∧
    (statusReg s).extractLsb' 12 4 = 0 ∧
    (statusReg s).extractLsb' 16 5 = s.phase ∧
    (statusReg s).extractLsb' 21 3 = 0 ∧
    (statusReg s).extractLsb' 24 5 = statusErrPhase s ∧
    (statusReg s).extractLsb' 29 35 = 0 := by
  have hb := (busy s).toNat_lt
  have hd := (doneFlag s).toNat_lt
  have he := (errFlag s).toNat_lt
  have hc := (statusErrCode s).isLt
  have hp := s.phase.isLt
  have hq := (statusErrPhase s).isLt
  have field {k n : Nat} {v : BitVec n} := @extractLsb'_eq_of_toNat 64 k n (statusReg s) v
  have gap {k n : Nat} := @extractLsb'_eq_zero_of_toNat 64 k n (statusReg s)
  rw [statusReg_toNat] at field gap
  exact ⟨gap (by omega), field (by omega), gap (by omega), field (by omega), gap (by omega), field (by omega),
    gap (by omega)⟩

/-! ## IDLE, and a host write -/

theorem statusReg_idle {s : State} (h : s.phase = 0) : statusReg s = 0 := by
  simp [statusReg, busy, doneFlag, statusErrCode, statusErrPhase, errFlag, quiescent, h, phaseCode]

/-- A write to STATUS is ignored, busy or not (R43). -/
theorem writeRegister_status (v : Reg) (s : State) : writeRegister Config.offStatus v s = s := by
  unfold writeRegister
  split
  · rfl
  · rw [if_neg (by decide), if_neg (by decide)]

theorem step_statusWrite {s : State} {v : Reg} {rest : List Input}
    (h : s.inputs = .host (.write Config.offStatus 8 v) :: rest) : step s = .next { s with inputs := rest } := by
  have hmove : nextMove s = (.access (.write Config.offStatus 8 v), { s with inputs := rest }) := by
    simp only [nextMove, h]; rfl
  simp only [step, hmove, hostAccess, writeRegister_status]
  rfl

end Sys2Proof.Machine

open Sys2Proof Sys2Proof.Machine

/-- Settles O8: each field is read off the register as a number, and the flags off the phase. -/
theorem statusFieldsAreComputed : Obligations.StatusFieldsAreComputed := by
  intro s
  obtain ⟨busyBit, doneBit, errBit⟩ := statusReg_flags s
  obtain ⟨reserved3, errCode, reserved12, phase, reserved21, errPhase, reserved29⟩ := statusReg_fields s
  rw [statusErrCode_eq] at errCode
  rw [statusErrPhase_eq] at errPhase
  exact ⟨by rw [busyBit, busy_iff], by rw [doneBit, doneFlag_iff], by rw [errBit, errFlag_iff],
    reserved3, errCode, reserved12, phase, reserved21, errPhase, reserved29, statusReg_idle,
    fun _ _ => step_statusWrite⟩
end

section
/-! PROOF. Every instruction but C_SETUP does the same whatever LSIZE holds (10_state.md R44, 70_reset_and_hazards.md R711): each part of a step commutes with a change of LSIZE, and a step with its parts. -/

namespace Sys2Proof.Machine

/-- A part of a step that does the same whatever LSIZE holds, and leaves it as it was. -/
def IgnoresLsize (f : State → Run State) : Prop :=
  ∀ (x : BitVec 8 → BitVec 8) (s : State), f (adjust x id s) = Run.map2 (adjust x id) (adjust x id) (f s)

/-- Two branches under one condition, each adjusted. -/
theorem ite_adjusted {α β : Type} {g : α → β} {h : State → State} {c : Prop} [Decidable c] {a b : Run α} {a' b' : Run β}
    (ha : a' = Run.map2 g h a) (hb : b' = Run.map2 g h b) :
    (if c then a' else b') = Run.map2 g h (if c then a else b) := by
  split
  · exact ha
  · exact hb

/-! ## The code table generator -/

theorem codeWalk_ignoresLsize (fuel k : Nat) (path : Bits) : IgnoresLsize (codeWalk fuel k path) := by
  intro x s
  induction fuel generalizing k path s with
  | zero => rfl
  | succ fuel ih =>
    refine bind_adjusted (g := id) (nodeAt_adjust x id k s) fun slot => ?_
    obtain ⟨kind, _, left, right, _⟩ := slot
    cases kind with
    | leaf => rfl
    | joint => exact bind_adjusted (ih left _ s) fun t => ih right _ t

theorem cCodegen_ignoresLsize : IgnoresLsize cCodegen := by
  intro x s
  refine bind_adjusted (g := id) (rootNode_adjust x id s) fun k => ?_
  refine bind_adjusted (g := id) (nodeAt_adjust x id k s) fun slot => ?_
  obtain ⟨kind, _, _, _, _⟩ := slot
  cases kind with
  | leaf => rfl
  | joint => exact bind_adjusted (codeWalk_ignoresLsize Config.treeNodeCap k [] x s) fun _ => rfl

/-! ## The tree tokens -/

theorem deliver_ignoresLsize (k : Nat) (stack : List PendingJoint) : IgnoresLsize (deliver k stack) := by
  intro x s
  induction stack generalizing k s with
  | nil => rfl
  | cons joint rest ih =>
    obtain ⟨j, _ | l⟩ := joint
    · rfl
    · exact bind_adjusted (setNode_adjust x id j _ s) fun t => ih j t

theorem placeLeaf_ignoresLsize (k : Nat) (v : BitVec 16) : IgnoresLsize (placeLeaf k v) := fun x s =>
  bind_adjusted (setNode_adjust x id k _ s) fun t => deliver_ignoresLsize k t.pending x t

theorem treeLeaf_ignoresLsize (v : BitVec 16) :
    IgnoresLsize fun s => allocNode s >>= fun r => placeLeaf r.1 v r.2 := fun x s =>
  bind_adjusted (allocNode_adjust x id s) fun r => placeLeaf_ignoresLsize r.1 v x r.2

theorem treeJoint_ignoresLsize : IgnoresLsize fun s => allocNode s >>= fun r => .ok (pushJoint r.1 r.2) := fun x s =>
  bind_adjusted (allocNode_adjust x id s) fun _ => rfl

/-! ## The header reader -/

theorem dSetup_ignoresLsize : IgnoresLsize dSetup := fun _ _ =>
  ite_adjusted rfl (ite_adjusted rfl rfl)

theorem dHdr_ignoresLsize : IgnoresLsize dHdr := fun x s =>
  bind_adjusted (readOrCorrupt_adjust x id 8 s) fun r =>
    ite_adjusted
      (bind_adjusted (readOrCorrupt_adjust x id 64 { r.2 with l := BitVec.ofNat 8 r.1 }) fun _ => rfl) rfl

theorem readToken_ignoresLsize : IgnoresLsize readToken := fun x s =>
  bind_adjusted (allocNode_adjust x id s) fun r =>
    bind_adjusted (readOrCorrupt_adjust x id 1 r.2) fun flag =>
      ite_adjusted
        (bind_adjusted (readOrCorrupt_adjust x id (letterSize flag.2) flag.2) fun v =>
          placeLeaf_ignoresLsize r.1 (BitVec.ofNat 16 v.1) x v.2)
        rfl

theorem readTokens_ignoresLsize (fuel : Nat) : IgnoresLsize (readTokens fuel) := by
  intro x s
  induction fuel generalizing s with
  | zero => rfl
  | succ fuel ih => exact bind_adjusted (readToken_ignoresLsize x s) fun t => ite_adjusted rfl (ih t)

theorem readTree_ignoresLsize : IgnoresLsize readTree := fun x s =>
  readTokens_ignoresLsize (s.inBits - s.rdPos + 1) x { s with pending := [] }

theorem dTreeRd_ignoresLsize : IgnoresLsize dTreeRd := fun x s =>
  ite_adjusted rfl (bind_adjusted (readTree_ignoresLsize x s) fun _ => rfl)

/-! ## The header writer -/

theorem cHdr_ignoresLsize : IgnoresLsize cHdr := fun x s =>
  bind_adjusted (writeString_adjust x id (bin 8 s.l.toNat) s) fun t =>
    bind_adjusted (writeString_adjust x id (bin 64 t.f.toNat) t) fun _ => rfl

theorem serialize_ignoresLsize (fuel k : Nat) : IgnoresLsize (serialize fuel k) := by
  intro x s
  induction fuel generalizing k s with
  | zero => rfl
  | succ fuel ih =>
    refine bind_adjusted (g := id) (nodeAt_adjust x id k s) fun slot => ?_
    obtain ⟨kind, _, left, right, _⟩ := slot
    cases kind with
    | leaf => exact writeString_adjust x id _ s
    | joint =>
      exact bind_adjusted (writeString_adjust x id jointBits s) fun t => bind_adjusted (ih left t) fun u => ih right u

theorem cTreeWr_ignoresLsize : IgnoresLsize cTreeWr := fun x s =>
  bind_adjusted (g := id) (rootNode_adjust x id s) fun k =>
    bind_adjusted (serialize_ignoresLsize Config.treeNodeCap k x s) fun _ => rfl

/-! ## The stream encoder -/

theorem cEncode_ignoresLsize : IgnoresLsize cEncode := fun x s =>
  bind_adjusted (inputBits_adjust x id _ _ s) fun r =>
    bind_adjusted (g := id) (letterIndex_adjust x id r.1) fun v =>
      ite_adjusted
        (bind_adjusted (writeString_adjust x id (codeOf r.2 v).bits r.2) fun t =>
          congrArg Except.ok (leaveAtEnd_adjust x id .cRem { t with i := t.i + 1 }))
        rfl

theorem copyRemainder_ignoresLsize : IgnoresLsize copyRemainder := fun x s =>
  bind_adjusted (inputBits_adjust x id _ _ s) fun r => writeString_adjust x id (bin r.2.remBits r.1) r.2

theorem cRem_ignoresLsize : IgnoresLsize cRem := fun x s =>
  ite_adjusted (bind_adjusted (copyRemainder_ignoresLsize x s) fun _ => rfl) rfl

theorem finishOutput_ignoresLsize : IgnoresLsize finishOutput := fun x s =>
  bind_adjusted (flushLoop_adjust x id 7 s) fun _ => rfl

/-! ## The stream decoder -/

theorem treeWalk_ignoresLsize (x : BitVec 8 → BitVec 8) (fuel k : Nat) (s : State) :
    treeWalk fuel k (adjust x id s) = Run.map2 (withState (adjust x id)) (adjust x id) (treeWalk fuel k s) := by
  induction fuel generalizing k s with
  | zero => rfl
  | succ fuel ih =>
    refine bind_adjusted (g := id) (nodeAt_adjust x id k s) fun slot => ?_
    obtain ⟨kind, _, _, _, _⟩ := slot
    cases kind with
    | leaf => rfl
    | joint => exact bind_adjusted (readOrCorrupt_adjust x id 1 s) fun r => ih _ r.2

theorem decodeLetter_ignoresLsize (x : BitVec 8 → BitVec 8) (s : State) :
    decodeLetter (adjust x id s) = Run.map2 (withState (adjust x id)) (adjust x id) (decodeLetter s) := by
  refine bind_adjusted (g := id) (rootNode_adjust x id s) fun k => ?_
  refine bind_adjusted (g := id) (nodeAt_adjust x id k s) fun slot => ?_
  obtain ⟨kind, _, _, _, _⟩ := slot
  cases kind with
  | leaf => exact bind_adjusted (readOrCorrupt_adjust x id 1 s) fun _ => rfl
  | joint => exact treeWalk_ignoresLsize x (s.inBits - s.rdPos + 1) k s

theorem dDecode_ignoresLsize : IgnoresLsize dDecode := fun x s =>
  bind_adjusted (decodeLetter_ignoresLsize x s) fun r =>
    bind_adjusted (writeString_adjust x id (bin (letterSize r.2) r.1.toNat) r.2) fun t =>
      congrArg Except.ok (leaveAtEnd_adjust x id .dRem { t with i := t.i + 1 })

theorem readRemainder_ignoresLsize : IgnoresLsize readRemainder := fun x s =>
  bind_adjusted (readOrCorrupt_adjust x id s.remBits s) fun r => writeString_adjust x id (bin r.2.remBits r.1) r.2

theorem dRem_ignoresLsize : IgnoresLsize dRem := fun x s =>
  ite_adjusted (bind_adjusted (readRemainder_ignoresLsize x s) fun _ => rfl) rfl

/-! ## The frequency analyzer -/

theorem cCount_ignoresLsize : IgnoresLsize cCount := fun x s =>
  bind_adjusted (inputBits_adjust x id _ _ s) fun r =>
    bind_adjusted (g := id) (letterIndex_adjust x id r.1) fun v =>
      congrArg Except.ok (leaveAtEnd_adjust x id .cLeaves { countLetter v r.2 with i := r.2.i + 1 })

/-! ## The tree builder -/

theorem addLeaves_ignoresLsize (entries : List (Nat × Nat)) : IgnoresLsize (addLeaves entries) := by
  intro x s
  induction entries generalizing s with
  | nil => rfl
  | cons entry rest ih =>
    exact bind_adjusted (bind_adjusted (setNode_adjust x id s.nNodes _ s) fun _ => rfl) ih

theorem cLeaves_ignoresLsize : IgnoresLsize cLeaves := fun x s =>
  bind_adjusted (addLeaves_ignoresLsize (frequencyTable s) x s) fun _ => rfl

theorem argminFrom_adjust (x : BitVec 8 → BitVec 8) (s : State) (best : Nat) (ks : List Nat) :
    argminFrom (adjust x id s) best ks = argminFrom s best ks := by
  induction ks generalizing best with
  | nil => rfl
  | cons k ks ih => exact ih _

theorem popMin_ignoresLsize (x : BitVec 8 → BitVec 8) (s : State) :
    popMin (adjust x id s) = Run.map2 (withState (adjust x id)) (adjust x id) (popMin s) := by
  simp only [popMin, argminFrom_adjust, show (adjust x id s).active = s.active from rfl]
  cases s.active <;> rfl

theorem mergeTwo_ignoresLsize : IgnoresLsize mergeTwo := fun x s =>
  bind_adjusted (popMin_ignoresLsize x s) fun a =>
    bind_adjusted (popMin_ignoresLsize x a.2) fun b =>
      bind_adjusted (g := id) (nodeAt_adjust x id a.1 b.2) fun _ =>
        bind_adjusted (g := id) (nodeAt_adjust x id b.1 b.2) fun _ =>
          bind_adjusted (setNode_adjust x id b.2.nNodes _ b.2) fun _ => rfl

theorem cMerge_ignoresLsize : IgnoresLsize cMerge := by
  intro x s
  have merge := mergeTwo_ignoresLsize x s
  simp only [cMerge, show (adjust x id s).active = s.active from rfl]
  rcases s.active with _ | ⟨r, _ | _⟩
  · exact merge
  · rfl
  · exact merge

/-! ## Instructions -/

theorem endStep_ignoresLsize {p : Phase} {f : State → Run State} (h : IgnoresLsize f) (x : BitVec 8 → BitVec 8)
    (s : State) : endStep p (f (adjust x id s)) = adjustOutcome x id (endStep p (f s)) :=
  endStep_adjust x (h x s)

/-- A command tests `phase` alone, and what it sets does not depend on LSIZE (46_host_commands.md R400). -/
theorem dispatchCommand_adjust (x : BitVec 8 → BitVec 8) (accepted s : State) :
    dispatchCommand (adjust x id accepted) (adjust x id s) = adjustOutcome x id (dispatchCommand accepted s) := by
  simp only [dispatchCommand, show busy (adjust x id s) = busy s from rfl]
  split <;> rfl

theorem exec_ignoresLsize {i : Instr} (hi : i ≠ .phaseCSetup) (x : BitVec 8 → BitVec 8) (s : State) :
    exec i (adjust x id s) = adjustOutcome x id (exec i s) := by
  cases i with
  | phaseCSetup => exact absurd rfl hi
  | compress => exact dispatchCommand_adjust x (acceptCommand .cSetup s) s
  | decompress => exact dispatchCommand_adjust x (acceptCommand .dSetup s) s
  | illegalCommand word =>
    exact dispatchCommand_adjust x { acceptCommand .error s with errCode := errorCode .illegalCommand } s
  | treeLeaf letter => exact endStep_ignoresLsize (treeLeaf_ignoresLsize letter) x s
  | treeJoint => exact endStep_ignoresLsize treeJoint_ignoresLsize x s
  | phaseIdle | phaseDone | phaseError | phaseReserved => rfl
  | phaseCCount => exact endStep_ignoresLsize cCount_ignoresLsize x s
  | phaseCLeaves => exact endStep_ignoresLsize cLeaves_ignoresLsize x s
  | phaseCMerge => exact endStep_ignoresLsize cMerge_ignoresLsize x s
  | phaseCCodegen => exact endStep_ignoresLsize cCodegen_ignoresLsize x s
  | phaseCHdr => exact endStep_ignoresLsize cHdr_ignoresLsize x s
  | phaseCTreeWr => exact endStep_ignoresLsize cTreeWr_ignoresLsize x s
  | phaseCEncode => exact endStep_ignoresLsize cEncode_ignoresLsize x s
  | phaseCRem => exact endStep_ignoresLsize cRem_ignoresLsize x s
  | phaseCPad => exact endStep_ignoresLsize finishOutput_ignoresLsize x s
  | phaseDSetup => exact endStep_ignoresLsize dSetup_ignoresLsize x s
  | phaseDHdr => exact endStep_ignoresLsize dHdr_ignoresLsize x s
  | phaseDTreeRd => exact endStep_ignoresLsize dTreeRd_ignoresLsize x s
  | phaseDDecode => exact endStep_ignoresLsize dDecode_ignoresLsize x s
  | phaseDRem => exact endStep_ignoresLsize dRem_ignoresLsize x s
  | phaseDFlush => exact endStep_ignoresLsize finishOutput_ignoresLsize x s

end Sys2Proof.Machine

open Sys2Proof Sys2Proof.Machine

/-- The statement's change of LSIZE is the one the laws speak of. -/
theorem withLsize_eq_adjustOutcome (x : BitVec 8) (o : Host.Outcome State Fault Refusal) :
    withLsize x o = adjustOutcome (fun _ => x) id o := by
  cases o <;> rfl

/-- Settles O47: every part of every instruction but C_SETUP commutes with a change of LSIZE. -/
theorem onlyCompressSetupReadsLsize : Obligations.OnlyCompressSetupReadsLsize := by
  intro i s x hi
  rw [withLsize_eq_adjustOutcome]
  exact exec_ignoresLsize hi (fun _ => x) s
end

section
/-! PROOF. The host's accesses (20_memory.md R113, R114; 10_state.md R65): an access that is no command is performed by the step that consumes it; an odd register access is refused, and while BUSY = 0 bytes go into IBUF and come out of OBUF. -/

namespace Sys2Proof.Machine

/-- A host access that is no command word is performed by the step that consumes it. -/
theorem step_access {s : State} {e : HostAccess} {rest : List Input} (h : s.inputs = .host e :: rest)
    (he : ∀ v, e ≠ .write Config.offCmd 8 v) : step s = hostAccess e { s with inputs := rest } := by
  have hmove : nextMove s = (.access e, { s with inputs := rest }) := by
    cases e with
    | write offset width value =>
      have hcmd : ¬ (offset = Config.offCmd ∧ width = 8) := by
        rintro ⟨rfl, rfl⟩
        exact he value rfl
      simp only [nextMove, h, if_neg hcmd]
    | read | store | fetch | reset => simp only [nextMove, h]
  simp only [step, hmove]

theorem registerAccessOk_iff {offset width : Nat} :
    registerAccessOk offset width = true ↔ width = 8 ∧ offset % 8 = 0 := by
  simp [registerAccessOk]

@[simp] theorem freeBytes_length (first n : Nat) : (freeBytes first n).length = n := by simp [freeBytes]

@[simp] theorem Memory.readAll_length (m : Memory) (a n : Nat) : (Memory.readAll m a n).length = n := by
  simp [Memory.readAll]

theorem Memory.getElem_readAll (m : Memory) (a n : Nat) {j : Nat} (h : j < (Memory.readAll m a n).length) :
    (Memory.readAll m a n)[j] = Memory.read m (a + j) := by
  simp [Memory.readAll]

/-! ## Stores and fetches inside a buffer while BUSY = 0 -/

theorem hostStore_ibuf {s : State} {a : Nat} {bytes : List Byte} (hb : busy s = false)
    (h : a + bytes.length ≤ s.inCap) :
    hostStore .ibuf a bytes s = .next { s with ibuf := Memory.writeAll s.ibuf a bytes } := by
  simp only [hostStore, hb, Bool.false_eq_true, if_false, if_pos h]

theorem hostStore_obuf {s : State} {a : Nat} {bytes : List Byte} (hb : busy s = false)
    (h : a + bytes.length ≤ s.outCap) : hostStore .obuf a bytes s = .next s := by
  simp only [hostStore, hb, Bool.false_eq_true, if_false, if_pos h]

theorem hostFetch_ibuf {s : State} {a n : Nat} (h : a + n ≤ s.inCap) :
    hostFetch .ibuf a n s = .next (fetchFree .ibuf a n s) := if_pos h

theorem hostFetch_obuf {s : State} {a n : Nat} (hb : busy s = false) (h : a + n ≤ s.outCap) :
    hostFetch .obuf a n s = .next (record (.bytes .obuf a (Memory.readAll s.obuf a n)) s) := by
  rw [hostFetch, if_pos (show a + n ≤ capacity .obuf s from h)]
  simp only [hb, Bool.false_eq_true, if_false]

end Sys2Proof.Machine

open Sys2Proof Sys2Proof.Machine

/-- Settles O11: an odd access is no command word, so it is the host's own, and R113 refuses it. -/
theorem oddRegisterAccessIsRefused : Obligations.OddRegisterAccessIsRefused := by
  intro s off width v rest hodd
  have hrefuse : ¬ registerAccessOk off width = true := registerAccessOk_iff.not.2 hodd
  refine ⟨fun h => ?_, fun h => ?_⟩
  · rw [step_access h (by simp)]
    exact if_neg hrefuse
  · have hcmd : ∀ w, HostAccess.write off width v ≠ .write Config.offCmd 8 w := by
      rintro w ⟨⟩
      exact hodd ⟨rfl, rfl⟩
    rw [step_access h hcmd]
    exact if_neg hrefuse

/-- Settles O13: each access is performed as its buffer's rule says, and BUSY does not depend on the buffers or the
inputs to come. -/
theorem hostBufferAccessesMoveBytes : Obligations.HostBufferAccessesMoveBytes := by
  intro s a n bytes rest hb
  have hb' : busy { s with inputs := rest } = false := hb
  refine ⟨fun h hin hwf => ?_, fun h hin => ?_, fun h hin => ?_, fun h hin => ?_⟩
  · refine ⟨{ s with inputs := rest, ibuf := Memory.writeAll s.ibuf a bytes }, ?_, rfl, Memory.wf_writeAll hwf a bytes,
      fun j hj => Memory.read_writeAll_inside s.ibuf hwf a bytes j hj,
      fun b hout => Memory.read_writeAll_other s.ibuf bytes hout⟩
    rw [step_access h (by simp)]
    exact hostStore_ibuf hb' hin
  · rw [step_access h (by simp)]
    exact hostStore_obuf hb' hin
  · refine ⟨freeBytes s.draws n, freeBytes_length _ _, fun ibuf obuf => ?_⟩
    rw [step_access (s := { s with ibuf := ibuf, obuf := obuf }) h (by simp)]
    exact hostFetch_ibuf hin
  · refine ⟨Memory.readAll s.obuf a n, ?_, Memory.readAll_length _ _ _, fun j hj => Memory.getElem_readAll _ _ _ hj⟩
    rw [step_access h (by simp)]
    exact hostFetch_obuf hb' hin
end

section
/-! PROOF. What a step of the block leaves alone, whatever it answers and from whatever state: what is the host's (10_state.md R65, 20_memory.md R101), and every byte of OBUF outside those `wr_pos` moves over (R102). -/

namespace Sys2Proof.Machine

/-! ## Work in the middle of an operation -/

/-- From `s` to `t`, `wr_pos` stays inside OBUF and has moved up, and only bytes it moved over were written (20_memory.md
R102). -/
structure WroteUp (s t : State) : Prop where
  inside : s.wrPos.toNat ≤ s.outCap → t.wrPos.toNat ≤ s.outCap
  forward : s.wrPos.toNat ≤ t.wrPos.toNat
  outside : ∀ a, a < s.wrPos.toNat ∨ t.wrPos.toNat ≤ a → Memory.read t.obuf a = Memory.read s.obuf a

/-- From `s` to `t` a part of a step, not the end of an operation, has done its work: what is the host's is kept, and OBUF
is written from `wr_pos` up, so long as `wr_pos` stays in its 64 bits (log 7). -/
structure Worked (s t : State) : Prop extends HostKept s t where
  notDone : s.phase ≠ phaseCode .done → t.phase ≠ phaseCode .done
  output : s.outCap < 2 ^ 64 → WroteUp s t

theorem WroteUp.of_eq {s t : State} (hpos : t.wrPos = s.wrPos) (hobuf : t.obuf = s.obuf) : WroteUp s t := by
  refine ⟨fun h => ?_, ?_, fun a _ => ?_⟩
  · rw [hpos]; exact h
  · rw [hpos]
  · rw [hobuf]

theorem WroteUp.trans {s t u : State} (hcap : t.outCap = s.outCap) (h : WroteUp s t) (h' : WroteUp t u) :
    WroteUp s u := by
  have hfirst := h.forward
  have hsecond := h'.forward
  refine ⟨fun hin => ?_, by omega, fun a ha => ?_⟩
  · rw [← hcap]
    exact h'.inside (by rw [hcap]; exact h.inside hin)
  · rw [h'.outside a (by omega), h.outside a (by omega)]

/-- An update of fields that are neither the host's nor OBUF's. -/
theorem Worked.update {s t : State} (ibuf : t.ibuf = s.ibuf := by rfl) (lsize : t.lsize = s.lsize := by rfl)
    (inLen : t.inLen = s.inLen := by rfl) (inCap : t.inCap = s.inCap := by rfl)
    (outCap : t.outCap = s.outCap := by rfl) (inputs : t.inputs = s.inputs := by rfl)
    (reads : t.reads = s.reads := by rfl) (phase : t.phase = s.phase := by rfl)
    (wrPos : t.wrPos = s.wrPos := by rfl) (obuf : t.obuf = s.obuf := by rfl) : Worked s t :=
  ⟨⟨ibuf, lsize, inLen, inCap, outCap, inputs, reads⟩, fun h => by rw [phase]; exact h, fun _ => .of_eq wrPos obuf⟩

theorem Worked.refl (s : State) : Worked s s := .update

theorem Worked.trans {s t u : State} (h : Worked s t) (h' : Worked t u) : Worked s u :=
  ⟨h.toHostKept.trans h'.toHostKept, h'.notDone ∘ h.notDone, fun hcap =>
    (h.output hcap).trans h.outCap (h'.output (by rw [h.outCap]; exact hcap))⟩

theorem Worked.setPhase {p : Phase} (hp : p ≠ .done) (s : State) : Worked s (setPhase p s) :=
  ⟨⟨rfl, rfl, rfl, rfl, rfl, rfl, rfl⟩, fun _ h => hp (phaseCode_injective h), fun _ => .of_eq rfl rfl⟩

theorem Worked.of_port {s t : State} (h : t = { s with port := t.port }) : Worked s t := by rw [h]; exact .update

theorem Worked.leaveAtEnd {p : Phase} (hp : p ≠ .done) (s : State) : Worked s (leaveAtEnd p s) := by
  unfold Machine.leaveAtEnd
  split
  · exact .setPhase hp s
  · exact .refl s

/-- WriteBit's store of a completed byte (R107). -/
theorem Worked.store {s t : State} {v : Byte} (hroom : s.wrPos.toNat < s.outCap)
    (ht : t = { s with obuf := Memory.write s.obuf s.wrPos.toNat v, port := s.port.tail }) :
    Worked s (nextByte t) := by
  subst ht
  generalize ht : ({ s with obuf := Memory.write s.obuf s.wrPos.toNat v, port := s.port.tail } : State) = t
  have hstored : HostKept s t := by subst ht; exact ⟨rfl, rfl, rfl, rfl, rfl, rfl, rfl⟩
  have hkept : HostKept s (nextByte t) := hstored.trans (.of_writer (nextByte_frame t))
  have hphase : (nextByte t).phase = s.phase := by rw [nextByte_frame t, ← ht]
  refine ⟨hkept, fun h => by rw [hphase]; exact h, fun hcap => ?_⟩
  have hpos : (nextByte t).wrPos.toNat = s.wrPos.toNat + 1 := by
    subst ht
    rw [nextByte, if_pos (show s.wrPos.toNat + 1 < 2 ^ 64 by omega)]
    exact (BitVec.toNat_add _ _).trans (Nat.mod_eq_of_lt (show s.wrPos.toNat + 1 < 2 ^ 64 by omega))
  refine ⟨fun _ => by omega, by omega, fun a ha => ?_⟩
  rw [nextByte_obuf, ← ht]
  exact Memory.read_write_other _ _ (by omega)

/-! ## Parts of a step that work -/

/-- A part of a step works, whether it goes on or raises; `out` is the state in its result. -/
abbrev Run.works {α : Type} (out : α → State) (s : State) (x : Run α) : Prop :=
  Run.post (fun a => Worked s (out a)) (fun _ => Worked s) (fun _ => True) x

section
variable {α β : Type} {out : α → State} {out' : β → State} {s : State}

theorem works_after {t : State} {x : Run α} (h : Worked s t) (hx : Run.works out t x) : Run.works out s x :=
  post_mono hx (fun _ ha => h.trans ha) (fun _ _ hr => h.trans hr) (fun _ _ => trivial)

theorem works_bind {x : Run α} {f : α → Run β} (hx : Run.works out s x) (hf : ∀ a, Run.works out' (out a) (f a)) :
    Run.works out' s (x >>= f) := by
  rw [Run.works, post_bind]
  exact post_mono hx (fun a ha => works_after ha (hf a)) (fun _ _ h => h) (fun _ _ => trivial)

/-- A part that answers no state and raises nothing. -/
theorem works_bind_pure {x : Run α} {f : α → Run β} (hx : Run.post (fun _ => True) (fun _ _ => False) (fun _ => True) x)
    (hf : ∀ a, Run.works out' s (f a)) : Run.works out' s (x >>= f) := by
  rw [Run.works, post_bind]
  exact post_mono hx (fun a _ => hf a) (fun _ _ h => h.elim) (fun _ _ => trivial)

end

/-! ## The bit reader and writer -/

theorem inputBits_works (p w : Nat) (s : State) : Run.works Prod.snd s (inputBits p w s) :=
  post_mono (inputBits_frame p w s) (fun _ h => .of_port h) (fun _ _ h => .of_port h.2) (fun _ _ => trivial)

theorem readOrCorrupt_works (w : Nat) (s : State) : Run.works Prod.snd s (readOrCorrupt w s) :=
  post_mono (readOrCorrupt_frame w s) (fun _ h => by rw [h.1]; exact .update) (fun _ _ h => .of_port h.2)
    (fun _ _ => trivial)

theorem writeBit_works (b : Bool) (s : State) : Run.works id s (writeBit b s) := by
  unfold writeBit
  dsimp only
  split
  · rw [Run.works, post_bind]
    refine post_mono (memWrite_post _ _ (shiftIn b s)) ?_ ?_ (fun _ _ => trivial)
    · rintro t ⟨hroom, ht⟩
      exact Worked.trans .update (.store hroom ht)
    · rintro _ t ⟨-, ht⟩
      exact Worked.trans .update (.of_port ht)
  · exact .update

theorem writeString_works (bs : Bits) (s : State) : Run.works id s (writeString bs s) := by
  induction bs generalizing s with
  | nil => exact .refl s
  | cons b bs ih => exact works_bind (writeBit_works b s) ih

theorem writeBits_works (w v : Nat) (s : State) : Run.works id s (writeBits w v s) := writeString_works _ s

theorem flushLoop_works (fuel : Nat) (s : State) : Run.works id s (flushLoop fuel s) := by
  induction fuel generalizing s with
  | zero =>
    rw [flushLoop]
    split
    · exact .refl s
    · trivial
  | succ fuel ih =>
    rw [flushLoop]
    split
    · exact .refl s
    · exact works_bind (writeBit_works false s) ih

/-! ## The tables and NODE -/

theorem setNode_works (k : Nat) (slot : NodeSlot) (s : State) : Run.works id s (setNode k slot s) := by
  unfold setNode
  split
  · exact .update
  · trivial

theorem addLeaves_works (es : List (Nat × Nat)) (s : State) : Run.works id s (addLeaves es s) := by
  induction es generalizing s with
  | nil => exact .refl s
  | cons e es ih => exact works_bind (works_bind (setNode_works _ _ s) fun _ => .update) ih

theorem popMin_works (s : State) : Run.works Prod.snd s (popMin s) := by
  unfold popMin
  split
  · trivial
  · exact .update

theorem mergeTwo_works (s : State) : Run.works id s (mergeTwo s) :=
  works_bind (popMin_works s) fun _ => works_bind (popMin_works _) fun _ =>
    works_bind_pure (nodeAt_pure _ _) fun _ => works_bind_pure (nodeAt_pure _ _) fun _ =>
      works_bind (setNode_works _ _ _) fun _ => .update

theorem codeWalk_works (fuel k : Nat) (path : Bits) (s : State) : Run.works id s (codeWalk fuel k path s) := by
  induction fuel generalizing k path s with
  | zero => trivial
  | succ fuel ih =>
    refine works_bind_pure (nodeAt_pure _ _) fun x => ?_
    split
    · exact .update
    · exact works_bind (ih _ _ s) fun t => ih _ _ t

theorem serialize_works (fuel k : Nat) (s : State) : Run.works id s (serialize fuel k s) := by
  induction fuel generalizing k s with
  | zero => trivial
  | succ fuel ih =>
    refine works_bind_pure (nodeAt_pure _ _) fun x => ?_
    split
    · exact writeString_works _ s
    · exact works_bind (writeString_works _ s) fun t => works_bind (ih _ t) fun u => ih _ u

theorem allocNode_works (s : State) : Run.works Prod.snd s (allocNode s) := by
  unfold allocNode
  split
  · exact .refl s
  · exact .update

theorem deliver_works (k : Nat) (stack : List PendingJoint) (s : State) : Run.works id s (deliver k stack s) := by
  induction stack generalizing k s with
  | nil => exact .update
  | cons joint rest ih =>
    obtain ⟨j, _ | l⟩ := joint
    · exact .update
    · exact works_bind (setNode_works _ _ s) fun t => ih j t

theorem placeLeaf_works (k : Nat) (v : BitVec 16) (s : State) : Run.works id s (placeLeaf k v s) :=
  works_bind (setNode_works _ _ s) fun t => deliver_works k _ t

theorem treeLeaf_works (v : BitVec 16) (s : State) :
    Run.works id s (allocNode s >>= fun r => placeLeaf r.1 v r.2) :=
  works_bind (allocNode_works s) fun r => placeLeaf_works r.1 v r.2

theorem treeJoint_works (s : State) : Run.works id s (allocNode s >>= fun r => .ok (pushJoint r.1 r.2)) :=
  works_bind (allocNode_works s) fun _ => .update

theorem readToken_works (s : State) : Run.works id s (readToken s) := by
  refine works_bind (allocNode_works s) fun _ => works_bind (readOrCorrupt_works 1 _) fun r => ?_
  dsimp only
  split
  · exact works_bind (readOrCorrupt_works _ _) fun _ => placeLeaf_works _ _ _
  · exact .update

theorem readTokens_works (fuel : Nat) (s : State) : Run.works id s (readTokens fuel s) := by
  induction fuel generalizing s with
  | zero => trivial
  | succ fuel ih =>
    refine works_bind (readToken_works s) fun t => ?_
    split
    · exact .refl t
    · exact ih t

theorem readTree_works (s : State) : Run.works id s (readTree s) :=
  works_after (t := { s with pending := [] }) .update (readTokens_works _ _)

theorem treeWalk_works (fuel k : Nat) (s : State) : Run.works Prod.snd s (treeWalk fuel k s) := by
  induction fuel generalizing k s with
  | zero => trivial
  | succ fuel ih =>
    refine works_bind_pure (nodeAt_pure _ _) fun x => ?_
    split
    · exact .refl s
    · exact works_bind (readOrCorrupt_works 1 s) fun r => ih _ r.2

theorem decodeLetter_works (s : State) : Run.works Prod.snd s (decodeLetter s) := by
  refine works_bind_pure (rootNode_pure s) fun k => works_bind_pure (nodeAt_pure _ _) fun x => ?_
  split
  · exact works_bind (readOrCorrupt_works 1 s) fun r => .refl r.2
  · exact treeWalk_works _ _ s

/-! ## The rules of the phases -/

/-- The end of a successful operation at `t`, after the work that leads there: OUT_LEN is where that work ended in OBUF, or
it wrote nothing. -/
def Finished (s t : State) : Prop :=
  ∃ v u, Worked s u ∧ (v = u.wrPos ∨ u.obuf = s.obuf) ∧ t = finish v u

/-- The rule of a running phase works, and may then end the operation. -/
theorem phaseRule_running {p : Phase} (hp : p ∈ runningPhases) (s : State) :
    Run.post (fun t => Worked s t ∨ Finished s t) (fun _ => Worked s) (fun _ => True) (phaseRule p s) := by
  have working {x : Run State} (h : Run.works id s x) :
      Run.post (fun t => Worked s t ∨ Finished s t) (fun _ => Worked s) (fun _ => True) x :=
    post_mono h (fun _ => .inl) (fun _ _ => id) (fun _ => id)
  have finishing : Run.post (fun t => Worked s t ∨ Finished s t) (fun _ => Worked s) (fun _ => True) (finishOutput s) := by
    rw [finishOutput, post_bind]
    exact post_mono (flushLoop_works 7 s) (fun u hu => .inr ⟨u.wrPos, u, hu, .inl rfl, rfl⟩) (fun _ _ => id) (fun _ => id)
  cases p
  case idle | cSetup | dSetup | done | error => exact absurd hp (by decide)
  case cCount =>
    exact working <| works_bind (inputBits_works _ _ s) fun _ => works_bind_pure (letterIndex_pure _) fun _ =>
      Worked.trans .update (.leaveAtEnd (by decide) _)
  case cLeaves => exact working <| works_bind (addLeaves_works _ s) fun t => .setPhase (by decide) t
  case cMerge =>
    refine working (x := cMerge s) ?_
    unfold cMerge
    split
    · exact Worked.trans .update (.setPhase (by decide) _)
    · exact mergeTwo_works s
  case cCodegen =>
    refine working <| works_bind_pure (rootNode_pure s) fun k => works_bind_pure (nodeAt_pure _ _) fun x => ?_
    dsimp only
    split
    · exact Worked.trans .update (.setPhase (by decide) _)
    · exact works_bind (codeWalk_works _ _ _ s) fun t => .setPhase (by decide) t
  case cHdr =>
    exact working <| works_bind (writeBits_works _ _ s) fun t => works_bind (writeBits_works _ _ t) fun u =>
      .setPhase (by split <;> decide) u
  case cTreeWr =>
    exact working <| works_bind_pure (rootNode_pure s) fun _ => works_bind (serialize_works _ _ s) fun _ =>
      Worked.trans .update (.setPhase (by decide) _)
  case cEncode =>
    refine working <| works_bind (inputBits_works _ _ s) fun r => works_bind_pure (letterIndex_pure _) fun v => ?_
    split
    · exact works_bind (writeString_works _ _) fun _ => Worked.trans .update (.leaveAtEnd (by decide) _)
    · exact .refl r.2
  case cRem =>
    refine working (x := cRem s) ?_
    unfold cRem
    dsimp only
    split
    · exact works_bind (works_bind (inputBits_works _ _ s) fun _ => writeBits_works _ _ _) fun t => .setPhase (by decide) t
    · exact .setPhase (by decide) s
  case cPad | dFlush => exact finishing
  case dHdr =>
    refine working <| works_bind (readOrCorrupt_works 8 s) fun r => ?_
    dsimp only
    split
    · exact works_bind (works_after .update (readOrCorrupt_works 64 _)) fun _ =>
        Worked.trans .update (.setPhase (by split <;> decide) _)
    · exact .refl r.2
  case dTreeRd =>
    change Run.post _ _ _ (dTreeRd s)
    unfold dTreeRd
    split
    · exact .inr ⟨0, s, .refl s, .inr rfl, rfl⟩
    · exact working <| works_bind (readTree_works s) fun _ => Worked.trans .update (.setPhase (by decide) _)
  case dDecode =>
    exact working <| works_bind (decodeLetter_works s) fun _ => works_bind (writeBits_works _ _ _) fun _ =>
      Worked.trans .update (.leaveAtEnd (by decide) _)
  case dRem =>
    refine working (x := dRem s) ?_
    unfold dRem
    dsimp only
    split
    · exact works_bind (works_bind (readOrCorrupt_works _ s) fun _ => writeBits_works _ _ _) fun t =>
        .setPhase (by decide) t
    · exact .setPhase (by decide) s

/-- A setup step leaves what is the host's, and OBUF (R200, R295). -/
theorem phaseRule_setup {p : Phase} (hp : p ∈ [.cSetup, .dSetup]) (s : State) :
    Run.keeps (fun t => HostKept s t ∧ t.obuf = s.obuf) (phaseRule p s) := by
  rcases List.mem_pair.1 hp with rfl | rfl
  · change Run.keeps _ (cSetup s)
    unfold cSetup
    dsimp only
    split
    · split
      · exact ⟨⟨rfl, rfl, rfl, rfl, rfl, rfl, rfl⟩, rfl⟩
      · exact ⟨⟨rfl, rfl, rfl, rfl, rfl, rfl, rfl⟩, rfl⟩
    · exact ⟨⟨rfl, rfl, rfl, rfl, rfl, rfl, rfl⟩, rfl⟩
  · change Run.keeps _ (dSetup s)
    unfold dSetup
    dsimp only
    split
    · exact ⟨.refl s, rfl⟩
    · split
      · exact ⟨⟨rfl, rfl, rfl, rfl, rfl, rfl, rfl⟩, rfl⟩
      · exact ⟨⟨rfl, rfl, rfl, rfl, rfl, rfl, rfl⟩, rfl⟩

/-- A phase is quiescent, a setup phase, or a running one. -/
theorem phase_kinds (p : Phase) : p ∈ [.idle, .done, .error] ∨ p ∈ [.cSetup, .dSetup] ∨ p ∈ runningPhases := by
  cases p <;> decide

theorem phaseRule_quiet {p : Phase} (hp : p ∈ [.idle, .done, .error]) (s : State) : phaseRule p s = .ok s := by
  simp only [List.mem_cons, List.not_mem_nil, or_false] at hp
  rcases hp with rfl | rfl | rfl <;> rfl

/-! ## What every instruction keeps of the host's -/

theorem Finished.hostKept {s t : State} (h : Finished s t) : HostKept s t := by
  obtain ⟨v, u, hu, -, rfl⟩ := h
  exact hu.toHostKept.trans (.finish v u)

theorem phaseRule_keepsHost (p : Phase) (s : State) : Run.keeps (HostKept s) (phaseRule p s) := by
  rcases phase_kinds p with quiet | setup | running
  · rw [phaseRule_quiet quiet]
    exact .refl s
  · exact post_mono (phaseRule_setup setup s) (fun _ h => h.1) (fun _ _ h => h.1) (fun _ => id)
  · exact post_mono (phaseRule_running running s) (fun _ h => h.elim (·.toHostKept) Finished.hostKept)
      (fun _ _ h => h.toHostKept) (fun _ => id)

theorem endStep_keepsHost {p : Phase} {r : Run State} {s t : State} (hr : Run.keeps (HostKept s) r)
    (h : endStep p r = .next t) : HostKept s t := by
  rcases endStep_next h with rfl | ⟨e, u, rfl, rfl⟩
  · exact hr
  · exact HostKept.trans hr (.takeError e p u)

theorem Run.works.keepsHost {s : State} {x : Run State} (h : Run.works id s x) : Run.keeps (HostKept s) x :=
  post_mono h (fun _ h => h.toHostKept) (fun _ _ h => h.toHostKept) (fun _ => id)

theorem dispatchCommand_keepsHost {accepted s t : State} (h : dispatchCommand accepted s = .next t)
    (ha : HostKept s accepted) : HostKept s t := by
  unfold dispatchCommand at h
  split at h
  · cases h; exact .refl s
  · cases h; exact ha

theorem phase_keepsHost (p : Phase) {s t : State} (h : endStep p (phaseRule p s) = .next t) : HostKept s t :=
  endStep_keepsHost (phaseRule_keepsHost p s) h

theorem exec_keepsHost {i : Instr} {s t : State} (h : exec i s = .next t) : HostKept s t := by
  cases i with
  | compress | decompress | illegalCommand =>
    exact dispatchCommand_keepsHost h ⟨rfl, rfl, rfl, rfl, rfl, rfl, rfl⟩
  | treeLeaf letter => exact endStep_keepsHost (treeLeaf_works letter s).keepsHost h
  | treeJoint => exact endStep_keepsHost (treeJoint_works s).keepsHost h
  | phaseIdle => exact phase_keepsHost .idle h
  | phaseCSetup => exact phase_keepsHost .cSetup h
  | phaseCCount => exact phase_keepsHost .cCount h
  | phaseCLeaves => exact phase_keepsHost .cLeaves h
  | phaseCMerge => exact phase_keepsHost .cMerge h
  | phaseCCodegen => exact phase_keepsHost .cCodegen h
  | phaseCHdr => exact phase_keepsHost .cHdr h
  | phaseCTreeWr => exact phase_keepsHost .cTreeWr h
  | phaseCEncode => exact phase_keepsHost .cEncode h
  | phaseCRem => exact phase_keepsHost .cRem h
  | phaseCPad => exact phase_keepsHost .cPad h
  | phaseDSetup => exact phase_keepsHost .dSetup h
  | phaseDHdr => exact phase_keepsHost .dHdr h
  | phaseDTreeRd => exact phase_keepsHost .dTreeRd h
  | phaseDDecode => exact phase_keepsHost .dDecode h
  | phaseDRem => exact phase_keepsHost .dRem h
  | phaseDFlush => exact phase_keepsHost .dFlush h
  | phaseDone => exact phase_keepsHost .done h
  | phaseError => exact phase_keepsHost .error h
  | phaseReserved => cases h

/-! ## OBUF is written in order -/

/-- Where a step outside the setup phases leaves OBUF (R102), by the phase it ends in. -/
structure OutputInOrder (s t : State) : Prop where
  going : t.phase ≠ phaseCode .done → t.phase ≠ phaseCode .error →
    s.wrPos.toNat ≤ t.wrPos.toNat ∧
      ∀ a, a < s.wrPos.toNat ∨ t.wrPos.toNat ≤ a → Memory.read t.obuf a = Memory.read s.obuf a
  done : t.phase = phaseCode .done →
    ∀ a, a < s.wrPos.toNat ∨ t.outLen.toNat ≤ a → Memory.read t.obuf a = Memory.read s.obuf a
  error : t.phase = phaseCode .error → ∀ a, s.outCap ≤ a → Memory.read t.obuf a = Memory.read s.obuf a

theorem OutputInOrder.refl (s : State) : OutputInOrder s s :=
  ⟨fun _ _ => ⟨le_rfl, fun _ _ => rfl⟩, fun _ _ _ => rfl, fun _ _ _ => rfl⟩

theorem done_ne_error : phaseCode .done ≠ phaseCode .error := by decide

theorem bytesStored_le (p : Phase) (s : State) : bytesStored p s ≤ s.wrPos.toNat := by
  cases p
  case cSetup | dSetup => exact Nat.zero_le _
  all_goals exact le_rfl

/-- ERROR_ENTRY frees only bytes the operation has stored (R601). -/
theorem read_takeError (e : ErrorKind) (p : Phase) (s : State) {a : Nat} (h : bytesStored p s ≤ a) :
    Memory.read (takeError e p s).obuf a = Memory.read s.obuf a := by
  rw [takeError_obuf]
  exact Memory.read_writeAll_other _ _ (by rw [freeBytes_length]; omega)

theorem takeError_setup_obuf (e : ErrorKind) {p : Phase} (hp : p ∈ [.cSetup, .dSetup]) (s : State) :
    (takeError e p s).obuf = s.obuf := by
  rcases List.mem_pair.1 hp with rfl | rfl <;> rfl

section
variable {s t : State} (hcap : s.outCap < 2 ^ 64) (hpos : s.wrPos.toNat ≤ s.outCap)
include hcap

theorem Finished.outputInOrder (h : Finished s t) : OutputInOrder s t := by
  obtain ⟨v, u, hu, hv, rfl⟩ := h
  refine ⟨fun hne => absurd rfl hne, fun _ a ha => ?_, fun he => absurd he done_ne_error⟩
  rw [finish_outLen] at ha
  rw [finish_obuf]
  rcases hv with rfl | hobuf
  · exact (hu.output hcap).outside a ha
  · rw [hobuf]

include hpos

theorem Worked.outputInOrder (hs : s.phase ≠ phaseCode .done) (h : Worked s t) : OutputInOrder s t := by
  obtain ⟨inside, forward, outside⟩ := h.output hcap
  exact ⟨fun _ _ => ⟨forward, outside⟩, fun hd => absurd hd (h.notDone hs), fun _ a ha =>
    outside a (.inr (le_trans (inside hpos) ha))⟩

theorem Worked.takeError_outputInOrder (e : ErrorKind) (p : Phase) (h : Worked s t) :
    OutputInOrder s (takeError e p t) := by
  obtain ⟨inside, -, outside⟩ := h.output hcap
  refine ⟨fun _ hne => absurd rfl hne, fun hd => absurd hd done_ne_error.symm, fun _ a ha => ?_⟩
  have hbeyond : t.wrPos.toNat ≤ a := le_trans (inside hpos) ha
  rw [read_takeError e p t (le_trans (bytesStored_le p t) hbeyond), outside a (.inr hbeyond)]

end

theorem running_outputInOrder {s t : State} (hI : Inv s) (hcap : s.outCap < 2 ^ 64) {p : Phase}
    (hp : s.phase = phaseCode p) (hr : p ∈ runningPhases) (h : endStep p (phaseRule p s) = .next t) :
    OutputInOrder s t := by
  have hpos := hI.position (mem_phases hp hr)
  have hs : s.phase ≠ phaseCode .done := by
    rw [hp]
    intro hd
    exact absurd (phaseCode_injective hd ▸ hr) (by decide)
  have hrule := phaseRule_running hr s
  rcases endStep_next h with hok | ⟨e, u, hraise, rfl⟩
  · rw [hok] at hrule
    rcases hrule with worked | finished
    · exact worked.outputInOrder hcap hpos hs
    · exact finished.outputInOrder hcap
  · rw [hraise] at hrule
    exact Worked.takeError_outputInOrder hcap hpos e p hrule

theorem setup_obuf {s t : State} {p : Phase} (hp : p ∈ [.cSetup, .dSetup])
    (h : endStep p (phaseRule p s) = .next t) : t.obuf = s.obuf := by
  have hrule := phaseRule_setup hp s
  rcases endStep_next h with hok | ⟨e, u, hraise, rfl⟩
  · rw [hok] at hrule
    exact hrule.2
  · rw [hraise] at hrule
    rw [takeError_setup_obuf e hp u]
    exact hrule.2

theorem phaseCode_setup_iff (p : Phase) : phaseCode p = 1 ∨ phaseCode p = 16 ↔ p ∈ [.cSetup, .dSetup] := by
  cases p <;> decide

end Sys2Proof.Machine

open Sys2Proof Sys2Proof.Machine

/-- Settles O45: an instruction is made of parts that keep what is the host's, and so are the ends of an operation. -/
theorem blockNeverWritesHostState : Obligations.BlockNeverWritesHostState := by
  intro i s t h
  obtain ⟨ibuf, lsize, inLen, inCap, outCap, inputs, reads⟩ := exec_keepsHost h
  exact ⟨ibuf, lsize, inLen, inCap, outCap, inputs, reads⟩

/-- Settles O46: a setup step writes no byte, a quiescent one changes nothing, and the rule of a running phase writes from
`wr_pos` up, which the invariant has inside OBUF. -/
theorem outputIsWrittenInOrder : Obligations.OutputIsWrittenInOrder := by
  intro s t hI hcap hstep
  obtain ⟨p, hp⟩ := phase_of_legal hI.legal
  rw [hp, exec_phase] at hstep
  have setup_iff : s.phase = 1 ∨ s.phase = 16 ↔ p ∈ [.cSetup, .dSetup] := by rw [hp]; exact phaseCode_setup_iff p
  refine ⟨fun h => setup_obuf (setup_iff.1 h) hstep, fun h1 h16 => ?_⟩
  have ordered : OutputInOrder s t := by
    rcases phase_kinds p with quiet | setup | running
    · rw [phaseRule_quiet quiet] at hstep
      cases hstep
      exact .refl s
    · exact absurd (setup_iff.2 setup) (not_or.2 ⟨h1, h16⟩)
    · exact running_outputInOrder hI hcap hp running hstep
  exact ⟨ordered.going, ordered.done, ordered.error⟩
end

section
/-! PROOF. The encodings of 30_encoding.md: the decoder and the encoder undo each other, and a reserved phase code has the meaning the model gives it (R151 to R153, R157, R158). -/

namespace Sys2Proof.Laws.RoundTrip

/-- The laws above, one per instruction, as one. -/
theorem decode_encode (i : Instr) : Statement i := by
  cases i with
  | compress => exact compress
  | decompress => exact decompress
  | illegalCommand word => exact illegalCommand word
  | treeLeaf letter => exact treeLeaf letter
  | treeJoint => exact treeJoint
  | phaseIdle => exact phaseIdle
  | phaseCSetup => exact phaseCSetup
  | phaseCCount => exact phaseCCount
  | phaseCLeaves => exact phaseCLeaves
  | phaseCMerge => exact phaseCMerge
  | phaseCCodegen => exact phaseCCodegen
  | phaseCHdr => exact phaseCHdr
  | phaseCTreeWr => exact phaseCTreeWr
  | phaseCEncode => exact phaseCEncode
  | phaseCRem => exact phaseCRem
  | phaseCPad => exact phaseCPad
  | phaseDSetup => exact phaseDSetup
  | phaseDHdr => exact phaseDHdr
  | phaseDTreeRd => exact phaseDTreeRd
  | phaseDDecode => exact phaseDDecode
  | phaseDRem => exact phaseDRem
  | phaseDFlush => exact phaseDFlush
  | phaseDone => exact phaseDone
  | phaseError => exact phaseError
  | phaseReserved code => exact phaseReserved code

/-! ## The other direction -/

theorem encode_decodeCommand (w : BitVec 64) (letterSize : Nat) :
    encode letterSize (decodeCommand w) = .command w ∧ (decodeCommand w).wellFormed letterSize = true := by
  unfold decodeCommand
  split_ifs with h1 h2
  · exact ⟨by rw [h1]; rfl, rfl⟩
  · exact ⟨by rw [h2]; rfl, rfl⟩
  · exact ⟨rfl, Bool.and_eq_true_iff.2 ⟨decide_eq_true h1, decide_eq_true h2⟩⟩

/-- A code is reserved, and then kept whole, or the code of a named phase. -/
theorem encode_decodePhase (c : BitVec 5) (letterSize : Nat) :
    encode letterSize (decodePhase c) = .phase c ∧ (decodePhase c).wellFormed letterSize = true := by
  cases h : reservedPhase c with
  | true =>
    rw [decodePhase_reserved c h]
    exact ⟨rfl, h⟩
  | false =>
    obtain ⟨p, rfl⟩ := Machine.phase_of_legal h
    cases p <;> exact ⟨rfl, rfl⟩

end Sys2Proof.Laws.RoundTrip

open Sys2Proof Sys2Proof.Machine Sys2Proof.Laws

/-- Settles O55: the law of each instruction, read at the kind of its encoding. -/
theorem decodeInvertsEncode : Obligations.DecodeInvertsEncode := by
  intro i letterSize rest hwf
  have law := RoundTrip.decode_encode i letterSize rest hwf
  cases he : encode letterSize i <;> rw [he] at law <;> exact law

/-- Settles O56: a word is a legal one or kept whole, a code is a named phase's or kept whole. -/
theorem encodeInvertsDecode : Obligations.EncodeInvertsDecode :=
  ⟨RoundTrip.encode_decodeCommand, RoundTrip.encode_decodePhase, phaseCode_legal⟩

/-- Settles O5, by running the decoder on the words. -/
theorem specWordsDecode : Obligations.SpecWordsDecode := by
  unfold Obligations.SpecWordsDecode
  decide

/-- Settles O7: a reserved code decodes to the instruction whose meaning is the fault. -/
theorem reservedPhaseIsStuck : Obligations.ReservedPhaseIsStuck := by
  intro s c hc
  have hd := RoundTrip.decodePhase_reserved c hc
  exact ⟨hd, by rw [hd]; rfl⟩
end

section
/-! PROOF. The length of a serialized tree (30_encoding.md R158, 43_header_codec.md R292). -/

namespace Sys2Proof.Machine

/-- One flag bit for each node and one letter for each leaf. -/
theorem Tree.ser_length (t : Tree) (l : Nat) : (t.ser l).length = t.size + t.letters.length * l := by
  induction t with
  | leaf v => simp [Tree.ser, Tree.size, Tree.letters]
  | joint a b iha ihb =>
    simp only [Tree.ser, jointBits, Tree.size, Tree.letters, List.length_append, List.length_singleton, iha, ihb]
    ring

end Sys2Proof.Machine

open Sys2Proof Sys2Proof.Machine

/-- Settles O57: the nodes by `Tree.size_eq`, the bits by the nodes. -/
theorem serializedTreeLength : Obligations.SerializedTreeLength := by
  intro tree l
  have hsize : tree.size = 2 * tree.letters.length - 1 := by have := tree.size_eq; omega
  exact ⟨hsize, by rw [tree.ser_length, hsize]⟩
end

section
/-! PROOF. What one step does, by the next input (30_encoding.md R150, R153, R169; log 5). -/

namespace Sys2Proof.Machine

variable {s : State} {rest : List Input}

theorem step_tick (h : s.inputs = .tick :: rest) :
    step s = exec (decodePhase s.phase) { s with inputs := rest } := by
  simp only [step, nextMove, h]

theorem step_wait_notDone (h : s.inputs = .wait :: rest) (hd : doneFlag s = false) :
    step s = exec (decodePhase s.phase) s := by
  simp only [step, nextMove, h, hd, Bool.false_eq_true, if_false]

/-- The STATUS read that ends WAIT is the host's own access. -/
theorem step_wait_done (h : s.inputs = .wait :: rest) (hd : doneFlag s = true) :
    step s = hostAccess (.read Config.offStatus 8) { s with inputs := rest } := by
  simp only [step, nextMove, h, hd, if_true]

theorem step_command {w : Reg} (h : s.inputs = .host (.write Config.offCmd 8 w) :: rest) :
    step s = exec (decodeCommand w) { s with inputs := rest } := by
  simp only [step, nextMove, h, and_self, if_true]

/-- What a step can do, with the inputs it leaves: run the phase's rule, run a command word, or perform an access, a reset
only where one is among the inputs. -/
theorem step_cases (s : State) : ∃ rest ⊆ s.inputs,
    step s = exec (decodePhase s.phase) { s with inputs := rest } ∨
    (∃ w, step s = exec (decodeCommand w) { s with inputs := rest }) ∨
    ∃ e, step s = hostAccess e { s with inputs := rest } ∧ ∀ u, e = .reset u → Input.host (.reset u) ∈ s.inputs := by
  rcases hin : s.inputs with _ | ⟨input, rest⟩
  · exact ⟨[], List.Subset.refl _, .inl (by rw [step_alone hin, ← hin])⟩
  have tail : rest ⊆ input :: rest := List.subset_cons_self _ _
  cases input with
  | tick => exact ⟨rest, tail, .inl (step_tick hin)⟩
  | wait =>
    cases hd : doneFlag s with
    | true => exact ⟨rest, tail, .inr (.inr ⟨_, step_wait_done hin hd, fun u h => by cases h⟩)⟩
    | false => exact ⟨.wait :: rest, List.Subset.refl _, .inl (by rw [step_wait_notDone hin hd, ← hin])⟩
  | host e =>
    refine ⟨rest, tail, .inr ?_⟩
    by_cases hc : ∃ w, e = .write Config.offCmd 8 w
    · obtain ⟨w, rfl⟩ := hc
      exact .inl ⟨w, step_command hin⟩
    · exact .inr ⟨e, step_access hin (not_exists.1 hc), fun u h => by rw [h]; exact List.mem_cons_self⟩

end Sys2Proof.Machine

open Sys2Proof Sys2Proof.Machine

/-- Settles O3: the instruction is the one the decoder answers, and each kind of turn has its equation. -/
theorem stepRunsDecodedInstruction : Obligations.StepRunsDecodedInstruction := by
  intro s i rest w
  refine ⟨fun hi => ?_, fun hi => ?_⟩
  · cases hi
    exact ⟨step_alone, step_tick, step_wait_notDone⟩
  · cases hi
    exact step_command

/-- Settles O4: STATUS does not depend on the inputs to come. -/
theorem waitEndsAtDone : Obligations.WaitEndsAtDone := by
  intro s rest h hd
  rw [step_wait_done h hd]
  rfl
end

section
/-! PROOF. Every step keeps the invariant: the phases' rules by their own laws (`exec_phase_cases`), and here what comes from outside, a command word or a host access (46_host_commands.md R400 to R406, 70_reset_and_hazards.md R700). -/

namespace Sys2Proof.Machine

variable {s t : State}

/-! ## States that differ in what the invariant does not speak of -/

theorem Inv.withInputs (h : Inv s) {rest : List Input} (hrest : rest ⊆ s.inputs) : Inv { s with inputs := rest } :=
  { h with inputs := fun u hu => h.inputs u (hrest hu) }

theorem record_inv (h : Inv s) (o : Observation) : Inv (record o s) := { h with }

theorem fetchFree_inv (h : Inv s) (b : Buffer) (a n : Nat) : Inv (fetchFree b a n s) := { h with }

/-! ## The quiescent phases -/

theorem phase_of_notBusy (h : busy s = false) : ∃ p ∈ [Phase.idle, .done, .error], s.phase = phaseCode p := by
  simp only [busy, Bool.not_eq_false', quiescent, Bool.or_eq_true, decide_eq_true_eq, or_assoc] at h
  simpa using h

/-- While BUSY = 0 the invariant asks nothing of LSIZE and IN_LEN, and of IBUF its form alone. -/
theorem Inv.withHostState (h : Inv s) (hb : busy s = false) (lsize : BitVec 8) (inLen : BitVec 64) {ibuf : Memory}
    (hi : Memory.wf ibuf = true) : Inv { s with lsize := lsize, inLen := inLen, ibuf := ibuf } := by
  obtain ⟨p, hq, hp⟩ := phase_of_notBusy hb
  refine Inv.ofQuiet hp ?_ { h.tables with ibufForm := hi } h.inputs ?_ ?_ ?_
  · fin_cases hq <;> decide
  · exact fun hne => h.noError (hp ▸ fun he => hne (phaseCode_injective he))
  · exact fun he => h.errorKind (hp ▸ congrArg phaseCode he)
  · exact fun hne => h.noOutput (hp ▸ fun he => hne (phaseCode_injective he))

/-! ## Command words -/

/-- An accepted command enters a setup phase with OUT_LEN and the error fields cleared (R400). -/
theorem acceptCommand_inv (h : Inv s) {p : Phase} (hp : p ∈ [.cSetup, .dSetup]) : Inv (acceptCommand p s) := by
  refine Inv.ofQuiet (p := p) rfl ?_ h.tables h.inputs (fun _ => ⟨rfl, rfl⟩) (fun he => ?_) (fun _ => rfl)
  · fin_cases hp <;> decide
  · subst he
    exact absurd hp (by decide)

/-- An illegal command is an error from outside any operation (R403). -/
theorem illegalCommand_inv (h : Inv s) :
    Inv { acceptCommand .error s with errCode := errorCode .illegalCommand } :=
  Inv.ofQuiet (p := .error) rfl (by decide) h.tables h.inputs (fun hne => absurd rfl hne) (fun _ => errorCode_range _)
    (fun _ => rfl)

theorem dispatchCommand_inv {accepted : State} (h : Inv s) (ha : Inv accepted)
    (ht : dispatchCommand accepted s = .next t) : Inv t := by
  unfold dispatchCommand at ht
  split at ht <;> cases ht <;> assumption

theorem exec_command_inv {w : Reg} (h : Inv s) (ht : exec (decodeCommand w) s = .next t) : Inv t := by
  unfold decodeCommand at ht
  split_ifs at ht
  · exact dispatchCommand_inv h (acceptCommand_inv h (by simp)) ht
  · exact dispatchCommand_inv h (acceptCommand_inv h (by simp)) ht
  · exact dispatchCommand_inv h (illegalCommand_inv h) ht

/-! ## Host accesses -/

theorem writeRegister_inv (h : Inv s) (offset : Nat) (value : Reg) : Inv (writeRegister offset value s) := by
  unfold writeRegister
  split
  · exact h
  next hb =>
    have hb := Bool.eq_false_iff.2 hb
    split_ifs
    · exact h.withHostState hb (value.setWidth 8) s.inLen h.tables.ibufForm
    · exact h.withHostState hb s.lsize value h.tables.ibufForm
    · exact h

theorem hostStore_inv {b : Buffer} {a : Nat} {bytes : List Byte} (h : Inv s)
    (ht : hostStore b a bytes s = .next t) : Inv t := by
  unfold hostStore at ht
  cases b with
  | ibuf =>
    dsimp only at ht
    split_ifs at ht with hb
    cases ht
    exact h.withHostState (Bool.eq_false_iff.2 hb) s.lsize s.inLen (Memory.wf_writeAll h.tables.ibufForm a bytes)
  | obuf =>
    dsimp only at ht
    split_ifs at ht
    cases ht
    exact h

theorem hostFetch_inv {b : Buffer} {a n : Nat} (h : Inv s) (ht : hostFetch b a n s = .next t) : Inv t := by
  unfold hostFetch at ht
  split at ht
  · cases b with
    | ibuf => cases ht; exact fetchFree_inv h _ _ _
    | obuf =>
      dsimp only at ht
      split_ifs at ht <;> cases ht
      · exact fetchFree_inv h _ _ _
      · exact record_inv h _
  · cases ht

/-- A reset leaves IDLE with its own contents, which the invariant has in form (R700). -/
theorem hostReset_inv {u : Unspecified} (h : Inv s)
    (hu : TablesOk u.freq u.node u.active u.code u.ibuf u.obuf) : Inv (hostReset u s) :=
  Inv.ofQuiet (p := .idle) rfl (by decide) hu h.inputs (fun _ => ⟨rfl, rfl⟩) (fun he => absurd he (by decide))
    (fun _ => rfl)

theorem hostAccess_inv {e : HostAccess} (h : Inv s)
    (hu : ∀ u, e = .reset u → TablesOk u.freq u.node u.active u.code u.ibuf u.obuf)
    (ht : hostAccess e s = .next t) : Inv t := by
  cases e with
  | read offset width =>
    simp only [hostAccess] at ht
    split_ifs at ht
    cases ht
    exact record_inv h _
  | write offset width value =>
    simp only [hostAccess] at ht
    split_ifs at ht
    cases ht
    exact writeRegister_inv h offset value
  | store b a bytes => exact hostStore_inv h ht
  | fetch b a n => exact hostFetch_inv h ht
  | reset u =>
    cases ht
    exact hostReset_inv h (hu u rfl)

/-! ## The phases' rules -/

/-- The rule of the phase keeps the invariant (30_encoding.md R153). -/
theorem exec_phase_inv (h : Inv s) (ht : exec (decodePhase s.phase) s = .next t) : Inv t := by
  obtain ⟨p, hp⟩ := phase_of_legal h.legal
  obtain ⟨u, hu, hI, -, -⟩ := exec_phase_cases h hp
  rw [hu] at ht
  cases ht
  exact hI

end Sys2Proof.Machine

open Sys2Proof Sys2Proof.Machine

/-- Settles O49: the step's input is consumed, and then each of the things a step can do keeps the invariant. -/
theorem stepKeepsInvariant : Obligations.StepKeepsInvariant := by
  intro s t hI hstep
  obtain ⟨rest, hrest, hphase | ⟨w, hcommand⟩ | ⟨e, haccess, hreset⟩⟩ := step_cases s
  all_goals have hI' := hI.withInputs hrest
  · exact exec_phase_inv hI' (hphase ▸ hstep)
  · exact exec_command_inv hI' (hcommand ▸ hstep)
  · exact hostAccess_inv hI' (fun u hu => hI.inputs u (hreset u hu)) (haccess ▸ hstep)
end

section
/-! PROOF. The frequency analyzer (40_frequency_analyzer.md): the size arithmetic, what C_SETUP and C_COUNT leave where they succeed, and the FrequencyTable as a list of letters (R200 to R204). -/

namespace Sys2Proof.Machine

/-! ## Sizes -/

/-- The remainder the rule writes as a difference is the remainder of the division (R201). -/
theorem sizes_remBits (f l : Nat) : (sizes f l).remBits = 8 * f % l :=
  Nat.mod_eq_sub_mul_div.symm

theorem sizes_n_lt {f l : Nat} (hl : 2 ≤ l) (hf : f < 2 ^ 64) : (sizes f l).n < 2 ^ 66 :=
  Nat.div_lt_of_lt_mul (lt_of_lt_of_le (by omega : 8 * f < 2 * 2 ^ 66) (Nat.mul_le_mul_right _ hl))

/-! ## C_SETUP -/

theorem cSetup_ok {s : State} (hl : letterSizeOk s.lsize.toNat = true) (hcap : s.inLen.toNat ≤ s.inCap) :
    cSetup s = .ok (cSetupLatch { s with l := s.lsize, f := s.inLen }) := by
  unfold cSetup
  exact (if_pos hl).trans (if_neg (Nat.not_lt.2 hcap))

/-- C_SETUP's assignments: each register at its value, FREQ empty and CODE cleared (R200). -/
theorem cSetupLatch_eq (s : State) : cSetupLatch s = { s with
    inBits := 8 * s.f.toNat, totalBits := 8 * s.f.toNat, n := 8 * s.f.toNat / s.l.toNat
    usableBits := s.l.toNat * (8 * s.f.toNat / s.l.toNat), remBits := 8 * s.f.toNat % s.l.toNat
    rdPos := 0, wrAcc := 0, wrCnt := 0, wrPos := 0, i := 0, nNodes := 0, active := [], root := none, freq := []
    code := (clearTables s).code, phase := if 0 < 8 * s.f.toNat / s.l.toNat then 2 else 6 } := by
  have hphase : (if 0 < 8 * s.f.toNat / s.l.toNat then 2 else 6) =
      phaseCode (if 0 < 8 * s.f.toNat / s.l.toNat then .cCount else .cHdr) :=
    (apply_ite phaseCode _ .cCount .cHdr).symm
  rw [← sizes_remBits, hphase]
  rfl

/-- Clearing the valid bits keeps the other fields of every entry (R200, log 13). -/
theorem codeOf_clearTables {s : State} (h : Table.wf CodeEntry.blank s.code = true) (v : Nat) :
    codeOf (clearTables s) v = { codeOf s v with valid := false } :=
  Table.get_mapEntries (f := fun e : CodeEntry => { e with valid := false }) (Table.wf_iff.1 h).1 rfl v

/-! ## C_COUNT -/

/-- C_COUNT with letter `i` inside the valid input and the port ok (R202, R204). -/
theorem cCount_ok {s : State} (hp : portOk s = true) (hl : letterSizeOk s.l.toNat = true)
    (hr : readable s (s.i * s.l.toNat) s.l.toNat = true) :
    cCount s = .ok { s with
      freq := Table.set 0 (letterOf s s.i) (freqOf s (letterOf s s.i) + 1) s.freq
      i := s.i + 1
      port := s.port.drop s.l.toNat
      phase := if s.i + 1 = s.n then 3 else s.phase } := by
  have hv : letterOf s s.i < Config.letterCap := lt_of_lt_of_le (letterOf_lt s s.i) (two_pow_le_letterCap hl)
  have hread : inputLetter s.i s = .ok (letterOf s s.i, { s with port := s.port.drop s.l.toNat }) := inputBits_ok hr hp
  unfold cCount
  rw [hread, run_bind_ok]
  dsimp only
  rw [letterIndex_ok hv, run_bind_ok, leaveAtEnd_eq]
  rfl

/-! ## The FrequencyTable -/

theorem mem_frequencyTable {s : State} (h : Table.wf 0 s.freq = true) {v c : Nat} :
    (v, c) ∈ frequencyTable s ↔ v < 2 ^ letterSize s ∧ 0 < c ∧ freqOf s v = c := by
  rw [frequencyTable, List.mem_filter, Table.mem_iff h, Bool.and_eq_true, decide_eq_true_eq, decide_eq_true_eq,
    ← Nat.pos_iff_ne_zero]
  exact ⟨fun ⟨⟨hget, hc⟩, hv, _⟩ => ⟨hv, hc, hget⟩, fun ⟨hv, hc, hget⟩ => ⟨⟨hget, hc⟩, hv, hc⟩⟩

/-- The letters of the FrequencyTable are those present: both lists rise, and they have the same members (R203). -/
theorem frequencyTable_letters {s : State} (h : Table.wf 0 s.freq = true) :
    (frequencyTable s).map Prod.fst = lettersPresent s := by
  have hrising : Table.rising (frequencyTable s) = true := Table.rising_filter (Table.wf_iff.1 h).1
  refine (Table.keys_pairwise hrising).eq_of_mem_iff (List.pairwise_lt_range.filter _) fun v => ?_
  simp [lettersPresent, mem_frequencyTable h]

end Sys2Proof.Machine

open Sys2Proof Sys2Proof.Machine

/-- Settles O15: the two checks pass, and what is assigned after them is `cSetupLatch`. -/
theorem compressSetupInitialises : Obligations.CompressSetupInitialises := by
  intro s hmin hmax hcap hcode total n
  exact ⟨_, congrArg (endStep .cSetup) (cSetup_ok (letterSizeOk_iff.2 ⟨hmin, hmax⟩) hcap), cSetupLatch_eq _,
    fun _ => rfl, codeOf_clearTables (s := s) hcode⟩

/-- Settles O17: the letter read is `letterOf s s.i`, and a write to FREQ changes its own entry alone. -/
theorem countStepCountsOneLetter : Obligations.CountStepCountsOneLetter := by
  intro s hp hl hr hfreq
  refine ⟨_, congrArg (endStep .cCount) (cCount_ok hp hl hr), fun v => ?_, letterOf_lt s s.i, rfl⟩
  refine (Table.get_set s.freq (Table.wf_iff.1 hfreq).1 (letterOf s s.i) v _).trans ?_
  split
  · next hv => rw [hv]
  · rfl

/-- Settles O18: the letters by `frequencyTable_letters`, and each entry holds its letter's count. -/
theorem frequencyTableIsAscending : Obligations.FrequencyTableIsAscending := by
  intro s h
  have hcount : ∀ e ∈ frequencyTable s, (e.1, freqOf s e.1) = e := fun e he => by
    obtain ⟨-, -, hget⟩ := (mem_frequencyTable h).1 he
    rw [hget]
  rw [← frequencyTable_letters h, List.map_map]
  exact ((List.map_congr_left hcount).trans (List.map_id' _)).symm

/-- Settles O60: N is the quotient and the remainder that of the division. -/
theorem sizesAddUp : Obligations.SizesAddUp := by
  intro f l hl z
  obtain ⟨-, hsum, htotal⟩ := sizes_arith f l hl
  have hrem : z.remBits = 8 * f % l := sizes_remBits f l
  refine ⟨htotal, rfl, hsum, ?_, hrem, fun hf => ⟨?_, sizes_n_lt hl hf⟩⟩
  · rw [hrem]; exact Nat.mod_lt _ (by omega)
  · rw [htotal]; omega
end

section
/-! PROOF. The tree builder (41_tree_builder.md): room in NODE for the Leaves of C_LEAVES, and when C_MERGE takes each of its two branches (R230 to R232). -/

namespace Sys2Proof.Machine

/-! ## C_LEAVES -/

theorem cLeaves_ok {s t : State} (h : addLeaves (frequencyTable s) s = .ok t) :
    cLeaves s = .ok (setPhase .cMerge t) := by
  rw [cLeaves, h, run_bind_ok]

theorem lettersPresent_length_le (s : State) : (lettersPresent s).length ≤ 2 ^ letterSize s :=
  (List.length_filter_le _ _).trans_eq List.length_range

/-- There is a node slot for the Leaf of each letter present (10_state.md R61). -/
theorem lettersPresent_length_lt_nodeCap {s : State} (hl : letterSizeOk s.l.toNat = true) :
    (lettersPresent s).length < Config.treeNodeCap :=
  calc (lettersPresent s).length ≤ 2 ^ letterSize s := lettersPresent_length_le s
    _ ≤ Config.letterCap := two_pow_le_letterCap hl
    _ < Config.treeNodeCap := by decide

/-! ## C_MERGE -/

theorem cMerge_one {s : State} {r : Nat} (h : s.active = [r]) :
    cMerge s = .ok (setPhase .cCodegen { s with root := some r }) := by
  simp only [cMerge, h]

theorem cMerge_two {s : State} {a b : Nat} (ha : a ∈ s.active) (hb : b ∈ s.active) (hne : a ≠ b) :
    cMerge s = mergeTwo s := by
  unfold cMerge
  split
  · next r h =>
    rw [h, List.mem_singleton] at ha hb
    exact absurd (ha.trans hb.symm) hne
  · rfl

end Sys2Proof.Machine

open Sys2Proof Sys2Proof.Machine

/-- Settles O19: the leaf loop runs over the FrequencyTable, which is the letters present with their counts. -/
theorem leavesAreTheLettersPresent : Obligations.LeavesAreTheLettersPresent := by
  intro s hl hfreq hnode hn hactive
  have hcap := lettersPresent_length_lt_nodeCap hl
  obtain ⟨t, ht, hleaf, hother, hrest, -⟩ := addLeaves_ok (es := (lettersPresent s).map fun v => (v, freqOf s v)) hnode
    (by rw [hn, List.length_map]; omega) (by rw [hn, hactive]; rfl)
  rw [← frequencyTableIsAscending s hfreq] at ht
  simp only [hn, Nat.zero_add, List.length_map, List.getElem_map] at hleaf hother hrest
  exact ⟨setPhase .cMerge t, congrArg (endStep .cLeaves) (cLeaves_ok ht), congrArg State.nNodes hrest,
    congrArg State.active hrest, hleaf, fun k hk => hother k (.inr hk), by rw [hrest]; rfl⟩

/-- Settles O20: `a` and `b` have the least keys, so they are what the two pops take. -/
theorem mergeJoinsTwoLeastNodes : Obligations.MergeJoinsTwoLeastNodes := by
  intro s a b hnode hrising hcap hbelow ha hb hne hleastA hleastB
  have hla : LeastKey s a s.active := fun k hk hka => keyBelow_iff.2 (hleastA k hk hka)
  have hlb : LeastKey s b (s.active.filter fun k => decide (k ≠ a)) := fun k hk hkb => by
    obtain ⟨hk, hka⟩ := List.mem_filter.1 hk
    exact keyBelow_iff.2 (hleastB k hk (of_decide_eq_true hka) hkb)
  have hrun : cMerge s = .ok (merged s a b) :=
    (cMerge_two ha hb hne).trans (mergeTwo_ok ha hb hne hla hlb hbelow hcap)
  exact ⟨merged s a b, congrArg (endStep .cMerge) hrun, (merged_slot hnode a b _).trans (if_pos rfl),
    fun k hk => (merged_slot hnode a b k).trans (if_neg hk), fun k => mem_mergedActive,
    mergedActive_pairwise hrising, rfl⟩

/-- Settles O21: one active node takes the other branch of C_MERGE. -/
theorem mergeEndsAtOneNode : Obligations.MergeEndsAtOneNode :=
  fun _ _ h => congrArg (endStep .cMerge) (cMerge_one h)
end

section
/-! PROOF. The code table (42_code_table.md): what C_CODEGEN stores, and the paths of a tree as a prefix code (R260 to R263). -/

namespace Sys2Proof.Machine

/-! ## Prefix codes -/

/-- Neither of two leaves' paths is the start of the other (R263). -/
def PathsApart (x y : BitVec 16 × Bits) : Prop := ¬ x.2 <+: y.2 ∧ ¬ y.2 <+: x.2

/-- A leaf with its path after one more bit in front. -/
def consBit (bit : Bool) (x : BitVec 16 × Bits) : BitVec 16 × Bits := (x.1, bit :: x.2)

theorem pathsApart_consBit {bit : Bool} {x y : BitVec 16 × Bits} :
    PathsApart (consBit bit x) (consBit bit y) ↔ PathsApart x y := by
  simp [PathsApart, consBit, List.cons_prefix_cons]

/-- Paths that part at the first bit. -/
theorem pathsApart_of_bits_ne {bit bit' : Bool} (h : bit ≠ bit') (x y : BitVec 16 × Bits) :
    PathsApart (consBit bit x) (consBit bit' y) := by
  simp [PathsApart, consBit, List.cons_prefix_cons, h, h.symm]

theorem Tree.pathsFrom_joint_consBit (a b : Tree) :
    (Tree.joint a b).pathsFrom [] = (a.pathsFrom []).map (consBit false) ++ (b.pathsFrom []).map (consBit true) :=
  Tree.pathsFrom_joint a b

/-- Two leaves of one subtree part below it; leaves of different subtrees part at the first bit. -/
theorem Tree.paths_apart (t : Tree) : (t.pathsFrom []).Pairwise PathsApart := by
  induction t with
  | leaf v => exact List.pairwise_singleton _ _
  | joint a b iha ihb =>
    rw [Tree.pathsFrom_joint_consBit, List.pairwise_append, List.pairwise_map, List.pairwise_map]
    refine ⟨iha.imp pathsApart_consBit.2, ihb.imp pathsApart_consBit.2, fun x hx y hy => ?_⟩
    obtain ⟨x, -, rfl⟩ := List.mem_map.1 hx
    obtain ⟨y, -, rfl⟩ := List.mem_map.1 hy
    exact pathsApart_of_bits_ne Bool.false_ne_true x y

/-! ## Lengths -/

/-- Every joint on a leaf's path has another leaf on its other side. -/
theorem Tree.path_length_lt {t : Tree} {x : BitVec 16 × Bits} (h : x ∈ t.pathsFrom []) :
    x.2.length < t.letters.length := by
  induction t generalizing x with
  | leaf v =>
    rw [List.mem_singleton.1 h]
    exact Nat.one_pos
  | joint a b iha ihb =>
    have ha := a.letters_length_pos
    have hb := b.letters_length_pos
    rw [Tree.pathsFrom_joint_consBit, List.mem_append, List.mem_map, List.mem_map] at h
    rw [Tree.letters, List.length_append]
    obtain ⟨y, hy, rfl⟩ | ⟨y, hy, rfl⟩ := h
    · have := iha hy
      rw [consBit, List.length_cons]
      omega
    · have := ihb hy
      rw [consBit, List.length_cons]
      omega

/-- Below a joint every path begins with the bit the joint is left by. -/
theorem Tree.joint_path_length_pos {a b : Tree} {x : BitVec 16 × Bits} (h : x ∈ (Tree.joint a b).pathsFrom []) :
    0 < x.2.length := by
  rw [Tree.pathsFrom_joint_consBit, List.mem_append, List.mem_map, List.mem_map] at h
  obtain ⟨y, -, rfl⟩ | ⟨y, -, rfl⟩ := h <;> exact Nat.succ_pos _

/-! ## Completeness -/

/-- The sum of 2^(-length) over leaves with their paths, over the common denominator 2^m. -/
def kraftSum (m : Nat) (paths : List (BitVec 16 × Bits)) : Nat := (paths.map fun x => 2 ^ (m - x.2.length)).sum

theorem kraftSum_append (m : Nat) (p q : List (BitVec 16 × Bits)) :
    kraftSum m (p ++ q) = kraftSum m p + kraftSum m q := by
  simp [kraftSum]

/-- One bit in front halves each term. -/
theorem kraftSum_consBit (m : Nat) (bit : Bool) (paths : List (BitVec 16 × Bits)) :
    kraftSum (m + 1) (paths.map (consBit bit)) = kraftSum m paths := by
  simp [kraftSum, consBit, Function.comp_def]

/-- Each subtree of a joint makes up one half, whatever the denominator no path exceeds. -/
theorem Tree.kraftSum_paths {t : Tree} {m : Nat} (h : t.letters.length ≤ m + 1) :
    kraftSum m (t.pathsFrom []) = 2 ^ m := by
  induction t generalizing m with
  | leaf v => simp [kraftSum, Tree.pathsFrom]
  | joint a b iha ihb =>
    have ha := a.letters_length_pos
    have hb := b.letters_length_pos
    rw [Tree.letters, List.length_append] at h
    obtain ⟨m, rfl⟩ : ∃ j, m = j + 1 := ⟨m - 1, by omega⟩
    rw [Tree.pathsFrom_joint_consBit, kraftSum_append, kraftSum_consBit, kraftSum_consBit, iha (by omega),
      ihb (by omega), pow_succ, mul_two]

end Sys2Proof.Machine

open Sys2Proof Sys2Proof.Machine

/-- Settles O22: C_CODEGEN makes the assignments of `assignPaths`; distinct letters are assigned once each. -/
theorem codesAreTreePaths : Obligations.CodesAreTreePaths := by
  intro s r tree hroot htree hheight hletters hcode
  refine ⟨_, congrArg (endStep .cCodegen) (cCodegen_ok hroot htree hheight), fun v path hmem => ?_, fun v hv => ?_, rfl⟩
  · exact assignPaths_mem hcode (tree.codes_letters ▸ hletters) hmem
  · refine assignPaths_other fun x hx => hv x.1 ?_
    rw [← tree.codes_letters]
    exact List.mem_map_of_mem hx

/-- Settles O58: the paths of a joint by induction over its subtrees, one lemma for each clause. -/
theorem codesArePrefixFree : Obligations.CodesArePrefixFree := by
  intro a b v tree n
  exact ⟨tree.paths_apart, fun x hx => ⟨Tree.joint_path_length_pos hx, Nat.le_sub_one_of_lt (Tree.path_length_lt hx)⟩,
    Tree.kraftSum_paths (t := tree) le_tsub_add, rfl⟩
end

section
/-! PROOF. The header codec (43_header_codec.md): what C_HDR and C_TREE_WR append, what D_SETUP and D_HDR leave, and how D_TREE_RD reads a tree token by token. -/

namespace Sys2Proof.Machine

/-! ## C_HDR -/

/-- C_HDR with room for both fields and the port ok (R290). -/
theorem cHdr_appended {s : State} (hp : portOk s = true) (hw : Memory.wf s.obuf = true) (hr : room s 72 = true) :
    ∃ u, Appended s (bin 8 s.l.toNat ++ bin 64 s.f.toNat) u ∧
      cHdr s = .ok { u with phase := if s.root = none then 9 else 7 } := by
  obtain ⟨t, ht, hst⟩ := writeBits_appended (v := s.l.toNat) hp (room_mono hr (by decide : 8 ≤ 72)) hw
  obtain ⟨u, hu, htu⟩ := writeBits_appended (w := 64) (v := s.f.toNat) (hst.portOk hp)
    (hst.room (by rwa [bin_length])) hst.canonical
  have hsu := hst.trans htu
  have hf : t.f = s.f := by rw [hst.rest]
  have hroot : u.root = s.root := by rw [hsu.rest]
  refine ⟨u, hsu, ?_⟩
  have hphase : phaseCode (if u.root ≠ none then .cTreeWr else .cRem) = if s.root = none then 9 else 7 := by
    rw [hroot, ite_not]; exact apply_ite phaseCode _ .cRem .cTreeWr
  rw [cHdr, ht, run_bind_ok, hf, hu, run_bind_ok, ← hphase]
  rfl

/-! ## D_SETUP and D_HDR -/

theorem dSetup_beyond {s : State} (h : s.inCap < s.inLen.toNat) : dSetup s = raise .io s := if_pos h

theorem dSetup_empty {s : State} (h : s.inLen = 0) :
    dSetup s = .ok (finish 0 (startOperation { s with inBits := 8 * s.inLen.toNat })) := by
  have hlen : ¬ s.inCap < s.inLen.toNat := by simp [h]
  exact (if_neg hlen).trans (if_pos h)

theorem dSetup_ok {s : State} (h : s.inLen ≠ 0) (hcap : s.inLen.toNat ≤ s.inCap) :
    dSetup s = .ok (setPhase .dHdr (startOperation { s with inBits := 8 * s.inLen.toNat })) :=
  (if_neg (Nat.not_lt.2 hcap)).trans (if_neg h)

theorem val_inputSlice_lt (s : State) (p w : Nat) : val (inputSlice s p w) < 2 ^ w :=
  (val_lt _).trans_eq (by rw [inputSlice_length])

/-- The size quantities of two fields that fit their registers (R201). -/
theorem setSizes_eq {s : State} {l f : Nat} (hl : s.l.toNat = l) (hf : s.f.toNat = f) : setSizes s = { s with
    totalBits := 8 * f, n := 8 * f / l, usableBits := l * (8 * f / l), remBits := 8 * f % l } := by
  rw [← sizes_remBits, ← hl, ← hf]
  rfl

/-- D_HDR with both fields left, a letter size in its domain and the port ok (R296). -/
theorem dHdr_ok {s : State} (hp : portOk s = true) (hr : ReaderOk s) (hle : s.rdPos + 72 ≤ s.inBits)
    (hl : letterSizeOk (val (inputSlice s s.rdPos 8)) = true) :
    let l := val (inputSlice s s.rdPos 8)
    let f := val (inputSlice s (s.rdPos + 8) 64)
    dHdr s = .ok { s with
      l := BitVec.ofNat 8 l, f := BitVec.ofNat 64 f
      totalBits := 8 * f, n := 8 * f / l, usableBits := l * (8 * f / l), remBits := 8 * f % l
      rdPos := s.rdPos + 72, port := s.port.drop 72, phase := if 0 < l * (8 * f / l) then 18 else 20 } := by
  intro l f
  let s1 : State := { s with port := s.port.drop 8, rdPos := s.rdPos + 8, l := BitVec.ofNat 8 l }
  let s2 : State := { s1 with port := s1.port.drop 64, rdPos := s1.rdPos + 64, f := BitVec.ofNat 64 f }
  have hread1 : readOrCorrupt 8 s = .ok (l, { s with port := s.port.drop 8, rdPos := s.rdPos + 8 }) :=
    readOrCorrupt_ok hr (by omega) hp
  have hread2 : readOrCorrupt 64 s1 = .ok (f, { s1 with port := s1.port.drop 64, rdPos := s1.rdPos + 64 }) :=
    readOrCorrupt_ok (s := s1) hr hle (portOk_drop_port hp 8)
  have hl8 : s2.l.toNat = l := Nat.mod_eq_of_lt (val_inputSlice_lt s _ 8)
  have hf64 : s2.f.toNat = f := Nat.mod_eq_of_lt (val_inputSlice_lt s _ 64)
  have hphase : (if 0 < l * (8 * f / l) then 18 else 20) = phaseCode (if 0 < l * (8 * f / l) then .dTreeRd else .dRem) :=
    (apply_ite phaseCode _ .dTreeRd .dRem).symm
  rw [dHdr, hread1, run_bind_ok]
  refine (if_pos hl).trans ?_
  change (readOrCorrupt 64 s1 >>= _) = _
  rw [hread2, run_bind_ok]
  change Except.ok (setPhase (if 0 < (setSizes s2).usableBits then .dTreeRd else .dRem) (setSizes s2)) = _
  rw [setSizes_eq hl8 hf64, hphase]
  simp only [s2, s1, setPhase, List.drop_drop]

/-! ## D_TREE_RD -/

theorem dTreeRd_atEnd {s : State} (h : s.rdPos = s.inBits) : dTreeRd s = .ok (finish 0 s) := if_pos h

theorem dTreeRd_reads {s : State} (h : s.rdPos ≠ s.inBits) :
    dTreeRd s = (readTree s >>= fun t => .ok { t with i := 0, phase := 19 }) := if_neg h

/-- A path of a tree is no longer than its serialization. -/
theorem Tree.height_le_bitsLeft {s : State} {tree : Tree} {l : Nat} (h : tree.ser l <+: bitsLeft s) :
    tree.height ≤ s.inBits - s.rdPos := by
  have hlen := h.length_le
  rw [bitsLeft_length] at hlen
  exact tree.height_le_size.trans ((tree.size_le_ser l).trans hlen)

/-! ## Tokens -/

theorem allocNode_ok {s : State} (h : s.nNodes < Config.treeNodeCap) :
    allocNode s = .ok (s.nNodes, { s with nNodes := s.nNodes + 1 }) := if_neg h.ne

theorem allocNode_full {s : State} (h : s.nNodes = Config.treeNodeCap) : allocNode s = raise .corrupt s := if_pos h

/-- With NODE full the first token is refused before a bit is read (R299). -/
theorem readTree_full {s : State} (h : s.nNodes = Config.treeNodeCap) :
    readTree s = raise .corrupt { s with pending := [] } := by
  rw [readTree, readTokens, readToken, allocNode_full (s := { s with pending := [] }) h]
  rfl

/-- An index handed to Joints that have their left child: each is stored with the index returned so far as its right
child, and the last one's own index goes on to the rest of the stack (R298). -/
theorem deliver_full {full : List (Nat × Nat)} {rest : List PendingJoint} {k : Nat} {s : State}
    (hw : Table.wf NodeSlot.blank s.node = true) (hcap : ∀ e ∈ full, e.1 < Config.treeNodeCap)
    (hdistinct : (full.map Prod.fst).Nodup) :
    ∃ t, deliver k (full.map (fun e => ⟨e.1, some e.2⟩) ++ rest) s =
        deliver ((k :: full.map Prod.fst).getD full.length 0) rest t ∧
      t = { s with node := t.node } ∧
      (∀ (m : Nat) (h : m < full.length), slotOf t full[m].1 = { slotOf s full[m].1 with
        kind := .joint, left := full[m].2, right := (k :: full.map Prod.fst).getD m 0 }) ∧
      ∀ i ∉ full.map Prod.fst, slotOf t i = slotOf s i := by
  induction full generalizing k s with
  | nil => exact ⟨s, rfl, rfl, fun _ h => absurd h (Nat.not_lt_zero _), fun _ _ => rfl⟩
  | cons e full ih =>
    obtain ⟨j, l⟩ := e
    obtain ⟨hj, hdistinct⟩ := List.nodup_cons.1 hdistinct
    obtain ⟨hjcap, hcap⟩ := List.forall_mem_cons.1 hcap
    let x : NodeSlot := { slotOf s j with kind := .joint, left := l, right := k }
    obtain ⟨t, hdeliver, hrest, hjoints, hothers⟩ :=
      ih (k := j) (s := { s with node := Table.set NodeSlot.blank j x s.node }) (Table.wf_set hw j x) hcap hdistinct
    simp only [slotOf_set hw] at hjoints hothers
    refine ⟨t, ?_, hrest, fun m hm => ?_, fun i hi => ?_⟩
    · rw [List.map_cons, List.cons_append, deliver, setNode_ok hjcap, run_bind_ok, hdeliver]
      rfl
    · cases m with
      | zero => rw [List.getElem_cons_zero, hothers j hj, if_pos rfl]; rfl
      | succ m =>
        have hm : m < full.length := Nat.lt_of_succ_lt_succ hm
        have hne : full[m].1 ≠ j := fun h => hj (List.mem_map.2 ⟨_, List.getElem_mem hm, h⟩)
        rw [List.getElem_cons_succ, hjoints m hm, if_neg hne]
        rfl
    · rw [hothers i (List.not_mem_of_not_mem_cons hi), if_neg (List.ne_of_not_mem_cons hi)]

theorem placeLeaf_ok {s : State} {k : Nat} (v : BitVec 16) (h : k < Config.treeNodeCap) :
    placeLeaf k v s = deliver k s.pending { s with
      node := Table.set NodeSlot.blank k { slotOf s k with kind := .leaf, letter := v } s.node } := by
  rw [placeLeaf, setNode_ok h]
  rfl

/-- A LEAF token with a free slot, up to the Joint that still waits for its left child (R298). -/
theorem execTreeLeaf_delivers {s : State} {v : BitVec 16} {full : List (Nat × Nat)} {rest : List PendingJoint}
    (hn : s.nNodes < Config.treeNodeCap) (hw : Table.wf NodeSlot.blank s.node = true)
    (hpending : s.pending = full.map (fun e => ⟨e.1, some e.2⟩) ++ rest) (hdistinct : (full.map Prod.fst).Nodup)
    (hold : ∀ e ∈ full, e.1 < s.nNodes) :
    let returned := s.nNodes :: full.map Prod.fst
    ∃ t, execTreeLeaf v s = endStep .dTreeRd (deliver (returned.getD full.length 0) rest t) ∧
      t = { s with node := t.node, nNodes := s.nNodes + 1 } ∧
      slotOf t s.nNodes = { slotOf s s.nNodes with kind := .leaf, letter := v } ∧
      (∀ (m : Nat) (h : m < full.length), slotOf t full[m].1 = { slotOf s full[m].1 with
        kind := .joint, left := full[m].2, right := returned.getD m 0 }) ∧
      ∀ i, i ≠ s.nNodes → i ∉ full.map Prod.fst → slotOf t i = slotOf s i := by
  intro returned
  let x : NodeSlot := { slotOf s s.nNodes with kind := .leaf, letter := v }
  let placed : State := { s with node := Table.set NodeSlot.blank s.nNodes x s.node, nNodes := s.nNodes + 1 }
  have hslot : ∀ i, slotOf placed i = if i = s.nNodes then x else slotOf s i := fun i => slotOf_set' hw s.nNodes i rfl
  have hfresh : s.nNodes ∉ full.map Prod.fst := fun h => by
    obtain ⟨e, he, hindex⟩ := List.mem_map.1 h
    exact (hold e he).ne hindex
  obtain ⟨t, hdeliver, hrest, hjoints, hothers⟩ := deliver_full (k := s.nNodes) (rest := rest) (s := placed)
    (Table.wf_set hw _ _) (fun e he => (hold e he).trans hn) hdistinct
  refine ⟨t, ?_, hrest, ?_, fun m h => ?_, fun i hnew hi => ?_⟩
  · rw [execTreeLeaf, allocNode_ok hn, run_bind_ok]
    change endStep .dTreeRd (placeLeaf s.nNodes v { s with nNodes := s.nNodes + 1 }) = _
    rw [placeLeaf_ok v hn, ← hdeliver, ← hpending]
    rfl
  · rw [hothers _ hfresh, hslot, if_pos rfl]
  · rw [hjoints m h, hslot, if_neg (hold _ (List.getElem_mem h)).ne]
  · rw [hothers i hi, hslot, if_neg hnew]

/-! ## The loop and the recursion -/

theorem forgetPending_eq_cleared (r : Run State) : forgetPending r = cleared r := by
  rcases r with (⟨e, s⟩ | r) | s <;> rfl

end Sys2Proof.Machine

open Sys2Proof Sys2Proof.Machine

/-- Settles O23: the two fields are appended one after the other. -/
theorem headerWritesTwoFields : Obligations.HeaderWritesTwoFields := by
  intro s hp hw hr
  obtain ⟨u, hsu, hu⟩ := cHdr_appended hp hw hr
  exact ⟨u, hsu, congrArg (endStep .cHdr) hu⟩

/-- Settles O24: the walk of the tree is one write of its serialization (`serialize_eq`). -/
theorem treeIsWrittenInPreOrder : Obligations.TreeIsWrittenInPreOrder := by
  intro s r tree hp hw hroot htree hheight hr
  obtain ⟨u, hu, hsu⟩ := writeString_appended hp hr hw
  have hrun : cTreeWr s = .ok { u with i := 0, phase := 8 } := by
    rw [cTreeWr, rootNode_some hroot, run_bind_ok, serialize_eq htree hheight, letterSize, hu]
    rfl
  exact ⟨u, hsu, congrArg (endStep .cTreeWr) hrun⟩

/-- Settles O29: the two reads succeed, and the sizes are those of the fields read. -/
theorem headerReadsTwoFields : Obligations.HeaderReadsTwoFields := by
  intro s hp hr hle hl
  exact congrArg (endStep .dHdr) (dHdr_ok hp (readerOk_iff.1 hr).1 hle hl)

/-- Settles O32: ReadTree rebuilds the tree (`readTreeCall_ser`), and the token loop ends as it does. -/
theorem serializedTreeIsReadBack : Obligations.SerializedTreeIsReadBack := by
  intro s tree hp hr hl hw hcap hletters hser
  have hpos := tree.height_pos
  have hdepth := Tree.height_le_bitsLeft hser
  obtain ⟨t, hcall, htree, hothers, hrest, -⟩ :=
    readTreeCall_ser hp (readerOk_iff.1 hr).1 hl hcap hletters hser (hdepth.trans (Nat.le_succ _)) hw
  have hrun := (dTreeRd_reads (s := s) (by omega)).trans (congrArg (· >>= _) (readTree_of_call hcall))
  refine ⟨_, s.nNodes, congrArg (endStep .dTreeRd) hrun, rfl, htree _ fun _ _ _ => rfl, hothers, ?_⟩
  rw [hrest]

/-- Settles O35: the LEAF token is one write to NODE and the return through the Joints it completes (`deliver_full`). -/
theorem treeTokensAllocateNodes : Obligations.TreeTokensAllocateNodes := by
  intro s v full rest hn hw
  refine ⟨congrArg (endStep .dTreeRd) (congrArg (· >>= _) (allocNode_ok hn)), fun hpending hdistinct hold hrest => ?_⟩
  obtain ⟨t, hexec, hrun, hleaf, hjoints, hothers⟩ := execTreeLeaf_delivers (v := v) hn hw hpending hdistinct hold
  rcases rest with _ | ⟨⟨j, _ | l⟩, below⟩
  · exact ⟨_, hexec, hleaf, hjoints, hothers, fun _ => by rw [hrun],
      fun _ _ h => absurd h.symm (List.cons_ne_nil _ _)⟩
  · refine ⟨_, hexec, hleaf, hjoints, hothers, fun h => absurd h (List.cons_ne_nil _ _), fun _ _ h => ?_⟩
    cases h
    rw [hrun]
  · exact absurd (hrest _ rfl) (Option.some_ne_none l)

/-- Settles O36: the loop is a call of ReadTree whose return finds no Joint pending (`readTree_cleared`). -/
theorem tokenLoopIsReadTree : Obligations.TokenLoopIsReadTree := by
  intro s
  rw [forgetPending_eq_cleared, forgetPending_eq_cleared, readTree_cleared]
  exact cleared_bind_congr fun _ _ => rfl

/-- Settles O16: the three outcomes of the two tests. -/
theorem decompressSetupInitialises : Obligations.DecompressSetupInitialises := by
  intro s
  exact ⟨fun h => congrArg (endStep .dSetup) (dSetup_beyond h), fun h => congrArg (endStep .dSetup) (dSetup_empty h),
    fun h hcap => congrArg (endStep .dSetup) (dSetup_ok h hcap)⟩

/-- Settles O31: the cursor's test comes first. -/
theorem noTreeBitsIsEmptyOutput : Obligations.NoTreeBitsIsEmptyOutput := by
  intro s h
  exact congrArg (endStep .dTreeRd) (dTreeRd_atEnd h)

/-- Settles O34: every token begins with the allocation, and NODE is full. -/
theorem fullNodeStoreIsCorrupt : Obligations.FullNodeStoreIsCorrupt := by
  intro s v hfull
  have halloc : allocNode s = raise .corrupt s := allocNode_full hfull
  exact ⟨congrArg (endStep .dTreeRd) (congrArg (· >>= _) halloc),
    congrArg (endStep .dTreeRd) (congrArg (· >>= _) halloc),
    fun h => congrArg (endStep .dTreeRd) ((dTreeRd_reads h).trans (congrArg (· >>= _) (readTree_full hfull)))⟩
end

section
/-! PROOF. The stream encoder and the artifact (44_stream_encoder.md): what C_ENCODE, C_REM and C_PAD append, and what a COMPRESS has written when each of its phases is entered (R340 to R343). -/

namespace Sys2Proof.Machine

/-! ## C_ENCODE, C_REM and C_PAD -/

/-- C_ENCODE once letter `i` has been read (R340). -/
theorem cEncode_read {s : State} (hp : portOk s = true) (hl : letterSizeOk s.l.toNat = true)
    (hread : readable s (s.i * s.l.toNat) s.l.toNat = true) :
    cEncode s = if (codeOf s (letterOf s s.i)).valid then
        writeString (codeOf s (letterOf s s.i)).bits { s with port := s.port.drop s.l.toNat } >>= fun u =>
          .ok (leaveAtEnd .cRem { u with i := u.i + 1 })
      else raise .internal { s with port := s.port.drop s.l.toNat } := by
  have hletter : inputLetter s.i s = .ok (letterOf s s.i, { s with port := s.port.drop s.l.toNat }) :=
    inputBits_ok hread hp
  have hv : letterOf s s.i < Config.letterCap := lt_of_lt_of_le (letterOf_lt s s.i) (two_pow_le_letterCap hl)
  rw [cEncode, hletter, run_bind_ok]
  dsimp only
  rw [letterIndex_ok hv, run_bind_ok]
  rfl

/-- C_ENCODE with letter `i` inside the valid input, a valid entry for it, room for its code and the port ok (R340). -/
theorem cEncode_appended {s : State} (hp : portOk s = true) (hw : Memory.wf s.obuf = true)
    (hl : letterSizeOk s.l.toNat = true) (hread : readable s (s.i * s.l.toNat) s.l.toNat = true)
    (hvalid : (codeOf s (letterOf s s.i)).valid = true) (hr : room s (codeOf s (letterOf s s.i)).bits.length = true) :
    ∃ u, Appended { s with port := s.port.drop s.l.toNat } (codeOf s (letterOf s s.i)).bits u ∧
      cEncode s = .ok { u with i := s.i + 1, phase := if s.i + 1 = s.n then 9 else s.phase } := by
  obtain ⟨u, hu, hsu⟩ := writeString_appended (portOk_drop_port hp s.l.toNat) hr hw
  refine ⟨u, hsu, ?_⟩
  have hkept : u.i = s.i ∧ u.n = s.n ∧ u.phase = s.phase := by rw [hsu.rest]; exact ⟨rfl, rfl, rfl⟩
  obtain ⟨ei, en, ephase⟩ := hkept
  rw [cEncode_read hp hl hread, if_pos hvalid, hu, run_bind_ok, leaveAtEnd_eq, ei, en, ephase]
  rfl

theorem cRem_none {s : State} (h : s.remBits = 0) : cRem s = .ok (setPhase .cPad s) := by
  rw [cRem_eq, if_neg (by omega), run_bind_ok]

/-- C_REM with the remainder inside the valid input, room for it and the port ok (R341). -/
theorem cRem_appended {s : State} (h0 : 0 < s.remBits) (hp : portOk s = true) (hw : Memory.wf s.obuf = true)
    (hread : readable s s.usableBits s.remBits = true) (hr : room s s.remBits = true) :
    ∃ u, Appended { s with port := s.port.drop s.remBits } (inputSlice s s.usableBits s.remBits) u ∧
      cRem s = .ok (setPhase .cPad u) := by
  have hbits : bin s.remBits (val (inputSlice s s.usableBits s.remBits)) = inputSlice s s.usableBits s.remBits := by
    simpa using bin_val (inputSlice s s.usableBits s.remBits)
  obtain ⟨u, hu, hsu⟩ := writeBits_appended (v := val (inputSlice s s.usableBits s.remBits))
    (portOk_drop_port hp s.remBits) hr hw
  rw [hbits] at hsu
  refine ⟨u, hsu, ?_⟩
  have hcopy : copyRemainder s = .ok u := by rw [copyRemainder, inputBits_ok hread hp]; exact hu
  rw [cRem_eq, if_pos h0, hcopy, run_bind_ok]

theorem padding_lt (s : State) : padding s < 8 := Nat.mod_lt _ (by decide)

/-- The padding reaches the byte boundary (R109). -/
theorem Appended.padded {s u : State} (h : Appended s (List.replicate (padding s) false) u) : u.wrCnt = 0 := by
  rw [h.count, List.length_replicate, padding]
  omega

theorem flush_on_boundary {s : State} (h : s.wrCnt = 0) : flush s = .ok s := if_pos h

theorem finishOutput_ok {s u : State} (h : flush s = .ok u) : finishOutput s = .ok (finish u.wrPos u) := by
  rw [finishOutput, h, run_bind_ok]

/-! ## Runs and trees -/

/-- What every step keeps, a run keeps. -/
theorem run_keeps {M : Host.Core} {P : M.State → Prop} (hstep : ∀ s t, P s → M.step s = .next t → P t) {k : Nat}
    {s t : M.State} (hs : P s) (h : M.run k s = .next t) : P t := by
  induction k generalizing s with
  | zero =>
    rw [run_zero] at h
    cases h
    exact hs
  | succ k ih =>
    rcases hs' : M.step s with u | r | r
    · rw [run_succ hs'] at h
      exact ih (hstep s u hs hs') h
    all_goals
      rw [Host.Core.run.eq_def] at h
      simp only [hs'] at h
      cases h

theorem treeAt_unique {s : State} {k : Nat} {a b : Tree} (ha : treeAt s k a = true) (hb : treeAt s k b = true) :
    a = b := by
  induction a generalizing k b with
  | leaf v =>
    obtain ⟨-, hkind, hletter⟩ := treeAt_leaf.1 ha
    cases b with
    | leaf w => rw [← hletter, (treeAt_leaf.1 hb).2.2]
    | joint c d =>
      obtain ⟨-, hkind', -⟩ := treeAt_joint.1 hb
      rw [hkind] at hkind'
      cases hkind'
  | joint c d ihc ihd =>
    obtain ⟨-, hkind, hc, hd⟩ := treeAt_joint.1 ha
    cases b with
    | leaf w =>
      obtain ⟨-, hkind', -⟩ := treeAt_leaf.1 hb
      rw [hkind] at hkind'
      cases hkind'
    | joint e f =>
      obtain ⟨-, -, he, hf⟩ := treeAt_joint.1 hb
      rw [ihc hc he, ihd hd hf]

/-! ## The input an operation works on -/

theorem SameInput.symm {s t : State} (h : SameInput s t) : SameInput t s :=
  ⟨h.ibuf.symm, h.l.symm, h.f.symm, h.n.symm, h.usable.symm, h.rem.symm⟩

theorem SameInput.trans {s t u : State} (h : SameInput s t) (h' : SameInput t u) : SameInput s u :=
  ⟨h'.ibuf.trans h.ibuf, h'.l.trans h.l, h'.f.trans h.f, h'.n.trans h.n, h'.usable.trans h.usable,
    h'.rem.trans h.rem⟩

theorem SameInput.of_writer {s t : State} (h : WriterFrame s t) : SameInput s t := by
  rw [h]; exact ⟨rfl, rfl, rfl, rfl, rfl, rfl⟩

theorem letters_length (s : State) : (letters s).length = s.n := by simp [letters]

theorem letters_eq_nil_iff {s : State} : letters s = [] ↔ s.n = 0 := by
  rw [← List.length_eq_zero_iff, letters_length]

theorem letters_take_succ {s : State} {i : Nat} (h : i < s.n) :
    (letters s).take (i + 1) = (letters s).take i ++ [BitVec.ofNat 16 (letterOf s i)] := by
  have hi : i < (letters s).length := by rwa [letters_length]
  rw [List.take_succ_eq_append_getElem hi]
  simp [letters]

/-! ## The bits of an artifact -/

/-- letter_size and file_size (30_encoding.md R154). -/
def headerBits (s : State) : Bits := bin 8 s.l.toNat ++ bin 64 s.f.toNat

/-- `codes` are the codes of the letters `vs` in order (R160). -/
def CodesFor (tree : Tree) (vs : List (BitVec 16)) (codes : List Bits) : Prop :=
  List.Forall₂ (fun v code => (v, code) ∈ tree.codes) vs codes

theorem CodesFor.snoc {tree : Tree} {vs : List (BitVec 16)} {codes : List Bits} {v : BitVec 16} {code : Bits}
    (h : CodesFor tree vs codes) (hv : (v, code) ∈ tree.codes) : CodesFor tree (vs ++ [v]) (codes ++ [code]) :=
  List.rel_append h (.cons hv .nil)

/-- The tree and the body of an artifact (R159, R160): both empty with no complete letter; else a tree of the letters of
the input, and the letters' codes in order. -/
def TreeAndBody (s : State) (treeBits body : Bits) : Prop :=
  (letters s = [] → treeBits = [] ∧ body = []) ∧
    (letters s ≠ [] → ∃ tree : Tree, treeBits = tree.ser (letterSize s) ∧ Holds s tree ∧
      ∃ codes : List Bits, body = codes.flatten ∧ CodesFor tree (letters s) codes)

/-- `bits` are what the operation has written so far, and its input is that of `s₀`. -/
structure Emitted (s₀ : State) (bits : Bits) (s : State) : Prop where
  input : SameInput s₀ s
  output : outputBits s = bits

theorem Emitted.update {s₀ s t : State} {bits : Bits} (h : Emitted s₀ bits s)
    (input : SameInput s t := by exact ⟨rfl, rfl, rfl, rfl, rfl, rfl⟩)
    (output : outputBits t = outputBits s := by rfl) : Emitted s₀ bits t :=
  ⟨h.input.trans input, output.trans h.output⟩

/-- The writer's bits follow those written before; OUT_CAP keeps `wr_pos` in its 64 bits (log 7). -/
theorem Emitted.wrote {s₀ s t : State} {bits more : Bits} (h : Emitted s₀ bits s) (hcap : s.outCap < 2 ^ 64)
    (hw : Wrote s more t) : Emitted s₀ (bits ++ more) t :=
  ⟨h.input.trans (.of_writer hw.frame), by rw [(hw.appended (.inl hcap)).stream, h.output]⟩

theorem outputBits_on_boundary {s : State} (h : s.wrCnt = 0) :
    outputBits s = streamBits (Memory.readAll s.obuf 0 s.wrPos.toNat) := by
  rw [outputBits, h]
  exact List.append_nil _

/-! ## What each phase is entered with -/

/-- `root` is the root of a tree of the letters of the input (R233). -/
def RootTree (s₀ s : State) (tree : Tree) : Prop :=
  (∃ r, s.root = some r ∧ treeAt s r tree = true) ∧ Holds s₀ tree

theorem RootTree.unique {s₀ s : State} {r : Nat} {tree tree' : Tree} (h : RootTree s₀ s tree) (hr : s.root = some r)
    (ht : treeAt s r tree' = true) : tree' = tree := by
  obtain ⟨⟨r', hr', ht'⟩, -⟩ := h
  obtain rfl := Option.some.inj (hr.symm.trans hr')
  exact treeAt_unique ht ht'

theorem RootTree.of_node {s₀ s t : State} {tree : Tree} (h : RootTree s₀ s tree) (hroot : t.root = s.root)
    (hnode : t.node = s.node) : RootTree s₀ t tree := by
  obtain ⟨⟨r, hr, ht⟩, hholds⟩ := h
  exact ⟨⟨r, hroot.trans hr, treeAt_of_node ht hnode⟩, hholds⟩

/-- CODE holds the codes of the tree (R261). -/
def Coded (s : State) (tree : Tree) : Prop := ∀ x ∈ tree.codes, (codeOf s x.1.toNat).bits = x.2

theorem Coded.of_code {s t : State} {tree : Tree} (h : Coded s tree) (he : t.code = s.code) : Coded t tree := by
  intro x hx
  rw [codeOf, he]
  exact h x hx

/-- The entry of a letter of the tree holds that letter's code. -/
theorem Coded.code_mem {s : State} {tree : Tree} {v : BitVec 16} (h : Coded s tree) (hv : v ∈ tree.letters) :
    (v, (codeOf s v.toNat).bits) ∈ tree.codes := by
  rw [← Tree.codes_letters] at hv
  obtain ⟨x, hx, rfl⟩ := List.mem_map.1 hv
  rwa [h x hx]

/-- The sizes and the input a COMPRESS started in `s` works on (R200). -/
def compressInput (s : State) : State := setSizes { s with l := s.lsize, f := s.inLen }

/-- OBUF[0..OUT_LEN - 1] is an artifact of the input of `s₀` (R343). -/
def HoldsArtifact (s₀ t : State) : Prop :=
  ∃ treeBits body pad : Bits, TreeAndBody s₀ treeBits body ∧ pad.length < 8 ∧ (∀ b ∈ pad, b = false) ∧
    streamBits (Memory.readAll t.obuf 0 t.outLen.toNat) =
      headerBits s₀ ++ treeBits ++ body ++ inputSlice s₀ s₀.usableBits s₀.remBits ++ pad

/-- What a COMPRESS of the input of `s₀` has counted, built and written where it enters a phase. -/
def Stage (s₀ : State) : Phase → State → Prop
  | .cSetup, s => s₀ = compressInput s
  | .cCount, s => Emitted s₀ [] s ∧ Counted s s.i
  | .cLeaves, s => Emitted s₀ [] s ∧ Counted s s.n
  | .cMerge, s => Emitted s₀ [] s ∧ ∃ tree, Forest s tree
  | .cCodegen, s => Emitted s₀ [] s ∧ ∃ tree, RootTree s₀ s tree
  | .cHdr, s => Emitted s₀ [] s ∧ (s.root ≠ none → ∃ tree, RootTree s₀ s tree ∧ Coded s tree)
  | .cTreeWr, s => Emitted s₀ (headerBits s₀) s ∧ ∃ tree, RootTree s₀ s tree ∧ Coded s tree
  | .cEncode, s => ∃ tree codes, Holds s₀ tree ∧ Coded s tree ∧
      CodesFor tree ((letters s₀).take s.i) codes ∧
      Emitted s₀ (headerBits s₀ ++ tree.ser (letterSize s₀) ++ codes.flatten) s
  | .cRem, s => ∃ treeBits body, TreeAndBody s₀ treeBits body ∧
      Emitted s₀ (headerBits s₀ ++ treeBits ++ body) s
  | .cPad, s => ∃ treeBits body, TreeAndBody s₀ treeBits body ∧
      Emitted s₀ (headerBits s₀ ++ treeBits ++ body ++ inputSlice s₀ s₀.usableBits s₀.remBits) s
  | .done, s => HoldsArtifact s₀ s
  | .error, _ => True
  | _, _ => False

/-- `s` is in a phase of a COMPRESS of the input of `s₀`, with what that phase is entered with. -/
def InStage (s₀ s : State) : Prop := ∃ p, s.phase = phaseCode p ∧ Stage s₀ p s

/-! ## The phases before the header -/

section
variable {s₀ s t : State}

theorem cSetup_stage (hs : Stage s₀ .cSetup s) (h : cSetup s = .ok t) : InStage s₀ t := by
  obtain ⟨-, -, rfl⟩ := cSetup_next h
  obtain rfl : s₀ = compressInput s := hs
  have hemit : Emitted (compressInput s) [] (cSetupLatch { s with l := s.lsize, f := s.inLen }) :=
    ⟨⟨rfl, rfl, rfl, rfl, rfl, rfl⟩, rfl⟩
  by_cases hn : 0 < (compressInput s).n
  · refine ⟨.cCount, congrArg phaseCode (if_pos hn), hemit, fun v => ?_⟩
    exact ⟨fun h => absurd rfl h, fun ⟨j, hj, _⟩ => absurd hj (Nat.not_lt_zero j)⟩
  · exact ⟨.cHdr, congrArg phaseCode (if_neg hn), hemit, fun h => absurd rfl h⟩

theorem cCount_stage (hI : Inv s) (hp : s.phase = phaseCode .cCount) (hs : Stage s₀ .cCount s)
    (h : cCount s = .ok t) : InStage s₀ t := by
  obtain ⟨hemit, hcount⟩ := hs
  have hnext := cCount_next hI hp h
  have hcount' : Counted t (s.i + 1) :=
    counted_step hI.tables.freqForm hcount (by rw [hnext]; exact ⟨rfl, rfl, rfl, rfl, rfl, rfl⟩) (by rw [hnext])
  have hemit' : Emitted s₀ [] t := by rw [hnext]; exact hemit.update
  have hphase := congrArg State.phase hnext
  dsimp only at hphase
  by_cases hlast : s.i + 1 = s.n
  · rw [if_pos hlast] at hphase
    exact ⟨.cLeaves, hphase, hemit', by rwa [show t.n = s.i + 1 by rw [hnext, hlast]]⟩
  · rw [if_neg hlast, hp] at hphase
    exact ⟨.cCount, hphase, hemit', by rwa [show t.i = s.i + 1 by rw [hnext]]⟩

theorem cLeaves_stage (hI : Inv s) (hp : s.phase = phaseCode .cLeaves) (hs : Stage s₀ .cLeaves s)
    (h : cLeaves s = .ok t) : InStage s₀ t := by
  obtain ⟨hemit, hcount⟩ := hs
  have hnext := (cLeaves_next hI hp h).2
  refine ⟨.cMerge, by rw [hnext], ?_, _, forest_leaves hI hp h hcount⟩
  rw [hnext]; exact hemit.update

theorem cMerge_stage (hI : Inv s) (hp : s.phase = phaseCode .cMerge) (hs : Stage s₀ .cMerge s)
    (h : cMerge s = .ok t) : InStage s₀ t := by
  obtain ⟨hemit, tree, hforest⟩ := hs
  rcases cMerge_next hI hp h with ⟨r, hr, rfl⟩ | ⟨a, b, ha, hb, hab, rfl⟩
  · obtain ⟨htree, hholds⟩ := hforest.root hr
    exact ⟨.cCodegen, rfl, hemit.update, tree r, ⟨r, rfl, treeAt_of_node htree rfl⟩,
      hholds.same hemit.input.symm⟩
  · exact ⟨.cMerge, hp, hemit.update, _, forest_merge hI hp ha hb hab hforest⟩

theorem cCodegen_stage (hI : Inv s) (hp : s.phase = phaseCode .cCodegen) (hs : Stage s₀ .cCodegen s)
    (h : cCodegen s = .ok t) : InStage s₀ t := by
  obtain ⟨hemit, tree, htree⟩ := hs
  obtain ⟨r, tree', hroot, htree', -, rfl⟩ := cCodegen_next hI hp h
  obtain rfl := htree.unique hroot htree'
  refine ⟨.cHdr, rfl, hemit.update, fun _ => ⟨tree', htree.of_node rfl rfl, fun x hx => ?_⟩⟩
  have hdistinct : (tree'.codes.map Prod.fst).Nodup := by rw [Tree.codes_letters]; exact htree.2.1
  exact congrArg CodeEntry.bits (assignPaths_mem hI.tables.codeForm hdistinct hx)

/-! ## The phases that write -/

variable (hcap : s.outCap < 2 ^ 64)
include hcap

theorem cHdr_stage (hI : Inv s) (hp : s.phase = phaseCode .cHdr) (hs : Stage s₀ .cHdr s) (h : cHdr s = .ok t) :
    InStage s₀ t := by
  obtain ⟨hemit, htree⟩ := hs
  obtain ⟨u, hu, rfl⟩ := cHdr_next hI hp h
  have hout : Emitted s₀ (headerBits s₀) u := by
    have := hemit.wrote hcap hu
    rwa [hemit.input.l, hemit.input.f] at this
  by_cases hroot : s.root = none
  · have hn : letters s₀ = [] := by
      rw [letters_eq_nil_iff, ← hemit.input.n]
      rcases hI.header (inPhase_of _ _ hp) with ⟨-, hn⟩ | ⟨-, ⟨r, hr, -⟩, -⟩
      · exact hn
      · rw [hroot] at hr; cases hr
    refine ⟨.cRem, if_pos hroot, [], [], ⟨fun _ => ⟨rfl, rfl⟩, fun hne => absurd hn hne⟩, ?_⟩
    rw [List.append_nil, List.append_nil]
    exact hout.update
  · obtain ⟨tree, hat, hcoded⟩ := htree hroot
    exact ⟨.cTreeWr, if_neg hroot, hout.update, tree, hat.of_node (by rw [hu.frame]) (by rw [hu.frame]),
      hcoded.of_code (by rw [hu.frame])⟩

theorem cTreeWr_stage (hI : Inv s) (hp : s.phase = phaseCode .cTreeWr) (hs : Stage s₀ .cTreeWr s)
    (h : cTreeWr s = .ok t) : InStage s₀ t := by
  obtain ⟨hemit, tree, htree, hcoded⟩ := hs
  obtain ⟨r, tree', u, hroot, htree', hu, rfl⟩ := cTreeWr_next hI hp h
  obtain rfl := htree.unique hroot htree'
  refine ⟨.cEncode, rfl, tree', [], htree.2, hcoded.of_code (by rw [hu.frame]), .nil, ?_⟩
  rw [List.flatten_nil, List.append_nil, letterSize, ← hemit.input.l]
  exact (hemit.wrote hcap hu).update

theorem cEncode_stage (hI : Inv s) (hp : s.phase = phaseCode .cEncode) (hs : Stage s₀ .cEncode s)
    (h : cEncode s = .ok t) : InStage s₀ t := by
  obtain ⟨tree, codes, hholds, hcoded, hcodes, hemit⟩ := hs
  obtain ⟨u, -, hu, rfl⟩ := cEncode_next hI hp h
  have hi : s.i < s₀.n := by rw [← hemit.input.n]; exact hI.encoding (inPhase_of _ _ hp)
  have hlt : letterOf s s.i < 2 ^ 16 := lt_of_lt_of_le (letterOf_lt s s.i)
    (two_pow_le_letterCap (hI.sized (inPhase_of _ _ hp)).1)
  have hmem : BitVec.ofNat 16 (letterOf s s.i) ∈ tree.letters :=
    (hholds.2 _).2 (mem_letters.2 ⟨s.i, hi, by rw [hemit.input.letterOf]⟩)
  have hcode := hcoded.code_mem hmem
  rw [BitVec.toNat_ofNat, Nat.mod_eq_of_lt hlt] at hcode
  generalize (codeOf s (letterOf s s.i)).bits = code at hu hcode
  have hcodes' : CodesFor tree ((letters s₀).take (s.i + 1)) (codes ++ [code]) := by
    rw [letters_take_succ hi, ← hemit.input.letterOf]
    exact hcodes.snoc hcode
  have hout : Emitted s₀ (headerBits s₀ ++ tree.ser (letterSize s₀) ++ (codes ++ [code]).flatten) u := by
    rw [List.flatten_append, List.flatten_singleton, ← List.append_assoc]
    exact (hemit.update (t := { s with port := s.port.drop (letterSize s) })).wrote hcap hu
  by_cases hlast : s.i + 1 = s.n
  · rw [hlast, hemit.input.n, ← letters_length, List.take_length] at hcodes'
    have hne : letters s₀ ≠ [] := by rw [Ne, letters_eq_nil_iff]; omega
    exact ⟨.cRem, if_pos hlast, _, _,
      ⟨fun h0 => absurd h0 hne, fun _ => ⟨tree, rfl, hholds, _, rfl, hcodes'⟩⟩, hout.update⟩
  · exact ⟨.cEncode, (if_neg hlast).trans hp, tree, _, hholds, hcoded.of_code (by rw [hu.frame]), hcodes',
      hout.update⟩

theorem cRem_stage (hI : Inv s) (hp : s.phase = phaseCode .cRem) (hs : Stage s₀ .cRem s) (h : cRem s = .ok t) :
    InStage s₀ t := by
  obtain ⟨treeBits, body, hbody, hemit⟩ := hs
  obtain ⟨u, hu, rfl⟩ := cRem_next hI hp h
  have hout := (hemit.update (t := { s with port := s.port.drop s.remBits })).wrote hcap hu
  rw [inputSlice_congr hemit.input.ibuf, hemit.input.usable, hemit.input.rem] at hout
  exact ⟨.cPad, rfl, treeBits, body, hbody, hout.update⟩

theorem cPad_stage (hI : Inv s) (hp : s.phase = phaseCode .cPad) (hs : Stage s₀ .cPad s)
    (h : finishOutput s = .ok t) : InStage s₀ t := by
  obtain ⟨treeBits, body, hbody, hemit⟩ := hs
  obtain ⟨u, hu, rfl⟩ := finishOutput_next (hI.running hp (by decide)) h
  have hcount : u.wrCnt = 0 := (hu.appended (.inl hcap)).padded
  refine ⟨.done, rfl, treeBits, body, List.replicate (padding s) false, hbody, ?_,
    fun b hb => List.eq_of_mem_replicate hb, ?_⟩
  · rw [List.length_replicate]; exact padding_lt s
  · exact (outputBits_on_boundary hcount).symm.trans (hemit.wrote hcap hu).output

/-! ## The whole operation -/

theorem phaseRule_stage {p : Phase} (hI : Inv s) (hp : s.phase = phaseCode p) (hs : Stage s₀ p s)
    (h : phaseRule p s = .ok t) : InStage s₀ t := by
  cases p
  case cSetup => exact cSetup_stage hs h
  case cCount => exact cCount_stage hI hp hs h
  case cLeaves => exact cLeaves_stage hI hp hs h
  case cMerge => exact cMerge_stage hI hp hs h
  case cCodegen => exact cCodegen_stage hI hp hs h
  case cHdr => exact cHdr_stage hcap hI hp hs h
  case cTreeWr => exact cTreeWr_stage hcap hI hp hs h
  case cEncode => exact cEncode_stage hcap hI hp hs h
  case cRem => exact cRem_stage hcap hI hp hs h
  case cPad => exact cPad_stage hcap hI hp hs h
  case done | error => cases h; exact ⟨_, hp, hs⟩
  case idle | dSetup | dHdr | dTreeRd | dDecode | dRem | dFlush => exact hs.elim

end

/-- A state of a COMPRESS that runs with no input to come and whose output keeps `wr_pos` in its 64 bits (log 7). -/
structure Compressing (s₀ s : State) : Prop where
  inv : Inv s
  alone : s.inputs = []
  cap : s.outCap < 2 ^ 64
  stage : InStage s₀ s

theorem step_compressing {s₀ s t : State} (h : Compressing s₀ s) (ht : step s = .next t) : Compressing s₀ t := by
  obtain ⟨hI, halone, hcap, p, hp, hs⟩ := h
  obtain ⟨u, hu, hIu, hkept, hcases⟩ := exec_phase_cases hI hp
  rw [step_alone halone, hu] at ht
  cases ht
  refine ⟨hIu, hkept.inputs.trans halone, by rwa [hkept.outCap], ?_⟩
  rcases hcases with hok | ⟨e, v, -, rfl, -⟩
  · exact phaseRule_stage hcap hI hp hs hok
  · exact ⟨.error, rfl, trivial⟩

/-- Where a COMPRESS started in `s` has ended in DONE, OBUF holds an artifact of its input. -/
theorem run_holdsArtifact {s t : State} {k : Nat} (hI : Inv s) (hp : s.phase = phaseCode .cSetup)
    (halone : s.inputs = []) (hcap : s.outCap < 2 ^ 64) (h : Sys2Proof.core.run k s = .next t)
    (ht : t.phase = phaseCode .done) :
    HoldsArtifact (compressInput s) t := by
  obtain ⟨-, -, -, p, hp', hs⟩ : Compressing (compressInput s) t :=
    run_keeps (M := Sys2Proof.core) (fun _ _ => step_compressing) ⟨hI, halone, hcap, .cSetup, hp, rfl⟩ h
  obtain rfl := phaseCode_injective (ht.symm.trans hp')
  exact hs

end Sys2Proof.Machine

open Sys2Proof Sys2Proof.Machine

/-- Settles O53: every step of a COMPRESS leads to a phase with what that phase is entered with (`step_compressing`),
and in DONE that is the artifact. -/
theorem compressWritesTheArtifact : Obligations.CompressWritesTheArtifact := by
  intro s t k hI hp halone hcap hrun ht
  obtain ⟨treeBits, body, pad, ⟨hnone, hsome⟩, hpad, hzero, hbits⟩ :=
    run_holdsArtifact hI hp halone hcap hrun ht
  have husable : (compressInput s).usableBits = 8 * s.inLen.toNat / s.lsize.toNat * s.lsize.toNat := Nat.mul_comm _ _
  have hrem : (compressInput s).remBits = 8 * s.inLen.toNat % s.lsize.toNat := sizes_remBits _ _
  rw [husable, hrem] at hbits
  refine ⟨treeBits, body, pad, hbits, hpad, hzero, hnone, fun hne => ?_⟩
  obtain ⟨tree, hser, ⟨hdistinct, hletters⟩, hcodes⟩ := hsome hne
  exact ⟨tree, hser, hdistinct, hletters, hcodes⟩

/-- Settles O25: the letter is read, its entry is valid, and its bits are one write. -/
theorem encodeWritesTheCode : Obligations.EncodeWritesTheCode := by
  intro s hp hw hl hread hvalid hr
  obtain ⟨u, hsu, hu⟩ := cEncode_appended hp hw hl hread hvalid hr
  exact ⟨u, hsu, congrArg (endStep .cEncode) hu⟩

/-- Settles O27: without a remainder nothing is copied, and with one it is read and written back by `bin_val`. -/
theorem remainderIsCopiedByPosition : Obligations.RemainderIsCopiedByPosition := by
  intro s
  refine ⟨fun h => congrArg (endStep .cRem) (cRem_none h), fun h0 hp hw hread hr => ?_⟩
  obtain ⟨u, hsu, hu⟩ := cRem_appended h0 hp hw hread hr
  exact ⟨u, hsu, congrArg (endStep .cRem) hu⟩

/-- Settles O28: Flush appends the padding, and the operation ends where that leaves the writer. -/
theorem padFlushesAndFinishes : Obligations.PadFlushesAndFinishes := by
  intro s hp hw hr
  obtain ⟨u, hu, hsu⟩ := flush_appended hp hr hw
  refine ⟨u, hsu, hsu.padded, padding_lt s, fun h0 => ?_, congrArg (endStep .cPad) (finishOutput_ok hu)⟩
  exact Except.ok.inj (hu.symm.trans (flush_on_boundary h0))
end

section
/-! PROOF. The stream decoder (45_stream_decoder.md): what D_DECODE, D_REM and D_FLUSH append, and the walk of D_DECODE as the inverse of the map of paths (R370 to R373). -/

namespace Sys2Proof.Machine

/-! ## D_DECODE -/

/-- D_DECODE where the bits left begin with a letter's bits, with room for the letter and the port ok (R370). -/
theorem dDecode_appended {s : State} {r : Nat} {tree : Tree} {v : BitVec 16} {after : Bits} (hp : portOk s = true)
    (hr : readerOk s = true) (hw : Memory.wf s.obuf = true) (hroot : s.root = some r) (htree : treeAt s r tree = true)
    (hd : tree.decodeOne (bitsLeft s) = some (v, after)) (hroom : room s s.l.toNat = true) :
    ∃ u, Appended (readUpTo s after.length) (bin s.l.toNat v.toNat) u ∧
      dDecode s = .ok { u with i := s.i + 1, phase := if s.i + 1 = s.n then 20 else s.phase } := by
  obtain ⟨hreader, hle⟩ := readerOk_iff.1 hr
  have hletter := (decodeLetter_ok hp hreader hle hroot htree hd).1
  obtain ⟨u, hu, hsu⟩ := writeBits_appended (v := v.toNat) (s := readUpTo s after.length)
    (portOk_drop_port hp _) hroom hw
  have hkept : u.i = s.i ∧ u.n = s.n ∧ u.phase = s.phase := by rw [hsu.rest]; exact ⟨rfl, rfl, rfl⟩
  obtain ⟨hi, hn, hphase⟩ := hkept
  refine ⟨u, hsu, ?_⟩
  rw [dDecode, hletter, run_bind_ok]
  change (writeBits s.l.toNat v.toNat (readUpTo s after.length) >>= _) = _
  rw [hu, run_bind_ok, leaveAtEnd_eq, hi, hn, hphase]
  rfl

/-! ## D_REM -/

theorem dRem_none {s : State} (h : s.remBits = 0) : dRem s = .ok (setPhase .dFlush s) := by
  rw [dRem_eq, if_neg (by omega), run_bind_ok]

theorem dRem_short {s : State} (h0 : 0 < s.remBits) (h : s.inBits < s.rdPos + s.remBits) :
    dRem s = raise .corrupt s := by
  rw [dRem_eq, if_pos h0, readRemainder, readOrCorrupt_short h]
  rfl

/-- D_REM with the remainder among the bits left, room for it and the port ok (R371). -/
theorem dRem_appended {s : State} (h0 : 0 < s.remBits) (hle : s.rdPos + s.remBits ≤ s.inBits) (hp : portOk s = true)
    (hr : ReaderOk s) (hw : Memory.wf s.obuf = true) (hroom : room s s.remBits = true) :
    ∃ u, Appended { s with rdPos := s.rdPos + s.remBits, port := s.port.drop s.remBits }
        (inputSlice s s.rdPos s.remBits) u ∧
      dRem s = .ok (setPhase .dFlush u) := by
  have hbits : bin s.remBits (val (inputSlice s s.rdPos s.remBits)) = inputSlice s s.rdPos s.remBits := by
    simpa using bin_val (inputSlice s s.rdPos s.remBits)
  obtain ⟨u, hu, hsu⟩ := writeBits_appended (w := s.remBits) (v := val (inputSlice s s.rdPos s.remBits))
    (s := { s with rdPos := s.rdPos + s.remBits, port := s.port.drop s.remBits })
    (portOk_drop_port hp s.remBits) hroom hw
  rw [hbits] at hsu
  have hread : readRemainder s = .ok u := by rw [readRemainder, readOrCorrupt_ok hr hle hp]; exact hu
  exact ⟨u, hsu, by rw [dRem_eq, if_pos h0, hread, run_bind_ok]⟩

end Sys2Proof.Machine

open Sys2Proof Sys2Proof.Machine

/-- Settles O37: the letter's bits are read by `decodeLetter_ok`, and the letter is one write. -/
theorem decodeWalksToALeaf : Obligations.DecodeWalksToALeaf := by
  intro s r tree v after hp hr hw hroot htree hd hroom
  obtain ⟨u, hsu, hu⟩ := dDecode_appended hp hr hw hroot htree hd hroom
  exact ⟨u, hsu, congrArg (endStep .dDecode) hu⟩

/-- Settles O39: nothing to copy, too few bits, or one read written back by `bin_val`. -/
theorem remainderIsReadOrCorrupt : Obligations.RemainderIsReadOrCorrupt := by
  intro s
  refine ⟨fun h => congrArg (endStep .dRem) (dRem_none h), fun h0 h => congrArg (endStep .dRem) (dRem_short h0 h),
    fun h0 hle hp hr hw hroom => ?_⟩
  obtain ⟨u, hsu, hu⟩ := dRem_appended h0 hle hp (readerOk_iff.1 hr).1 hw hroom
  exact ⟨u, hsu, congrArg (endStep .dRem) hu⟩

/-- Settles O40: Flush does nothing on a boundary, and appends the padding off it. -/
theorem flushFinishesDecompression : Obligations.FlushFinishesDecompression := by
  intro s
  refine ⟨fun h => congrArg (endStep .dFlush) (finishOutput_ok (flush_on_boundary h)), fun hp hw hroom => ?_⟩
  obtain ⟨u, hu, hsu⟩ := flush_appended hp hroom hw
  exact ⟨u, hsu, hsu.padded, congrArg (endStep .dFlush) (finishOutput_ok hu)⟩

/-- Settles O41: the invariant counts the bits written, 8·F of them at D_FLUSH (`dFlush_exact`). -/
theorem decompressedLengthIsFileSize : Obligations.DecompressedLengthIsFileSize := by
  intro s hI hp
  obtain ⟨hcnt, hpos, hrun⟩ := dFlush_exact hI hp
  rw [hpos] at hrun
  exact ⟨congrArg (endStep .dFlush) hrun, hcnt, hpos⟩

/-- Settles O59: in a tree with a joint at its root the codes are the paths, and the walk follows them both ways. -/
theorem walkFindsThePath : Obligations.WalkFindsThePath := by
  intro a b v rest bits tree
  exact ⟨fun path => tree.walk_path v path rest, tree.path_of_walk v bits rest⟩
end

section
/-! PROOF. Operations that nothing from outside disturbs: no input to come and every answer of the port ok. What a step of one is, and that every operation ends (60_exceptions.md R604, 70_reset_and_hazards.md R721). -/

namespace Sys2Proof.Machine

variable {s t : State} {p : Phase}

/-! ## Steps -/

theorem PortUsed.portOk (h : PortUsed s t) (hp : portOk s = true) : portOk t = true := by
  obtain ⟨oks, hport, -⟩ := h
  rw [portOk_iff, hport] at hp
  exact portOk_iff.2 fun a ha => hp a (List.mem_append_right _ ha)

theorem PortRaised.portOk {e : ErrorKind} (h : PortRaised s e t) (hp : portOk s = true) : portOk t = true := by
  rcases h with h | ⟨-, oks, hport, -⟩
  · exact h.portOk hp
  · rw [portOk_iff, hport] at hp
    exact absurd (hp .fault (by simp)) (by decide)

/-- A state that meets the invariant and that nothing from outside disturbs. -/
structure Undisturbed (s : State) : Prop where
  inv : Inv s
  alone : s.inputs = []
  answers : portOk s = true

/-- The step of a phase whose rule goes on. -/
theorem step_phase (halone : s.inputs = []) (hp : s.phase = phaseCode p) (h : phaseRule p s = .ok t) :
    step s = .next t := by
  rw [step_alone halone, hp, exec_phase, h, endStep_ok]

/-- A step that nothing from outside disturbs: the phase's rule, or the error it raises. -/
theorem step_undisturbed (h : Undisturbed s) (hp : s.phase = phaseCode p) :
    ∃ t, step s = .next t ∧ Undisturbed t ∧ HostKept s t ∧
      (phaseRule p s = .ok t ∨ ∃ e u, phaseRule p s = .error (.raise e u) ∧ t = takeError e p u) := by
  obtain ⟨t, ht, hI, hkept, hcases⟩ := exec_phase_cases h.inv hp
  have hasks := phaseRule_asks p s
  have halone : t.inputs = [] := hkept.inputs.trans h.alone
  refine ⟨t, (step_alone h.alone).trans ht, ?_, hkept, ?_⟩
  · rcases hcases with hok | ⟨e, u, hraise, rfl, -⟩
    · exact ⟨hI, halone, PortUsed.portOk (post_of_ok hasks hok) h.answers⟩
    · rw [hraise] at hasks
      exact ⟨hI, halone, PortRaised.portOk (t := u) hasks h.answers⟩
  · exact hcases.imp id fun ⟨e, u, hraise, htake, _⟩ => ⟨e, u, hraise, htake⟩

/-- A step of a phase whose rule goes on leaves nothing more to disturb. -/
theorem Undisturbed.next (h : Undisturbed s) (hp : s.phase = phaseCode p) (hok : phaseRule p s = .ok t) :
    Undisturbed t := by
  obtain ⟨u, hu, hU, -, -⟩ := step_undisturbed h hp
  rw [step_phase h.alone hp hok] at hu
  cases hu
  exact hU

/-! ## Runs -/

/-- A run to where `Q` holds, where each step before brings it nearer. The run is of a family of states that step alike:
`f c s` for every `c`. -/
theorem run_until {M : Host.Core} {ι : Type} {f : ι → M.State → M.State} {P : Nat → M.State → Prop}
    {Q : M.State → Prop}
    (hstep : ∀ m s, P m s → Q s ∨ ∃ t, (∀ c, M.step (f c s) = .next (f c t)) ∧ ∃ m' < m, P m' t)
    {m : Nat} {s : M.State} (h : P m s) :
    ∃ k ≤ m, ∃ t, (∀ c, M.run k (f c s) = .next (f c t)) ∧ Q t := by
  induction m using Nat.strong_induction_on generalizing s with
  | _ m ih =>
    rcases hstep m s h with hQ | ⟨t, ht, m', hm, hP⟩
    · exact ⟨0, Nat.zero_le _, s, fun _ => run_zero, hQ⟩
    · obtain ⟨k, hk, u, hu, hQ⟩ := ih m' hm hP
      exact ⟨k + 1, by omega, u, fun c => (run_succ (ht c)).trans (hu c), hQ⟩

/-- An operation with no input to come that takes at most `m` more steps (R721). -/
def StepsLeft (m : Nat) (s : State) : Prop :=
  Inv s ∧ s.inputs = [] ∧ ∃ p, s.phase = phaseCode p ∧ phaseBound p s = m

theorem quiescent_of_mem (hp : p ∈ [.idle, .done, .error]) : quiescent (phaseCode p) = true := by
  revert hp
  cases p <;> decide

/-- A phase that is not quiescent takes a step. -/
theorem phaseBound_pos (hp : p ∉ [.idle, .done, .error]) : 0 < phaseBound p s := by
  cases p
  case idle | done | error => exact absurd (by decide) hp
  all_goals exact Nat.succ_pos _

theorem stepsLeft_step {m : Nat} (h : StepsLeft m s) :
    quiescent s.phase = true ∨ ∃ t, step s = .next t ∧ ∃ m' < m, StepsLeft m' t := by
  obtain ⟨hI, halone, p, hp, rfl⟩ := h
  by_cases hquiet : p ∈ [.idle, .done, .error]
  · exact .inl (hp ▸ quiescent_of_mem hquiet)
  · right
    obtain ⟨t, ht, hIt, hkept, hcases⟩ := exec_phase_cases hI hp
    refine ⟨t, (step_alone halone).trans ht, ?_⟩
    have halone' := hkept.inputs.trans halone
    rcases hcases with hok | ⟨e, u, -, rfl, -⟩
    · obtain ⟨q, hq, -, hlt⟩ := phaseRule_bound hI hp hquiet hok hIt
      exact ⟨_, hlt, hIt, halone', q, hq, rfl⟩
    · exact ⟨0, phaseBound_pos hquiet, hIt, halone', .error, rfl, rfl⟩

/-- With no input to come every operation ends, within the bound of its phase (R721). -/
theorem run_ends (hI : Inv s) (halone : s.inputs = []) (hp : s.phase = phaseCode p) :
    ∃ k ≤ phaseBound p s, ∃ t, Sys2Proof.core.run k s = .next t ∧ quiescent t.phase = true := by
  obtain ⟨k, hk, t, ht, hquiet⟩ := run_until (M := Sys2Proof.core) (ι := Unit) (f := fun _ => id)
    (fun m s hs => (stepsLeft_step (m := m) (s := s) hs).imp id fun ⟨t, ht, hm⟩ => ⟨t, fun _ => ht, hm⟩)
    ⟨hI, halone, p, hp, rfl⟩
  exact ⟨k, hk, t, ht (), hquiet⟩

end Sys2Proof.Machine
end

section
/-! PROOF. A COMPRESS up to its header, whatever OUT_CAP is: the phases before C_HDR write nothing, so they count the letters, build the tree and store its codes alike for every capacity (40 to 42). -/

namespace Sys2Proof.Machine

variable {s₀ s t : State} {p q : Phase}

/-! ## OUT_CAP -/

/-- The machine with another OUT_CAP (20_memory.md R102). -/
def withOutCap (c : Nat) (s : State) : State := { s with outCap := c }

theorem setNode_withOutCap (c k : Nat) (slot : NodeSlot) (s : State) :
    setNode k slot (withOutCap c s) = Run.map2 (withOutCap c) (withOutCap c) (setNode k slot s) := by
  simp only [setNode]; split <;> rfl

theorem addLeaves_withOutCap (c : Nat) (entries : List (Nat × Nat)) (s : State) :
    addLeaves entries (withOutCap c s) = Run.map2 (withOutCap c) (withOutCap c) (addLeaves entries s) := by
  induction entries generalizing s with
  | nil => rfl
  | cons entry rest ih => exact bind_adjusted (bind_adjusted (setNode_withOutCap c s.nNodes _ s) fun _ => rfl) ih

theorem cLeaves_withOutCap (c : Nat) (h : cLeaves s = .ok t) : cLeaves (withOutCap c s) = .ok (withOutCap c t) := by
  have hmap : cLeaves (withOutCap c s) = Run.map2 (withOutCap c) (withOutCap c) (cLeaves s) :=
    bind_adjusted (addLeaves_withOutCap c (frequencyTable s) s) fun _ => rfl
  rw [hmap, h, map2_ok]

/-! ## What each phase plans -/

/-- The phases of a COMPRESS before its header. -/
def planPhases : List Phase := [.cSetup, .cCount, .cLeaves, .cMerge, .cCodegen]

/-- CODE holds a valid entry with its code for each letter of the tree (42_code_table.md R260 to R262). -/
def CodeReady (s : State) (tree : Tree) : Prop :=
  ∀ x ∈ tree.codes, codeOf s x.1.toNat = { valid := true, len := x.2.length, bits := x.2 }

/-- `s` is in a phase before the header, or at it, of a COMPRESS of the input of `s₀` that has passed or will pass the
checks of C_SETUP. -/
structure Planning (s₀ : State) (p : Phase) (s : State) : Prop where
  phase : s.phase = phaseCode p
  stage : Stage s₀ p s
  before : p ∈ planPhases ++ [.cHdr]
  checks : p = .cSetup → letterSizeOk s.lsize.toNat = true ∧ s.inLen.toNat ≤ s.inCap
  coded : p = .cHdr → s.root ≠ none → ∃ tree, RootTree s₀ s tree ∧ CodeReady s tree

theorem InStage.planning (h : InStage s₀ t) (hq : t.phase = phaseCode q) (hbefore : q ∈ planPhases ++ [.cHdr])
    (hchecks : q ≠ .cSetup) (hcoded : q = .cHdr → t.root ≠ none → ∃ tree, RootTree s₀ t tree ∧ CodeReady t tree) :
    Planning s₀ q t := by
  obtain ⟨q', hq', hs⟩ := h
  obtain rfl := phaseCode_injective (hq'.symm.trans hq)
  exact ⟨hq, hs, hbefore, fun he => absurd he hchecks, hcoded⟩

/-- The rule of phase `p` goes on from `s` alike for every OUT_CAP, to a phase before the header or to the header. -/
def PlansOn (s₀ : State) (p : Phase) (s : State) : Prop :=
  ∃ t q, phaseRule p s = .ok t ∧ (∀ c, phaseRule p (withOutCap c s) = .ok (withOutCap c t)) ∧ Planning s₀ q t

theorem cSetup_plansOn (h : Planning s₀ .cSetup s) : PlansOn s₀ .cSetup s := by
  obtain ⟨hl, hcap⟩ := h.checks rfl
  have hok := cSetup_ok hl hcap
  have hstage := cSetup_stage h.stage hok
  refine ⟨_, if 0 < (compressInput s).n then .cCount else .cHdr, hok,
    fun c => cSetup_ok (s := withOutCap c s) hl hcap, ?_⟩
  refine hstage.planning rfl ?_ ?_ fun _ hroot => absurd rfl hroot
  · split <;> decide
  · split <;> decide

theorem cCount_plansOn (hU : Undisturbed s) (h : Planning s₀ .cCount s) : PlansOn s₀ .cCount s := by
  have hsz := hU.inv.sized (inPhase_of _ _ h.phase)
  have hread := letter_readable (hU.inv.running h.phase (by decide)) hsz (hU.inv.whole (inPhase_of _ _ h.phase))
    (hU.inv.counting (inPhase_of _ _ h.phase)).1
  have hok := cCount_ok hU.answers hsz.1 hread
  refine ⟨_, if s.i + 1 = s.n then .cLeaves else .cCount, hok,
    fun c => cCount_ok (s := withOutCap c s) hU.answers hsz.1 hread,
    (cCount_stage hU.inv h.phase h.stage hok).planning ?_ ?_ ?_ ?_⟩
  · change (if s.i + 1 = s.n then phaseCode .cLeaves else s.phase) = _
    rw [h.phase, apply_ite phaseCode]
  · split <;> decide
  · split <;> decide
  · split <;> exact fun he => nomatch he

theorem cLeaves_plansOn (hU : Undisturbed s) (h : Planning s₀ .cLeaves s) : PlansOn s₀ .cLeaves s := by
  obtain ⟨t, -, -, -, hok | ⟨e, u, -, -, hraised⟩⟩ := exec_phase_cases hU.inv h.phase
  · refine ⟨t, .cMerge, hok, fun c => cLeaves_withOutCap c hok,
      (cLeaves_stage hU.inv h.phase h.stage hok).planning ?_ (by decide) (by decide) fun he => nomatch he⟩
    rw [(cLeaves_next hU.inv h.phase hok).2]
  · exact absurd hraised.1 (List.not_mem_nil)

theorem cMerge_plansOn (hU : Undisturbed s) (h : Planning s₀ .cMerge s) : PlansOn s₀ .cMerge s := by
  obtain ⟨-, -, hne, hcount, hin, -⟩ := hU.inv.merging (inPhase_of _ _ h.phase)
  have hlen := List.length_pos_iff.2 hne
  by_cases h1 : s.active.length = 1
  · obtain ⟨r, hr⟩ := List.length_eq_one_iff.1 h1
    have hok := cMerge_one hr
    exact ⟨_, .cCodegen, hok, fun c => cMerge_one (s := withOutCap c s) hr,
      (cMerge_stage hU.inv h.phase h.stage hok).planning rfl (by decide) (by decide) fun he => nomatch he⟩
  · have hcap : s.nNodes < Config.treeNodeCap := by
      have : 2 * Config.letterCap = Config.treeNodeCap + 1 := rfl
      omega
    obtain ⟨a, b, ha, hb, hab, hla, hlb, hok⟩ := cMerge_ok hU.inv.tables.activeForm (by omega) hin hcap
    exact ⟨_, .cMerge, hok,
      fun c => (cMerge_two (s := withOutCap c s) ha hb hab).trans
        (mergeTwo_ok (s := withOutCap c s) ha hb hab hla hlb hin hcap),
      (cMerge_stage hU.inv h.phase h.stage hok).planning h.phase (by decide) (by decide) fun he => nomatch he⟩

theorem cCodegen_plansOn (hU : Undisturbed s) (h : Planning s₀ .cCodegen s) : PlansOn s₀ .cCodegen s := by
  obtain ⟨-, hroot, hchildren⟩ := hU.inv.built (inPhase_of _ _ h.phase)
  obtain ⟨r, tree, hr, htree, hheight⟩ := tree_of_root ⟨hroot, hchildren⟩
  have hok := cCodegen_ok hr htree hheight
  obtain ⟨-, tree', hrootTree⟩ : Emitted s₀ [] s ∧ ∃ tree, RootTree s₀ s tree := h.stage
  obtain rfl := hrootTree.unique hr htree
  have hdistinct : (tree.codes.map Prod.fst).Nodup := by rw [Tree.codes_letters]; exact hrootTree.2.1
  refine ⟨_, .cHdr, hok,
    fun c => cCodegen_ok (s := withOutCap c s) hr (treeAt_of_node htree rfl) hheight,
    (cCodegen_stage hU.inv h.phase h.stage hok).planning rfl (by decide) (by decide) fun _ _ => ?_⟩
  exact ⟨tree, hrootTree.of_node rfl rfl, fun x hx => assignPaths_mem hU.inv.tables.codeForm hdistinct hx⟩

theorem plansOn (hU : Undisturbed s) (h : Planning s₀ p s) (hp : p ≠ .cHdr) : PlansOn s₀ p s := by
  cases p
  case cSetup => exact cSetup_plansOn h
  case cCount => exact cCount_plansOn hU h
  case cLeaves => exact cLeaves_plansOn hU h
  case cMerge => exact cMerge_plansOn hU h
  case cCodegen => exact cCodegen_plansOn hU h
  case cHdr => exact absurd rfl hp
  all_goals exact absurd h.before (by decide)

/-! ## The run to the header -/

/-- At most `m` steps of an undisturbed COMPRESS are left, and it is not past its header. -/
def PlanLeft (s₀ : State) (m : Nat) (s : State) : Prop :=
  Undisturbed s ∧ ∃ p, Planning s₀ p s ∧ phaseBound p s = m

theorem planLeft_step {m : Nat} (h : PlanLeft s₀ m s) :
    Undisturbed s ∧ Planning s₀ .cHdr s ∨
      ∃ t, (∀ c, step (withOutCap c s) = .next (withOutCap c t)) ∧ ∃ m' < m, PlanLeft s₀ m' t := by
  obtain ⟨hU, p, hplan, rfl⟩ := h
  by_cases hp : p = .cHdr
  · exact .inl ⟨hU, hp ▸ hplan⟩
  · obtain ⟨t, q, hok, hcaps, hnext⟩ := plansOn hU hplan hp
    have hUt := hU.next hplan.phase hok
    have hbusy : p ∉ [.idle, .done, .error] := by
      have hbefore := hplan.before
      revert hbefore
      cases p <;> decide
    obtain ⟨q', hq', -, hlt⟩ := phaseRule_bound hU.inv hplan.phase hbusy hok hUt.inv
    obtain rfl := phaseCode_injective (hq'.symm.trans hnext.phase)
    exact .inr ⟨t, fun c => step_phase (s := withOutCap c s) hU.alone hplan.phase (hcaps c), _, hlt, hUt, q', hnext, rfl⟩

/-- A COMPRESS that passes its checks reaches its header in the same state for every OUT_CAP. -/
theorem run_toHeader (hU : Undisturbed s) (h : Planning s₀ p s) :
    ∃ k h, (∀ c, Sys2Proof.core.run k (withOutCap c s) = .next (withOutCap c h)) ∧
      Undisturbed h ∧ Planning s₀ .cHdr h := by
  obtain ⟨k, -, t, hrun, hheader⟩ := run_until (M := Sys2Proof.core) (f := withOutCap)
    (fun m s hs => planLeft_step (m := m) (s := s) hs) ⟨hU, p, h, rfl⟩
  exact ⟨k, t, hrun, hheader⟩

end Sys2Proof.Machine
end

section
/-! PROOF. The length of an artifact, known where the header is entered (30_encoding.md R154 to R161): a COMPRESS ends in DONE with exactly that many bytes written, or in Io with fewer in OBUF (60_exceptions.md R604). -/

namespace Sys2Proof.Machine

/-! ## The length -/

/-- The bits of the codes of the first `k` letters. -/
def bodyLength (h : State) (k : Nat) : Nat := ∑ j ∈ Finset.range k, (codeOf h (letterOf h j)).bits.length

/-- The bits of the artifact of a COMPRESS that enters its header in `h` with `treeLen` bits of tree, without padding. -/
def artifactBits (h : State) (treeLen : Nat) : Nat := 72 + treeLen + bodyLength h h.n + h.remBits

/-- The bytes of that artifact (20_memory.md R109). -/
def artifactBytes (h : State) (treeLen : Nat) : Nat := (artifactBits h treeLen + 7) / 8

theorem bodyLength_succ (h : State) (k : Nat) :
    bodyLength h (k + 1) = bodyLength h k + (codeOf h (letterOf h k)).bits.length := Finset.sum_range_succ _ _

theorem bodyLength_mono (h : State) {j k : Nat} (hjk : j ≤ k) : bodyLength h j ≤ bodyLength h k :=
  Finset.sum_le_sum_of_subset (Finset.range_subset_range.2 hjk)

/-- What the header is entered with, as far as the lengths go: `treeLen` bits of tree where there is one, and a valid
entry in CODE for each letter. -/
structure Ready (h : State) (treeLen : Nat) : Prop where
  noTree : h.root = none → treeLen = 0 ∧ h.n = 0
  tree : ∀ r tree, h.root = some r → treeAt h r tree = true → (tree.ser (letterSize h)).length = treeLen
  valid : ∀ j < h.n, (codeOf h (letterOf h j)).valid = true

/-! ## The phases that write -/

/-- `s` differs from `h` only in what the phases that write change, and in OUT_CAP. -/
def Later (h s : State) : Prop :=
  s = { h with
    outCap := s.outCap, phase := s.phase, i := s.i, wrAcc := s.wrAcc, wrCnt := s.wrCnt, wrPos := s.wrPos
    obuf := s.obuf, port := s.port, draws := s.draws }

theorem Later.writer {h s t : State} (hs : Later h s) (ht : WriterFrame s t) : Later h t := by
  unfold Later WriterFrame at *
  rw [ht.trans (by rw [hs])]

theorem Later.update {h s t : State} (hs : Later h s)
    (ht : t = { s with port := t.port, phase := t.phase, i := t.i } := by rfl) : Later h t := by
  unfold Later at *
  rw [ht.trans (by rw [hs])]

theorem Later.letterOf {h s : State} (hs : Later h s) (j : Nat) : Machine.letterOf s j = Machine.letterOf h j := by
  rw [hs]; rfl

theorem Later.codeOf {h s : State} (hs : Later h s) (v : Nat) : Machine.codeOf s v = Machine.codeOf h v := by
  rw [hs]; rfl

/-- The bits written where a phase is entered. -/
def tally (h : State) (treeLen : Nat) : Phase → State → Nat
  | .cHdr, _ => 0
  | .cTreeWr, _ => 72
  | .cEncode, s => 72 + treeLen + bodyLength h s.i
  | .cRem, _ => 72 + treeLen + bodyLength h h.n
  | _, _ => artifactBits h treeLen

/-- The phases of a COMPRESS that write. -/
def writePhases : List Phase := [.cHdr, .cTreeWr, .cEncode, .cRem, .cPad]

/-- What a COMPRESS that entered its header in `h` has written where it enters a phase, and where it ends. -/
def Tallied (h : State) (treeLen : Nat) : Phase → State → Prop
  | .done, s => s.outLen.toNat = artifactBytes h treeLen ∧ artifactBytes h treeLen ≤ s.outCap
  | .error, s => s.errCode = 3 ∧ s.outCap < artifactBytes h treeLen
  | p, s => p ∈ writePhases ∧ Later h s ∧ bitsWritten s = tally h treeLen p s

/-- `s` is in a phase of that COMPRESS. -/
def InTally (h : State) (treeLen : Nat) (s : State) : Prop := ∃ p, s.phase = phaseCode p ∧ Tallied h treeLen p s

/-- What a phase raises: Io, for want of room for the artifact. -/
def Short (h : State) (treeLen : Nat) (s : State) (e : ErrorKind) (_ : State) : Prop :=
  e = .io ∧ s.outCap < artifactBytes h treeLen

/-- A write that fails with the port ok did not fit, and so neither does what it is a part of. -/
theorem WriteFail.short {h s t : State} {treeLen k : Nat} {e : ErrorKind} (hf : WriteFail s k e t)
    (hp : portOk s = true) (hle : bitsWritten s + k ≤ artifactBits h treeLen) : Short h treeLen s e t := by
  have hfull := hf.full hp
  refine ⟨hf.kind, ?_⟩
  simp only [bytesCompleted, bitsWritten, artifactBytes] at *
  omega

section
variable {h s t : State} {treeLen : Nat}

/-- A write of bits inside the artifact, and what follows it. -/
theorem write_tallied {bits : Bits} {f : State → Run State} (hr : InvRunning s) (hp : portOk s = true)
    (hcap : s.outCap < 2 ^ 64) (hle : bitsWritten s + bits.length ≤ artifactBits h treeLen)
    (hf : ∀ t, WriterFrame s t → bitsWritten t = bitsWritten s + bits.length →
      ∃ u, f t = .ok u ∧ InTally h treeLen u) :
    Run.post (InTally h treeLen) (Short h treeLen s) (fun _ => False) (writeString bits s >>= f) := by
  rw [post_bind]
  refine post_mono (writeString_spec (.of_running hr) (.inl hcap)) ?_ (fun e u hfail => hfail.short hp hle)
    (fun _ hfalse => hfalse)
  rintro t ⟨happ, -⟩
  obtain ⟨u, hu, htally⟩ := hf t happ.frame (bitsWritten_appended happ hr.writer)
  rw [hu]
  exact htally

theorem headerBits_length (s : State) : (headerBits s).length = 72 := by simp [headerBits]

theorem cHdr_eq (s : State) : cHdr s = (writeString (headerBits s) s >>= fun t =>
    .ok (setPhase (if t.root ≠ none then .cTreeWr else .cRem) t)) := by
  rw [cHdr, headerBits, writeString_append, bind_assoc]
  refine bind_congr_post (writeString_frame (bin 8 s.l.toNat) s) fun t (ht : WriterFrame s t) => ?_
  rw [show t.f = s.f by rw [ht]]
  rfl

/-- C_REM with the port ok is one write of the remainder (R341). -/
theorem cRem_write (hU : Undisturbed s) (hp : s.phase = phaseCode .cRem) :
    cRem s = (writeString (inputSlice s s.usableBits s.remBits) { s with port := s.port.drop s.remBits } >>= fun t =>
      .ok (setPhase .cPad t)) := by
  have hread := remainder_readable (hU.inv.running hp (by decide)) (hU.inv.sized (inPhase_of _ _ hp))
    (hU.inv.whole (inPhase_of _ _ hp))
  have hbits := bin_val (inputSlice s s.usableBits s.remBits)
  rw [inputSlice_length] at hbits
  rw [cRem_eq]
  by_cases h0 : 0 < s.remBits
  · rw [if_pos h0, copyRemainder, inputBits_ok hread hU.answers, run_bind_ok]
    change writeString (bin s.remBits _) _ >>= _ = _
    rw [hbits]
  · have hnone : s.remBits = 0 := Nat.eq_zero_of_not_pos h0
    have hslice : inputSlice s s.usableBits s.remBits = [] := by rw [hnone]; rfl
    have hport : s.port.drop s.remBits = s.port := by rw [hnone]; rfl
    rw [if_neg h0, hslice, hport]
    rfl

variable (hU : Undisturbed s) (hcap : s.outCap < 2 ^ 64)
include hU hcap

theorem cRem_tallied (hp : s.phase = phaseCode .cRem) (hs : Tallied h treeLen .cRem s) :
    Run.post (InTally h treeLen) (Short h treeLen s) (fun _ => False) (cRem s) := by
  obtain ⟨-, hlater, hbits⟩ := hs
  have hall : bitsWritten s + s.remBits = artifactBits h treeLen := by rw [hbits, show s.remBits = h.remBits by rw [hlater]]; rfl
  let read : State := { s with port := s.port.drop s.remBits }
  rw [cRem_write hU hp]
  refine write_tallied (s := read) ((hU.inv.running hp (by decide)).read rfl) (portOk_drop_port hU.answers _) hcap ?_
    fun t hframe ht => ⟨setPhase .cPad t, rfl, .cPad, rfl, by decide,
      ((hlater.update (t := read)).writer hframe).update, ?_⟩
  · rw [inputSlice_length]; exact hall.le
  · rw [inputSlice_length] at ht
    exact ht.trans hall

theorem cPad_tallied (hp : s.phase = phaseCode .cPad) (hs : Tallied h treeLen .cPad s) :
    Run.post (InTally h treeLen) (Short h treeLen s) (fun _ => False) (finishOutput s) := by
  have hr := hU.inv.running hp (by decide)
  have hbits : bitsWritten s = artifactBits h treeLen := hs.2.2
  have hcnt := hr.writer
  rw [finishOutput, post_bind]
  refine post_mono (flush_spec (.of_running hr) (.inl hcap)) ?_ ?_ fun _ hfalse => hfalse
  · rintro t ⟨happ, hpos⟩
    have hcnt' := happ.padded
    have ht := bitsWritten_appended happ hcnt
    have hlen : t.wrPos.toNat = artifactBytes h treeLen := by
      rw [List.length_replicate, hbits] at ht
      simp only [bitsWritten, padding, artifactBytes] at *
      omega
    exact ⟨.done, rfl, hlen, by rw [← hlen]; exact hpos.trans_eq happ.outCap.symm⟩
  · intro e t hf
    have hfull := hf.full hU.answers
    refine ⟨hf.kind, ?_⟩
    simp only [bitsWritten, padding, bytesCompleted, artifactBytes] at *
    omega

variable (hReady : Ready h treeLen)
include hReady

theorem cHdr_tallied (hp : s.phase = phaseCode .cHdr) (hs : Tallied h treeLen .cHdr s) :
    Run.post (InTally h treeLen) (Short h treeLen s) (fun _ => False) (cHdr s) := by
  obtain ⟨-, hlater, hbits⟩ := hs
  have hlen := headerBits_length s
  rw [cHdr_eq]
  refine write_tallied (hU.inv.running hp (by decide)) hU.answers hcap ?_ fun t hframe ht => ⟨_, rfl, ?_⟩
  · rw [hbits, hlen, tally, artifactBits]; omega
  · rw [hbits, hlen] at ht
    have hlater' := hlater.writer hframe
    have hroot : t.root = h.root := by rw [hlater']
    rw [hroot]
    by_cases h0 : h.root = none
    · obtain ⟨hlen0, hn⟩ := hReady.noTree h0
      refine ⟨.cRem, by rw [if_neg (not_not.2 h0)]; rfl, by decide, hlater'.update, ?_⟩
      change bitsWritten t = 72 + treeLen + bodyLength h h.n
      rw [ht, hlen0, hn]
      rfl
    · exact ⟨.cTreeWr, by rw [if_pos h0]; rfl, by decide, hlater'.update, ht⟩

theorem cTreeWr_tallied (hp : s.phase = phaseCode .cTreeWr) (hs : Tallied h treeLen .cTreeWr s) :
    Run.post (InTally h treeLen) (Short h treeLen s) (fun _ => False) (cTreeWr s) := by
  obtain ⟨-, hlater, hbits⟩ := hs
  obtain ⟨-, hroot, hchildren⟩ := hU.inv.built (inPhase_of _ _ hp)
  obtain ⟨r, tree, hr, htree, hheight⟩ := tree_of_root ⟨hroot, hchildren⟩
  have hlen : (tree.ser (letterSize s)).length = treeLen := by
    rw [show letterSize s = letterSize h by rw [hlater]; rfl]
    exact hReady.tree r tree (by rw [← hr, hlater]) (treeAt_of_node htree (by rw [hlater]))
  rw [cTreeWr, rootNode_some hr, run_bind_ok, serialize_eq htree hheight]
  refine write_tallied (hU.inv.running hp (by decide)) hU.answers hcap ?_ fun t hframe ht => ⟨_, rfl, ?_⟩
  · rw [hbits, hlen, tally, artifactBits]; omega
  · refine ⟨.cEncode, rfl, by decide, (hlater.writer hframe).update, ?_⟩
    change bitsWritten t = 72 + treeLen + bodyLength h 0
    rw [ht, hbits, hlen]
    rfl

theorem cEncode_tallied (hp : s.phase = phaseCode .cEncode) (hs : Tallied h treeLen .cEncode s) :
    Run.post (InTally h treeLen) (Short h treeLen s) (fun _ => False) (cEncode s) := by
  obtain ⟨-, hlater, hbits⟩ := hs
  have hr := hU.inv.running hp (by decide)
  have hsz := hU.inv.sized (inPhase_of _ _ hp)
  have hi := hU.inv.encoding (inPhase_of _ _ hp)
  have hn : s.n = h.n := by rw [hlater]
  have hread := letter_readable hr hsz (hU.inv.whole (inPhase_of _ _ hp)) hi
  have hcode : codeOf s (letterOf s s.i) = codeOf h (letterOf h s.i) := by rw [hlater.codeOf, hlater.letterOf]
  have hsucc := bodyLength_succ h s.i
  have hmono := bodyLength_mono h (show s.i + 1 ≤ h.n by omega)
  rw [cEncode_read hU.answers hsz.1 hread, hcode, if_pos (hReady.valid s.i (by omega))]
  let read : State := { s with port := s.port.drop s.l.toNat }
  refine write_tallied (s := read) (hr.read rfl) (portOk_drop_port hU.answers _) hcap ?_
    fun t hframe ht => ⟨_, rfl, ?_⟩
  · change bitsWritten s + _ ≤ _
    rw [hbits, tally, artifactBits]; omega
  · have hlater' : Later h t := (hlater.update (t := read)).writer hframe
    have hti : t.i = s.i := by rw [hframe]
    have htally : bitsWritten t = 72 + treeLen + bodyLength h (s.i + 1) := by
      rw [ht]
      change bitsWritten s + _ = _
      rw [hbits, tally, hsucc, Nat.add_assoc]
    rw [leaveAtEnd_eq]
    have htn : t.n = h.n := by rw [hlater']
    by_cases hlast : t.i + 1 = t.n
    · refine ⟨.cRem, if_pos hlast, by decide, hlater'.update, ?_⟩
      change bitsWritten t = 72 + treeLen + bodyLength h h.n
      rw [htally, ← htn, ← hlast, hti]
    · refine ⟨.cEncode, (if_neg hlast).trans (by rw [hframe]; exact hp), by decide, hlater'.update, ?_⟩
      change bitsWritten t = 72 + treeLen + bodyLength h (t.i + 1)
      rw [htally, hti]

theorem phaseRule_tallied {p : Phase} (hp : s.phase = phaseCode p) (hwrites : p ∈ writePhases)
    (hs : Tallied h treeLen p s) :
    Run.post (InTally h treeLen) (Short h treeLen s) (fun _ => False) (phaseRule p s) := by
  cases p
  case cHdr => exact cHdr_tallied hU hcap hReady hp hs
  case cTreeWr => exact cTreeWr_tallied hU hcap hReady hp hs
  case cEncode => exact cEncode_tallied hU hcap hReady hp hs
  case cRem => exact cRem_tallied hU hcap hp hs
  case cPad => exact cPad_tallied hU hcap hp hs
  all_goals exact absurd hwrites (by decide)

end

/-! ## The bound on the length -/

/-- A tree of distinct letters has no more leaves than there are letters (10_state.md R60). -/
theorem Tree.letters_length_le {t : Tree} (h : t.letters.Nodup) : t.letters.length ≤ Config.letterCap := by
  have hsub : t.letters.map BitVec.toNat ⊆ List.range Config.letterCap := fun v hv => by
    obtain ⟨w, -, rfl⟩ := List.mem_map.1 hv
    exact List.mem_range.2 w.isLt
  have hnodup := h.map fun _ _ he => BitVec.eq_of_toNat_eq he
  simpa using (List.subperm_of_subset hnodup hsub).length_le

theorem Tree.size_le_nodeCap {t : Tree} (h : t.letters.Nodup) : t.size ≤ Config.treeNodeCap := by
  have hsize := t.size_eq
  have hletters := Tree.letters_length_le h
  have hcaps : 2 * Config.letterCap = Config.treeNodeCap + 1 := rfl
  omega

theorem Tree.code_length_le {t : Tree} {x : BitVec 16 × Bits} (h : x ∈ t.codes) : x.2.length ≤ t.letters.length := by
  cases t with
  | leaf v => rw [List.mem_singleton.1 h]; exact le_rfl
  | joint a b => exact (Tree.path_length_lt h).le

/-- With CODE ready for a tree of the letters of the input, the entry of letter `j` holds its code. -/
theorem CodeReady.entry {h : State} {tree : Tree} (hcode : CodeReady h tree) (hholds : Holds h tree)
    (hl : letterSizeOk h.l.toNat = true) {j : Nat} (hj : j < h.n) :
    ∃ x ∈ tree.codes, codeOf h (letterOf h j) = { valid := true, len := x.2.length, bits := x.2 } := by
  have hlt : letterOf h j < 2 ^ 16 := lt_of_lt_of_le (letterOf_lt h j) (two_pow_le_letterCap hl)
  have hmem : BitVec.ofNat 16 (letterOf h j) ∈ tree.letters := (hholds.2 _).2 (mem_letters.2 ⟨j, hj, rfl⟩)
  rw [← Tree.codes_letters] at hmem
  obtain ⟨x, hx, hletter⟩ := List.mem_map.1 hmem
  refine ⟨x, hx, ?_⟩
  rw [← hcode x hx, hletter, BitVec.toNat_ofNat, Nat.mod_eq_of_lt hlt]

theorem bodyLength_le {h : State} {m : Nat} (hm : ∀ j < h.n, (codeOf h (letterOf h j)).bits.length ≤ m) :
    bodyLength h h.n ≤ h.n * m := by
  have hsum := Finset.sum_le_card_nsmul (Finset.range h.n) (fun j => (codeOf h (letterOf h j)).bits.length) m
    fun j hj => hm j (Finset.mem_range.1 hj)
  simpa [bodyLength] using hsum

theorem Ready.of_noTree {h : State} (hroot : h.root = none) (hn : h.n = 0) : Ready h 0 where
  noTree := fun _ => ⟨rfl, hn⟩
  tree := fun r _ hr => by rw [hroot] at hr; cases hr
  valid := fun j hj => by omega

theorem Ready.of_tree {s₀ h : State} {tree : Tree} (htree : RootTree s₀ h tree) (hcode : CodeReady h tree)
    (hholds : Holds h tree) (hl : letterSizeOk h.l.toNat = true) : Ready h (tree.ser (letterSize h)).length where
  noTree := fun hroot => by
    obtain ⟨⟨r, hr, -⟩, -⟩ := htree
    rw [hroot] at hr; cases hr
  tree := fun r tree' hr ht => by rw [htree.unique hr ht]
  valid := fun j hj => by
    obtain ⟨x, -, hentry⟩ := hcode.entry hholds hl hj
    rw [hentry]

/-- The length of an artifact, from bounds on its tree and on its codes: there are at most four letters to a byte. -/
theorem artifactBytes_le {h : State} {treeLen : Nat} (hsz : letterSizeOk h.l.toNat = true ∧ sizesHold h = true)
    (htree : treeLen ≤ Config.treeNodeCap + Config.letterCap * 16)
    (hcodes : ∀ j < h.n, (codeOf h (letterOf h j)).bits.length ≤ Config.letterCap) :
    artifactBytes h treeLen ≤ 2 ^ 18 + 2 ^ 15 * h.f.toNat := by
  obtain ⟨hl2, hl16, husable, hall, -⟩ := sized_arith hsz
  rw [husable] at hall
  have hrem : h.remBits < 16 := by
    rw [(sizesHold_iff.1 hsz.2).2.2.2, sizes_remBits]
    exact (Nat.mod_lt _ (Nat.lt_of_lt_of_le Nat.two_pos hl2)).trans_le hl16
  have hn : h.n * 2 ≤ h.n * letterSize h := Nat.mul_le_mul_left _ hl2
  have hbody : bodyLength h h.n ≤ h.n * 65536 := bodyLength_le hcodes
  have htree : treeLen ≤ 131071 + 65536 * 16 := htree
  rw [artifactBytes, artifactBits]
  omega

/-- Where the header is entered the length of the artifact is known, and bounded by the input's. -/
theorem header_ready {s₀ h : State} (hI : Inv h) (hplan : Planning s₀ .cHdr h) :
    ∃ treeLen, Ready h treeLen ∧ artifactBytes h treeLen ≤ 2 ^ 18 + 2 ^ 15 * h.f.toNat := by
  have hsz := hI.sized (inPhase_of _ _ hplan.phase)
  by_cases hroot : h.root = none
  · have hn : h.n = 0 := by
      rcases hI.header (inPhase_of _ _ hplan.phase) with ⟨-, hn⟩ | ⟨-, ⟨r, hr, -⟩, -⟩
      · exact hn
      · rw [hroot] at hr; cases hr
    exact ⟨0, .of_noTree hroot hn, artifactBytes_le hsz (Nat.zero_le _) fun j hj => by omega⟩
  · obtain ⟨tree, htree, hcode⟩ := hplan.coded rfl hroot
    have hholds : Holds h tree := htree.2.same hplan.stage.1.input
    have hletters := Tree.letters_length_le hholds.1
    refine ⟨_, .of_tree htree hcode hholds hsz.1, artifactBytes_le hsz ?_ fun j hj => ?_⟩
    · rw [Tree.ser_length]
      exact Nat.add_le_add (Tree.size_le_nodeCap hholds.1)
        (Nat.mul_le_mul hletters (letterSizeOk_iff.1 hsz.1).2)
    · obtain ⟨x, hx, hentry⟩ := hcode.entry hholds hsz.1 hj
      rw [hentry]
      exact (Tree.code_length_le hx).trans hletters

/-! ## The run from the header -/

/-- An undisturbed COMPRESS past the entry of its header, whose output keeps `wr_pos` in its 64 bits (log 7). -/
structure Writing (h : State) (treeLen cap : Nat) (s : State) : Prop where
  free : Undisturbed s
  outCap : s.outCap = cap
  written : InTally h treeLen s

theorem step_writing {h s t : State} {treeLen cap : Nat} (hReady : Ready h treeLen) (hcap : cap < 2 ^ 64)
    (hs : Writing h treeLen cap s) (ht : step s = .next t) : Writing h treeLen cap t := by
  obtain ⟨hU, hcap', p, hp, htally⟩ := hs
  obtain ⟨u, hu, hUu, hkept, hcases⟩ := step_undisturbed hU hp
  rw [hu] at ht
  cases ht
  refine ⟨hUu, hkept.outCap.trans hcap', ?_⟩
  by_cases hwrites : p ∈ writePhases
  · have hpost := phaseRule_tallied hU (hcap'.trans_lt hcap) hReady hp hwrites htally
    rcases hcases with hok | ⟨e, v, hraise, rfl⟩
    · exact post_of_ok hpost hok
    · rw [hraise] at hpost
      obtain ⟨rfl, hshort⟩ := hpost
      exact ⟨.error, rfl, rfl, hkept.outCap.trans_lt hshort⟩
  · have hquiet : p ∈ [.done, .error] := by
      revert hwrites htally
      cases p <;> simp [Tallied, writePhases]
    rw [phaseRule_quiet (List.mem_cons_of_mem _ hquiet)] at hcases
    rcases hcases with hok | ⟨e, v, hraise, -⟩
    · cases hok
      exact ⟨p, hp, htally⟩
    · cases hraise

/-- From its header a COMPRESS ends in DONE with the artifact's length in OUT_LEN, if OBUF has room for that many bytes,
and else in Io (60_exceptions.md R604 (b)). -/
theorem run_fromHeader {h s : State} {treeLen cap : Nat} (hReady : Ready h treeLen) (hcap : cap < 2 ^ 64)
    (hs : Writing h treeLen cap s) :
    ∃ k t, Sys2Proof.core.run k s = .next t ∧
      (cap < artifactBytes h treeLen → t.phase = 31 ∧ t.errCode = 3) ∧
      (artifactBytes h treeLen ≤ cap → t.phase = 30 ∧ t.outLen.toNat = artifactBytes h treeLen) := by
  obtain ⟨p, hp, -⟩ := hs.written
  obtain ⟨k, -, t, hrun, hquiet⟩ := run_ends hs.free.inv hs.free.alone hp
  obtain ⟨-, hcap', q, hq, htally⟩ : Writing h treeLen cap t :=
    run_keeps (M := Sys2Proof.core) (fun _ _ => step_writing hReady hcap) hs hrun
  refine ⟨k, t, hrun, ?_⟩
  rw [hq] at hquiet ⊢
  cases q
  case done =>
    obtain ⟨hlen, hroom⟩ := htally
    exact ⟨fun hlt => by omega, fun _ => ⟨rfl, hlen⟩⟩
  case error =>
    obtain ⟨hcode, hshort⟩ := htally
    exact ⟨fun _ => ⟨rfl, hcode⟩, fun hle => by omega⟩
  case idle => exact absurd htally.1 (by decide)
  all_goals exact absurd hquiet (by decide)

end Sys2Proof.Machine
end

section
/-! PROOF. The round trip (45_stream_decoder.md R374): a DECOMPRESS of an artifact writes back the input it was made of, phase by phase, and a COMPRESS leaves such an artifact. -/

namespace Sys2Proof.Machine

variable {s₀ s t : State} {pad : Bits}

/-! ## The bits left -/

/-- Bits that come next are left behind by a cursor that moves past them. -/
theorem bitsLeft_moved {a b : Bits} (h : bitsLeft s = a ++ b) (hibuf : t.ibuf = s.ibuf) (hin : t.inBits = s.inBits)
    (hpos : t.rdPos = s.rdPos + a.length) : bitsLeft t = b := by
  have hprefix : b <+: bitsLeft t := bitsLeft_after (h ▸ List.prefix_rfl) hibuf hin hpos
  refine (hprefix.eq_of_length ?_).symm
  have hlen := congrArg List.length h
  rw [bitsLeft_length, List.length_append] at hlen
  rw [bitsLeft_length, hin, hpos]
  omega

theorem rdPos_of_bitsLeft {a : Bits} (h : bitsLeft s = a) : a.length = s.inBits - s.rdPos := by
  rw [← h, bitsLeft_length]

/-- Bits that come next are those read at the cursor. -/
theorem inputSlice_of_bitsLeft {a b : Bits} (h : bitsLeft s = a ++ b) : inputSlice s s.rdPos a.length = a :=
  inputSlice_of_prefix (b := b) (h ▸ List.prefix_rfl)

theorem outputBits_length (s : State) : (outputBits s).length = bitsWritten s := by
  simp [outputBits, bitsWritten, streamBits_length, Memory.readAll]

/-! ## What each phase is entered with -/

/-- The header's fields and sizes are those of the artifact of `s₀` (30_encoding.md R154, 40_frequency_analyzer.md R201). -/
structure SameSizes (s₀ s : State) : Prop where
  l : s.l = s₀.l
  f : s.f = s₀.f
  n : s.n = s₀.n
  usable : s.usableBits = s₀.usableBits
  rem : s.remBits = s₀.remBits

theorem SameSizes.update (h : SameSizes s₀ s) (l : t.l = s.l := by rfl) (f : t.f = s.f := by rfl)
    (n : t.n = s.n := by rfl) (usable : t.usableBits = s.usableBits := by rfl)
    (rem : t.remBits = s.remBits := by rfl) : SameSizes s₀ t :=
  ⟨l.trans h.l, f.trans h.f, n.trans h.n, usable.trans h.usable, rem.trans h.rem⟩

/-- The remainder and the padding that end the artifact of `s₀` (R161). -/
def tailBits (s₀ : State) (pad : Bits) : Bits := inputSlice s₀ s₀.usableBits s₀.remBits ++ pad

/-- What is left of an artifact of the input of `s₀`, and what has been written back, where a DECOMPRESS enters a phase. -/
def Restoring (s₀ : State) (pad : Bits) : Phase → State → Prop
  | .dSetup, s => s.inLen.toNat ≤ s.inCap ∧ ∃ treeBits body, TreeAndBody s₀ treeBits body ∧
      streamBits (Memory.readAll s.ibuf 0 s.inLen.toNat) =
        headerBits s₀ ++ (treeBits ++ body ++ tailBits s₀ pad)
  | .dHdr, s => outputBits s = [] ∧ ∃ treeBits body, TreeAndBody s₀ treeBits body ∧
      bitsLeft s = headerBits s₀ ++ (treeBits ++ body ++ tailBits s₀ pad)
  | .dTreeRd, s => SameSizes s₀ s ∧ outputBits s = [] ∧ ∃ tree codes, Holds s₀ tree ∧
      CodesFor tree (letters s₀) codes ∧
      bitsLeft s = tree.ser (letterSize s₀) ++ (codes.flatten ++ tailBits s₀ pad)
  | .dDecode, s => SameSizes s₀ s ∧ outputBits s = inputSlice s₀ 0 (s.i * letterSize s₀) ∧ ∃ r tree codes,
      s.root = some r ∧ treeAt s r tree = true ∧ CodesFor tree ((letters s₀).drop s.i) codes ∧
      bitsLeft s = codes.flatten ++ tailBits s₀ pad
  | .dRem, s => SameSizes s₀ s ∧ outputBits s = inputSlice s₀ 0 s₀.usableBits ∧ bitsLeft s = tailBits s₀ pad
  | .dFlush, s => SameSizes s₀ s ∧ outputBits s = inputSlice s₀ 0 (8 * s₀.f.toNat)
  | .done, s => s.outLen = s₀.f ∧
      streamBits (Memory.readAll s.obuf 0 s₀.f.toNat) = inputSlice s₀ 0 (8 * s₀.f.toNat)
  | _, _ => False

/-- `s` is in a phase of a DECOMPRESS of an artifact of the input of `s₀`. -/
def InRestoring (s₀ : State) (pad : Bits) (s : State) : Prop := ∃ p, s.phase = phaseCode p ∧ Restoring s₀ pad p s

/-- The step of phase `p` from `s` goes on with the DECOMPRESS. -/
def RestoresOn (s₀ : State) (pad : Bits) (p : Phase) (s : State) : Prop :=
  ∃ t, exec (decodePhase (phaseCode p)) s = .next t ∧ InRestoring s₀ pad t

/-! ## The header -/

theorem dSetup_restoresOn (hs : Restoring s₀ pad .dSetup s) : RestoresOn s₀ pad .dSetup s := by
  obtain ⟨hcap, treeBits, body, hbody, hbits⟩ := hs
  have hne : s.inLen ≠ 0 := by
    intro h0
    rw [h0] at hbits
    have hlen := congrArg List.length hbits
    simp [Memory.readAll, headerBits] at hlen
    omega
  refine ⟨_, (decompressSetupInitialises s).2.2 hne hcap, .dHdr, rfl, rfl, treeBits, body, hbody, ?_⟩
  rw [← hbits]
  exact inputSlice_bytes s s.inLen.toNat

/-- The two fields of an artifact that comes next (30_encoding.md R154). -/
theorem header_fields {rest : Bits} (h : bitsLeft s = headerBits s₀ ++ rest) :
    s.rdPos + 72 ≤ s.inBits ∧ val (inputSlice s s.rdPos 8) = s₀.l.toNat ∧
      val (inputSlice s (s.rdPos + 8) 64) = s₀.f.toNat := by
  have hlen := headerBits_length s₀
  have hslice : inputSlice s s.rdPos 72 = bin 8 s₀.l.toNat ++ bin 64 s₀.f.toNat := hlen ▸ inputSlice_of_bitsLeft h
  obtain ⟨hl, hf⟩ := List.append_inj ((inputSlice_append s s.rdPos 8 64).symm.trans hslice) (by simp)
  refine ⟨?_, ?_, ?_⟩
  · have hall := rdPos_of_bitsLeft h
    rw [List.length_append, hlen] at hall
    omega
  · rw [hl, val_bin, Nat.mod_eq_of_lt s₀.l.isLt]
  · rw [hf, val_bin, Nat.mod_eq_of_lt s₀.f.isLt]

/-- Where an operation may read bits, the reader is in its range (20_memory.md R106). -/
theorem Undisturbed.readerOk {p : Phase} (h : Undisturbed s) (hp : s.phase = phaseCode p)
    (hreads : p ∈ [.dHdr, .dTreeRd, .dDecode, .dRem]) : Machine.readerOk s = true := by
  have hrunning : p ∈ runningPhases := by
    revert hreads
    cases p <;> decide
  exact readerOk_iff.2 ⟨(h.inv.running hp hrunning).readerOk, h.inv.cursor (inPhase_of p _ hp hreads)⟩

/-- D_HDR on an artifact of the input of `s₀` has the sizes of `s₀` and goes on behind the header. -/
theorem dHdr_reads (hU : Undisturbed s) (hp : s.phase = phaseCode .dHdr) (hl : letterSizeOk s₀.l.toNat = true)
    (hsz : sizesHold s₀ = true) {rest : Bits} (hbits : bitsLeft s = headerBits s₀ ++ rest) :
    ∃ t, exec .phaseDHdr s = .next t ∧ SameSizes s₀ t ∧ bitsLeft t = rest ∧ outputBits t = outputBits s ∧
      t.phase = if 0 < s₀.usableBits then 18 else 20 := by
  obtain ⟨hle, hlval, hfval⟩ := header_fields hbits
  have hexec := headerReadsTwoFields s hU.answers (hU.readerOk hp (by decide)) hle (by rw [hlval]; exact hl)
  dsimp only at hexec
  rw [hlval, hfval] at hexec
  obtain ⟨-, hn, husable, hrem⟩ := sizesHold_iff.1 hsz
  rw [sizes_remBits] at hrem
  refine ⟨_, hexec, ⟨by simp, by simp, hn.symm, husable.symm, hrem.symm⟩, ?_, rfl, by rw [husable]; rfl⟩
  exact bitsLeft_moved hbits rfl rfl (by rw [headerBits_length])

theorem usableBits_pos_iff (hl : letterSizeOk s₀.l.toNat = true) (hsz : sizesHold s₀ = true) :
    0 < s₀.usableBits ↔ letters s₀ ≠ [] := by
  obtain ⟨hl2, -, husable, -⟩ := sized_arith ⟨hl, hsz⟩
  rw [Ne, letters_eq_nil_iff, husable, Nat.mul_pos_iff_of_pos_right (Nat.lt_of_lt_of_le Nat.two_pos hl2),
    Nat.pos_iff_ne_zero]

theorem dHdr_restoresOn (hU : Undisturbed s) (hp : s.phase = phaseCode .dHdr)
    (hl : letterSizeOk s₀.l.toNat = true) (hsz : sizesHold s₀ = true)
    (hs : Restoring s₀ pad .dHdr s) : RestoresOn s₀ pad .dHdr s := by
  obtain ⟨hout, treeBits, body, ⟨hnone, hsome⟩, hbits⟩ := hs
  obtain ⟨t, ht, hsizes, hleft, hkept, hphase⟩ := dHdr_reads hU hp hl hsz hbits
  rw [hout] at hkept
  have hpos := usableBits_pos_iff hl hsz
  refine ⟨t, ht, ?_⟩
  by_cases hempty : letters s₀ = []
  · obtain ⟨rfl, rfl⟩ := hnone hempty
    have hzero : ¬ 0 < s₀.usableBits := fun h => hpos.1 h hempty
    refine ⟨.dRem, hphase.trans (if_neg hzero), hsizes, ?_, hleft⟩
    rw [hkept, Nat.eq_zero_of_not_pos hzero]
    rfl
  · obtain ⟨tree, rfl, hholds, codes, rfl, hcodes⟩ := hsome hempty
    exact ⟨.dTreeRd, hphase.trans (if_pos (hpos.2 hempty)), hsizes, hkept, tree, codes, hholds, hcodes,
      hleft.trans (List.append_assoc _ _ _)⟩

/-! ## The tree -/

/-- A letter of the input fits the letter size (R204). -/
theorem letter_lt {v : BitVec 16} (h : v ∈ letters s) : v.toNat < 2 ^ letterSize s := by
  obtain ⟨j, -, rfl⟩ := mem_letters.1 h
  rw [BitVec.toNat_ofNat]
  exact (Nat.mod_le _ _).trans_lt (letterOf_lt s j)

theorem dTreeRd_restoresOn (hU : Undisturbed s) (hp : s.phase = phaseCode .dTreeRd)
    (hs : Restoring s₀ pad .dTreeRd s) : RestoresOn s₀ pad .dTreeRd s := by
  obtain ⟨hsizes, hout, tree, codes, hholds, hcodes, hbits⟩ := hs
  have hsz := hU.inv.sized (inPhase_of _ _ hp)
  have hfresh := hU.inv.fresh (inPhase_of _ _ hp)
  have hl : letterSize s₀ = s.l.toNat := by rw [hsizes.l]; rfl
  rw [hl] at hbits
  obtain ⟨t, r, ht, hroot, htree, -, hrest⟩ := serializedTreeIsReadBack s tree hU.answers
    (hU.readerOk hp (by decide)) hsz.1 hU.inv.tables.nodeForm
    (by rw [hfresh, Nat.zero_add]; exact Tree.size_le_nodeCap hholds.1)
    (fun v hv => hl ▸ letter_lt ((hholds.2 v).1 hv)) (hbits ▸ List.prefix_append _ _)
  have hsizes' : SameSizes s₀ t := by
    rw [hrest]; exact hsizes.update
  have hi : t.i = 0 := by rw [hrest]
  refine ⟨t, ht, .dDecode, by rw [hrest]; rfl, hsizes', ?_, r, tree, codes, hroot, htree, ?_, ?_⟩
  · rw [hi, Nat.zero_mul, show outputBits t = outputBits s by rw [hrest]; rfl, hout]
    rfl
  · rwa [hi]
  · exact bitsLeft_moved hbits (by rw [hrest]) (by rw [hrest]) (by rw [hrest])

/-! ## The body, the remainder and the end -/

/-- Bits within the file size have room in an OBUF of at least that many bytes. -/
theorem room_of_bits {f k : Nat} (hcnt : s.wrCnt < 8) (hle : bitsWritten s + k ≤ 8 * f) (hf : f < 2 ^ 64)
    (hcap : f ≤ s.outCap) : room s k = true := by
  simp only [bitsWritten] at hle
  refine room_iff.2 ⟨hcnt, ?_, ?_⟩ <;> simp only [bytesCompleted] <;> omega

/-- A letter's bits are those it was read from (R204). -/
theorem bin_letter (hl : letterSizeOk s₀.l.toNat = true) {i : Nat} :
    bin (letterSize s₀) (BitVec.ofNat 16 (letterOf s₀ i)).toNat =
      inputSlice s₀ (i * letterSize s₀) (letterSize s₀) := by
  have hlt : letterOf s₀ i < 2 ^ 16 := (letterOf_lt s₀ i).trans_le (two_pow_le_letterCap hl)
  have hbits := bin_val (inputSlice s₀ (i * letterSize s₀) (letterSize s₀))
  rw [inputSlice_length] at hbits
  rw [BitVec.toNat_ofNat, Nat.mod_eq_of_lt hlt]
  exact hbits

theorem letters_drop {i : Nat} (hi : i < s₀.n) :
    (letters s₀).drop i = BitVec.ofNat 16 (letterOf s₀ i) :: (letters s₀).drop (i + 1) := by
  rw [List.drop_eq_getElem_cons (by rwa [letters_length])]
  simp [letters]

section
variable (hU : Undisturbed s) (hl : letterSizeOk s₀.l.toNat = true) (hsz : sizesHold s₀ = true)
  (hcap : s₀.f.toNat ≤ s.outCap)
include hU hl hsz hcap

/-- D_DECODE on the code of letter `i` writes back that letter's bits and goes on behind the code. -/
theorem dDecode_reads (hp : s.phase = phaseCode .dDecode) (hsizes : SameSizes s₀ s) (hi : s.i < s₀.n)
    (hwritten : bitsWritten s = s.i * letterSize s₀) {r : Nat} {tree : Tree} {code after : Bits}
    (hroot : s.root = some r) (htree : treeAt s r tree = true)
    (hcode : (BitVec.ofNat 16 (letterOf s₀ s.i), code) ∈ tree.codes) (hbits : bitsLeft s = code ++ after) :
    ∃ t, exec .phaseDDecode s = .next t ∧ SameSizes s₀ t ∧ t.i = s.i + 1 ∧ t.root = s.root ∧ t.node = s.node ∧
      outputBits t = outputBits s ++ inputSlice s₀ (s.i * letterSize s₀) (letterSize s₀) ∧ bitsLeft t = after ∧
      t.phase = if s.i + 1 = s₀.n then 20 else 19 := by
  have hls : s.l.toNat = letterSize s₀ := by rw [hsizes.l]; rfl
  obtain ⟨-, -, husable, htotal, -⟩ := sized_arith ⟨hl, hsz⟩
  have hmul : (s.i + 1) * letterSize s₀ ≤ s₀.n * letterSize s₀ := Nat.mul_le_mul_right _ hi
  rw [Nat.succ_mul] at hmul
  have hroom : room s s.l.toNat = true := room_of_bits (hU.inv.running hp (by decide)).writer
    (by rw [hwritten, hls]; omega) s₀.f.isLt hcap
  have hdecode : tree.decodeOne (bitsLeft s) = some (BitVec.ofNat 16 (letterOf s₀ s.i), after) :=
    hbits ▸ tree.decodeOne_code _ code _ hcode
  obtain ⟨u, hsu, hexec⟩ := decodeWalksToALeaf s r tree _ _ hU.answers (hU.readerOk hp (by decide))
    hU.inv.tables.obufForm hroot htree hdecode hroom
  rw [hls, bin_letter hl] at hsu
  have hrest := hsu.rest
  have hpos : u.rdPos = s.rdPos + code.length := by
    have hall := rdPos_of_bitsLeft hbits
    have hcur := hU.inv.cursor (inPhase_of _ _ hp)
    rw [List.length_append] at hall
    rw [show u.rdPos = s.inBits - after.length by rw [hrest]]
    omega
  rw [hp, hsizes.n] at hexec
  refine ⟨_, hexec, ?_, rfl, by rw [hrest], by rw [hrest], hsu.stream, ?_, rfl⟩
  · have hsizes' : SameSizes s₀ u := by rw [hrest]; exact hsizes.update
    exact hsizes'.update
  · exact bitsLeft_moved hbits (by rw [hrest]) (by rw [hrest]) hpos

theorem dDecode_restoresOn (hp : s.phase = phaseCode .dDecode) (hs : Restoring s₀ pad .dDecode s) :
    RestoresOn s₀ pad .dDecode s := by
  obtain ⟨hsizes, hout, r, tree, codes, hroot, htree, hcodes, hbits⟩ := hs
  have hi : s.i < s₀.n := hsizes.n ▸ (hU.inv.decoding (inPhase_of _ _ hp)).1
  have hwritten : bitsWritten s = s.i * letterSize s₀ := by rw [← outputBits_length, hout, inputSlice_length]
  rw [letters_drop hi] at hcodes
  obtain ⟨code, codes', hcode, hcodes', rfl⟩ := List.forall₂_cons_left_iff.1 hcodes
  rw [List.flatten_cons, List.append_assoc] at hbits
  obtain ⟨t, ht, hsizes', hti, htroot, htnode, hout', hleft, hphase⟩ :=
    dDecode_reads hU hl hsz hcap hp hsizes hi hwritten hroot htree hcode hbits
  have hback : outputBits t = inputSlice s₀ 0 ((s.i + 1) * letterSize s₀) := by
    rw [hout', hout, Nat.succ_mul, inputSlice_append, Nat.zero_add]
  refine ⟨t, ht, ?_⟩
  by_cases hlast : s.i + 1 = s₀.n
  · have hdone : codes' = [] := by
      rw [hlast, ← letters_length, List.drop_length] at hcodes'
      exact List.forall₂_nil_left_iff.1 hcodes'
    rw [hlast, ← (sized_arith ⟨hl, hsz⟩).2.2.1] at hback
    rw [hdone] at hleft
    exact ⟨.dRem, hphase.trans (if_pos hlast), hsizes', hback, hleft⟩
  · rw [← hti] at hback hcodes'
    exact ⟨.dDecode, hphase.trans (if_neg hlast), hsizes', hback, r, tree, codes', htroot.trans hroot,
      treeAt_of_node htree htnode, hcodes', hleft⟩

theorem dRem_restoresOn (hp : s.phase = phaseCode .dRem) (hs : Restoring s₀ pad .dRem s) :
    RestoresOn s₀ pad .dRem s := by
  obtain ⟨hsizes, hout, hbits⟩ := hs
  obtain ⟨-, -, -, htotal, -⟩ := sized_arith ⟨hl, hsz⟩
  obtain ⟨hnone, -, hread⟩ := remainderIsReadOrCorrupt s
  by_cases h0 : s.remBits = 0
  · refine ⟨_, hnone h0, .dFlush, rfl, hsizes.update, ?_⟩
    rw [← htotal, ← hsizes.rem, h0]
    exact hout
  · have hlen := rdPos_of_bitsLeft hbits
    rw [tailBits, List.length_append, inputSlice_length, ← hsizes.rem] at hlen
    have hwritten : bitsWritten s = s₀.usableBits := by rw [← outputBits_length, hout, inputSlice_length]
    have hslice : inputSlice s s.rdPos s.remBits = inputSlice s₀ s₀.usableBits s.remBits := by
      have hnext := inputSlice_of_bitsLeft hbits
      rwa [inputSlice_length, ← hsizes.rem] at hnext
    obtain ⟨u, hsu, hexec⟩ := hread (Nat.pos_of_ne_zero h0) (by omega) hU.answers
      (hU.readerOk hp (by decide)) hU.inv.tables.obufForm
      (room_of_bits (hU.inv.running hp (by decide)).writer (by rw [hwritten, hsizes.rem, htotal]) s₀.f.isLt hcap)
    rw [hslice] at hsu
    have hsizes' : SameSizes s₀ u := by
      rw [hsu.rest]; exact hsizes.update
    refine ⟨_, hexec, .dFlush, rfl, hsizes'.update, ?_⟩
    rw [← htotal, inputSlice_append, Nat.zero_add, ← hout, ← hsizes.rem]
    exact hsu.stream

end

theorem dFlush_restoresOn (hU : Undisturbed s) (hp : s.phase = phaseCode .dFlush)
    (hs : Restoring s₀ pad .dFlush s) : RestoresOn s₀ pad .dFlush s := by
  obtain ⟨hsizes, hout⟩ := hs
  obtain ⟨hexec, hcnt, hpos⟩ := decompressedLengthIsFileSize s hU.inv hp
  refine ⟨_, hexec, .done, rfl, hsizes.f, ?_⟩
  rw [outputBits_on_boundary hcnt, hpos, hsizes.f] at hout
  exact hout

/-! ## The whole operation -/

/-- An undisturbed DECOMPRESS of an artifact of the input of `s₀`, with OBUF large enough for that input. -/
structure Decompressing (s₀ : State) (pad : Bits) (s : State) : Prop where
  free : Undisturbed s
  cap : s₀.f.toNat ≤ s.outCap
  stage : InRestoring s₀ pad s

theorem step_decompressing (hl : letterSizeOk s₀.l.toNat = true) (hsz : sizesHold s₀ = true)
    (h : Decompressing s₀ pad s) (ht : step s = .next t) : Decompressing s₀ pad t := by
  obtain ⟨hU, hcap, p, hp, hs⟩ := h
  obtain ⟨u, hu, hUu, hkept, -⟩ := step_undisturbed hU hp
  obtain rfl : u = t := by rw [hu] at ht; cases ht; rfl
  refine ⟨hUu, by rwa [hkept.outCap], ?_⟩
  have hon : RestoresOn s₀ pad p s := by
    cases p
    case dSetup => exact dSetup_restoresOn hs
    case dHdr => exact dHdr_restoresOn hU hp hl hsz hs
    case dTreeRd => exact dTreeRd_restoresOn hU hp hs
    case dDecode => exact dDecode_restoresOn hU hl hsz hcap hp hs
    case dRem => exact dRem_restoresOn hU hl hsz hcap hp hs
    case dFlush => exact dFlush_restoresOn hU hp hs
    case done => exact ⟨s, rfl, _, hp, hs⟩
    all_goals exact hs.elim
  obtain ⟨w, hw, hstage⟩ := hon
  rw [← hp, ← step_alone hU.alone, hu] at hw
  cases hw
  exact hstage

/-- A DECOMPRESS of an artifact of the input of `s₀` ends in DONE with that input in OBUF (R374). -/
theorem run_restores (hl : letterSizeOk s₀.l.toNat = true) (hsz : sizesHold s₀ = true)
    (h : Decompressing s₀ pad s) :
    ∃ k t, Sys2Proof.core.run k s = .next t ∧ t.phase = phaseCode .done ∧ Restoring s₀ pad .done t := by
  obtain ⟨p, hp, -⟩ := h.stage
  obtain ⟨k, -, t, hrun, hquiet⟩ := run_ends h.free.inv h.free.alone hp
  obtain ⟨-, -, q, hq, hs⟩ : Decompressing s₀ pad t :=
    run_keeps (M := Sys2Proof.core) (fun _ _ => step_decompressing hl hsz) h hrun
  refine ⟨k, t, hrun, ?_⟩
  rw [hq] at hquiet
  cases q
  case done => exact ⟨hq, hs⟩
  case idle | error => exact hs.elim
  all_goals exact absurd hquiet (by decide)

/-! ## From the input and back -/

/-- A state before C_SETUP with another OUT_CAP: the capacity matters to no phase that is not running. -/
theorem Undisturbed.withOutCap (h : Undisturbed s) (hp : s.phase = phaseCode .cSetup) (c : Nat) :
    Undisturbed (withOutCap c s) := by
  refine ⟨{ h.inv with position := fun hrunning => ?_ }, h.alone, h.answers⟩
  exact absurd ((inPhase_iff (s := Machine.withOutCap c s) hp _).1 hrunning) (by decide)

theorem run_undisturbed {k : Nat} (h : Undisturbed s) (hrun : Sys2Proof.core.run k s = .next t) : Undisturbed t := by
  refine run_keeps (M := Sys2Proof.core) (P := Undisturbed) (fun u v hu hv => ?_) h hrun
  obtain ⟨p, hp⟩ := phase_of_legal hu.inv.legal
  obtain ⟨w, hw, hUw, -⟩ := step_undisturbed hu hp
  obtain rfl : w = v := by rw [show step u = .next v from hv] at hw; cases hw; rfl
  exact hUw

/-- A COMPRESS that passes its checks has an artifact length: with less OUT_CAP it ends in Io, else in DONE with an
artifact of that many bytes. -/
theorem compress_ends (hU : Undisturbed s) (hp : s.phase = phaseCode .cSetup)
    (hl : letterSizeOk s.lsize.toNat = true) (hin : s.inLen.toNat ≤ s.inCap) :
    ∃ n ≤ 2 ^ 18 + 2 ^ 15 * s.inLen.toNat, ∀ c < 2 ^ 64, ∃ k t,
      Sys2Proof.core.run k (withOutCap c s) = .next t ∧ (c < n → t.phase = 31 ∧ t.errCode = 3) ∧
      (n ≤ c → t.phase = 30 ∧ t.outLen.toNat = n ∧ HoldsArtifact (compressInput s) t) := by
  obtain ⟨j, h, hrun, hUh, hplan⟩ := run_toHeader (s₀ := compressInput s) (p := .cSetup) hU
    ⟨hp, rfl, by decide, fun _ => ⟨hl, hin⟩, fun he => nomatch he⟩
  obtain ⟨treeLen, hReady, hbound⟩ := header_ready hUh.inv hplan
  have hf : h.f = s.inLen := hplan.stage.1.input.f
  rw [hf] at hbound
  have hstart : bitsWritten h = 0 := by rw [← outputBits_length, hplan.stage.1.output]; rfl
  refine ⟨artifactBytes h treeLen, hbound, fun c hc => ?_⟩
  have hUc := hU.withOutCap hp c
  have hwriting : Writing h treeLen c (withOutCap c h) :=
    ⟨run_undisturbed hUc (hrun c), rfl, .cHdr, hplan.phase, by decide, rfl, hstart⟩
  obtain ⟨k, t, hend, hshort, hfits⟩ := run_fromHeader hReady hc hwriting
  have hall : Sys2Proof.core.run (j + k) (withOutCap c s) = .next t := (run_add (hrun c)).trans hend
  refine ⟨j + k, t, hall, hshort, fun hle => ?_⟩
  obtain ⟨hdone, hlen⟩ := hfits hle
  exact ⟨hdone, hlen, run_holdsArtifact (s := withOutCap c s) hUc.inv hp hU.alone hc hall hdone⟩

/-- A DECOMPRESS of an artifact copied to IBUF ends in DONE with the input the artifact was made of. -/
theorem decompress_restores {u : State} (hl : letterSizeOk s₀.l.toNat = true) (hsz : sizesHold s₀ = true)
    (hart : HoldsArtifact s₀ t) (hU : Undisturbed u) (hp : u.phase = phaseCode .dSetup) (hlen : u.inLen = t.outLen)
    (hin : u.inLen.toNat ≤ u.inCap)
    (hcopy : ∀ a < t.outLen.toNat, Memory.read u.ibuf a = Memory.read t.obuf a) (hcap : s₀.f.toNat ≤ u.outCap) :
    ∃ k v, Sys2Proof.core.run k u = .next v ∧ v.phase = phaseCode .done ∧ v.outLen = s₀.f ∧
      ∀ a < s₀.f.toNat, Memory.read v.obuf a = Memory.read s₀.ibuf a := by
  obtain ⟨treeBits, body, pad, hbody, -, -, hbits⟩ := hart
  have hread : Memory.readAll u.ibuf 0 u.inLen.toNat = Memory.readAll t.obuf 0 t.outLen.toNat := by
    rw [hlen]
    exact List.map_congr_left fun a ha => by simpa using hcopy a (List.mem_range.1 ha)
  have hstage : Restoring s₀ pad .dSetup u :=
    ⟨hin, treeBits, body, hbody, by rw [hread, hbits, tailBits]; simp only [List.append_assoc]⟩
  obtain ⟨k, v, hrun, hdone, hout, hback⟩ := run_restores hl hsz ⟨hU, hcap, .dSetup, hp, hstage⟩
  refine ⟨k, v, hrun, hdone, hout, fun a ha => ?_⟩
  rw [inputSlice_bytes] at hback
  have hbytes := streamBits_injective hback
  simpa using List.map_inj_left.1 hbytes a (List.mem_range.2 ha)

end Sys2Proof.Machine

open Sys2Proof Sys2Proof.Machine

/-- Settles O54: the artifact's length is known at the header, whatever OUT_CAP is (`compress_ends`), and a DECOMPRESS of
what a COMPRESS leaves in DONE undoes it phase by phase (`decompress_restores`). -/
theorem decompressInvertsCompress : Obligations.DecompressInvertsCompress := by
  intro s hI hp halone hl hin hport
  obtain ⟨n, hbound, hends⟩ := compress_ends ⟨hI, halone, hport⟩ hp hl hin
  refine ⟨n, hbound, fun cap hcap => ?_⟩
  obtain ⟨j, t, hrun, hshort, hfits⟩ := hends cap hcap
  refine ⟨j, t, hrun, hshort, fun hle => ?_⟩
  obtain ⟨hdone, hlen, hart⟩ := hfits hle
  refine ⟨hdone, hlen, fun u hIu hpu halone' hlenu hinu hcopy hportu hroom => ?_⟩
  exact decompress_restores (s₀ := compressInput s) hl (sizesHold_setSizes _) hart ⟨hIu, halone', hportu⟩ hpu hlenu hinu
    (hlen ▸ hcopy) hroom
end

section
/-! PROOF. What a command word does (46_host_commands.md R400 to R403), and what an aligned access to another register does (R404, R405; 10_state.md R41 to R47). -/

namespace Sys2Proof.Machine

variable {s : State} {offset : Nat} {value : Reg} {rest : List Input}

/-! ## Command words -/

theorem dispatchCommand_busy (h : busy s = true) (accepted : State) : dispatchCommand accepted s = .next s := if_pos h

theorem dispatchCommand_notBusy (h : busy s = false) (accepted : State) :
    dispatchCommand accepted s = .next accepted := if_neg (Bool.eq_false_iff.1 h)

/-- While BUSY = 1 every command word is ignored (70_reset_and_hazards.md R710). -/
theorem exec_command_busy (h : busy s = true) (w : Reg) : exec (decodeCommand w) s = .next s := by
  unfold decodeCommand
  split_ifs
  all_goals exact dispatchCommand_busy h _

theorem decodeCommand_illegal {w : Reg} (h1 : w ≠ 1) (h2 : w ≠ 2) : decodeCommand w = .illegalCommand w :=
  (if_neg h1).trans (if_neg h2)

/-! ## Reads -/

theorem step_registerRead (h : s.inputs = .host (.read offset 8) :: rest) (halign : offset % 8 = 0) :
    step s = .next (record (.register offset (readRegister offset s)) { s with inputs := rest }) := by
  rw [step_access h (by simp)]
  exact if_pos (registerAccessOk_iff.2 ⟨rfl, halign⟩)

theorem readRegister_status (s : State) : readRegister Config.offStatus s = statusReg s := rfl

theorem readRegister_lsize (s : State) : readRegister Config.offLsize s = s.lsize.setWidth 64 := rfl

theorem readRegister_inLen (s : State) : readRegister Config.offInLen s = s.inLen := rfl

theorem readRegister_outLen (s : State) : readRegister Config.offOutLen s = s.outLen := rfl

/-- CMD reads 0 (10_state.md R42). -/
theorem readRegister_cmd (s : State) : readRegister Config.offCmd s = 0 := rfl

/-- Past OUT_LEN no offset is assigned, and each reads 0 (10_state.md R47). -/
theorem readRegister_unassigned (h : Config.offOutLen < offset) (s : State) : readRegister offset s = 0 := by
  have hbelow {assigned : Nat} (ha : assigned ≤ Config.offOutLen) : offset ≠ assigned := (ha.trans_lt h).ne'
  rw [readRegister, if_neg (hbelow (by decide)), if_neg (hbelow (by decide)), if_neg (hbelow (by decide)),
    if_neg (hbelow le_rfl)]

/-! ## Writes -/

theorem step_registerWrite (h : s.inputs = .host (.write offset 8 value) :: rest) (halign : offset % 8 = 0)
    (hcmd : offset ≠ Config.offCmd) : step s = .next (writeRegister offset value { s with inputs := rest }) := by
  have hno : ∀ w, HostAccess.write offset 8 value ≠ .write Config.offCmd 8 w := by
    rintro w ⟨⟩
    exact hcmd rfl
  rw [step_access h hno]
  exact if_pos (registerAccessOk_iff.2 ⟨rfl, halign⟩)

theorem writeRegister_busy (h : busy s = true) (offset : Nat) (value : Reg) : writeRegister offset value s = s :=
  if_pos h

theorem writeRegister_lsize (h : busy s = false) (value : Reg) :
    writeRegister Config.offLsize value s = { s with lsize := value.setWidth 8 } :=
  if_neg (Bool.eq_false_iff.1 h)

theorem writeRegister_inLen (h : busy s = false) (value : Reg) :
    writeRegister Config.offInLen value s = { s with inLen := value } :=
  if_neg (Bool.eq_false_iff.1 h)

/-- Busy or not, a write to neither LSIZE nor IN_LEN is ignored. -/
theorem writeRegister_other (hlsize : offset ≠ Config.offLsize) (hinLen : offset ≠ Config.offInLen) (value : Reg)
    (s : State) : writeRegister offset value s = s := by
  rw [writeRegister, if_neg hlsize, if_neg hinLen, ite_self]

/-- Bits 7:0 of a word, as a number. -/
theorem setWidth_byte (value : Reg) : value.setWidth 8 = BitVec.ofNat 8 (value.toNat % 256) :=
  BitVec.eq_of_toNat_eq (by simp)

end Sys2Proof.Machine

open Sys2Proof Sys2Proof.Machine

/-- Settles O2: BUSY = 1 ignores the word, and BUSY = 0 takes the state the word's instruction names. -/
theorem commandWordIsDispatched : Obligations.CommandWordIsDispatched := by
  intro s c
  refine ⟨fun hb => exec_command_busy hb c,
    fun hb => ⟨⟨rfl, ?_⟩, ⟨rfl, ?_⟩, fun h1 h2 => ⟨decodeCommand_illegal h1 h2, ?_⟩⟩⟩
  · exact dispatchCommand_notBusy hb (acceptCommand .cSetup s)
  · exact dispatchCommand_notBusy hb (acceptCommand .dSetup s)
  · exact dispatchCommand_notBusy hb { acceptCommand .error s with errCode := errorCode .illegalCommand }

/-- Settles O9: the value is `readRegister`'s, offset by offset; no register depends on the inputs to come. -/
theorem registerReadsReturnValues : Obligations.RegisterReadsReturnValues := by
  intro s off rest h halign
  refine ⟨readRegister off s, step_registerRead h halign, ?_, ?_, ?_, ?_, ?_, fun hoff => ?_⟩
  · rintro rfl; exact readRegister_cmd s
  · rintro rfl; exact readRegister_status s
  · rintro rfl
    rw [show readRegister 0x10 s = _ from readRegister_lsize s]
    exact BitVec.toNat_setWidth_of_le (by decide)
  · rintro rfl; exact readRegister_inLen s
  · rintro rfl; exact readRegister_outLen s
  · exact readRegister_unassigned (lt_of_lt_of_le (by decide) hoff) s

/-- Settles O10: the step is `writeRegister`, which has an equation for each clause; BUSY does not depend on the inputs
to come. -/
theorem registerWritesStoreWhenIdle : Obligations.RegisterWritesStoreWhenIdle := by
  intro s off v rest h halign hcmd
  rw [step_registerWrite h halign hcmd]
  refine ⟨fun hb => ?_, fun hb hoff => ?_, fun hb hoff => ?_, fun hlsize hinLen => ?_⟩
  · rw [writeRegister_busy (s := { s with inputs := rest }) hb]
  · subst hoff
    rw [← setWidth_byte]
    exact congrArg _ (writeRegister_lsize (s := { s with inputs := rest }) hb v)
  · subst hoff
    exact congrArg _ (writeRegister_inLen (s := { s with inputs := rest }) hb v)
  · rw [writeRegister_other hlsize hinLen]
end

section
/-! PROOF. The outcomes of a COMPRESS (46_host_commands.md R408, 60_exceptions.md R605), whatever the port answers and whatever OUT_CAP is: the checks of C_SETUP come first, and past them every letter has its code, so that Io is the one error left. -/

namespace Sys2Proof.Machine

variable {s₀ s t u : State} {p q : Phase} {e : ErrorKind}

/-! ## The checks of C_SETUP -/

theorem cSetup_badLetterSize (h : letterSizeOk s.lsize.toNat = false) :
    cSetup s = raise .invalidArgument { s with l := s.lsize } :=
  if_neg (Bool.eq_false_iff.1 h)

theorem cSetup_beyondCapacity (hl : letterSizeOk s.lsize.toNat = true) (hcap : s.inCap < s.inLen.toNat) :
    cSetup s = raise .io { s with l := s.lsize, f := s.inLen } :=
  (if_pos hl).trans (if_pos hcap)

/-- With the letter size in its domain C_SETUP raises Io alone (R200). -/
theorem cSetup_raises_io (hl : letterSizeOk s.lsize.toNat = true) (h : cSetup s = raise e u) : e = .io := by
  rcases lt_or_ge s.inCap s.inLen.toNat with hcap | hcap
  · rw [cSetup_beyondCapacity hl hcap] at h
    cases h; rfl
  · rw [cSetup_ok hl hcap] at h
    cases h

/-- A run whose first step leads to a state that steps to itself. -/
theorem run_first_or_fixed {M : Host.Core} {s t u : M.State} {k : Nat} (hstep : M.step s = .next u)
    (hfixed : M.step u = .next u) (hrun : M.run k s = .next t) : t = s ∨ t = u := by
  cases k with
  | zero => rw [run_zero] at hrun; cases hrun; exact .inl rfl
  | succ k => rw [run_succ hstep, run_fixed hfixed] at hrun; cases hrun; exact .inr rfl

/-- Where the phase an operation starts in raises, the operation ends in that error (60_exceptions.md R610). -/
theorem run_raised {k : Nat} (halone : s.inputs = []) (hp : s.phase = phaseCode p) (hbusy : quiescent s.phase = false)
    (hraise : phaseRule p s = raise e u) (hu : u.inputs = []) (hrun : Sys2Proof.core.run k s = .next t)
    (hquiet : quiescent t.phase = true) : t = takeError e p u := by
  have hstep : step s = .next (takeError e p u) := by rw [step_alone halone, hp, exec_phase, hraise, endStep_raise]
  have hfixed : step (takeError e p u) = .next (takeError e p u) := step_alone hu
  rcases run_first_or_fixed (M := Sys2Proof.core) hstep hfixed hrun with rfl | rfl
  · exact absurd hquiet (Bool.eq_false_iff.1 hbusy)
  · rfl

/-! ## No letter is without a code -/

/-- CODE holds a valid entry for each letter of the input (44_stream_encoder.md R340). -/
def EntriesValid (s : State) : Prop := ∀ j < s.n, (codeOf s (letterOf s j)).valid = true

theorem EntriesValid.same (h : EntriesValid s) (hs : SameInput s t) (hcode : t.code = s.code) : EntriesValid t := by
  intro j hj
  rw [codeOf, hcode, hs.letterOf]
  exact h j (hs.n ▸ hj)

theorem EntriesValid.of_writer (h : EntriesValid s) (hw : WriterFrame s t) : EntriesValid t :=
  h.same (.of_writer hw) (by rw [hw])

/-- C_ENCODE raises Io alone where the letter has a valid entry (R340, 60_exceptions.md R605). -/
theorem cEncode_raises_io (hI : Inv s) (hp : s.phase = phaseCode .cEncode) (hvalid : EntriesValid s) :
    Run.post (fun _ => True) (fun e _ => e = .io) (fun _ => True) (cEncode s) := by
  have hr := hI.running hp (by decide)
  have hsz := hI.sized (inPhase_of _ _ hp)
  have hi := hI.encoding (inPhase_of _ _ hp)
  have hread := letter_readable hr hsz (hI.whole (inPhase_of _ _ hp)) hi
  have hv := lt_of_lt_of_le (letterOf_lt s s.i) (two_pow_le_letterCap hsz.1)
  rw [cEncode, inputLetter, post_bind]
  refine post_mono (inputBits_post hread) ?_ (fun e _ he => he.1) (fun _ _ => trivial)
  rintro _ rfl
  change Run.post _ _ _ (letterIndex (letterOf s s.i) >>= _)
  rw [letterIndex_ok hv, run_bind_ok]
  change Run.post _ _ _ (if (codeOf s (letterOf s s.i)).valid then _ else _)
  rw [if_pos (hvalid s.i hi), post_bind]
  exact post_mono (writeString_post (.of_running (hr.read rfl))) (fun _ _ => trivial) (fun e _ he => he.1)
    (fun _ _ => trivial)

/-! ## What each phase of a COMPRESS is entered with -/

/-- What keeps a COMPRESS of the input of `s₀` that passes its first check on course to DONE or Io: what it has counted
and built before CODE is written, then a valid entry for each letter until the last is encoded. -/
def OnCourse (s₀ : State) : Phase → State → Prop
  | .cSetup, s => Stage s₀ .cSetup s ∧ letterSizeOk s.lsize.toNat = true
  | .cCount, s => Stage s₀ .cCount s
  | .cLeaves, s => Stage s₀ .cLeaves s
  | .cMerge, s => Stage s₀ .cMerge s
  | .cCodegen, s => Stage s₀ .cCodegen s
  | .cHdr, s | .cTreeWr, s | .cEncode, s => EntriesValid s
  | .cRem, _ | .cPad, _ | .done, _ => True
  | .error, s => s.errCode = 3
  | _, _ => False

/-- `s` is in a phase of a COMPRESS that is on course. -/
def IsOnCourse (s₀ s : State) : Prop := ∃ p, s.phase = phaseCode p ∧ OnCourse s₀ p s

/-- The stage of a phase before CODE is written is all it takes. -/
theorem InStage.onCourse (h : InStage s₀ t) (hq : t.phase = phaseCode q)
    (hplan : q ∈ [.cCount, .cLeaves, .cMerge, .cCodegen]) : IsOnCourse s₀ t := by
  obtain ⟨q', hq', hs⟩ := h
  obtain rfl := phaseCode_injective (hq'.symm.trans hq)
  refine ⟨q', hq, ?_⟩
  fin_cases hplan <;> exact hs

theorem cSetup_onCourse (hs : OnCourse s₀ .cSetup s) (h : cSetup s = .ok t) : IsOnCourse s₀ t := by
  have hstage := cSetup_stage hs.1 h
  obtain ⟨-, -, rfl⟩ := cSetup_next h
  by_cases hn : 0 < (compressInput s).n
  · exact hstage.onCourse (q := .cCount) (congrArg phaseCode (if_pos hn)) (by decide)
  · exact ⟨.cHdr, congrArg phaseCode (if_neg hn), fun j hj => absurd (Nat.zero_lt_of_lt hj) hn⟩

theorem cCount_onCourse (hI : Inv s) (hp : s.phase = phaseCode .cCount) (hs : OnCourse s₀ .cCount s)
    (h : cCount s = .ok t) : IsOnCourse s₀ t := by
  have hstage := cCount_stage hI hp hs h
  have hphase : t.phase = if s.i + 1 = s.n then phaseCode .cLeaves else s.phase := by rw [cCount_next hI hp h]
  by_cases hlast : s.i + 1 = s.n
  · exact hstage.onCourse (hphase.trans (if_pos hlast)) (by decide)
  · exact hstage.onCourse ((hphase.trans (if_neg hlast)).trans hp) (by decide)

theorem cLeaves_onCourse (hI : Inv s) (hp : s.phase = phaseCode .cLeaves) (hs : OnCourse s₀ .cLeaves s)
    (h : cLeaves s = .ok t) : IsOnCourse s₀ t :=
  (cLeaves_stage hI hp hs h).onCourse (q := .cMerge) (by rw [(cLeaves_next hI hp h).2]) (by decide)

theorem cMerge_onCourse (hI : Inv s) (hp : s.phase = phaseCode .cMerge) (hs : OnCourse s₀ .cMerge s)
    (h : cMerge s = .ok t) : IsOnCourse s₀ t := by
  have hstage := cMerge_stage hI hp hs h
  rcases cMerge_next hI hp h with ⟨r, -, rfl⟩ | ⟨a, b, -, -, -, rfl⟩
  · exact hstage.onCourse (q := .cCodegen) rfl (by decide)
  · exact hstage.onCourse (q := .cMerge) hp (by decide)

/-- C_CODEGEN gives each letter of the tree its entry, and those are the letters of the input (R261). -/
theorem cCodegen_onCourse (hI : Inv s) (hp : s.phase = phaseCode .cCodegen) (hs : OnCourse s₀ .cCodegen s)
    (h : cCodegen s = .ok t) : IsOnCourse s₀ t := by
  obtain ⟨hemit, tree, htree⟩ : Emitted s₀ [] s ∧ ∃ tree, RootTree s₀ s tree := hs
  obtain ⟨r, tree', hroot, htree', -, rfl⟩ := cCodegen_next hI hp h
  obtain rfl := htree.unique hroot htree'
  have hholds : Holds s tree' := htree.2.same hemit.input
  have hdistinct : (tree'.codes.map Prod.fst).Nodup := by rw [Tree.codes_letters]; exact hholds.1
  have hready : CodeReady { s with code := assignPaths tree'.codes s.code, phase := phaseCode .cHdr } tree' :=
    fun x hx => assignPaths_mem hI.tables.codeForm hdistinct hx
  refine ⟨.cHdr, rfl, fun j hj => ?_⟩
  obtain ⟨x, -, hentry⟩ := hready.entry (hholds.same ⟨rfl, rfl, rfl, rfl, rfl, rfl⟩)
    (hI.sized (inPhase_of _ _ hp)).1 hj
  rw [hentry]

theorem cHdr_onCourse (hI : Inv s) (hp : s.phase = phaseCode .cHdr) (hs : EntriesValid s) (h : cHdr s = .ok t) :
    IsOnCourse s₀ t := by
  obtain ⟨u, hu, rfl⟩ := cHdr_next hI hp h
  by_cases hroot : s.root = none
  · exact ⟨.cRem, if_pos hroot, trivial⟩
  · exact ⟨.cTreeWr, if_neg hroot, show EntriesValid u from hs.of_writer hu.frame⟩

theorem cTreeWr_onCourse (hI : Inv s) (hp : s.phase = phaseCode .cTreeWr) (hs : EntriesValid s)
    (h : cTreeWr s = .ok t) : IsOnCourse s₀ t := by
  obtain ⟨r, tree, u, -, -, hu, rfl⟩ := cTreeWr_next hI hp h
  exact ⟨.cEncode, rfl, show EntriesValid u from hs.of_writer hu.frame⟩

theorem cEncode_onCourse (hI : Inv s) (hp : s.phase = phaseCode .cEncode) (hs : EntriesValid s)
    (h : cEncode s = .ok t) : IsOnCourse s₀ t := by
  obtain ⟨u, -, hu, rfl⟩ := cEncode_next hI hp h
  have hvalid : EntriesValid u :=
    EntriesValid.of_writer (s := { s with port := s.port.drop (letterSize s) }) hs hu.frame
  by_cases hlast : s.i + 1 = s.n
  · exact ⟨.cRem, if_pos hlast, trivial⟩
  · exact ⟨.cEncode, (if_neg hlast).trans hp, hvalid⟩

/-! ## The whole operation -/

theorem phaseRule_onCourse (hI : Inv s) (hp : s.phase = phaseCode p) (hs : OnCourse s₀ p s)
    (h : phaseRule p s = .ok t) : IsOnCourse s₀ t := by
  cases p
  case cSetup => exact cSetup_onCourse hs h
  case cCount => exact cCount_onCourse hI hp hs h
  case cLeaves => exact cLeaves_onCourse hI hp hs h
  case cMerge => exact cMerge_onCourse hI hp hs h
  case cCodegen => exact cCodegen_onCourse hI hp hs h
  case cHdr => exact cHdr_onCourse hI hp hs h
  case cTreeWr => exact cTreeWr_onCourse hI hp hs h
  case cEncode => exact cEncode_onCourse hI hp hs h
  case cRem =>
    obtain ⟨u, -, rfl⟩ := cRem_next hI hp h
    exact ⟨.cPad, rfl, trivial⟩
  case cPad =>
    obtain ⟨u, -, rfl⟩ := finishOutput_next (hI.running hp (by decide)) h
    exact ⟨.done, rfl, trivial⟩
  case done | error => cases h; exact ⟨_, hp, hs⟩
  case idle | dSetup | dHdr | dTreeRd | dDecode | dRem | dFlush => exact hs.elim

/-- On course, a phase raises Io alone: C_SETUP's InvalidArgument and C_ENCODE's Internal are behind what it is entered
with. -/
theorem phaseRule_raises_io (hI : Inv s) (hp : s.phase = phaseCode p) (hs : OnCourse s₀ p s)
    (h : phaseRule p s = raise e u) (hkind : e ∈ phaseKinds p) : e = .io := by
  cases p
  case cSetup => exact cSetup_raises_io hs.2 h
  case cEncode =>
    have hpost := cEncode_raises_io hI hp hs
    rwa [show cEncode s = raise e u from h] at hpost
  case cCount | cHdr | cTreeWr | cRem | cPad => exact List.mem_singleton.1 hkind
  case cLeaves | cMerge | cCodegen | done | error => exact absurd hkind List.not_mem_nil
  case idle | dSetup | dHdr | dTreeRd | dDecode | dRem | dFlush => exact hs.elim

/-- A COMPRESS with no input to come that is on course. -/
structure StaysOnCourse (s₀ s : State) : Prop where
  inv : Inv s
  alone : s.inputs = []
  course : IsOnCourse s₀ s

theorem step_staysOnCourse (h : StaysOnCourse s₀ s) (ht : step s = .next t) : StaysOnCourse s₀ t := by
  obtain ⟨hI, halone, p, hp, hs⟩ := h
  obtain ⟨u, hu, hIu, hkept, hcases⟩ := exec_phase_cases hI hp
  rw [step_alone halone, hu] at ht
  cases ht
  refine ⟨hIu, hkept.inputs.trans halone, ?_⟩
  rcases hcases with hok | ⟨e, v, hraise, rfl, hraised⟩
  · exact phaseRule_onCourse hI hp hs hok
  · obtain rfl := phaseRule_raises_io hI hp hs hraise hraised.1
    exact ⟨.error, rfl, rfl⟩

/-- A COMPRESS that passes its first check ends in DONE or in Io. -/
theorem run_doneOrIo {k : Nat} (hI : Inv s) (hp : s.phase = phaseCode .cSetup) (halone : s.inputs = [])
    (hl : letterSizeOk s.lsize.toNat = true) (hrun : Sys2Proof.core.run k s = .next t)
    (hquiet : quiescent t.phase = true) : t.phase = 30 ∨ t.phase = 31 ∧ t.errCode = 3 := by
  obtain ⟨-, -, q, hq, hs⟩ : StaysOnCourse (compressInput s) t :=
    run_keeps (M := Sys2Proof.core) (fun _ _ => step_staysOnCourse) ⟨hI, halone, .cSetup, hp, rfl, hl⟩ hrun
  rw [hq] at hquiet ⊢
  cases q
  case done => exact .inl rfl
  case error => exact .inr ⟨rfl, hs⟩
  case idle => exact hs.elim
  all_goals exact absurd hquiet (by decide)

end Sys2Proof.Machine

open Sys2Proof Sys2Proof.Machine

/-- Settles O52: a check of C_SETUP that fails ends the run in its error (`run_raised`), and a run that passes the first
stays on course to DONE or Io (`run_doneOrIo`). -/
theorem compressOutcomes : Obligations.CompressOutcomes := by
  intro s t k hI hp halone hrun hquiet
  have hbusy : quiescent s.phase = false := by rw [hp]; rfl
  refine ⟨fun hl => ?_, fun hl hcap => ?_, fun hl => run_doneOrIo hI hp halone hl hrun hquiet⟩
  · rw [run_raised (p := .cSetup) halone hp hbusy (cSetup_badLetterSize hl) halone hrun hquiet]
    exact ⟨rfl, rfl⟩
  · rw [run_raised (p := .cSetup) halone hp hbusy (cSetup_beyondCapacity hl hcap) halone hrun hquiet]
    exact ⟨rfl, rfl⟩
end

section
/-! PROOF. Where a step can stop, and the errors a step records (60_exceptions.md R600, R606, R619): what the next move is, the access that is no hazard, and the kinds each phase may raise. -/

namespace Sys2Proof.Machine

variable {s t : State} {i : Instr} {p : Phase} {e : ErrorKind}

/-! ## The next move -/

/-- The instruction a step runs: the phase's rule or a command word, with the inputs it leaves. -/
theorem nextMove_run (h : nextMove s = (.run i, t)) :
    ∃ rest ⊆ s.inputs, t = { s with inputs := rest } ∧ (i = decodePhase s.phase ∨ ∃ w, i = decodeCommand w) := by
  rcases hin : s.inputs with _ | ⟨input, rest⟩
  · simp only [nextMove, hin] at h
    cases h
    exact ⟨[], List.Subset.refl _, by rw [← hin], .inl rfl⟩
  have tail : rest ⊆ input :: rest := List.subset_cons_self _ _
  cases input with
  | tick =>
    simp only [nextMove, hin] at h
    cases h
    exact ⟨rest, tail, rfl, .inl rfl⟩
  | wait =>
    simp only [nextMove, hin] at h
    split at h <;> cases h
    exact ⟨.wait :: rest, List.Subset.refl _, by rw [← hin], .inl rfl⟩
  | host access =>
    cases access with
    | write offset width value =>
      simp only [nextMove, hin] at h
      split at h <;> cases h
      exact ⟨rest, tail, rfl, .inr ⟨value, rfl⟩⟩
    | read | store | fetch | reset =>
      simp only [nextMove, hin] at h
      cases h

/-! ## Every move that is no hazard goes on -/

theorem exec_command_goesOn (w : Reg) (s : State) : ∃ t, exec (decodeCommand w) s = .next t := by
  cases hb : busy s with
  | true => exact ⟨s, exec_command_busy hb w⟩
  | false =>
    unfold decodeCommand
    split_ifs
    all_goals exact ⟨_, dispatchCommand_notBusy hb _⟩

theorem hostStore_goesOn {b : Buffer} {a : Nat} {bytes : List Byte} (hb : busy s = false)
    (h : a + bytes.length ≤ capacity b s) : ∃ t, hostStore b a bytes s = .next t := by
  cases b with
  | ibuf => exact ⟨_, hostStore_ibuf hb h⟩
  | obuf => exact ⟨_, hostStore_obuf hb h⟩

theorem hostFetch_goesOn {b : Buffer} {a n : Nat} (h : a + n ≤ capacity b s) : ∃ t, hostFetch b a n s = .next t := by
  unfold hostFetch
  rw [if_pos h]
  cases b with
  | ibuf => exact ⟨_, rfl⟩
  | obuf =>
    dsimp only
    split
    all_goals exact ⟨_, rfl⟩

/-- A host access with a defined effect is performed (20_memory.md R113 to R115; 70_reset_and_hazards.md R712, R713). -/
theorem hostAccess_goesOn {access : HostAccess} (h : hostHazard access s = false) :
    ∃ t, hostAccess access s = .next t := by
  cases access with
  | read offset width => exact ⟨_, if_pos (by simpa [hostHazard] using h)⟩
  | write offset width value => exact ⟨_, if_pos (by simpa [hostHazard] using h)⟩
  | store b a bytes =>
    simp only [hostHazard, Bool.or_eq_false_iff, decide_eq_false_iff_not, Nat.not_lt] at h
    exact hostStore_goesOn h.1 h.2
  | fetch b a n =>
    simp only [hostHazard, decide_eq_false_iff_not, Nat.not_lt] at h
    exact hostFetch_goesOn h
  | reset u => exact ⟨_, rfl⟩

/-- The rule of a phase never stops where the invariant holds. -/
theorem exec_phase_goesOn (h : Inv s) : ∃ t, exec (decodePhase s.phase) s = .next t := by
  obtain ⟨p, hp⟩ := phase_of_legal h.legal
  obtain ⟨t, ht, -⟩ := exec_phase_cases h hp
  exact ⟨t, ht⟩

/-! ## The kinds of error by phase -/

/-- The table of R600: each code of an operation's error with the code of a phase that raises it. -/
def errorTable : List (Nat × Nat) :=
  [(1, 1), (2, 17), (2, 18), (2, 19), (2, 20), (3, 1), (3, 2), (3, 6), (3, 7), (3, 8), (3, 9), (3, 10), (3, 16), (3, 17),
    (3, 18), (3, 19), (3, 20), (4, 8)]

theorem mem_errorTable (h : e ∈ phaseKinds p) : ((errorCode e).toNat, (phaseCode p).toNat) ∈ errorTable := by
  revert e
  cases p <;> decide

/-- A rule that goes on does not lead into ERROR: an error is raised. -/
theorem phaseRule_ok_notError (hI : Inv s) (hp : s.phase = phaseCode p) (hne : p ≠ .error)
    (h : phaseRule p s = .ok t) (hIt : Inv t) : t.phase ≠ phaseCode .error := by
  by_cases hquiet : p ∈ [.idle, .done, .error]
  · rw [phaseRule_quiet hquiet] at h
    cases h
    rw [hp]
    exact fun he => hne (phaseCode_injective he)
  · obtain ⟨q, hq, hne', -⟩ := phaseRule_bound hI hp hquiet h hIt
    rw [hq]
    exact fun he => hne' (phaseCode_injective he)

/-- A phase's step into ERROR is an error entry with a kind of that phase (R600, R601). -/
theorem exec_phase_error (hI : Inv s) (hp : s.phase = phaseCode p) (hne : p ≠ .error)
    (h : exec (decodePhase s.phase) s = .next t) (ht : t.phase = 31) :
    ∃ e ∈ phaseKinds p, ∃ u, t = takeError e p u := by
  obtain ⟨v, hv, hIv, -, hok | ⟨e, u, -, rfl, hraised⟩⟩ := exec_phase_cases hI hp
  · rw [hv] at h
    cases h
    exact absurd ht (phaseRule_ok_notError hI hp hne hok hIv)
  · rw [hv] at h
    cases h
    exact ⟨e, hraised.1, u, rfl⟩

theorem not_busy_of_error (h : s.phase = 31) : busy s = false := by
  rw [busy, h]
  rfl

/-- A command word that leaves the block in ERROR is illegal, and recorded so (R606). -/
theorem exec_command_error {w : Reg} (h : exec (decodeCommand w) s = .next t) (ht : t.phase = 31) :
    decodeCommand w = .illegalCommand w ∧ t.outLen = 0 ∧ t.errCode = 5 ∧ t.errPhase = 0 := by
  cases hb : busy s with
  | true =>
    rw [exec_command_busy hb] at h
    cases h
    exact absurd hb (Bool.eq_false_iff.1 (not_busy_of_error ht))
  | false =>
    have haccepted {accepted : State} (h : dispatchCommand accepted s = .next t) : accepted = t := by
      rw [dispatchCommand_notBusy hb] at h
      exact Host.Outcome.next.inj h
    by_cases h1 : w = 1
    · subst h1
      obtain rfl := haccepted (accepted := acceptCommand .cSetup s) h
      exact absurd ht (show phaseCode .cSetup ≠ 31 by decide)
    by_cases h2 : w = 2
    · subst h2
      obtain rfl := haccepted (accepted := acceptCommand .dSetup s) h
      exact absurd ht (show phaseCode .dSetup ≠ 31 by decide)
    rw [decodeCommand_illegal h1 h2] at h ⊢
    obtain rfl := haccepted (accepted := { acceptCommand .error s with errCode := errorCode .illegalCommand }) h
    exact ⟨rfl, rfl, rfl, rfl⟩

end Sys2Proof.Machine

open Sys2Proof Sys2Proof.Machine

/-- Settles O50: a phase's rule goes on by the invariant, a command word always, and an access unless it is a hazard. -/
theorem onlyHostHazardsStop : Obligations.OnlyHostHazardsStop := by
  intro s hI
  rw [StepGoesOn, step]
  rcases hmove : nextMove s with ⟨i | access, t⟩
  · obtain ⟨rest, hrest, rfl, rfl | ⟨w, rfl⟩⟩ := nextMove_run hmove
    · exact .inl (exec_phase_goesOn (hI.withInputs hrest))
    · exact .inl (exec_command_goesOn w _)
  · cases hhazard : hostHazard access t with
    | true => exact .inr ⟨access, t, rfl, hhazard⟩
    | false => exact .inl (hostAccess_goesOn hhazard)

/-- Settles O44: a phase raises its own kinds (`phaseKinds`), and a command word that leads into ERROR is illegal. -/
theorem errorKindsByPhase : Obligations.ErrorKindsByPhase := by
  intro s s' t i hI hmove hne hexec ht
  obtain ⟨rest, hrest, rfl, rfl | ⟨w, rfl⟩⟩ := nextMove_run hmove
  · obtain ⟨p, hp⟩ := phase_of_legal hI.legal
    have hnotError : p ≠ .error := by
      rintro rfl
      exact hne (by rw [hp]; rfl)
    obtain ⟨e, he, u, rfl⟩ := exec_phase_error (hI.withInputs hrest) hp hnotError hexec ht
    rw [hp]
    exact ⟨rfl, .inr ⟨rfl, mem_errorTable he⟩⟩
  · obtain ⟨hillegal, hout, hcode, hphase⟩ := exec_command_error hexec ht
    exact ⟨hout, .inl ⟨⟨w, hillegal⟩, hcode, hphase⟩⟩
end

section
/-! PROOF. The errors of the phases written out (60_exceptions.md R601 to R605, R608): what C_SETUP, C_HDR, C_ENCODE, D_HDR, D_TREE_RD and D_DECODE leave where they raise one. -/

namespace Sys2Proof.Machine

variable {s t : State}

/-! ## C_HDR -/

theorem headerBits_completed (h : s.wrCnt = 0) : bytesCompleted s (headerBits s).length = 9 := by
  rw [bytesCompleted, headerBits_length, h]

/-- The nine bytes of the header do not fit OBUF, so writing them raises Io with no byte stored beyond it (R604 (b)). -/
theorem headerBits_beyond (hw : Memory.wf s.obuf = true) (hpos : s.wrPos = 0) (hcnt : s.wrCnt = 0) (hcap : s.outCap < 9) :
    ∃ u, writeString (headerBits s) s = raise .io u ∧ u.wrPos.toNat ≤ s.outCap ∧
      ∀ a, s.outCap ≤ a → Memory.read u.obuf a = Memory.read s.obuf a := by
  have h0 : s.wrPos.toNat = 0 := by rw [hpos]; rfl
  have hok : WriterOk 7 s := ⟨by omega, hw, by omega⟩
  have hpost := post_and (writeString_post (bs := headerBits s) hok)
    (writeString_spec (bs := headerBits s) hok (.inl (by omega)))
  rcases hrun : writeString (headerBits s) s with (⟨e, u⟩ | r) | u
  · rw [hrun] at hpost
    obtain ⟨⟨rfl, hframe, -, -, hu⟩, hfail⟩ := hpost
    have hcap' : u.outCap = s.outCap := by rw [hframe]
    exact ⟨u, rfl, hcap' ▸ hu, fun a ha => hfail.outside a (.inr ha)⟩
  · rw [hrun] at hpost
    exact hpost.1.elim
  · rw [hrun] at hpost
    obtain ⟨-, happended, hle⟩ := hpost
    rw [happended.position, headerBits_completed hcnt] at hle
    omega

/-! ## D_HDR -/

/-- D_HDR where the letter size read is out of its domain, or the file size is cut (R603 (a), (b)). -/
theorem dHdr_bad (hp : portOk s = true) (hr : ReaderOk s) (hle : s.rdPos + 8 ≤ s.inBits)
    (h : letterSizeOk (val (inputSlice s s.rdPos 8)) = false ∨ s.inBits < s.rdPos + 72) :
    ∃ l, dHdr s = raise .corrupt { s with port := s.port.drop 8, rdPos := s.rdPos + 8, l := l } := by
  have hread := readOrCorrupt_ok hr hle hp
  cases hl : letterSizeOk (val (inputSlice s s.rdPos 8)) with
  | false =>
    refine ⟨s.l, ?_⟩
    rw [dHdr, hread, run_bind_ok]
    exact if_neg (Bool.eq_false_iff.1 hl)
  | true =>
    let s1 : State := { s with
      port := s.port.drop 8, rdPos := s.rdPos + 8, l := BitVec.ofNat 8 (val (inputSlice s s.rdPos 8)) }
    have hcut : readOrCorrupt 64 s1 = raise .corrupt s1 := readOrCorrupt_short (h.resolve_left (by simp [hl]))
    refine ⟨s1.l, ?_⟩
    rw [dHdr, hread, run_bind_ok]
    exact (if_pos hl).trans (congrArg (· >>= _) hcut)

/-! ## D_TREE_RD -/

/-- Where a call of ReadTree deep enough for the bits left raises, the token loop raises the same. -/
theorem readTree_raises {depth : Nat} {e : ErrorKind} (hd : s.inBits - s.rdPos + 1 ≤ depth)
    (h : readTreeCall depth s = raise e t) : ∃ u, readTree s = raise e u := by
  have hc : cleared (readTree s) = cleared (readTreeCall depth s >>= afterCall []) :=
    readTokens_eq_call (s.inBits - s.rdPos) s [] _ _ le_rfl le_rfl hd
  rw [h, raise, run_bind_error] at hc
  rcases hx : readTree s with (⟨e', u⟩ | r) | u
  · rw [hx] at hc
    simp only [cleared, Run.map2, Except.error.injEq, Stop.raise.injEq] at hc
    obtain ⟨rfl, -⟩ := hc
    exact ⟨u, rfl⟩
  · rw [hx] at hc; cases hc
  · rw [hx] at hc; cases hc

/-- The token loop on bits that end inside a tree (R603 (c)). -/
theorem readTree_short {tree : Tree} (hp : portOk s = true) (hr : ReaderOk s) (hl : letterSizeOk s.l.toNat = true)
    (hw : Table.wf NodeSlot.blank s.node = true) (hcap : s.nNodes + tree.size ≤ Config.treeNodeCap)
    (hletters : ∀ v ∈ tree.letters, v.toNat < 2 ^ s.l.toNat) (hser : bitsLeft s <+: tree.ser s.l.toNat)
    (hne : bitsLeft s ≠ tree.ser s.l.toNat) : ∃ u, readTree s = raise .corrupt u := by
  let depth := max tree.height (s.inBits - s.rdPos + 1)
  have hpost := readTreeCall_short hp hr hl hcap hletters hser hne (le_max_left _ _ : tree.height ≤ depth) hw
  rcases hcall : readTreeCall depth s with (⟨e, t⟩ | r) | t
  · rw [hcall] at hpost
    obtain rfl : e = .corrupt := hpost
    exact readTree_raises (le_max_right _ _) hcall
  · rw [hcall] at hpost; exact hpost.elim
  · rw [hcall] at hpost; exact hpost.elim

/-! ## D_DECODE -/

/-- D_DECODE where the bits left name no letter: all of them are read (R603 (e)). -/
theorem dDecode_short {r : Nat} {tree : Tree} (hp : portOk s = true) (hr : readerOk s = true) (hroot : s.root = some r)
    (htree : treeAt s r tree = true) (hd : tree.decodeOne (bitsLeft s) = none) :
    dDecode s = raise .corrupt { s with rdPos := s.inBits, port := s.port.drop (s.inBits - s.rdPos) } := by
  obtain ⟨hreader, hle⟩ := readerOk_iff.1 hr
  rw [dDecode, decodeLetter_short hp hreader hle hroot htree hd, readUpTo, bitsLeft_length]
  rfl

end Sys2Proof.Machine

open Sys2Proof Sys2Proof.Machine

/-- Settles O42: the header's nine bytes do not fit, and the error entry frees bytes below `wr_pos` alone. -/
theorem headerBeyondCapacityIsIo : Obligations.HeaderBeyondCapacityIsIo := by
  intro s _ hw hpos hcnt hcap
  obtain ⟨u, hu, hle, hout⟩ := headerBits_beyond hw hpos hcnt hcap
  have hrun : cHdr s = raise .io u := by rw [cHdr_eq, hu]; rfl
  exact ⟨_, congrArg (endStep .cHdr) hrun, rfl, rfl, rfl, rfl,
    fun a ha => (read_takeError .io .cHdr u (hle.trans ha)).trans (hout a ha)⟩

/-- Settles O26: the letter is read, and its entry is not valid. -/
theorem encodeWithoutCodeIsInternal : Obligations.EncodeWithoutCodeIsInternal := by
  intro s hp hl hread hinvalid
  exact congrArg (endStep .cEncode) ((cEncode_read hp hl hread).trans (if_neg (Bool.eq_false_iff.1 hinvalid)))

/-- Settles O30: the end of input is found before any access, and what was read of the header is released. -/
theorem badHeaderIsCorrupt : Obligations.BadHeaderIsCorrupt := by
  intro s hp hr
  refine ⟨fun hshort => ?_, fun hle hbad => ?_⟩
  · exact congrArg (endStep .dHdr) (congrArg (· >>= _) (readOrCorrupt_short hshort))
  · obtain ⟨l, hrun⟩ := dHdr_bad hp (readerOk_iff.1 hr).1 hle hbad
    exact congrArg (endStep .dHdr) hrun

/-- Settles O33: ReadTree raises at the cut (`readTreeCall_short`), and so does the token loop. -/
theorem truncatedTreeIsCorrupt : Obligations.TruncatedTreeIsCorrupt := by
  intro s tree hp hr hl hw hcap hletters hnonempty hser hne
  have hmore : s.rdPos ≠ s.inBits := fun h => hnonempty (List.length_eq_zero_iff.1 (by rw [bitsLeft_length]; omega))
  obtain ⟨u, hu⟩ := readTree_short hp (readerOk_iff.1 hr).1 hl hw hcap hletters hser hne
  exact ⟨_, congrArg (endStep .dTreeRd) ((dTreeRd_reads hmore).trans (congrArg (· >>= _) hu)), rfl, rfl, rfl, rfl⟩

/-- Settles O38: the walk reads every bit left and finds no leaf (`decodeLetter_short`). -/
theorem truncatedBodyIsCorrupt : Obligations.TruncatedBodyIsCorrupt := by
  intro s r tree hp hr hroot htree hd
  exact congrArg (endStep .dDecode) (dDecode_short hp hr hroot htree hd)

/-- Settles O6: the three phases have no rule. -/
theorem quiescentPhasesKeepAllState : Obligations.QuiescentPhasesKeepAllState := fun _ => ⟨rfl, rfl, rfl⟩

/-- Settles O14: the letter size is checked before IN_LEN, and neither check touches a buffer or the port. -/
theorem compressSetupRejects : Obligations.CompressSetupRejects := by
  intro s
  refine ⟨fun hbad => ?_, fun hmin hmax hcap => ?_⟩
  · exact congrArg (endStep .cSetup) (cSetup_badLetterSize (letterSizeOk_false_iff.2 hbad))
  · exact congrArg (endStep .cSetup) (cSetup_beyondCapacity (letterSizeOk_iff.2 ⟨hmin, hmax⟩) hcap)
end

section
/-! PROOF. A fault of the memory port (20_memory.md R103, 60_exceptions.md R604 (c)): the one a step uses up is its last answer and raises Io in the step's phase, and what each phase leaves where its first access meets one. -/

namespace Sys2Proof.Machine

variable {s t : State} {answers : List PortAnswer}

/-! ## Every instruction -/

/-- The answers a step of phase `p` used up end in a fault, and the step takes Io in that phase. -/
def FaultTaken (p : Phase) (s t : State) : Prop :=
  (∃ oks, s.port = oks ++ .fault :: t.port ∧ ∀ a ∈ oks, a = PortAnswer.ok) ∧ ∃ u, t = takeError .io p u

theorem phase_answers (p : Phase) (h : exec (decodePhase (phaseCode p)) s = .next t) :
    PortUsed s t ∨ FaultTaken p s t := by
  rw [exec_phase] at h
  have hasks := phaseRule_asks p s
  rcases endStep_next h with hok | ⟨e, u, hraise, rfl⟩
  · rw [hok] at hasks
    exact .inl hasks
  · rw [hraise] at hasks
    obtain hused | ⟨rfl, hfault⟩ := (hasks : PortRaised s e u)
    · exact .inl hused
    · exact .inr ⟨hfault, u, rfl⟩

/-- A tree token is Corrupt or goes on, and asks nothing of the port. -/
theorem token_answers {f : Nat × State → Run State}
    (hf : ∀ r, Run.post (fun u => u.port = r.2.port) (fun _ _ => False) (fun _ => True) (f r))
    (h : endStep .dTreeRd (allocNode s >>= f) = .next t) : PortUsed s t := by
  have hport : Run.post (fun u => u.port = s.port) (fun _ u => u.port = s.port) (fun _ => True)
      (allocNode s >>= f) := by
    rw [post_bind]
    refine post_mono (allocNode_frame s) ?_ ?_ (fun _ h => h.elim)
    · rintro _ ⟨rfl, -⟩
      exact post_mono (hf _) (fun _ h => h) (fun _ _ h => h.elim) (fun _ => id)
    · rintro e u ⟨-, rfl, -⟩
      rfl
  rcases endStep_next h with hok | ⟨e, u, hraise, rfl⟩
  · rw [hok] at hport
    exact .of_port hport
  · rw [hraise] at hport
    exact .of_port hport

theorem placeLeaf_port (k : Nat) (v : BitVec 16) (s : State) :
    Run.post (fun t => t.port = s.port) (fun _ _ => False) (fun _ => True) (placeLeaf k v s) := by
  rw [placeLeaf, post_bind]
  refine post_mono (setNode_frame _ _ s) (fun t ht => ?_) (fun _ _ h => h) (fun _ _ => trivial)
  refine post_mono (deliver_frame k t.pending t) (fun u hu => ?_) (fun _ _ h => h) (fun _ _ => trivial)
  rw [hu, ht]

theorem dispatchCommand_answers {accepted : State} (h : dispatchCommand accepted s = .next t)
    (hport : accepted.port = s.port) : PortUsed s t := by
  unfold dispatchCommand at h
  split at h <;> cases h
  · exact .refl _
  · exact .of_port hport

/-- What a step does with the port's answers: each it uses up is ok, or the last is a fault and the step a phase's. -/
theorem exec_answers {i : Instr} (h : exec i s = .next t) :
    PortUsed s t ∨ ∃ p, i = decodePhase (phaseCode p) ∧ FaultTaken p s t := by
  have phase (p : Phase) (hi : i = decodePhase (phaseCode p)) :
      PortUsed s t ∨ ∃ p, i = decodePhase (phaseCode p) ∧ FaultTaken p s t :=
    (phase_answers p (hi ▸ h)).imp_right fun hfault => ⟨p, hi, hfault⟩
  cases i with
  | compress | decompress | illegalCommand => exact .inl (dispatchCommand_answers h rfl)
  | treeLeaf v => exact .inl (token_answers (fun r => placeLeaf_port r.1 v r.2) h)
  | treeJoint => exact .inl (token_answers (f := fun r => .ok (pushJoint r.1 r.2)) (fun _ => rfl) h)
  | phaseIdle => exact phase .idle rfl
  | phaseCSetup => exact phase .cSetup rfl
  | phaseCCount => exact phase .cCount rfl
  | phaseCLeaves => exact phase .cLeaves rfl
  | phaseCMerge => exact phase .cMerge rfl
  | phaseCCodegen => exact phase .cCodegen rfl
  | phaseCHdr => exact phase .cHdr rfl
  | phaseCTreeWr => exact phase .cTreeWr rfl
  | phaseCEncode => exact phase .cEncode rfl
  | phaseCRem => exact phase .cRem rfl
  | phaseCPad => exact phase .cPad rfl
  | phaseDSetup => exact phase .dSetup rfl
  | phaseDHdr => exact phase .dHdr rfl
  | phaseDTreeRd => exact phase .dTreeRd rfl
  | phaseDDecode => exact phase .dDecode rfl
  | phaseDRem => exact phase .dRem rfl
  | phaseDFlush => exact phase .dFlush rfl
  | phaseDone => exact phase .done rfl
  | phaseError => exact phase .error rfl
  | phaseReserved => cases h

/-! ## The first access of a phase -/

section
variable (hport : s.port = .fault :: answers)
include hport

theorem inputLetter_fault (hl : letterSizeOk s.l.toNat = true) (hread : readable s (s.i * s.l.toNat) s.l.toNat = true) :
    inputLetter s.i s = raise .io { s with port := answers } := by
  have hpos : 0 < s.l.toNat := Nat.zero_lt_of_lt (letterSizeOk_iff.1 hl).1
  exact inputBits_fault hport hread hpos

theorem cCount_fault (hl : letterSizeOk s.l.toNat = true) (hread : readable s (s.i * s.l.toNat) s.l.toNat = true) :
    cCount s = raise .io { s with port := answers } :=
  congrArg (· >>= _) (inputLetter_fault hport hl hread)

theorem cEncode_letter_fault (hl : letterSizeOk s.l.toNat = true)
    (hread : readable s (s.i * s.l.toNat) s.l.toNat = true) : cEncode s = raise .io { s with port := answers } :=
  congrArg (· >>= _) (inputLetter_fault hport hl hread)

theorem cRem_fault (h0 : 0 < s.remBits) (hread : readable s s.usableBits s.remBits = true) :
    cRem s = raise .io { s with port := answers } := by
  rw [cRem_eq, if_pos h0, copyRemainder, inputBits_fault hport hread h0]
  rfl

theorem dHdr_fault (hr : readerOk s = true) (hle : s.rdPos + 8 ≤ s.inBits) :
    dHdr s = raise .io { s with port := answers } :=
  congrArg (· >>= _) (readOrCorrupt_fault hport hr hle (by decide))

/-- The token's node is allocated before its flag bit is read (R298). -/
theorem readToken_fault (hr : readerOk s = true) (hlt : s.rdPos < s.inBits) (hn : s.nNodes < Config.treeNodeCap) :
    readToken s = raise .io { s with nNodes := s.nNodes + 1, port := answers } := by
  have hflag : readOrCorrupt 1 { s with nNodes := s.nNodes + 1 } =
      raise .io { s with nNodes := s.nNodes + 1, port := answers } :=
    readOrCorrupt_fault (s := { s with nNodes := s.nNodes + 1 }) hport hr hlt (by decide)
  rw [readToken, allocNode_ok hn, run_bind_ok]
  exact congrArg (· >>= _) hflag

theorem dTreeRd_fault (hr : readerOk s = true) (hlt : s.rdPos < s.inBits) (hn : s.nNodes < Config.treeNodeCap) :
    dTreeRd s = raise .io { s with pending := [], nNodes := s.nNodes + 1, port := answers } := by
  have htoken := readToken_fault (s := { s with pending := [] }) hport hr hlt hn
  rw [dTreeRd_reads hlt.ne, readTree, readTokens, htoken]
  rfl

/-- The first bit of a code, at the root, a Leaf or a Joint (R370). -/
theorem decodeLetter_fault {r : Nat} (hr : readerOk s = true) (hlt : s.rdPos < s.inBits) (hroot : s.root = some r)
    (hcap : r < Config.treeNodeCap) : decodeLetter s = raise .io { s with port := answers } := by
  have hbit := readOrCorrupt_fault (w := 1) hport hr hlt (by decide)
  rw [decodeLetter, rootNode_some hroot, run_bind_ok, nodeAt_ok hcap, run_bind_ok]
  cases hkind : (slotOf s r).kind with
  | leaf => exact congrArg (· >>= _) hbit
  | joint =>
    dsimp only
    rw [treeWalk, nodeAt_ok hcap, run_bind_ok, hkind]
    exact congrArg (· >>= _) hbit

theorem dRem_fault (hr : readerOk s = true) (h0 : 0 < s.remBits) (hle : s.rdPos + s.remBits ≤ s.inBits) :
    dRem s = raise .io { s with port := answers } := by
  rw [dRem_eq, if_pos h0, readRemainder, readOrCorrupt_fault hport hr hle h0]
  rfl

/-- Nine bytes are to be written, and the first of them meets the fault. -/
theorem cHdr_fault (hcnt : s.wrCnt < 8) (hroom : s.wrPos.toNat < s.outCap) :
    ∃ t, cHdr s = raise .io t ∧ t = { s with port := answers, wrAcc := t.wrAcc, wrCnt := t.wrCnt } := by
  obtain ⟨t, ht, hrest⟩ := writeString_fault (bs := headerBits s) hport hcnt (by rw [headerBits_length]; omega) hroom
  exact ⟨t, by rw [cHdr_eq, ht]; rfl, hrest⟩

theorem finishOutput_fault (h0 : 0 < s.wrCnt) (hcnt : s.wrCnt < 8) (hroom : s.wrPos.toNat < s.outCap) :
    ∃ t, finishOutput s = raise .io t ∧ t = { s with port := answers, wrAcc := t.wrAcc, wrCnt := t.wrCnt } := by
  obtain ⟨t, ht, hrest⟩ := flush_fault hport h0 hcnt hroom
  exact ⟨t, by rw [finishOutput, ht]; rfl, hrest⟩

end

/-- C_ENCODE where the letter is read and the first byte its code completes meets the fault. -/
theorem cEncode_write_fault (hport : s.port = List.replicate s.l.toNat .ok ++ .fault :: answers)
    (hl : letterSizeOk s.l.toNat = true) (hread : readable s (s.i * s.l.toNat) s.l.toNat = true)
    (hvalid : (codeOf s (letterOf s s.i)).valid = true) (hcnt : s.wrCnt < 8)
    (hbyte : 8 ≤ s.wrCnt + (codeOf s (letterOf s s.i)).bits.length) (hroom : s.wrPos.toNat < s.outCap) :
    ∃ t, cEncode s = raise .io t ∧ t = { s with port := answers, wrAcc := t.wrAcc, wrCnt := t.wrCnt } := by
  let s1 : State := { s with port := .fault :: answers }
  have hletter : inputLetter s.i s = .ok (letterOf s s.i, s1) := inputBits_answered hread hport
  have hv : letterOf s s.i < Config.letterCap := lt_of_lt_of_le (letterOf_lt s s.i) (two_pow_le_letterCap hl)
  obtain ⟨t, ht, hrest⟩ := writeString_fault (bs := (codeOf s (letterOf s s.i)).bits) (s := s1) rfl hcnt hbyte hroom
  refine ⟨t, ?_, hrest⟩
  rw [cEncode, hletter, run_bind_ok]
  dsimp only
  rw [letterIndex_ok hv, run_bind_ok]
  exact (if_pos hvalid).trans (congrArg (· >>= _) ht)

end Sys2Proof.Machine

open Sys2Proof Sys2Proof.Machine

/-- Settles O43: the answers used up are those of `exec_answers`, and each first access raises Io where it stands. The
registers of the writer, the stack and the count of nodes that a raise leaves are released by the error entry. -/
theorem portFaultIsIo : Obligations.PortFaultIsIo := by
  refine ⟨fun i s t used h hused hfault => ?_, fun s answers hport => ?_, ?_⟩
  · obtain ⟨oks, hoks, hall⟩ | ⟨p, hi, ⟨oks, hoks, hall⟩, u, rfl⟩ := exec_answers h
    · obtain rfl : used = oks := List.append_cancel_right (hused.symm.trans hoks)
      exact absurd (hall _ hfault) (by decide)
    · rw [hused, List.append_cons] at hoks
      exact ⟨p, oks, hi, List.append_cancel_right hoks, hall, rfl, rfl, rfl, rfl⟩
  · refine ⟨fun hl hread => ?_, fun h0 hread => ?_,
      fun hr => ⟨fun hle => ?_, fun hlt hn => ?_, fun r hlt hroot hcap => ?_, fun h0 hle => ?_⟩,
      fun hcnt hroom => ⟨?_, fun h0 => ?_⟩⟩
    · exact ⟨congrArg (endStep .cCount) (cCount_fault hport hl hread),
        congrArg (endStep .cEncode) (cEncode_letter_fault hport hl hread)⟩
    · exact congrArg (endStep .cRem) (cRem_fault hport h0 hread)
    · exact congrArg (endStep .dHdr) (dHdr_fault hport hr hle)
    · exact congrArg (endStep .dTreeRd) (dTreeRd_fault hport hr hlt hn)
    · exact congrArg (endStep .dDecode) (congrArg (· >>= _) (decodeLetter_fault hport hr hlt hroot hcap))
    · exact congrArg (endStep .dRem) (dRem_fault hport hr h0 hle)
    · obtain ⟨t, ht, hrest⟩ := cHdr_fault hport hcnt hroom
      rw [hrest] at ht
      exact congrArg (endStep .cHdr) ht
    · obtain ⟨t, ht, hrest⟩ := finishOutput_fault hport h0 hcnt hroom
      rw [hrest] at ht
      exact congrArg (endStep .cPad) ht
  · intro s answers hport hl hread hvalid hcnt hbyte hroom
    obtain ⟨t, ht, hrest⟩ := cEncode_write_fault hport hl hread hvalid hcnt hbyte hroom
    rw [hrest] at ht
    exact congrArg (endStep .cEncode) ht
end

section
/-! PROOF. The bound of 70_reset_and_hazards.md R721: from no phase does an operation take more than 2^68 steps, since fewer than 2^64 bytes hold at most 2^66 letters. -/

namespace Sys2Proof.Machine

/-- Where the sizes are known, `n` bounds the loops over the letters, and the extent of NODE bounds ACTIVE (10_state.md R61,
R62). -/
theorem phaseBound_le {s : State} (h : Inv s) {p : Phase} (hp : s.phase = phaseCode p) : phaseBound p s ≤ 2 ^ 68 := by
  by_cases hsized : p ∈ sizedPhases
  · have hn := n_bound (h.sized (inPhase_of _ _ hp hsized))
    cases p
    case cMerge =>
      obtain ⟨-, -, -, hcount, -, -⟩ := h.merging (inPhase_of _ _ hp)
      have hcap : 2 * Config.letterCap = 131072 := rfl
      simp only [phaseBound]
      omega
    all_goals simp only [phaseBound]; omega
  · cases p
    case idle | done | error => exact Nat.zero_le _
    case cSetup | dSetup => exact le_rfl
    case dHdr => exact Nat.pow_le_pow_right (by decide) (by decide)
    all_goals exact absurd (by decide) hsized

end Sys2Proof.Machine

open Sys2Proof Sys2Proof.Machine

/-- Settles O51: a run ends within the bound of its phase (`run_ends`), and no phase's bound is above 2^68. -/
theorem everyOperationEnds : Obligations.EveryOperationEnds := by
  intro s hI halone
  obtain ⟨p, hp⟩ := phase_of_legal hI.legal
  obtain ⟨k, hk, hend⟩ := run_ends hI halone hp
  exact ⟨k, hk.trans (phaseBound_le hI hp), hend⟩
end

section
/-! PROOF. Reset (70_reset_and_hazards.md R700, R701), and the host's buffer accesses while BUSY = 1 (R712, R713). -/

namespace Sys2Proof.Machine

variable {s : State} {b : Buffer} {a n : Nat} {bytes : List Byte}

/-- Empty tables and buffers are in canonical form. -/
theorem tablesOk_zero : TablesOk Unspecified.zero.freq Unspecified.zero.node Unspecified.zero.active
    Unspecified.zero.code Unspecified.zero.ibuf Unspecified.zero.obuf where
  freqForm := rfl
  freqExtent := rfl
  nodeForm := rfl
  nodeExtent := rfl
  activeForm := .nil
  codeForm := rfl
  codeExtent := rfl
  ibufForm := rfl
  obufForm := rfl

/-- In IDLE the block makes no step (60_exceptions.md R618). -/
theorem exec_idle (h : s.phase = 0) : exec (decodePhase s.phase) s = .next s := by
  rw [h]
  rfl

theorem hostStore_ibuf_busy (hb : busy s = true) : hostStore .ibuf a bytes s = .fault .ibufWriteWhileBusy := if_pos hb

theorem hostStore_obuf_busy (hb : busy s = true) : hostStore .obuf a bytes s = .fault .obufWriteWhileBusy := if_pos hb

/-- While BUSY = 1 a fetch inside either buffer returns free bytes: of OBUF by R713, of IBUF at any time (log 20). -/
theorem hostFetch_busy (hb : busy s = true) (h : a + n ≤ capacity b s) :
    hostFetch b a n s = .next (fetchFree b a n s) := by
  cases b with
  | ibuf => exact hostFetch_ibuf h
  | obuf => rw [hostFetch, if_pos h]; exact if_pos hb

end Sys2Proof.Machine

open Sys2Proof Sys2Proof.Machine

/-- Settles O1: the step performs the reset, and each register, table and buffer of its state is read off `hostReset`. -/
theorem resetGivesStatedValues : Obligations.ResetGivesStatedValues := by
  intro s u rest h
  refine ⟨hostReset u { s with inputs := rest }, step_access h (by simp), rfl, rfl, rfl, rfl, rfl, rfl,
    statusReg_idle rfl, ?_⟩
  and_intros
  on_goal -1 => exact exec_idle rfl
  all_goals rfl

/-- Settles O12: BUSY does not depend on the inputs to come, so each access is performed as in a busy state. -/
theorem busyBufferAccesses : Obligations.BusyBufferAccesses := by
  intro s a n bytes rest hb
  have hb' : busy { s with inputs := rest } = true := hb
  refine ⟨fun h => ?_, fun h => ?_, fun b h hin => ?_⟩
  · rw [step_access h (by simp)]
    exact hostStore_ibuf_busy hb'
  · rw [step_access h (by simp)]
    exact hostStore_obuf_busy hb'
  · refine ⟨freeBytes s.draws n, freeBytes_length _ _, ?_⟩
    rw [step_access h (by simp)]
    exact hostFetch_busy hb' (by cases b <;> exact hin)

/-- Settles O48: reset leaves IDLE, with its error fields and OUT_LEN 0, and every table and buffer empty. -/
theorem invariantHoldsAtReset : Obligations.InvariantHoldsAtReset :=
  Inv.ofQuiet (p := .idle) rfl (by decide) tablesOk_zero (fun _ hu => absurd hu List.not_mem_nil) (fun _ => ⟨rfl, rfl⟩)
    (fun he => absurd he (by decide)) (fun _ => rfl)
end
